-- ==== Sys2Proof/Word.lean ====
section
/-! DEFINITION. The word types of the block: the bus moves 32-bit words (spec/00_scope.md R8, spec/20_memory.md R69), the RAMs hold bytes
(spec/10_state.md R39), and an address is a 16-bit byte offset from BASE_ADDR (spec/20_memory.md R60). All values are unsigned (R10). -/

namespace Sys2Proof

/-- A RAM byte, a codeword, a polynomial coefficient, a field element. -/
abbrev Byte := BitVec 8

/-- A register, a command word, a bus data word. -/
abbrev Word := BitVec 32

/-- A byte offset from BASE_ADDR. -/
abbrev Offset := BitVec 16

end Sys2Proof
end

