-- ==== Sys2Proof/Syntax.lean ====
section
/-! DEFINITION. The command set: one constructor per row of spec/opcode_table.json, in the table's order (spec/30_encoding.md R94).
A command word has no operand fields (R90, R92), so no constructor has an argument: every operand is in a register or a RAM that the
command's rule names (R93). -/

namespace Sys2Proof

/-- The 21 commands of spec/30_encoding.md R94. -/
inductive Instr where
  /-- NOP, 0x00, R220. -/
  | nop
  /-- SOFT_RESET, 0x01, R221. -/
  | softReset
  /-- GF_EXP, 0x10, R115. -/
  | gfExp
  /-- GF_LOG, 0x11, R116. -/
  | gfLog
  /-- GF_MUL, 0x12, R117. -/
  | gfMul
  /-- GF_INV, 0x13, R118. -/
  | gfInv
  /-- POLY_MUL, 0x18, R120. -/
  | polyMul
  /-- POLY_MOD, 0x19, R121. -/
  | polyMod
  /-- RS_GENPOLY, 0x1A, R122. -/
  | rsGenpoly
  /-- TABLE_LOOKUP, 0x20, R141. -/
  | tableLookup
  /-- ASSEMBLE, 0x21, R142. -/
  | assemble
  /-- BCH_FORMAT, 0x30, R193. -/
  | bchFormat
  /-- BCH_VERSION, 0x31, R195. -/
  | bchVersion
  /-- MATRIX_INIT, 0x40, R181. -/
  | matrixInit
  /-- MATRIX_PLACE, 0x41, R188. -/
  | matrixPlace
  /-- MASK_SCORE, 0x42, R171. -/
  | maskScore
  /-- MASK_SELECT, 0x43, R172. -/
  | maskSelect
  /-- MASK_FORCE, 0x44, R173. -/
  | maskForce
  /-- WRITE_META, 0x45, R196. -/
  | writeMeta
  /-- FINALIZE, 0x46, R200. -/
  | finalize
  /-- ENCODE, 0x50, R222. -/
  | encode
deriving DecidableEq, Repr

/-- Why a command word is ILLEGAL (spec/30_encoding.md R91, R95). -/
inductive Illegal where
  /-- bits 31:8 (RSV) are not all 0. -/
  | reservedBitsSet
  /-- RSV is 0 and OPC is none of the 21 opcodes of R94. -/
  | reservedOpcode
deriving DecidableEq, Repr

end Sys2Proof
end

