-- ==== Sys2Proof/Decode.lean ====
section
/-! DEFINITION. Decoding and encoding of command words (spec/30_encoding.md R90, R91, R94). The decoder is total on every 32-bit word and
rejects an ILLEGAL word by name; the encoder is written from the same opcode map. -/

namespace Sys2Proof

/-- OPC, bits 7:0 of a command word (spec/30_encoding.md R90). -/
def opcField (w : Word) : BitVec 8 := w.extractLsb' 0 8

/-- RSV, bits 31:8 of a command word, reserved (spec/30_encoding.md R90). -/
def rsvField (w : Word) : BitVec 24 := w.extractLsb' 8 24

/-- The opcode of each command, row by row from spec/30_encoding.md R94. -/
def opcode : Instr → BitVec 8
  | .nop => 0x00
  | .softReset => 0x01
  | .gfExp => 0x10
  | .gfLog => 0x11
  | .gfMul => 0x12
  | .gfInv => 0x13
  | .polyMul => 0x18
  | .polyMod => 0x19
  | .rsGenpoly => 0x1A
  | .tableLookup => 0x20
  | .assemble => 0x21
  | .bchFormat => 0x30
  | .bchVersion => 0x31
  | .matrixInit => 0x40
  | .matrixPlace => 0x41
  | .maskScore => 0x42
  | .maskSelect => 0x43
  | .maskForce => 0x44
  | .writeMeta => 0x45
  | .finalize => 0x46
  | .encode => 0x50

/-- The command of an opcode; every other value of OPC is reserved (spec/30_encoding.md R94). -/
def ofOpcode (opc : BitVec 8) : Option Instr :=
  match opc.toNat with
  | 0x00 => some .nop
  | 0x01 => some .softReset
  | 0x10 => some .gfExp
  | 0x11 => some .gfLog
  | 0x12 => some .gfMul
  | 0x13 => some .gfInv
  | 0x18 => some .polyMul
  | 0x19 => some .polyMod
  | 0x1A => some .rsGenpoly
  | 0x20 => some .tableLookup
  | 0x21 => some .assemble
  | 0x30 => some .bchFormat
  | 0x31 => some .bchVersion
  | 0x40 => some .matrixInit
  | 0x41 => some .matrixPlace
  | 0x42 => some .maskScore
  | 0x43 => some .maskSelect
  | 0x44 => some .maskForce
  | 0x45 => some .writeMeta
  | 0x46 => some .finalize
  | 0x50 => some .encode
  | _ => none

/-- The decoder of spec/30_encoding.md R91, total on every word: an ILLEGAL word is rejected by name. It depends on the word alone (R96). -/
def decode (w : Word) : Except Illegal Instr :=
  if rsvField w ≠ 0 then .error .reservedBitsSet
  else match ofOpcode (opcField w) with
    | some i => .ok i
    | none => .error .reservedOpcode

/-- The encoder: RSV = 0 above the opcode (spec/30_encoding.md R90). -/
def encode (i : Instr) : Word := (0#24 ++ opcode i : BitVec 32)

/-- The command word whose `nbits` table bits are `w`, every bit above them 0. A command word is written to CMD whole, in one bus access, so
no byte order enters (spec/20_memory.md R67, R69). -/
def tableWord (nbits w : Nat) : Word := BitVec.ofNat 32 (w % 2 ^ nbits)

/-- The instruction the decoder reads from an instruction whose bits are `w`, numbered as spec/opcode_table.json numbers them. -/
def decodeTableWord (nbits w : Nat) : Option Instr := (decode (tableWord nbits w)).toOption

end Sys2Proof
end

