-- ==== Sys2Proof/Config.lean ====
section
/-! DEFINITION. What the spec leaves to a parameter (spec/00_scope.md R9) and the free values. A free value is a constant with no body:
nothing in Lean can say what it is, so a theorem holds whatever it is. -/

namespace Sys2Proof

/-- MASK_AXES (spec/00_scope.md R9, spec/42_mask.md R161): which coordinate the mask formulas call `x`. -/
inductive MaskAxes where
  /-- x = column, y = row: the source's words and the spec's default. -/
  | doc
  /-- x = row, y = column. -/
  | iso
deriving DecidableEq, Repr

/-- UNWRITTEN_READ (spec/00_scope.md R9, spec/70_reset_and_hazards.md R272): what a read of a RAM byte not written since reset gives. -/
inductive UnwrittenRead where
  /-- A value chosen once at reset and kept until the byte is written: the spec's default. -/
  | draw
  /-- A violation of the host's contract: the model stops with a fault. -/
  | fault
deriving DecidableEq, Repr

/-- The parameters the spec's model takes as arguments. They stand in the state, where no step changes them (log 9). -/
structure Params where
  maskAxes : MaskAxes
  unwrittenRead : UnwrittenRead
deriving DecidableEq, Repr

/-- The spec's defaults (spec/00_scope.md R9): MASK_AXES = DOC, UNWRITTEN_READ = DRAW. -/
def Params.default : Params := { maskAxes := .doc, unwrittenRead := .draw }

/-- FREE VALUE (log 3). The byte that the RAM byte at a window offset holds after the hardware reset number `epoch`, until it is written:
"an arbitrary value in 0..255, chosen once and kept until the byte is written" (spec/70_reset_and_hazards.md R272). -/
opaque Config.ramDraw (epoch offset : Nat) : Byte

/-- FREE VALUE (log 4). The bits that the `n`-th read of a location in a running command's write set gives (spec/20_memory.md R71: "a
fresh draw, not necessarily equal between two reads"). -/
opaque Config.busyDraw (n : Nat) : Word

/-- BASE_ADDR, OPEN (spec/00_scope.md R9, spec/92_eei_decisions.md D33): where the platform places offset 0. No rule depends on it, and
the block's bus carries offsets (spec/20_memory.md R60). Log 12. -/
opaque Config.baseAddr : Nat

/-- The platform address of an offset of the register map (spec/10_state.md R21: "at byte offsets from `BASE_ADDR`"). -/
def Config.platformAddress (o : Offset) : Nat := Config.baseAddr + o.toNat

end Sys2Proof
end

