-- ==== Sys2Proof/Machine/Port.lean ====
section
/-! DEFINITION. The bus port (spec/20_memory.md R60) and the events of the world outside the engine, in the order they happen. -/

namespace Sys2Proof.Machine

/-- The request fields of the slave bus (spec/20_memory.md R60). -/
structure Request where
  /-- 1 = write -/
  write : Bool
  /-- byte address relative to BASE_ADDR -/
  addr : Offset
  /-- access size in bytes -/
  size : BitVec 3
  wdata : Word
deriving DecidableEq, Repr

/-- The response fields of the slave bus (spec/20_memory.md R60, R62): a read answers rdata and err, a write answers err. -/
inductive Response where
  | read (rdata : Word) (err : Bool)
  | write (err : Bool)
deriving DecidableEq, Repr

/-- What happens next around the block. Events are totally ordered (spec/60_exceptions.md R252, spec/20_memory.md R74); a list of them in
the state says which agent moves at each step (log 1). -/
inductive Event where
  /-- The host issues one bus request. -/
  | host (q : Request)
  /-- The engine gets its turn: it completes the pending command, if there is one (spec/60_exceptions.md R246). -/
  | engine
  /-- The reset input takes this level (spec/70_reset_and_hazards.md R273). -/
  | rst (level : Bool)
deriving DecidableEq, Repr

end Sys2Proof.Machine
end

