-- ==== Sys2Proof/Machine/State.lean ====
section
/-! DEFINITION. The state of the block: every register of the register map by its fields (spec/10_state.md R21 to R38), the five byte RAMs
(R39), the three matrix planes (R40), PENDING (R42), the reset input, the parameters, and the model's own fields; the faults and refusals;
the state after reset (spec/70_reset_and_hazards.md R270). -/

namespace Sys2Proof.Machine

/-- The matrix builder state, STATUS.BSTATE (spec/10_state.md R37). Values 6 and 7 are never held. -/
inductive BState where
  | empty
  | functionPatternsPlaced
  | dataPlaced
  | masked
  | metadataWritten
  | final
deriving DecidableEq, Repr

/-- The fields of STATUS (spec/10_state.md R24). -/
structure Status where
  busy : Bool
  done : Bool
  err : Bool
  ovr : Bool
  cwValid : Bool
  bstate : BState
  errcode : BitVec 4
  lastop : BitVec 8
deriving DecidableEq, Repr

/-- VERSION and ECL, the fields of CONFIG (spec/10_state.md R25) and of CW_CFG (R32). -/
structure VersionLevel where
  version : BitVec 6
  ecl : BitVec 2
deriving DecidableEq, Repr

/-- The fields of IRQ_EN (spec/10_state.md R27). -/
structure IrqEnable where
  doneIe : Bool
  errIe : Bool
  ovrIe : Bool
deriving DecidableEq, Repr

/-- The registers a host write stores to (spec/10_state.md R25 to R28, R30). RS_GENPOLY also writes PLEN_B. -/
structure HostRegs where
  config : VersionLevel
  dataLen : BitVec 12
  irqEn : IrqEnable
  arg0 : Word
  arg1 : Word
  plenA : BitVec 9
  plenB : BitVec 9
  pshift : BitVec 9
deriving DecidableEq, Repr

/-- The fields of MTX_CFG (spec/10_state.md R33). -/
structure MatrixConfig where
  version : BitVec 6
  ecl : BitVec 2
  side : BitVec 8
deriving DecidableEq, Repr

/-- The fields of MASK (spec/10_state.md R35). -/
structure MaskReg where
  applied : BitVec 3
  appliedValid : Bool
  best : BitVec 3
  scored : Bool
deriving DecidableEq, Repr

/-- The fields of TBL_G1 and TBL_G2 (spec/10_state.md R36). -/
structure BlockGroupReg where
  count : BitVec 8
  total : BitVec 8
  data : BitVec 8
deriving DecidableEq, Repr

/-- The fields of TBL_GEOM (spec/10_state.md R36). -/
structure GeometryReg where
  side : BitVec 8
  nalign : BitVec 4
  rembits : BitVec 4
deriving DecidableEq, Repr

/-- The table-lookup registers (spec/10_state.md R36). -/
structure TableRegs where
  total : BitVec 12
  data : BitVec 12
  ec : BitVec 8
  g1 : BlockGroupReg
  g2 : BlockGroupReg
  geom : GeometryReg
deriving DecidableEq, Repr

/-- PEN_P1[m], PEN_P2[m], PEN_P3[m] and PEN_DARK[m] of one mask m (spec/10_state.md R38). -/
structure PenaltyRegs where
  p1 : Word
  p2 : Word
  p3 : Word
  dark : Word
deriving DecidableEq, Repr

/-- The registers only the engine writes, but for STATUS (spec/10_state.md R29, R31 to R36, R38). -/
structure EngineRegs where
  result : Word
  plenR : BitVec 10
  cwLen : BitVec 12
  cwCfg : VersionLevel
  mtxCfg : MatrixConfig
  formatInfo : BitVec 15
  versionInfo : BitVec 18
  mask : MaskReg
  tbl : TableRegs
  pen : Vector PenaltyRegs 8
deriving DecidableEq, Repr

/-- One bit plane, 256 rows of 256 bits; bit c of row r is cell [r][c] (spec/10_state.md R40). -/
abbrev Plane := Vector (BitVec 256) 256

/-- The three planes DARKP, ASGN and FUNC (spec/10_state.md R40). -/
structure Planes where
  darkp : Plane
  asgn : Plane
  func : Plane
deriving DecidableEq, Repr

/-- The contents of the five byte RAMs (spec/10_state.md R39), keyed by the offset of the byte in its bus window (spec/20_memory.md R63):
the bytes written since hardware reset, addresses strictly rising. A byte that is not listed has not been written (log 3). -/
abbrev Memory := List Host.Cell

/-- The state of the machine. -/
structure State where
  /-- STATUS, R24 -/
  status : Status
  /-- CONFIG, DATA_LEN, IRQ_EN, ARG0, ARG1, PLEN_A, PLEN_B, PSHIFT -/
  host : HostRegs
  /-- RESULT, PLEN_R, CW_LEN, CW_CFG, MTX_CFG, FORMAT_INFO, VERSION_INFO, MASK, TBL_*, PEN_* -/
  engine : EngineRegs
  /-- DATA, CW, PA, PB, PR, R39 -/
  ram : Memory
  /-- DARKP, ASGN, FUNC, R40 -/
  planes : Planes
  /-- PENDING, R42 -/
  pending : Option Word
  /-- the level of the reset input, R273 -/
  rst : Bool
  /-- MASK_AXES and UNWRITTEN_READ, R9; no step changes them (log 9) -/
  params : Params
  /-- the events still to come, first one first: the model's own (log 1) -/
  inbox : List Event
  /-- the response to the last bus request, R60: the model's own holding of it (log 10) -/
  resp : Option Response
  /-- the number of hardware resets, the index of the RAM's free values: the model's own (log 3) -/
  ramEpoch : Nat
  /-- the number of draws of R71 so far: the model's own (log 4) -/
  draws : Nat
deriving DecidableEq, Repr

/-- Why the machine stops: the two contract violations of spec/93_implementation_defined.md with the treatment `fault`. -/
inductive Fault where
  /-- Raised by a host read or a command that reads the RAM byte at this offset, not written since reset, when UNWRITTEN_READ = FAULT
  (spec/70_reset_and_hazards.md R272, U2: "The model marks the run as undefined from that point"). Safe: the model stops where the spec
  says the run is undefined. -/
  | unwrittenRead (offset : Nat)
  /-- Raised by a bus request while rst = 1 (spec/70_reset_and_hazards.md R273, U7: "the platform must not issue one"). Safe: the model
  stops where the platform's contract is broken. -/
  | busRequestInReset
deriving DecidableEq, Repr

/-- Why an instruction has no meaning in the model. -/
inductive Refusal where
  /-- Answered by `exec` for an instruction that has no meaning yet. No arm of this model answers it. Safe: nothing is claimed of it. -/
  | notModelled (mnemonic : String)
deriving DecidableEq, Repr

/-- The errors a command can complete with (spec/60_exceptions.md R240). -/
inductive Err where
  | illegalCommand
  | sequenceError
  | invalidVersion
  | invalidMaskPattern
  | dataOverflow
  | domainError
  | invalidArgument
  | incompleteMatrix
deriving DecidableEq, Repr

/-- How a command's work can end before its writes: with an error it raises, or with a contract violation that stops the model. -/
inductive Stop where
  | err (e : Err)
  | fault (f : Fault)
deriving DecidableEq, Repr

/-- A plane with every bit 0. -/
def Plane.zero : Plane := Vector.replicate 256 0#256

/-- The planes with every bit 0. -/
def Planes.zero : Planes := { darkp := Plane.zero, asgn := Plane.zero, func := Plane.zero }

/-- MASK with every field 0. -/
def MaskReg.zero : MaskReg := { applied := 0, appliedValid := false, best := 0, scored := false }

/-- PEN_* with every register 0. -/
def penZero : Vector PenaltyRegs 8 := Vector.replicate 8 { p1 := 0, p2 := 0, p3 := 0, dark := 0 }

/-- The engine's registers at their reset values, all 0 (spec/10_state.md R21). -/
def EngineRegs.zero : EngineRegs :=
  { result := 0, plenR := 0, cwLen := 0, cwCfg := { version := 0, ecl := 0 }
    mtxCfg := { version := 0, ecl := 0, side := 0 }
    formatInfo := 0, versionInfo := 0, mask := MaskReg.zero
    tbl := { total := 0, data := 0, ec := 0, g1 := { count := 0, total := 0, data := 0 }
             g2 := { count := 0, total := 0, data := 0 }, geom := { side := 0, nalign := 0, rembits := 0 } }
    pen := penZero }

/-- The host-written registers at their reset values: CONFIG is version 1, level L; the others are 0 (spec/10_state.md R21, R25). -/
def HostRegs.reset : HostRegs :=
  { config := { version := 1, ecl := 0b01 }, dataLen := 0
    irqEn := { doneIe := false, errIe := false, ovrIe := false }
    arg0 := 0, arg1 := 0, plenA := 0, plenB := 0, pshift := 0 }

/-- STATUS at its reset value 0x0000_0000 (spec/10_state.md R24). -/
def Status.reset : Status :=
  { busy := false, done := false, err := false, ovr := false, cwValid := false, bstate := .empty, errcode := 0, lastop := 0 }

/-- The machine right after reset (spec/70_reset_and_hazards.md R270): no RAM byte written, every plane bit 0, PENDING empty. The
parameters have the spec's defaults (log 9). The model's own fields are empty or 0 (DESIGN CHOICE, logs 1, 3, 4, 10). -/
def State.reset : State :=
  { status := Status.reset, host := HostRegs.reset, engine := EngineRegs.zero, ram := [], planes := Planes.zero
    pending := none, rst := false, params := Params.default, inbox := [], resp := none, ramEpoch := 0, draws := 0 }

end Sys2Proof.Machine
end

