-- ==== Sys2Proof/Machine/Flags.lean ====
section
/-! DEFINITION. The STATUS register (spec/10_state.md R24): its word, the bits that acceptance, completion and a host write change
(spec/60_exceptions.md R245, R246, spec/10_state.md R24), the error codes (R240), and the interrupt output (R250). -/

namespace Sys2Proof.Machine

/-- The 3-bit code of BSTATE (spec/10_state.md R37). -/
def BState.code : BState → BitVec 3
  | .empty => 0
  | .functionPatternsPlaced => 1
  | .dataPlaced => 2
  | .masked => 3
  | .metadataWritten => 4
  | .final => 5

/-- ERRCODE of an error (spec/60_exceptions.md R240). -/
def Err.code : Err → BitVec 4
  | .illegalCommand => 1
  | .sequenceError => 3
  | .invalidVersion => 4
  | .invalidMaskPattern => 5
  | .dataOverflow => 6
  | .domainError => 7
  | .invalidArgument => 8
  | .incompleteMatrix => 9

/-- One bit as a 1-bit field. -/
abbrev bit (b : Bool) : BitVec 1 := BitVec.ofBool b

/-- The word a read of STATUS gives: the fields of spec/10_state.md R24 from bit 31 down, reserved bits 0. -/
def statusWord (t : Status) : Word :=
  (0#8 ++ t.lastop ++ t.errcode ++ 0#1 ++ t.bstate.code ++ bit t.cwValid ++ 0#3
    ++ bit t.ovr ++ bit t.err ++ bit t.done ++ bit t.busy : BitVec 32)

/-- STATUS at the acceptance of command word `w` (spec/60_exceptions.md R245): BUSY set, DONE, ERR and ERRCODE cleared, LASTOP the opcode
field; OVR, CW_VALID and BSTATE as they were. -/
def Status.accepted (t : Status) (w : Word) : Status :=
  { t with busy := true, done := false, err := false, errcode := 0, lastop := w.extractLsb' 0 8 }

/-- STATUS at a completion without error (spec/60_exceptions.md R246). -/
def Status.completed (t : Status) : Status := { t with done := true, busy := false }

/-- STATUS at a completion with error `e` (spec/60_exceptions.md R246). -/
def Status.failed (t : Status) (e : Err) : Status := { t with err := true, errcode := e.code, busy := false }

/-- STATUS after a host write of `w` to it: DONE, ERR and OVR are cleared where w has a 1, and nothing else changes (spec/10_state.md R24). -/
def Status.cleared (t : Status) (w : Word) : Status :=
  { t with done := t.done && !w.getLsbD 1, err := t.err && !w.getLsbD 2, ovr := t.ovr && !w.getLsbD 3 }

/-- STATUS after a host write was refused because BUSY was 1 (spec/20_memory.md R70). -/
def Status.overrun (t : Status) : Status := { t with ovr := true }

/-- The interrupt output, a level (spec/60_exceptions.md R250). -/
def State.irq (s : State) : Bool :=
  (s.status.done && s.host.irqEn.doneIe) || (s.status.err && s.host.irqEn.errIe) || (s.status.ovr && s.host.irqEn.ovrIe)

end Sys2Proof.Machine
end

