-- ==== Sys2Proof/Machine/Ops.lean ====
section
/-! DEFINITION. The shared operations: the byte RAMs, the planes, and the life cycle of a command: its acceptance, its completion, and its
completion with an error, which is this block's form of an exception (spec/60_exceptions.md R240 to R249). -/

namespace Sys2Proof.Machine

/-! ## The byte RAMs (spec/10_state.md R39) -/

/-- The five byte RAMs. -/
inductive Ram where
  | data
  | cw
  | pa
  | pb
  | pr
deriving DecidableEq, Repr

/-- The base offset of a RAM's window (spec/20_memory.md R63). -/
def Ram.base : Ram → Nat
  | .data => 0x1000
  | .cw => 0x2000
  | .pa => 0x3000
  | .pb => 0x3400
  | .pr => 0x3800

/-- The number of entries of a RAM (spec/10_state.md R39). -/
def Ram.size : Ram → Nat
  | .data => 4096
  | .cw => 4096
  | .pa => 256
  | .pb => 256
  | .pr => 512

/-- Whether the host may write the window (spec/20_memory.md R63). -/
def Ram.hostWritable : Ram → Bool
  | .data => true
  | .cw => false
  | .pa => true
  | .pb => true
  | .pr => false

/-- The five RAMs, in address order. -/
def allRams : List Ram := [.data, .cw, .pa, .pb, .pr]

/-- Whether offset `a` lies in the window of RAM `r`. -/
def Ram.holds (r : Ram) (a : Nat) : Bool := decide (r.base ≤ a) && decide (a < r.base + r.size)

/-- Whether offset `a` is a byte of a RAM. -/
def isRamOffset (a : Nat) : Bool := allRams.any fun r => r.holds a

/-- The byte at `a`, if it has been written since reset. -/
def Memory.read (m : Memory) (a : Nat) : Option Byte :=
  match m with
  | [] => none
  | (k, v) :: rest => if k = a then some v else Memory.read rest a

/-- Write `b` at `a`, keeping the addresses strictly rising. -/
def Memory.write (m : Memory) (a : Nat) (b : Byte) : Memory :=
  match m with
  | [] => [(a, b)]
  | (k, v) :: rest =>
    if a < k then (a, b) :: (k, v) :: rest
    else if a = k then (a, b) :: rest
    else (k, v) :: Memory.write rest a b

/-- Write the bytes `bs` at `a`, `a + 1`, … -/
def Memory.writeAll (m : Memory) (a : Nat) (bs : List Byte) : Memory :=
  match bs with
  | [] => m
  | b :: rest => Memory.writeAll (m.write a b) (a + 1) rest

/-- The canonical form: addresses strictly rising, each of them a byte of a RAM. An unlisted address reads as "not written", which no entry
is, so equal contents are equal lists. -/
abbrev Memory.wf (m : Memory) : Prop :=
  m.Pairwise (fun x y => x.1 < y.1) ∧ m.all (fun x => isRamOffset x.1) = true

/-- RAM byte `k` of `r`, as the host or a command reads it. A byte not written since reset gives the free value of spec/70_reset_and_hazards.md
R272 (UNWRITTEN_READ = DRAW) or stops the model (UNWRITTEN_READ = FAULT). -/
def State.ramByte (s : State) (r : Ram) (k : Nat) : Except Fault Byte :=
  match Memory.read s.ram (r.base + k) with
  | some b => .ok b
  | none => match s.params.unwrittenRead with
    | .draw => .ok (Config.ramDraw s.ramEpoch (r.base + k))
    | .fault => .error (.unwrittenRead (r.base + k))

/-- The RAM bytes k, k + 1, …, k + n − 1 of `r`. -/
def State.ramBytes (s : State) (r : Ram) (k : Nat) : Nat → Except Fault (List Byte)
  | 0 => .ok []
  | n + 1 => match s.ramByte r k with
    | .error f => .error f
    | .ok b => match State.ramBytes s r (k + 1) n with
      | .error f => .error f
      | .ok bs => .ok (b :: bs)

/-- Write `bs` to entries 0, 1, … of RAM `r`; every other entry keeps its value (spec/10_state.md R39). -/
def State.writeRam (s : State) (r : Ram) (bs : List Byte) : State := { s with ram := s.ram.writeAll r.base bs }

/-! ## The matrix planes (spec/10_state.md R40) -/

/-- Bit [r][c] of a plane. -/
def Plane.get (p : Plane) (r c : Nat) : Bool := if h : r < 256 then p[r].getLsbD c else false

/-- Row `w` with bit `c` set to `b`. -/
def rowSet (w : BitVec 256) (c : Nat) (b : Bool) : BitVec 256 :=
  if b then w ||| BitVec.twoPow 256 c else w &&& ~~~ BitVec.twoPow 256 c

/-- The plane with bit [r][c] set to `b`. -/
def Plane.set (p : Plane) (r c : Nat) (b : Bool) : Plane := if h : r < 256 then Vector.set p r (rowSet p[r] c b) else p

/-- The row whose bit c is `g c` for c < n and 0 for every other c. -/
def rowOf (g : Nat → Bool) : Nat → BitVec 256
  | 0 => 0
  | n + 1 => if g n then rowOf g n ||| BitVec.twoPow 256 n else rowOf g n

/-- The plane whose bit [r][c] is `g r c`. -/
def Plane.tabulate (g : Nat → Nat → Bool) : Plane := Vector.ofFn fun r => rowOf (g r) 256

/-- `setf(r, c, d)` (spec/43_matrix.md R181): DARKP ← d, ASGN ← 1, FUNC ← 1. -/
def Planes.setf (p : Planes) (r c : Nat) (d : Bool) : Planes :=
  { darkp := p.darkp.set r c d, asgn := p.asgn.set r c true, func := p.func.set r c true }

/-- Reserve a cell (spec/43_matrix.md R185): FUNC ← 1, with ASGN and DARKP as they are. -/
def Planes.reserve (p : Planes) (r c : Nat) : Planes := { p with func := p.func.set r c true }

/-- Place a data bit (spec/43_matrix.md R188): DARKP ← d, ASGN ← 1. -/
def Planes.place (p : Planes) (r c : Nat) (d : Bool) : Planes :=
  { p with darkp := p.darkp.set r c d, asgn := p.asgn.set r c true }

/-! ## The life cycle of a command (spec/60_exceptions.md R245, R246) -/

/-- Acceptance of command word `w` (spec/60_exceptions.md R245, the branch with BUSY = 0). -/
def State.accept (s : State) (w : Word) : State := { s with pending := some w, status := s.status.accepted w }

/-- Completion without error (spec/60_exceptions.md R246): DONE ← 1, BUSY ← 0, PENDING empty. -/
def State.complete (s : State) : State := { s with pending := none, status := s.status.completed }

/-- TAKING AN EXCEPTION: completion with error `e` (spec/60_exceptions.md R240, R241, R246): ERR ← 1, ERRCODE ← the error's code, BUSY ← 0,
PENDING empty, and nothing of the command's write set changes. No mode, mask or program counter exists to save (R249); LASTOP was recorded at
acceptance (R245). -/
def State.raise (s : State) (e : Err) : State := { s with pending := none, status := s.status.failed e }

/-- THE RETURN FROM ONE: there is no return instruction and nothing to restore; the host clears DONE, ERR or OVR with a STATUS write
(spec/60_exceptions.md R251, spec/10_state.md R24), or issues the next command. -/
def State.acknowledge (s : State) (w : Word) : State := { s with status := s.status.cleared w }

/-- Run a command: its body ends with the state it leaves, or stops before its first write (spec/60_exceptions.md R241, R246). -/
def runCommand (body : State → Except Stop State) (s : State) : Host.Outcome State Fault Refusal :=
  match body s with
  | .ok t => .next t.complete
  | .error (.err e) => .next (s.raise e)
  | .error (.fault f) => .fault f

/-- A RAM read inside a command: a contract violation stops the model. -/
def liftFault {α : Type} (x : Except Fault α) : Except Stop α :=
  match x with
  | .ok a => .ok a
  | .error f => .error (.fault f)

end Sys2Proof.Machine
end

