-- ==== Sys2Proof/Machine/Galois.lean ====
section
/-! DEFINITION. GF(256) and polynomials over it (spec/40_gf_poly.md R110 to R114, R119 to R122), on lists of coefficients, highest degree
first (spec/00_scope.md R12). -/

namespace Sys2Proof.Machine

/-- One doubling with reduction by 0x11D (spec/10_state.md R44: "v <- v << 1; if v[8] = 1: v <- v ⊕ 0x11D"), kept to 8 bits. -/
def doubleStep (v : Byte) : Byte := if v.getLsbD 7 then (v <<< 1) ^^^ 0x1D else v <<< 1

/-- `n` doublings of `v`, each one listed: v, 2·v, 4·v, … -/
def doublings : Nat → Byte → List Byte
  | 0, _ => []
  | n + 1, v => v :: doublings n (doubleStep v)

/-- EXP, 255 entries, by the construction of spec/10_state.md R44. -/
def expTable : List Byte := doublings 255 1

/-- `gexp(i)` = EXP[i mod 255] (spec/40_gf_poly.md R110). -/
def gexp (i : Nat) : Byte := expTable.getD (i % 255) 0

/-- `glog(x)` = LOG[x]: the index of x in EXP (spec/10_state.md R44, spec/40_gf_poly.md R111). It is used only for x ≠ 0. -/
def glog (x : Byte) : Nat := expTable.idxOf x

/-- `gmul(a, b)` (spec/40_gf_poly.md R112). -/
def gmul (a b : Byte) : Byte := if a = 0 ∨ b = 0 then 0 else gexp ((glog a + glog b) % 255)

/-- `ginv(a)`, for a ≠ 0 (spec/40_gf_poly.md R113). -/
def ginv (a : Byte) : Byte := gexp ((255 - glog a) % 255)

/-- XOR the terms of `p` into the leading terms of the accumulator (field addition is ⊕, spec/40_gf_poly.md R114). -/
def xorInto : List Byte → List Byte → List Byte
  | [], acc => acc
  | _ :: _, [] => []
  | p :: ps, a :: as => (p ^^^ a) :: xorInto ps as

/-- Every coefficient times `f`. -/
def scale (f : Byte) (p : List Byte) : List Byte := p.map (gmul f)

/-- The product of two polynomials, untrimmed: |a| + |b| − 1 terms (spec/40_gf_poly.md R120). The term `x` of `a` adds x·b at its own place. -/
def polyMul : List Byte → List Byte → List Byte
  | [], b => List.replicate (b.length - 1) 0
  | x :: a, b => xorInto (scale x b) (0 :: polyMul a b)

/-- `n` steps of the long division (spec/40_gf_poly.md R121): each one eliminates the leading term R[k] with the factor R[k]·inv, where `inv`
is the inverse of the divisor's leading coefficient, and drops the term, now 0. -/
def eliminate (inv : Byte) (b : List Byte) : Nat → List Byte → List Byte
  | 0, r => r
  | _ + 1, [] => []
  | n + 1, x :: r => eliminate inv b n (xorInto (scale (gmul x inv) b) (x :: r)).tail

/-- Right-align to `n` terms, missing high terms 0; of a longer list the last n terms (spec/40_gf_poly.md R121). -/
def rightAlign (n : Nat) (r : List Byte) : List Byte := List.replicate (n - r.length) 0 ++ r.drop (r.length - n)

/-- The remainder of `a` divided by `b`, right-aligned to |b| − 1 terms (spec/40_gf_poly.md R121), for a divisor whose leading coefficient is
not 0: |a| − |b| + 1 elimination steps, none when |a| < |b|. -/
def polyRem (a b : List Byte) : List Byte :=
  rightAlign (b.length - 1) (eliminate (ginv (b.headD 0)) b (a.length + 1 - b.length) a)

/-- The generator polynomial of degree n: the product of [1, gexp(i)] for i in 0..n−1 (spec/40_gf_poly.md R122). -/
def genPoly : Nat → List Byte
  | 0 => [1]
  | i + 1 => polyMul (genPoly i) [1, gexp i]

/-- A·x^n: n zero low-order terms appended (spec/40_gf_poly.md R119). -/
def shiftPoly (a : List Byte) (n : Nat) : List Byte := a ++ List.replicate n 0

end Sys2Proof.Machine
end

