-- ==== Sys2Proof/Machine/Tables.lean ====
section
/-! DEFINITION. The read-only tables (spec/10_state.md R43 to R51): RS_BLOCKS, the level codes, ALIGN_POS, the BCH constants and the
per-version quantities. EXP and LOG stand in Machine/Galois.lean. -/

namespace Sys2Proof.Machine

/-- The error-correction levels (spec/10_state.md R48). -/
inductive Level where
  | l
  | m
  | q
  | h
deriving DecidableEq, Repr

/-- The level of a 2-bit code: L = 01, M = 00, Q = 11, H = 10 (spec/10_state.md R48). All four codes name a level. -/
def levelOf (ecl : BitVec 2) : Level :=
  match ecl.toNat with
  | 0 => .m
  | 1 => .l
  | 2 => .h
  | _ => .q

/-- The 2-bit code of a level (spec/10_state.md R48). -/
def levelCode : Level → BitVec 2
  | .l => 0b01
  | .m => 0b00
  | .q => 0b11
  | .h => 0b10

/-- A block group `k×(t,d)`: k blocks of t total codewords, d of them data (spec/10_state.md R47). -/
structure BlockGroup where
  count : Nat
  total : Nat
  data : Nat
deriving DecidableEq, Repr

/-- One row of the table of spec/10_state.md R47: the groups of the four levels of one version. -/
structure RsRow where
  l : List BlockGroup
  m : List BlockGroup
  q : List BlockGroup
  h : List BlockGroup
deriving DecidableEq, Repr

/-- A level with one block group. -/
def one (k t d : Nat) : List BlockGroup := [⟨k, t, d⟩]

/-- A level with two block groups, the second one's blocks one codeword longer in t and in d (spec/10_state.md R47). -/
def two (k t d k' t' d' : Nat) : List BlockGroup := [⟨k, t, d⟩, ⟨k', t', d'⟩]

/-- RS_BLOCKS, versions 1 to 5 (spec/10_state.md R47). -/
def rsRows1 : List RsRow :=
  [⟨one 1 26 19, one 1 26 16, one 1 26 13, one 1 26 9⟩,
   ⟨one 1 44 34, one 1 44 28, one 1 44 22, one 1 44 16⟩,
   ⟨one 1 70 55, one 1 70 44, one 2 35 17, one 2 35 13⟩,
   ⟨one 1 100 80, one 2 50 32, one 2 50 24, one 4 25 9⟩,
   ⟨one 1 134 108, one 2 67 43, two 2 33 15 2 34 16, two 2 33 11 2 34 12⟩]

/-- RS_BLOCKS, versions 6 to 10 (spec/10_state.md R47). -/
def rsRows2 : List RsRow :=
  [⟨one 2 86 68, one 4 43 27, one 4 43 19, one 4 43 15⟩,
   ⟨one 2 98 78, one 4 49 31, two 2 32 14 4 33 15, two 4 39 13 1 40 14⟩,
   ⟨one 2 121 97, two 2 60 38 2 61 39, two 4 40 18 2 41 19, two 4 40 14 2 41 15⟩,
   ⟨one 2 146 116, two 3 58 36 2 59 37, two 4 36 16 4 37 17, two 4 36 12 4 37 13⟩,
   ⟨two 2 86 68 2 87 69, two 4 69 43 1 70 44, two 6 43 19 2 44 20, two 6 43 15 2 44 16⟩]

/-- RS_BLOCKS, versions 11 to 15 (spec/10_state.md R47). -/
def rsRows3 : List RsRow :=
  [⟨one 4 101 81, two 1 80 50 4 81 51, two 4 50 22 4 51 23, two 3 36 12 8 37 13⟩,
   ⟨two 2 116 92 2 117 93, two 6 58 36 2 59 37, two 4 46 20 6 47 21, two 7 42 14 4 43 15⟩,
   ⟨one 4 133 107, two 8 59 37 1 60 38, two 8 44 20 4 45 21, two 12 33 11 4 34 12⟩,
   ⟨two 3 145 115 1 146 116, two 4 64 40 5 65 41, two 11 36 16 5 37 17, two 11 36 12 5 37 13⟩,
   ⟨two 5 109 87 1 110 88, two 5 65 41 5 66 42, two 5 54 24 7 55 25, two 11 36 12 7 37 13⟩]

/-- RS_BLOCKS, versions 16 to 20 (spec/10_state.md R47). -/
def rsRows4 : List RsRow :=
  [⟨two 5 122 98 1 123 99, two 7 73 45 3 74 46, two 15 43 19 2 44 20, two 3 45 15 13 46 16⟩,
   ⟨two 1 135 107 5 136 108, two 10 74 46 1 75 47, two 1 50 22 15 51 23, two 2 42 14 17 43 15⟩,
   ⟨two 5 150 120 1 151 121, two 9 69 43 4 70 44, two 17 50 22 1 51 23, two 2 42 14 19 43 15⟩,
   ⟨two 3 141 113 4 142 114, two 3 70 44 11 71 45, two 17 47 21 4 48 22, two 9 39 13 16 40 14⟩,
   ⟨two 3 135 107 5 136 108, two 3 67 41 13 68 42, two 15 54 24 5 55 25, two 15 43 15 10 44 16⟩]

/-- RS_BLOCKS, versions 21 to 25 (spec/10_state.md R47). -/
def rsRows5 : List RsRow :=
  [⟨two 4 144 116 4 145 117, one 17 68 42, two 17 50 22 6 51 23, two 19 46 16 6 47 17⟩,
   ⟨two 2 139 111 7 140 112, one 17 74 46, two 7 54 24 16 55 25, one 34 37 13⟩,
   ⟨two 4 151 121 5 152 122, two 4 75 47 14 76 48, two 11 54 24 14 55 25, two 16 45 15 14 46 16⟩,
   ⟨two 6 147 117 4 148 118, two 6 73 45 14 74 46, two 11 54 24 16 55 25, two 30 46 16 2 47 17⟩,
   ⟨two 8 132 106 4 133 107, two 8 75 47 13 76 48, two 7 54 24 22 55 25, two 22 45 15 13 46 16⟩]

/-- RS_BLOCKS, versions 26 to 30 (spec/10_state.md R47). -/
def rsRows6 : List RsRow :=
  [⟨two 10 142 114 2 143 115, two 19 74 46 4 75 47, two 28 50 22 6 51 23, two 33 46 16 4 47 17⟩,
   ⟨two 8 152 122 4 153 123, two 22 73 45 3 74 46, two 8 53 23 26 54 24, two 12 45 15 28 46 16⟩,
   ⟨two 3 147 117 10 148 118, two 3 73 45 23 74 46, two 4 54 24 31 55 25, two 11 45 15 31 46 16⟩,
   ⟨two 7 146 116 7 147 117, two 21 73 45 7 74 46, two 1 53 23 37 54 24, two 19 45 15 26 46 16⟩,
   ⟨two 5 145 115 10 146 116, two 19 75 47 10 76 48, two 15 54 24 25 55 25, two 23 45 15 25 46 16⟩]

/-- RS_BLOCKS, versions 31 to 35 (spec/10_state.md R47). -/
def rsRows7 : List RsRow :=
  [⟨two 13 145 115 3 146 116, two 2 74 46 29 75 47, two 42 54 24 1 55 25, two 23 45 15 28 46 16⟩,
   ⟨one 17 145 115, two 10 74 46 23 75 47, two 10 54 24 35 55 25, two 19 45 15 35 46 16⟩,
   ⟨two 17 145 115 1 146 116, two 14 74 46 21 75 47, two 29 54 24 19 55 25, two 11 45 15 46 46 16⟩,
   ⟨two 13 145 115 6 146 116, two 14 74 46 23 75 47, two 44 54 24 7 55 25, two 59 46 16 1 47 17⟩,
   ⟨two 12 151 121 7 152 122, two 12 75 47 26 76 48, two 39 54 24 14 55 25, two 22 45 15 41 46 16⟩]

/-- RS_BLOCKS, versions 36 to 40 (spec/10_state.md R47). -/
def rsRows8 : List RsRow :=
  [⟨two 6 151 121 14 152 122, two 6 75 47 34 76 48, two 46 54 24 10 55 25, two 2 45 15 64 46 16⟩,
   ⟨two 17 152 122 4 153 123, two 29 74 46 14 75 47, two 49 54 24 10 55 25, two 24 45 15 46 46 16⟩,
   ⟨two 4 152 122 18 153 123, two 13 74 46 32 75 47, two 48 54 24 14 55 25, two 42 45 15 32 46 16⟩,
   ⟨two 20 147 117 4 148 118, two 40 75 47 7 76 48, two 43 54 24 22 55 25, two 10 45 15 67 46 16⟩,
   ⟨two 19 148 118 6 149 119, two 18 75 47 31 76 48, two 34 54 24 34 55 25, two 20 45 15 61 46 16⟩]

/-- RS_BLOCKS, versions 1 to 40 in order (spec/10_state.md R47). -/
def rsTable : List RsRow := rsRows1 ++ rsRows2 ++ rsRows3 ++ rsRows4 ++ rsRows5 ++ rsRows6 ++ rsRows7 ++ rsRows8

/-- One level's column of a row. -/
def RsRow.level (row : RsRow) : Level → List BlockGroup
  | .l => row.l
  | .m => row.m
  | .q => row.q
  | .h => row.h

/-- RS_BLOCKS[v][e], for v in 1..40; no group for any other v (spec/10_state.md R47). -/
def rsBlocks (v : Nat) (e : Level) : List BlockGroup :=
  match v with
  | 0 => []
  | k + 1 => match rsTable[k]? with
    | some row => row.level e
    | none => []

/-- The block list of a version and level: its groups expanded in table order (spec/41_rs_codewords.md R140). -/
def blockList (v : Nat) (e : Level) : List BlockGroup :=
  (rsBlocks v e).flatMap fun g => List.replicate g.count g

/-- D(v,e), the data capacity: the sum of d over the blocks (spec/41_rs_codewords.md R140). -/
def dataCount (v : Nat) (e : Level) : Nat := ((blockList v e).map (·.data)).sum

/-- C(v): the sum of t over the blocks of any level (spec/10_state.md R51). -/
def totalCount (v : Nat) (e : Level) : Nat := ((blockList v e).map (·.total)).sum

/-- n_ec(v,e) = t − d of any block of the level (spec/10_state.md R51). -/
def ecCount (v : Nat) (e : Level) : Nat :=
  match rsBlocks v e with
  | g :: _ => g.total - g.data
  | [] => 0

/-- N(v) = 17 + 4·v (spec/10_state.md R51). -/
def side (v : Nat) : Nat := 17 + 4 * v

/-- ALIGN_POS, versions 1 to 10 (spec/10_state.md R49). -/
def alignRows1 : List (List Nat) :=
  [[],
   [6, 18],
   [6, 22],
   [6, 26],
   [6, 30],
   [6, 34],
   [6, 22, 38],
   [6, 24, 42],
   [6, 26, 46],
   [6, 28, 50]]

/-- ALIGN_POS, versions 11 to 20 (spec/10_state.md R49). -/
def alignRows2 : List (List Nat) :=
  [[6, 30, 54],
   [6, 32, 58],
   [6, 34, 62],
   [6, 26, 46, 66],
   [6, 26, 48, 70],
   [6, 26, 50, 74],
   [6, 30, 54, 78],
   [6, 30, 56, 82],
   [6, 30, 58, 86],
   [6, 34, 62, 90]]

/-- ALIGN_POS, versions 21 to 30 (spec/10_state.md R49). -/
def alignRows3 : List (List Nat) :=
  [[6, 28, 50, 72, 94],
   [6, 26, 50, 74, 98],
   [6, 30, 54, 78, 102],
   [6, 28, 54, 80, 106],
   [6, 32, 58, 84, 110],
   [6, 30, 58, 86, 114],
   [6, 34, 62, 90, 118],
   [6, 26, 50, 74, 98, 122],
   [6, 30, 54, 78, 102, 126],
   [6, 26, 52, 78, 104, 130]]

/-- ALIGN_POS, versions 31 to 40 (spec/10_state.md R49). -/
def alignRows4 : List (List Nat) :=
  [[6, 30, 56, 82, 108, 134],
   [6, 34, 60, 86, 112, 138],
   [6, 30, 58, 86, 114, 142],
   [6, 34, 62, 90, 118, 146],
   [6, 30, 54, 78, 102, 126, 150],
   [6, 24, 50, 76, 102, 128, 154],
   [6, 28, 54, 80, 106, 132, 158],
   [6, 32, 58, 84, 110, 136, 162],
   [6, 26, 54, 82, 110, 138, 166],
   [6, 30, 58, 86, 114, 142, 170]]

/-- ALIGN_POS, versions 1 to 40 in order (spec/10_state.md R49). -/
def alignTable : List (List Nat) := alignRows1 ++ alignRows2 ++ alignRows3 ++ alignRows4

/-- ALIGN_POS[v], for v in 1..40 (spec/10_state.md R49). -/
def alignPos (v : Nat) : List Nat :=
  match v with
  | 0 => []
  | k + 1 => alignTable[k]?.getD []

/-- REMBITS(v) (spec/10_state.md R51: "REMBITS is 0 for v = 1 and 7..13 and 35..40, 7 for v = 2..6, 3 for v = 14..20 and 28..34, and 4 for
v = 21..27"). -/
def remBits (v : Nat) : Nat :=
  if 2 ≤ v ∧ v ≤ 6 then 7
  else if (14 ≤ v ∧ v ≤ 20) ∨ (28 ≤ v ∧ v ≤ 34) then 3
  else if 21 ≤ v ∧ v ≤ 27 then 4
  else 0

/-- G15, the generator of the format code (spec/10_state.md R50). -/
def g15 : Nat := 0x537

/-- G15_MASK, the constant XORed onto a format word (spec/10_state.md R50). -/
def g15Mask : Nat := 0x5412

/-- G18, the generator of the version code (spec/10_state.md R50). -/
def g18 : Nat := 0x1F25

end Sys2Proof.Machine
end

