-- ==== Sys2Proof/Machine/Operands.lean ====
section
/-! DEFINITION. The operands of the commands (spec/30_encoding.md R92, R93) and the checks on them. Scalars are read whole from ARG0 and ARG1;
polynomial and byte operands are read from the RAMs at the lengths held in PLEN_A, PLEN_B, PSHIFT and DATA_LEN. -/

namespace Sys2Proof.Machine

/-- A field element from a scalar operand: refused above 255 (spec/40_gf_poly.md R116, R117, R118). -/
def fieldOperand (w : Word) : Except Stop Byte :=
  if w.toNat > 255 then .error (.err .domainError) else .ok (w.setWidth 8)

/-- A field element that must not be 0 (spec/40_gf_poly.md R116, R118). -/
def nonzeroFieldOperand (w : Word) : Except Stop Byte :=
  if w.toNat = 0 ∨ w.toNat > 255 then .error (.err .domainError) else .ok (w.setWidth 8)

/-- A scalar operand with an upper bound, InvalidArgument above it (spec/40_gf_poly.md R122, spec/43_matrix.md R193, R195). -/
def boundedOperand (w : Word) (max : Nat) : Except Stop Nat :=
  if w.toNat > max then .error (.err .invalidArgument) else .ok w.toNat

/-- The configured version, InvalidVersion outside 1..40 (spec/41_rs_codewords.md R141, R143, spec/43_matrix.md R181). -/
def checkVersion (v : BitVec 6) : Except Stop Nat :=
  if v.toNat < 1 ∨ v.toNat > 40 then .error (.err .invalidVersion) else .ok v.toNat

/-- The builder state a command requires, SequenceError in any other (spec/43_matrix.md R180). -/
def checkBState (s : State) (b : BState) : Except Stop Unit :=
  if s.status.bstate = b then .ok () else .error (.err .sequenceError)

/-- The lengths of the polynomial operands: LA, LB and S (spec/40_gf_poly.md R119). -/
structure PolyLengths where
  la : Nat
  lb : Nat
  s : Nat
deriving DecidableEq, Repr

/-- LA = PLEN_A, LB = PLEN_B, S = PSHIFT (spec/40_gf_poly.md R119). -/
def polyLengths (s : State) : PolyLengths := { la := s.host.plenA.toNat, lb := s.host.plenB.toNat, s := s.host.pshift.toNat }

/-- The checks common to POLY_MUL and POLY_MOD, in their order (spec/40_gf_poly.md R119). -/
def checkPolyLengths (n : PolyLengths) : Except Stop Unit :=
  if n.la = 0 ∨ n.lb = 0 then .error (.err .invalidArgument)
  else if n.la > 256 ∨ n.lb > 256 then .error (.err .invalidArgument)
  else if n.la + n.s > 512 then .error (.err .invalidArgument)
  else .ok ()

/-- A' = A ++ [0]×S, with A = PA[0..LA−1] (spec/40_gf_poly.md R119). -/
def polyA (s : State) : Except Stop (List Byte) :=
  match liftFault (s.ramBytes .pa 0 (polyLengths s).la) with
  | .error e => .error e
  | .ok a => .ok (shiftPoly a (polyLengths s).s)

/-- B = PB[0..LB−1] (spec/40_gf_poly.md R119). -/
def polyB (s : State) : Except Stop (List Byte) := liftFault (s.ramBytes .pb 0 (polyLengths s).lb)

/-- The host's data codewords DATA[0..n−1] (spec/41_rs_codewords.md R142). -/
def dataBytes (s : State) (n : Nat) : Except Stop (List Byte) := liftFault (s.ramBytes .data 0 n)

/-- DATA_LEN against the capacity: DataOverflow when L > D (spec/41_rs_codewords.md R143). -/
def checkCapacity (l d : Nat) : Except Stop Unit := if l > d then .error (.err .dataOverflow) else .ok ()

end Sys2Proof.Machine
end

