-- ==== Sys2Proof/Machine/Penalty.lean ====
section
/-! DEFINITION. The mask formulas, the candidate matrices, the four penalty rules and the selection (spec/42_mask.md R160 to R170). A candidate
is a function of row and column here; no state holds one. -/

namespace Sys2Proof.Machine

/-- The formulas of spec/42_mask.md R162, in x and y. -/
def maskFormula (p x y : Nat) : Bool :=
  match p with
  | 0 => (x + y) % 2 == 0
  | 1 => x % 2 == 0
  | 2 => y % 3 == 0
  | 3 => (x + y) % 3 == 0
  | 4 => (x / 2 + y / 3) % 2 == 0
  | 5 => (x * y) % 2 + (x * y) % 3 == 0
  | 6 => ((x * y) % 2 + (x * y) % 3) % 2 == 0
  | _ => ((x * y) % 3 + (x + y) % 2) % 2 == 0

/-- `mask(p, r, c)` under the axis binding (spec/42_mask.md R161). -/
def maskBit (axes : MaskAxes) (p r c : Nat) : Bool :=
  match axes with
  | .doc => maskFormula p c r
  | .iso => maskFormula p r c

/-- The candidate matrix of mask p (spec/42_mask.md R163): a function cell keeps its DARKP value. -/
def candidate (axes : MaskAxes) (pl : Planes) (p r c : Nat) : Bool :=
  (pl.darkp.get r c).xor (!pl.func.get r c && maskBit axes p r c)

/-- The sum of `f` over 0..n−1. -/
def sumTo (n : Nat) (f : Nat → Nat) : Nat := ((List.range n).map f).sum

/-- The eight offsets of a cell's neighbours (spec/42_mask.md R164). -/
def neighbourOffsets : List (Int × Int) := [(-1, -1), (-1, 0), (-1, 1), (0, -1), (0, 1), (1, -1), (1, 0), (1, 1)]

/-- Whether the neighbour at offset `d` of (r, c) lies inside the n × n array and has the same bit (spec/42_mask.md R164). -/
def sameAt (m : Nat → Nat → Bool) (n r c : Nat) (d : Int × Int) : Bool :=
  let r' := (r : Int) + d.1
  let c' := (c : Int) + d.2
  decide (0 ≤ r') && decide (r' < n) && decide (0 ≤ c') && decide (c' < n) && m r'.toNat c'.toNat == m r c

/-- `same(r, c)`: the number of neighbours with the cell's bit (spec/42_mask.md R164). -/
def same (m : Nat → Nat → Bool) (n r c : Nat) : Nat := neighbourOffsets.countP (sameAt m n r c)

/-- What one cell adds to rule 1 (spec/42_mask.md R164). -/
def densityPenalty (k : Nat) : Nat := if k > 5 then 3 + (k - 5) else 0

/-- Rule 1 (spec/42_mask.md R164). -/
def penalty1 (m : Nat → Nat → Bool) (n : Nat) : Nat := sumTo n fun r => sumTo n fun c => densityPenalty (same m n r c)

/-- Whether the 2 × 2 block at (r, c) is of one colour (spec/42_mask.md R165). -/
def uniformBlock (m : Nat → Nat → Bool) (r c : Nat) : Bool :=
  m r c == m (r + 1) c && m r c == m r (c + 1) && m r c == m (r + 1) (c + 1)

/-- Rule 2 (spec/42_mask.md R165). -/
def penalty2 (m : Nat → Nat → Bool) (n : Nat) : Nat :=
  sumTo (n - 1) fun r => sumTo (n - 1) fun c => if uniformBlock m r c then 3 else 0

/-- The finder-like run F (spec/42_mask.md R166). -/
def finderRun : List Bool := [true, false, true, true, true, false, true]

/-- Whether the seven cells f 0, …, f 6 are F (spec/42_mask.md R166). -/
def isFinderRun (f : Nat → Bool) : Bool := (List.range 7).map f == finderRun

/-- Rule 3 (spec/42_mask.md R166): the horizontal and the vertical runs, c and r up to N − 7. -/
def penalty3 (m : Nat → Nat → Bool) (n : Nat) : Nat :=
  40 * ((sumTo n fun r => sumTo (n - 6) fun c => if isFinderRun (fun k => m r (c + k)) then 1 else 0)
    + (sumTo n fun c => sumTo (n - 6) fun r => if isFinderRun (fun k => m (r + k) c) then 1 else 0))

/-- DARK: the number of dark cells (spec/42_mask.md R167). -/
def darkCount (m : Nat → Nat → Bool) (n : Nat) : Nat := sumTo n fun r => sumTo n fun c => if m r c then 1 else 0

/-- The absolute value of a rational number. -/
def ratAbs (x : Rat) : Rat := if x < 0 then -x else x

/-- Rule 4, exact rational arithmetic (spec/42_mask.md R167). -/
def penalty4 (dark total : Nat) : Rat := 10 * ratAbs (100 * (dark : Rat) / (total : Rat) - 50) / 5

/-- The values the scorer keeps of one candidate (spec/42_mask.md R171). -/
structure Score where
  p1 : Nat
  p2 : Nat
  p3 : Nat
  dark : Nat
deriving DecidableEq, Repr

/-- The scores of an n × n array (spec/42_mask.md R164 to R167). -/
def scoreOf (m : Nat → Nat → Bool) (n : Nat) : Score :=
  { p1 := penalty1 m n, p2 := penalty2 m n, p3 := penalty3 m n, dark := darkCount m n }

/-- total(p), a rational number (spec/42_mask.md R169). -/
def Score.total (s : Score) (n : Nat) : Rat := ((s.p1 + s.p2 + s.p3 : Nat) : Rat) + penalty4 s.dark (n * n)

/-- S(p), the scaled score, with T = N² (spec/42_mask.md R169). -/
def Score.scaled (s : Score) (n : Nat) : Nat :=
  (n * n) * (s.p1 + s.p2 + s.p3) + 2 * (100 * (s.dark : Int) - 50 * ((n * n : Nat) : Int)).natAbs

/-- The scores of the eight candidates, mask 0 first (spec/42_mask.md R171). -/
def candidateScores (axes : MaskAxes) (pl : Planes) (n : Nat) : List Score :=
  (List.range 8).map fun p => scoreOf (candidate axes pl p) n

/-- The scan of spec/42_mask.md R170 over the scores from index `i` on: `best` has the least score `low` so far. -/
def scanBest (i best low : Nat) : List Nat → Nat
  | [] => best
  | x :: xs => if x < low then scanBest (i + 1) i x xs else scanBest (i + 1) best low xs

/-- The least index with the least score (spec/42_mask.md R170). -/
def bestOf : List Nat → Nat
  | [] => 0
  | x :: xs => scanBest 1 0 x xs

end Sys2Proof.Machine
end

