-- ==== Sys2Proof/Machine/Mask.lean ====
section
/-! DEFINITION. The mask commands MASK_SCORE, MASK_SELECT and MASK_FORCE (spec/42_mask.md R171 to R174). -/

namespace Sys2Proof.Machine

/-- N of the current matrix (spec/10_state.md R33). -/
def State.matrixSide (s : State) : Nat := s.engine.mtxCfg.side.toNat

/-- The scores of the current matrix's candidates (spec/42_mask.md R171). -/
def State.scores (s : State) : List Score := candidateScores s.params.maskAxes s.planes s.matrixSide

/-- The best mask of the current matrix (spec/42_mask.md R170). -/
def State.bestMask (s : State) : Nat := bestOf (s.scores.map fun x => x.scaled s.matrixSide)

/-- A score as the PEN registers hold it (spec/10_state.md R38). -/
def Score.regs (x : Score) : PenaltyRegs :=
  { p1 := BitVec.ofNat 32 x.p1, p2 := BitVec.ofNat 32 x.p2, p3 := BitVec.ofNat 32 x.p3, dark := BitVec.ofNat 32 x.dark }

/-- PEN_*[m] for m = 0..7 (spec/42_mask.md R171). -/
def penOf (scores : List Score) : Vector PenaltyRegs 8 :=
  Vector.ofFn fun m : Fin 8 => (scores.getD m.val { p1 := 0, p2 := 0, p3 := 0, dark := 0 }).regs

/-- The scoring steps of MASK_SCORE (spec/42_mask.md R171): PEN_*, MASK.BEST, MASK.SCORED. -/
def scoreWrites (s : State) : State :=
  { s with engine := { s.engine with
      pen := penOf s.scores
      mask := { s.engine.mask with best := BitVec.ofNat 3 s.bestMask, scored := true } } }

/-- `apply_mask(p)` on DARKP (spec/42_mask.md R174): a data cell of the matrix where the mask is true is inverted. -/
def maskedPlane (axes : MaskAxes) (pl : Planes) (n p : Nat) : Plane :=
  Plane.tabulate fun r c =>
    (pl.darkp.get r c).xor (decide (r < n) && decide (c < n) && !pl.func.get r c && maskBit axes p r c)

/-- Apply mask p: DARKP, MASK.APPLIED, MASK.APPLIED_VALID, BSTATE ← Masked (spec/42_mask.md R172, R173). -/
def applyMask (p : Nat) (s : State) : State :=
  { s with
    planes := { s.planes with darkp := maskedPlane s.params.maskAxes s.planes s.matrixSide p }
    engine := { s.engine with mask := { s.engine.mask with applied := BitVec.ofNat 3 p, appliedValid := true } }
    status := { s.status with bstate := .masked } }

/-- MASK_SCORE (spec/42_mask.md R171). -/
def maskScoreBody (s : State) : Except Stop State := do
  checkBState s .dataPlaced
  .ok (scoreWrites s)

/-- What MASK_SELECT writes (spec/42_mask.md R172). -/
def maskSelectWrites (s : State) : State := applyMask s.bestMask (scoreWrites s)

/-- MASK_SELECT (spec/42_mask.md R172). -/
def maskSelectBody (s : State) : Except Stop State := do
  checkBState s .dataPlaced
  .ok (maskSelectWrites s)

/-- A mask id from a scalar operand: InvalidMaskPattern above 7 (spec/42_mask.md R173). -/
def maskOperand (w : Word) : Except Stop Nat :=
  if w.toNat > 7 then .error (.err .invalidMaskPattern) else .ok w.toNat

/-- MASK_FORCE (spec/42_mask.md R173): the state is checked before the operand (spec/60_exceptions.md R242). -/
def maskForceBody (s : State) : Except Stop State := do
  checkBState s .dataPlaced
  let p ← maskOperand s.host.arg0
  .ok (applyMask p s)

/-- MASK_SCORE, R171. -/
def execMaskScore (s : State) : Host.Outcome State Fault Refusal := runCommand maskScoreBody s

/-- MASK_SELECT, R172. -/
def execMaskSelect (s : State) : Host.Outcome State Fault Refusal := runCommand maskSelectBody s

/-- MASK_FORCE, R173. -/
def execMaskForce (s : State) : Host.Outcome State Fault Refusal := runCommand maskForceBody s

end Sys2Proof.Machine
end

