-- ==== Sys2Proof/Machine/Gf.lean ====
section
/-! DEFINITION. The scalar field commands GF_EXP, GF_LOG, GF_MUL and GF_INV (spec/40_gf_poly.md R115 to R118). Each writes RESULT, zero-extended,
or raises DomainError. -/

namespace Sys2Proof.Machine

/-- RESULT ← v, zero-extended (spec/10_state.md R29). -/
def State.setResult (s : State) (v : Word) : State := { s with engine := { s.engine with result := v } }

/-- GF_EXP (spec/40_gf_poly.md R115): every ARG0 is legal, the index is taken mod 255. -/
def gfExpBody (s : State) : Except Stop State :=
  .ok (s.setResult ((gexp (s.host.arg0.toNat % 255)).setWidth 32))

/-- GF_LOG (spec/40_gf_poly.md R116). -/
def gfLogBody (s : State) : Except Stop State := do
  let x ← nonzeroFieldOperand s.host.arg0
  .ok (s.setResult (BitVec.ofNat 32 (glog x)))

/-- GF_MUL (spec/40_gf_poly.md R117). -/
def gfMulBody (s : State) : Except Stop State := do
  let a ← fieldOperand s.host.arg0
  let b ← fieldOperand s.host.arg1
  .ok (s.setResult ((gmul a b).setWidth 32))

/-- GF_INV (spec/40_gf_poly.md R118). -/
def gfInvBody (s : State) : Except Stop State := do
  let a ← nonzeroFieldOperand s.host.arg0
  .ok (s.setResult ((ginv a).setWidth 32))

/-- GF_EXP, R115. -/
def execGfExp (s : State) : Host.Outcome State Fault Refusal := runCommand gfExpBody s

/-- GF_LOG, R116. -/
def execGfLog (s : State) : Host.Outcome State Fault Refusal := runCommand gfLogBody s

/-- GF_MUL, R117. -/
def execGfMul (s : State) : Host.Outcome State Fault Refusal := runCommand gfMulBody s

/-- GF_INV, R118. -/
def execGfInv (s : State) : Host.Outcome State Fault Refusal := runCommand gfInvBody s

end Sys2Proof.Machine
end

