-- ==== Sys2Proof/Machine/Bch.lean ====
section
/-! DEFINITION. The BCH unit (spec/43_matrix.md R191 to R195): the remainder over GF(2), the format and version words, BCH_FORMAT and
BCH_VERSION. Arithmetic is carry-free (spec/44_control.md R227). -/

namespace Sys2Proof.Machine

/-- The number of bits of `x` up to its highest 1; 0 for 0 (spec/43_matrix.md R191). -/
def bitlen (x : Nat) : Nat := if x = 0 then 0 else x.log2 + 1

/-- At most `n` steps of the loop of spec/43_matrix.md R191. -/
def bchReduce (g : Nat) : Nat → Nat → Nat
  | 0, d => d
  | n + 1, d => if bitlen d < bitlen g then d else bchReduce g n (d ^^^ (g <<< (bitlen d - bitlen g)))

/-- `bch_rem(d, g)` (spec/43_matrix.md R191). A step shortens d, so bitlen(d) steps are enough. -/
def bchRem (d g : Nat) : Nat := bchReduce g (bitlen d) d

/-- The format datum of a level code and a mask id (spec/43_matrix.md R192). -/
def formatDatum (ecl : BitVec 2) (p : BitVec 3) : Nat := ecl.toNat <<< 3 ||| p.toNat

/-- `fmt(x)`, 15 bits (spec/43_matrix.md R192). -/
def formatWord (x : Nat) : BitVec 15 := BitVec.ofNat 15 ((x <<< 10 ||| bchRem (x <<< 10) g15) ^^^ g15Mask)

/-- `ver(v)`, 18 bits, no mask constant (spec/43_matrix.md R194). -/
def versionWord (v : Nat) : BitVec 18 := BitVec.ofNat 18 (v <<< 12 ||| bchRem (v <<< 12) g18)

/-- BCH_FORMAT (spec/43_matrix.md R193). -/
def bchFormatBody (s : State) : Except Stop State := do
  let x ← boundedOperand s.host.arg0 31
  .ok (s.setResult ((formatWord x).setWidth 32))

/-- BCH_VERSION (spec/43_matrix.md R195). -/
def bchVersionBody (s : State) : Except Stop State := do
  let v ← boundedOperand s.host.arg0 63
  .ok (s.setResult ((versionWord v).setWidth 32))

/-- BCH_FORMAT, R193. -/
def execBchFormat (s : State) : Host.Outcome State Fault Refusal := runCommand bchFormatBody s

/-- BCH_VERSION, R195. -/
def execBchVersion (s : State) : Host.Outcome State Fault Refusal := runCommand bchVersionBody s

end Sys2Proof.Machine
end

