-- ==== Sys2Proof/Machine/Matrix.lean ====
section
/-! DEFINITION. The matrix builder (spec/43_matrix.md): function patterns, data placement, metadata, finalisation; the commands MATRIX_INIT,
MATRIX_PLACE, WRITE_META and FINALIZE. Cells are (row, column) pairs (spec/00_scope.md R13). -/

namespace Sys2Proof.Machine

/-- The integers lo, lo + 1, …, hi, in order. -/
def intRange (lo hi : Int) : List Int := (List.range (hi - lo + 1).toNat).map fun k : Nat => lo + (k : Int)

/-! ## Function patterns (spec/43_matrix.md R182 to R186) -/

/-- Whether cell (dr, dc) of a finder pattern is dark, relative to its top-left corner (spec/43_matrix.md R182): the 7 × 7 ring and the 3 × 3
centre; the separator and the inner ring are light. -/
def finderDark (dr dc : Int) : Bool :=
  (decide (0 ≤ dr) && decide (dr ≤ 6) && (dc == 0 || dc == 6))
  || (decide (0 ≤ dc) && decide (dc ≤ 6) && (dr == 0 || dr == 6))
  || (decide (2 ≤ dr) && decide (dr ≤ 4) && decide (2 ≤ dc) && decide (dc ≤ 4))

/-- One cell of a finder pattern or its separator, if it lies inside the matrix of side `n` (spec/43_matrix.md R182). -/
def placeFinderCell (n r0 c0 : Nat) (p : Planes) (d : Int × Int) : Planes :=
  let r := (r0 : Int) + d.1
  let c := (c0 : Int) + d.2
  if 0 ≤ r ∧ r < n ∧ 0 ≤ c ∧ c < n then p.setf r.toNat c.toNat (finderDark d.1 d.2) else p

/-- All pairs of a list of integers, the first one slower. -/
def pairs (xs : List Int) : List (Int × Int) := xs.flatMap fun x => xs.map fun y => (x, y)

/-- The top-left corners of the three finder patterns (spec/43_matrix.md R182). -/
def finderCorners (n : Nat) : List (Nat × Nat) := [(0, 0), (n - 7, 0), (0, n - 7)]

/-- `place_finders()` (spec/43_matrix.md R182). -/
def placeFinders (n : Nat) (p : Planes) : Planes :=
  (finderCorners n).foldl (fun p o => (pairs (intRange (-1) 7)).foldl (placeFinderCell n o.1 o.2) p) p

/-- Whether cell (dr, dc) of an alignment pattern is dark, relative to its centre (spec/43_matrix.md R183). -/
def alignDark (dr dc : Int) : Bool := dr.natAbs == 2 || dc.natAbs == 2 || (dr == 0 && dc == 0)

/-- One cell of the alignment pattern centred at (ar, ac) (spec/43_matrix.md R183). -/
def placeAlignCell (ar ac : Nat) (p : Planes) (d : Int × Int) : Planes :=
  p.setf ((ar : Int) + d.1).toNat ((ac : Int) + d.2).toNat (alignDark d.1 d.2)

/-- The alignment pattern centred at (ar, ac), skipped when its centre is already assigned (spec/43_matrix.md R183). -/
def placeAlignment (p : Planes) (o : Nat × Nat) : Planes :=
  if p.asgn.get o.1 o.2 then p else (pairs (intRange (-2) 2)).foldl (placeAlignCell o.1 o.2) p

/-- The candidate centres of version `v`, in table order (spec/43_matrix.md R183, spec/10_state.md R49). -/
def alignCentres (v : Nat) : List (Nat × Nat) := (alignPos v).flatMap fun ar => (alignPos v).map fun ac => (ar, ac)

/-- `place_alignments()` (spec/43_matrix.md R183). -/
def placeAlignments (v : Nat) (p : Planes) : Planes := (alignCentres v).foldl placeAlignment p

/-- The two timing cells of index `i`, each set only if it is not yet assigned (spec/43_matrix.md R184). -/
def placeTimingCell (p : Planes) (i : Nat) : Planes :=
  let p := if p.asgn.get 6 i then p else p.setf 6 i (i % 2 == 0)
  if p.asgn.get i 6 then p else p.setf i 6 (i % 2 == 0)

/-- The indices 8..N−9 of the timing patterns (spec/43_matrix.md R184). -/
def timingIndices (n : Nat) : List Nat := (List.range (n - 16)).map (· + 8)

/-- `place_timing()` (spec/43_matrix.md R184). -/
def placeTiming (n : Nat) (p : Planes) : Planes := (timingIndices n).foldl placeTimingCell p

/-- `fpos1(i)`, the first cell of format bit i (spec/43_matrix.md R185). -/
def fpos1 (n i : Nat) : Nat × Nat := if i ≤ 5 then (i, 8) else if i ≤ 7 then (i + 1, 8) else (n - 15 + i, 8)

/-- `fpos2(i)`, the second cell of format bit i (spec/43_matrix.md R185). -/
def fpos2 (n i : Nat) : Nat × Nat := if i ≤ 7 then (8, n - 1 - i) else if i = 8 then (8, 7) else (8, 14 - i)

/-- The dark module (spec/43_matrix.md R185). -/
def darkModule (n : Nat) : Nat × Nat := (n - 8, 8)

/-- `vpos1(i)`, the first cell of version bit i (spec/43_matrix.md R186). -/
def vpos1 (n i : Nat) : Nat × Nat := (i / 3, n - 11 + i % 3)

/-- `vpos2(i)`, the second cell of version bit i (spec/43_matrix.md R186). -/
def vpos2 (n i : Nat) : Nat × Nat := (n - 11 + i % 3, i / 3)

/-- The 31 reserved cells of the format information and the dark module (spec/43_matrix.md R185). -/
def formatCells (n : Nat) : List (Nat × Nat) :=
  (List.range 15).map (fpos1 n) ++ (List.range 15).map (fpos2 n) ++ [darkModule n]

/-- The 36 reserved cells of the version information, for version 7 and above (spec/43_matrix.md R186). -/
def versionCells (v n : Nat) : List (Nat × Nat) :=
  if v ≥ 7 then (List.range 18).map (vpos1 n) ++ (List.range 18).map (vpos2 n) else []

/-- The reserved cells of a version: function cells left unassigned until WRITE_META (spec/00_scope.md R16). -/
def reservedCells (v n : Nat) : List (Nat × Nat) := formatCells n ++ versionCells v n

/-- `reserve_format()` and `reserve_version()` (spec/43_matrix.md R185, R186). -/
def reserveCells (cells : List (Nat × Nat)) (p : Planes) : Planes := cells.foldl (fun p x => p.reserve x.1 x.2) p

/-- The planes MATRIX_INIT leaves for version `v` (spec/43_matrix.md R181): cleared, then every function pattern, then the reserved cells. -/
def initialPlanes (v : Nat) : Planes :=
  let n := side v
  reserveCells (versionCells v n)
    (reserveCells (formatCells n) (placeTiming n (placeAlignments v (placeFinders n Planes.zero))))

/-- What MATRIX_INIT writes (spec/43_matrix.md R181). -/
def matrixInitWrites (cfg : VersionLevel) (s : State) : State :=
  let v := cfg.version.toNat
  { s with
    planes := initialPlanes v
    engine := { s.engine with
      mtxCfg := { version := cfg.version, ecl := cfg.ecl, side := BitVec.ofNat 8 (side v) }
      mask := MaskReg.zero, pen := penZero, formatInfo := 0, versionInfo := 0 }
    status := { s.status with bstate := .functionPatternsPlaced } }

/-- MATRIX_INIT (spec/43_matrix.md R181). -/
def matrixInitBody (s : State) : Except Stop State := do
  let _ ← checkVersion s.host.config.version
  .ok (matrixInitWrites s.host.config s)

/-! ## Data placement (spec/43_matrix.md R188 to R190) -/

/-- The right columns of the column pairs, from the right: N−1, N−3, …, 8, then 5, 3, 1 (spec/43_matrix.md R189), at most `k` of them. -/
def pairColumns : Nat → Nat → List Nat
  | 0, _ => []
  | k + 1, col => if col = 0 then [] else
    let c := if col = 6 then 5 else col
    c :: pairColumns k (c - 2)

/-- The rows of a sweep: upward from the bottom row, or downward from the top row (spec/43_matrix.md R189). -/
def sweepRows (n : Nat) (up : Bool) : List Nat := if up then (List.range n).reverse else List.range n

/-- The cells of one sweep of the column pair with right column `col`, the right cell of a row first (spec/43_matrix.md R189). -/
def sweepCells (n : Nat) (up : Bool) (col : Nat) : List (Nat × Nat) :=
  (sweepRows n up).flatMap fun r => [(r, col), (r, col - 1)]

/-- The sweeps of a list of column pairs, each one reversing the direction of the one before it (spec/43_matrix.md R189). -/
def sweeps (n : Nat) (up : Bool) : List Nat → List (Nat × Nat)
  | [] => []
  | col :: rest => sweepCells n up col ++ sweeps n (!up) rest

/-- `placement_order(N)`: the data cells in order (spec/43_matrix.md R189). The first sweep goes up. -/
def placementOrder (n : Nat) (func : Plane) : List (Nat × Nat) :=
  (sweeps n true (pairColumns n (n - 1))).filter fun x => !func.get x.1 x.2

/-- The bits of a byte, most significant first (spec/43_matrix.md R190). -/
def byteBits (b : Byte) : List Bool := (List.range 8).map fun j => b.getLsbD (7 - j)

/-- The bits of a codeword sequence in placement order (spec/43_matrix.md R190). -/
def codewordBits (bs : List Byte) : List Bool := bs.flatMap byteBits

/-- Place bits into cells in order; the cells after the last bit, the remainder cells, get 0 (spec/43_matrix.md R190). -/
def placeBits : List (Nat × Nat) → List Bool → Planes → Planes
  | [], _, p => p
  | x :: cells, [], p => placeBits cells [] (p.place x.1 x.2 false)
  | x :: cells, b :: bits, p => placeBits cells bits (p.place x.1 x.2 b)

/-- The number of codewords MATRIX_PLACE reads: those that hold one of the first 8·C bits placed (spec/43_matrix.md R188, log 14). -/
def placedCodewords (c ncells : Nat) : Nat := min c ((ncells + 7) / 8)

/-- MATRIX_PLACE after its checks (spec/43_matrix.md R188). -/
def matrixPlaceWork (s : State) : Except Stop State := do
  let n := s.engine.mtxCfg.side.toNat
  let cells := placementOrder n s.planes.func
  let bs ← liftFault (s.ramBytes .cw 0 (placedCodewords s.engine.cwLen.toNat cells.length))
  .ok { s with planes := placeBits cells (codewordBits bs) s.planes
               status := { s.status with bstate := .dataPlaced } }

/-- MATRIX_PLACE's checks (spec/43_matrix.md R188, spec/60_exceptions.md R242): the state, then CW_VALID, then CW_CFG. -/
def matrixPlaceCheck (s : State) : Except Stop Unit := do
  checkBState s .functionPatternsPlaced
  if s.status.cwValid = false then .error (.err .sequenceError)
  else if s.engine.cwCfg.version ≠ s.engine.mtxCfg.version ∨ s.engine.cwCfg.ecl ≠ s.engine.mtxCfg.ecl then
    .error (.err .sequenceError)
  else .ok ()

/-- MATRIX_PLACE (spec/43_matrix.md R188). -/
def matrixPlaceBody (s : State) : Except Stop State := do
  matrixPlaceCheck s
  matrixPlaceWork s

/-! ## Metadata and finalisation (spec/43_matrix.md R196 to R200) -/

/-- Write bit i of `w` to both cells of bit i, for i below `k` in order (spec/43_matrix.md R197, R199). -/
def writeBits (k : Nat) (pos1 pos2 : Nat → Nat × Nat) (w : Nat) (p : Planes) : Planes :=
  (List.range k).foldl (fun p i =>
    let d := w.testBit i
    (p.setf (pos1 i).1 (pos1 i).2 d).setf (pos2 i).1 (pos2 i).2 d) p

/-- The format word WRITE_META places: of the matrix's level and the applied mask (spec/43_matrix.md R196). -/
def metaFormat (s : State) : BitVec 15 := formatWord (formatDatum s.engine.mtxCfg.ecl s.engine.mask.applied)

/-- The version word WRITE_META places, 0 below version 7 (spec/43_matrix.md R196). -/
def metaVersion (s : State) : BitVec 18 :=
  if s.engine.mtxCfg.version.toNat ≥ 7 then versionWord s.engine.mtxCfg.version.toNat else 0

/-- The planes after WRITE_META (spec/43_matrix.md R196 to R199): both format copies, the dark module, both version copies for v ≥ 7. -/
def metaPlanes (s : State) : Planes :=
  let n := s.engine.mtxCfg.side.toNat
  let p := writeBits 15 (fpos1 n) (fpos2 n) (metaFormat s).toNat s.planes
  let p := p.setf (darkModule n).1 (darkModule n).2 true
  if s.engine.mtxCfg.version.toNat ≥ 7 then writeBits 18 (vpos1 n) (vpos2 n) (metaVersion s).toNat p else p

/-- What WRITE_META writes (spec/43_matrix.md R196). -/
def writeMetaWrites (s : State) : State :=
  { s with planes := metaPlanes s
           engine := { s.engine with formatInfo := metaFormat s, versionInfo := metaVersion s }
           status := { s.status with bstate := .metadataWritten } }

/-- WRITE_META (spec/43_matrix.md R196). -/
def writeMetaBody (s : State) : Except Stop State := do
  checkBState s .masked
  .ok (writeMetaWrites s)

/-- Whether every cell of the matrix is assigned (spec/43_matrix.md R200). -/
def allAssigned (n : Nat) (p : Plane) : Bool := (List.range n).all fun r => (List.range n).all fun c => p.get r c

/-- What FINALIZE writes (spec/43_matrix.md R200). -/
def finalizeWrites (s : State) : State := { s with status := { s.status with bstate := .final } }

/-- FINALIZE (spec/43_matrix.md R200). -/
def finalizeBody (s : State) : Except Stop State := do
  checkBState s .metadataWritten
  if allAssigned s.engine.mtxCfg.side.toNat s.planes.asgn then .ok (finalizeWrites s)
  else .error (.err .incompleteMatrix)

/-- MATRIX_INIT, R181. -/
def execMatrixInit (s : State) : Host.Outcome State Fault Refusal := runCommand matrixInitBody s

/-- MATRIX_PLACE, R188. -/
def execMatrixPlace (s : State) : Host.Outcome State Fault Refusal := runCommand matrixPlaceBody s

/-- WRITE_META, R196. -/
def execWriteMeta (s : State) : Host.Outcome State Fault Refusal := runCommand writeMetaBody s

/-- FINALIZE, R200. -/
def execFinalize (s : State) : Host.Outcome State Fault Refusal := runCommand finalizeBody s

end Sys2Proof.Machine
end

