-- ==== Sys2Proof/Machine/Poly.lean ====
section
/-! DEFINITION. The polynomial commands POLY_MUL, POLY_MOD and RS_GENPOLY (spec/40_gf_poly.md R119 to R122). -/

namespace Sys2Proof.Machine

/-- PR[0..] ← `r`, PLEN_R ← its length (spec/40_gf_poly.md R120, R121). -/
def State.setPolyResult (s : State) (r : List Byte) : State :=
  { s.writeRam .pr r with engine := { s.engine with plenR := BitVec.ofNat 10 r.length } }

/-- PB[0..] ← `g`, PLEN_B ← its length (spec/40_gf_poly.md R122). -/
def State.setDivisor (s : State) (g : List Byte) : State :=
  { s.writeRam .pb g with host := { s.host with plenB := BitVec.ofNat 9 g.length } }

/-- The number of terms of POLY_MUL's result, LR = LA1 + LB − 1 (spec/40_gf_poly.md R120). -/
def PolyLengths.product (n : PolyLengths) : Nat := n.la + n.s + n.lb - 1

/-- POLY_MUL (spec/40_gf_poly.md R120). -/
def polyMulBody (s : State) : Except Stop State := do
  checkPolyLengths (polyLengths s)
  if (polyLengths s).product > 512 then .error (.err .invalidArgument) else
    let a ← polyA s
    let b ← polyB s
    .ok (s.setPolyResult (polyMul a b))

/-- POLY_MOD (spec/40_gf_poly.md R121). Its check of PB[0] comes before the other coefficients are read (log 13). -/
def polyModBody (s : State) : Except Stop State := do
  checkPolyLengths (polyLengths s)
  let lead ← liftFault (s.ramByte .pb 0)
  if lead = 0 then .error (.err .domainError) else
    let a ← polyA s
    let b ← polyB s
    .ok (s.setPolyResult (polyRem a b))

/-- RS_GENPOLY (spec/40_gf_poly.md R122). -/
def rsGenpolyBody (s : State) : Except Stop State := do
  let n ← boundedOperand s.host.arg0 255
  .ok (s.setDivisor (genPoly n))

/-- POLY_MUL, R120. -/
def execPolyMul (s : State) : Host.Outcome State Fault Refusal := runCommand polyMulBody s

/-- POLY_MOD, R121. -/
def execPolyMod (s : State) : Host.Outcome State Fault Refusal := runCommand polyModBody s

/-- RS_GENPOLY, R122. -/
def execRsGenpoly (s : State) : Host.Outcome State Fault Refusal := runCommand rsGenpolyBody s

end Sys2Proof.Machine
end

