-- ==== Sys2Proof/Machine/Registers.lean ====
section
/-! DEFINITION. The register map (spec/10_state.md R21): the registers by name and offset, and the one read and the one write of each
(R22 to R38). Registers are whole 32-bit words on the bus; reserved bits read 0 and ignore writes. -/

namespace Sys2Proof.Machine

/-- The four penalty registers of one mask (spec/10_state.md R21, R38). -/
inductive PenKind where
  | p1
  | p2
  | p3
  | dark
deriving DecidableEq, Repr

/-- The registers of spec/10_state.md R21. -/
inductive Reg where
  | id
  | cmd
  | status
  | config
  | dataLen
  | irqEn
  | arg0
  | arg1
  | result
  | plenA
  | plenB
  | pshift
  | plenR
  | cwLen
  | cwCfg
  | mtxCfg
  | formatInfo
  | versionInfo
  | mask
  | tblTotal
  | tblData
  | tblEc
  | tblG1
  | tblG2
  | tblGeom
  | pen (m : Fin 8) (k : PenKind)
deriving DecidableEq, Repr

/-- The place of a penalty register in its mask's group of four (spec/10_state.md R21). -/
def PenKind.offset : PenKind → Nat
  | .p1 => 0x0
  | .p2 => 0x4
  | .p3 => 0x8
  | .dark => 0xC

/-- The offset of each register (spec/10_state.md R21). -/
def Reg.offset : Reg → Nat
  | .id => 0x000
  | .cmd => 0x004
  | .status => 0x008
  | .config => 0x00C
  | .dataLen => 0x010
  | .irqEn => 0x014
  | .arg0 => 0x018
  | .arg1 => 0x01C
  | .result => 0x020
  | .plenA => 0x024
  | .plenB => 0x028
  | .pshift => 0x02C
  | .plenR => 0x030
  | .cwLen => 0x034
  | .cwCfg => 0x038
  | .mtxCfg => 0x03C
  | .formatInfo => 0x040
  | .versionInfo => 0x044
  | .mask => 0x048
  | .tblTotal => 0x050
  | .tblData => 0x054
  | .tblEc => 0x058
  | .tblG1 => 0x05C
  | .tblG2 => 0x060
  | .tblGeom => 0x064
  | .pen m k => 0x100 + 16 * m.val + k.offset

/-- The registers below 0x100, in the order of the map. -/
def mainRegs : List Reg :=
  [.id, .cmd, .status, .config, .dataLen, .irqEn, .arg0, .arg1, .result, .plenA, .plenB, .pshift, .plenR] ++
  [.cwLen, .cwCfg, .mtxCfg, .formatInfo, .versionInfo, .mask, .tblTotal, .tblData, .tblEc, .tblG1, .tblG2, .tblGeom]

/-- The penalty registers, in the order of the map. -/
def penRegs : List Reg :=
  (List.finRange 8).flatMap fun m => [.pen m .p1, .pen m .p2, .pen m .p3, .pen m .dark]

/-- The register at an offset; none for a reserved or unmapped offset (spec/20_memory.md R66). -/
def regAt (o : Nat) : Option Reg := (mainRegs ++ penRegs).find? fun r => r.offset == o

/-- VERSION in bits 5:0 and ECL in bits 9:8 (spec/10_state.md R25, R32). -/
def VersionLevel.word (c : VersionLevel) : Word := (0#22 ++ c.ecl ++ 0#2 ++ c.version : BitVec 32)

/-- VERSION, ECL and SIDE in bits 23:16 (spec/10_state.md R33). -/
def MatrixConfig.word (c : MatrixConfig) : Word := (0#8 ++ c.side ++ 0#6 ++ c.ecl ++ 0#2 ++ c.version : BitVec 32)

/-- APPLIED, APPLIED_VALID, BEST and SCORED (spec/10_state.md R35). -/
def MaskReg.word (m : MaskReg) : Word :=
  (0#24 ++ bit m.scored ++ m.best ++ bit m.appliedValid ++ m.applied : BitVec 32)

/-- DONE_IE, ERR_IE and OVR_IE (spec/10_state.md R27). -/
def IrqEnable.word (e : IrqEnable) : Word := (0#29 ++ bit e.ovrIe ++ bit e.errIe ++ bit e.doneIe : BitVec 32)

/-- COUNT, TOTAL and DATA (spec/10_state.md R36). -/
def BlockGroupReg.word (g : BlockGroupReg) : Word := (0#8 ++ g.data ++ g.total ++ g.count : BitVec 32)

/-- SIDE, NALIGN and REMBITS (spec/10_state.md R36). -/
def GeometryReg.word (g : GeometryReg) : Word := (0#12 ++ g.rembits ++ 0#4 ++ g.nalign ++ g.side : BitVec 32)

/-- One penalty register of a mask. -/
def PenaltyRegs.word (p : PenaltyRegs) : PenKind → Word
  | .p1 => p.p1
  | .p2 => p.p2
  | .p3 => p.p3
  | .dark => p.dark

/-- The value of a register: the one read operation (spec/10_state.md R21 to R38). ID is the constant of R22; CMD reads 0 (R23). -/
def State.readReg (s : State) : Reg → Word
  | .id => 0x51520001
  | .cmd => 0
  | .status => statusWord s.status
  | .config => s.host.config.word
  | .dataLen => s.host.dataLen.setWidth 32
  | .irqEn => s.host.irqEn.word
  | .arg0 => s.host.arg0
  | .arg1 => s.host.arg1
  | .result => s.engine.result
  | .plenA => s.host.plenA.setWidth 32
  | .plenB => s.host.plenB.setWidth 32
  | .pshift => s.host.pshift.setWidth 32
  | .plenR => s.engine.plenR.setWidth 32
  | .cwLen => s.engine.cwLen.setWidth 32
  | .cwCfg => s.engine.cwCfg.word
  | .mtxCfg => s.engine.mtxCfg.word
  | .formatInfo => s.engine.formatInfo.setWidth 32
  | .versionInfo => s.engine.versionInfo.setWidth 32
  | .mask => s.engine.mask.word
  | .tblTotal => s.engine.tbl.total.setWidth 32
  | .tblData => s.engine.tbl.data.setWidth 32
  | .tblEc => s.engine.tbl.ec.setWidth 32
  | .tblG1 => s.engine.tbl.g1.word
  | .tblG2 => s.engine.tbl.g2.word
  | .tblGeom => s.engine.tbl.geom.word
  | .pen m k => s.engine.pen[m].word k

/-- The effect of a host write of `w` to a register while BUSY = 0: the one write operation. A read-only register ignores it (spec/20_memory.md
R66); CMD accepts a command (spec/60_exceptions.md R245); STATUS clears its W1C bits (spec/10_state.md R24); a RW register holds the bits
of its fields (R21). -/
def State.writeReg (s : State) (r : Reg) (w : Word) : State :=
  match r with
  | .cmd => s.accept w
  | .status => s.acknowledge w
  | .config => { s with host := { s.host with config := { version := w.extractLsb' 0 6, ecl := w.extractLsb' 8 2 } } }
  | .dataLen => { s with host := { s.host with dataLen := w.extractLsb' 0 12 } }
  | .irqEn => { s with host := { s.host with
      irqEn := { doneIe := w.getLsbD 0, errIe := w.getLsbD 1, ovrIe := w.getLsbD 2 } } }
  | .arg0 => { s with host := { s.host with arg0 := w } }
  | .arg1 => { s with host := { s.host with arg1 := w } }
  | .plenA => { s with host := { s.host with plenA := w.extractLsb' 0 9 } }
  | .plenB => { s with host := { s.host with plenB := w.extractLsb' 0 9 } }
  | .pshift => { s with host := { s.host with pshift := w.extractLsb' 0 9 } }
  | .id => s
  | .result => s
  | .plenR => s
  | .cwLen => s
  | .cwCfg => s
  | .mtxCfg => s
  | .formatInfo => s
  | .versionInfo => s
  | .mask => s
  | .tblTotal => s
  | .tblData => s
  | .tblEc => s
  | .tblG1 => s
  | .tblG2 => s
  | .tblGeom => s
  | .pen _ _ => s

end Sys2Proof.Machine
end

