-- ==== Sys2Proof/Machine/Rs.lean ====
section
/-! DEFINITION. The Reed-Solomon unit's whole-symbol commands TABLE_LOOKUP and ASSEMBLE (spec/41_rs_codewords.md). -/

namespace Sys2Proof.Machine

/-- A block group as TBL_G1 or TBL_G2 holds it (spec/10_state.md R36, spec/41_rs_codewords.md R141). -/
def BlockGroup.reg (g : BlockGroup) : BlockGroupReg :=
  { count := BitVec.ofNat 8 g.count, total := BitVec.ofNat 8 g.total, data := BitVec.ofNat 8 g.data }

/-- TBL_G1 or TBL_G2 when the level has no such group. -/
def BlockGroupReg.zero : BlockGroupReg := { count := 0, total := 0, data := 0 }

/-- The registers TABLE_LOOKUP reports for a version and level (spec/41_rs_codewords.md R141). -/
def tableRegs (v : Nat) (e : Level) : TableRegs :=
  { total := BitVec.ofNat 12 (totalCount v e)
    data := BitVec.ofNat 12 (dataCount v e)
    ec := BitVec.ofNat 8 (ecCount v e)
    g1 := (((rsBlocks v e)[0]?).map BlockGroup.reg).getD BlockGroupReg.zero
    g2 := (((rsBlocks v e)[1]?).map BlockGroup.reg).getD BlockGroupReg.zero
    geom := { side := BitVec.ofNat 8 (side v), nalign := BitVec.ofNat 4 (alignPos v).length
              rembits := BitVec.ofNat 4 (remBits v) } }

/-- TABLE_LOOKUP (spec/41_rs_codewords.md R141). -/
def tableLookupBody (s : State) : Except Stop State := do
  let v ← checkVersion s.host.config.version
  .ok { s with engine := { s.engine with tbl := tableRegs v (levelOf s.host.config.ecl) } }

/-- `n` pad bytes, 0xEC first, then 0x11, alternating (spec/41_rs_codewords.md R144). -/
def padBytes : Nat → List Byte
  | 0 => []
  | 1 => [0xEC]
  | n + 2 => 0xEC :: 0x11 :: padBytes n

/-- The padded data sequence dd of `d` bytes (spec/41_rs_codewords.md R144). -/
def padData (data : List Byte) (d : Nat) : List Byte := data ++ padBytes (d - data.length)

/-- Split the bytes across blocks in order, each taking its own count (spec/41_rs_codewords.md R145). -/
def splitBlocks : List Byte → List Nat → List (List Byte)
  | _, [] => []
  | bs, d :: ds => bs.take d :: splitBlocks (bs.drop d) ds

/-- ecc(d, n): the remainder of d·x^n divided by the generator of degree n (spec/41_rs_codewords.md R146). -/
def ecc (d : List Byte) (n : Nat) : List Byte := polyRem (shiftPoly d n) (genPoly n)

/-- The bytes of the blocks column by column, skipping the blocks shorter than the column (spec/41_rs_codewords.md R148). -/
def columns (blocks : List (List Byte)) (width : Nat) : List Byte :=
  (List.range width).flatMap fun i => blocks.filterMap fun b => b[i]?

/-- The largest block length. -/
def maxLength (blocks : List (List Byte)) : Nat := (blocks.map List.length).foldr max 0

/-- The interleaved stream: the data columns, then the `n` EC columns (spec/41_rs_codewords.md R148). -/
def interleave (datas ecs : List (List Byte)) (n : Nat) : List Byte :=
  columns datas (maxLength datas) ++ columns ecs n

/-- The data blocks of a padded sequence (spec/41_rs_codewords.md R145). -/
def dataBlocks (v : Nat) (e : Level) (data : List Byte) : List (List Byte) :=
  splitBlocks (padData data (dataCount v e)) ((blockList v e).map (·.data))

/-- The codeword stream of a version and level from the host's data codewords (spec/41_rs_codewords.md R142). -/
def codewordStream (v : Nat) (e : Level) (data : List Byte) : List Byte :=
  let datas := dataBlocks v e data
  interleave datas (datas.map fun d => ecc d (ecCount v e)) (ecCount v e)

/-- What ASSEMBLE writes (spec/41_rs_codewords.md R149): CW[0..C−1], CW_LEN ← C, CW_CFG ← the configuration, CW_VALID ← 1. -/
def assembleWrites (cfg : VersionLevel) (data : List Byte) (s : State) : State :=
  let v := cfg.version.toNat
  let e := levelOf cfg.ecl
  { s.writeRam .cw (codewordStream v e data) with
    engine := { s.engine with cwLen := BitVec.ofNat 12 (totalCount v e), cwCfg := cfg }
    status := { s.status with cwValid := true } }

/-- ASSEMBLE's checks (spec/41_rs_codewords.md R143) and its reads: the host's data codewords. -/
def assembleOperands (s : State) : Except Stop (List Byte) := do
  let v ← checkVersion s.host.config.version
  checkCapacity s.host.dataLen.toNat (dataCount v (levelOf s.host.config.ecl))
  dataBytes s s.host.dataLen.toNat

/-- ASSEMBLE (spec/41_rs_codewords.md R142). -/
def assembleBody (s : State) : Except Stop State := do
  let data ← assembleOperands s
  .ok (assembleWrites s.host.config data s)

/-- TABLE_LOOKUP, R141. -/
def execTableLookup (s : State) : Host.Outcome State Fault Refusal := runCommand tableLookupBody s

/-- ASSEMBLE, R142. -/
def execAssemble (s : State) : Host.Outcome State Fault Refusal := runCommand assembleBody s

end Sys2Proof.Machine
end

