-- ==== Sys2Proof/Machine/WriteSet.lean ====
section
/-! DEFINITION. The write set of each command: the Writes line of its rule (spec/00_scope.md R14, spec/30_encoding.md R93), as bits of registers,
RAM entries and plane cells. A host read of one of them while the command is pending gives an unspecified value (spec/20_memory.md R71, log 4);
everything else the command leaves as it is. -/

namespace Sys2Proof.Machine

/-- The three planes, by name. -/
inductive PlaneId where
  | darkp
  | asgn
  | func
deriving DecidableEq, Repr

/-- A plane of the matrix. -/
def Planes.plane (p : Planes) : PlaneId → Plane
  | .darkp => p.darkp
  | .asgn => p.asgn
  | .func => p.func

/-- The bits of MASK.BEST and MASK.SCORED (spec/10_state.md R35). -/
def maskScoreBits : Word := 0xF0

/-- The bits of MASK.APPLIED and MASK.APPLIED_VALID (spec/10_state.md R35). -/
def maskAppliedBits : Word := 0x0F

/-- The bits of STATUS.CW_VALID (spec/10_state.md R24). -/
def cwValidBits : Word := 0x80

/-- The bits of STATUS.BSTATE (spec/10_state.md R24). -/
def bstateBits : Word := 0x700

/-- The bits of a register that are named fields (spec/10_state.md R22 to R38); every other bit is reserved and reads 0. -/
def Reg.fieldBits : Reg → Word
  | .id => 0xFFFFFFFF
  | .cmd => 0
  | .status => 0x00FFF78F
  | .config => 0x33F
  | .dataLen => 0xFFF
  | .irqEn => 0x7
  | .arg0 => 0xFFFFFFFF
  | .arg1 => 0xFFFFFFFF
  | .result => 0xFFFFFFFF
  | .plenA => 0x1FF
  | .plenB => 0x1FF
  | .pshift => 0x1FF
  | .plenR => 0x3FF
  | .cwLen => 0xFFF
  | .cwCfg => 0x33F
  | .mtxCfg => 0xFF033F
  | .formatInfo => 0x7FFF
  | .versionInfo => 0x3FFFF
  | .mask => 0xFF
  | .tblTotal => 0xFFF
  | .tblData => 0xFFF
  | .tblEc => 0xFF
  | .tblG1 => 0xFFFFFF
  | .tblG2 => 0xFFFFFF
  | .tblGeom => 0xF0FFF
  | .pen _ _ => 0xFFFFFFFF

/-- Whether a register is a penalty register PEN_*[m] (spec/10_state.md R38). -/
def Reg.isPen : Reg → Bool
  | .pen _ _ => true
  | _ => false

/-- The registers SOFT_RESET writes (spec/44_control.md R221). -/
def Reg.softReset (r : Reg) : Bool :=
  r.isPen || [.result, .plenR, .cwLen, .cwCfg, .mtxCfg, .formatInfo, .versionInfo, .mask].contains r
  || [.tblTotal, .tblData, .tblEc, .tblG1, .tblG2, .tblGeom].contains r

/-- The registers MATRIX_INIT writes, but for STATUS (spec/43_matrix.md R181). -/
def Reg.matrixInit (r : Reg) : Bool := r.isPen || [.mtxCfg, .mask, .formatInfo, .versionInfo].contains r

/-- The registers TABLE_LOOKUP writes (spec/41_rs_codewords.md R141). -/
def Reg.tableLookup (r : Reg) : Bool := [.tblTotal, .tblData, .tblEc, .tblG1, .tblG2, .tblGeom].contains r

/-- All field bits of a register, if it is in a set. -/
def Reg.bitsIf (r : Reg) (b : Bool) : Word := if b then r.fieldBits else 0

/-- The bits of register `r` that command `i` may write, besides the bits of acceptance and completion in STATUS: the register part of the
command's Writes line. -/
def writtenBits (i : Instr) (r : Reg) : Word :=
  match i with
  | .nop => 0
  | .softReset => if r = .status then cwValidBits ||| bstateBits else r.bitsIf r.softReset
  | .gfExp => r.bitsIf (r == .result)
  | .gfLog => r.bitsIf (r == .result)
  | .gfMul => r.bitsIf (r == .result)
  | .gfInv => r.bitsIf (r == .result)
  | .polyMul => r.bitsIf (r == .plenR)
  | .polyMod => r.bitsIf (r == .plenR)
  | .rsGenpoly => r.bitsIf (r == .plenB)
  | .tableLookup => r.bitsIf r.tableLookup
  | .assemble => if r = .status then cwValidBits else r.bitsIf (r == .cwLen || r == .cwCfg)
  | .bchFormat => r.bitsIf (r == .result)
  | .bchVersion => r.bitsIf (r == .result)
  | .matrixInit => if r = .status then bstateBits else r.bitsIf r.matrixInit
  | .matrixPlace => if r = .status then bstateBits else 0
  | .maskScore => if r = .mask then maskScoreBits else r.bitsIf r.isPen
  | .maskSelect => if r = .status then bstateBits else r.bitsIf (r == .mask || r.isPen)
  | .maskForce => if r = .status then bstateBits else if r = .mask then maskAppliedBits else 0
  | .writeMeta => if r = .status then bstateBits else r.bitsIf (r == .formatInfo || r == .versionInfo)
  | .finalize => if r = .status then bstateBits else 0
  | .encode => if r = .status then cwValidBits ||| bstateBits else r.bitsIf (r.matrixInit || r == .cwLen || r == .cwCfg)

/-- The number of entries of CW that ASSEMBLE and ENCODE may write for the configured version: C(v), and all of CW when the version is not
in 1..40 and C(v) does not exist (log 5). -/
def writtenCodewords (s : State) : Nat :=
  match checkVersion s.host.config.version with
  | .ok v => totalCount v (levelOf s.host.config.ecl)
  | .error _ => Ram.cw.size

/-- Whether entry `k` of RAM `r` is in command `i`'s write set, for the operands in `s`: the RAM part of its Writes line. -/
def writesRam (i : Instr) (s : State) (r : Ram) (k : Nat) : Bool :=
  match i with
  | .polyMul => r == .pr && decide (k < (polyLengths s).product)
  | .polyMod => r == .pr && decide (k < (polyLengths s).lb - 1)
  | .rsGenpoly => r == .pb && decide (k < s.host.arg0.toNat + 1)
  | .assemble => r == .cw && decide (k < writtenCodewords s)
  | .encode => r == .cw && decide (k < writtenCodewords s)
  | .nop => false
  | .softReset => false
  | .gfExp => false
  | .gfLog => false
  | .gfMul => false
  | .gfInv => false
  | .tableLookup => false
  | .bchFormat => false
  | .bchVersion => false
  | .matrixInit => false
  | .matrixPlace => false
  | .maskScore => false
  | .maskSelect => false
  | .maskForce => false
  | .writeMeta => false
  | .finalize => false

/-- Whether (r, c) is a data cell of the current matrix: inside it, with FUNC = 0 (spec/00_scope.md R16). -/
def State.isDataCell (s : State) (r c : Nat) : Bool :=
  decide (r < s.matrixSide) && decide (c < s.matrixSide) && !s.planes.func.get r c

/-- Whether (r, c) is a reserved cell of the current matrix: a function cell of it (spec/00_scope.md R16, spec/10_state.md R40) at a place kept
for format information, the dark module or version information (spec/43_matrix.md R185, R186). Without a matrix there is none. -/
def State.isReservedCell (s : State) (r c : Nat) : Bool :=
  decide (r < s.matrixSide) && decide (c < s.matrixSide) && s.planes.func.get r c
  && (reservedCells s.engine.mtxCfg.version.toNat s.matrixSide).contains (r, c)

/-- Whether cell [r][c] of a plane is in command `i`'s write set: the plane part of its Writes line. -/
def writesCell (i : Instr) (s : State) (p : PlaneId) (r c : Nat) : Bool :=
  match i with
  | .softReset => true
  | .matrixInit => true
  | .encode => true
  | .matrixPlace => (p == .darkp || p == .asgn) && s.isDataCell r c
  | .maskSelect => p == .darkp && s.isDataCell r c
  | .maskForce => p == .darkp && s.isDataCell r c
  | .writeMeta => (p == .darkp || p == .asgn) && s.isReservedCell r c
  | .nop => false
  | .gfExp => false
  | .gfLog => false
  | .gfMul => false
  | .gfInv => false
  | .polyMul => false
  | .polyMod => false
  | .rsGenpoly => false
  | .tableLookup => false
  | .assemble => false
  | .bchFormat => false
  | .bchVersion => false
  | .maskScore => false
  | .finalize => false

end Sys2Proof.Machine
end

