-- ==== Sys2Proof/Machine/Bus.lean ====
section
/-! DEFINITION. The host bus (spec/20_memory.md R60 to R72): the address map, the windows, reads and writes, the busy rules, and the reset
input (spec/70_reset_and_hazards.md R271, R273). -/

namespace Sys2Proof.Machine

/-- What an aligned offset names (spec/20_memory.md R63). -/
inductive Location where
  /-- a register of spec/10_state.md R21 -/
  | reg (r : Reg)
  /-- the word of RAM entries k, k + 1, k + 2, k + 3 (spec/20_memory.md R64) -/
  | ramWord (r : Ram) (k : Nat)
  /-- word w of row r of a plane (spec/20_memory.md R65) -/
  | planeWord (p : PlaneId) (r w : Nat)
  /-- an unmapped or reserved offset (spec/20_memory.md R66) -/
  | unmapped
deriving DecidableEq, Repr

/-- The RAM whose window holds an offset. -/
def ramAt (o : Nat) : Option Ram := allRams.find? fun r => r.holds o

/-- The plane whose window holds an offset, with the offset in the window (spec/20_memory.md R63). -/
def planeAt (o : Nat) : Option (PlaneId × Nat) :=
  if 0x4000 ≤ o ∧ o < 0x6000 then some (.darkp, o - 0x4000)
  else if 0x6000 ≤ o ∧ o < 0x8000 then some (.asgn, o - 0x6000)
  else if 0x8000 ≤ o ∧ o < 0xA000 then some (.func, o - 0x8000)
  else none

/-- The address map (spec/20_memory.md R63). Row r and word w of a plane stand at 32·r + 4·w (R65). -/
def locate (o : Nat) : Location :=
  match regAt o with
  | some r => .reg r
  | none => match ramAt o with
    | some r => .ramWord r (o - r.base)
    | none => match planeAt o with
      | some (p, d) => .planeWord p (d / 32) (d % 32 / 4)
      | none => .unmapped

/-- A request the block serves: 4 bytes, aligned; any other is a refused access (spec/20_memory.md R62). -/
def Request.served (q : Request) : Bool := q.size == 4 && q.addr.extractLsb' 0 2 == 0

/-- Four bytes as a word, the first in bits 7:0 (spec/20_memory.md R64). -/
def wordOfBytes (b0 b1 b2 b3 : Byte) : Word := (b3 ++ b2 ++ b1 ++ b0 : BitVec 32)

/-- A word as four bytes, bits 7:0 first (spec/20_memory.md R64). -/
def bytesOfWord (w : Word) : List Byte :=
  [w.extractLsb' 0 8, w.extractLsb' 8 8, w.extractLsb' 16 8, w.extractLsb' 24 8]

/-- A mask byte: all ones or 0. -/
def maskByte (b : Bool) : Byte := if b then 0xFF else 0

/-- The 32 cells of word `w` of a row, cell 32·w + i in bit i (spec/20_memory.md R65). -/
def planeWordOf (f : Nat → Bool) (w : Nat) : Word := (rowOf (fun i => f (32 * w + i)) 32).setWidth 32

/-- The current value of a location (spec/20_memory.md R64, R65, R66). -/
def State.currentWord (s : State) : Location → Except Fault Word
  | .reg r => .ok (s.readReg r)
  | .ramWord r k => do
    let b0 ← s.ramByte r k
    let b1 ← s.ramByte r (k + 1)
    let b2 ← s.ramByte r (k + 2)
    let b3 ← s.ramByte r (k + 3)
    .ok (wordOfBytes b0 b1 b2 b3)
  | .planeWord p r w => .ok (planeWordOf ((s.planes.plane p).get r) w)
  | .unmapped => .ok 0

/-- The bits of a location that are in command `i`'s write set. Reads of STATUS are always exact (spec/20_memory.md R71). -/
def State.writeSetBits (s : State) (i : Instr) : Location → Word
  | .reg r => if r = .status then 0 else writtenBits i r
  | .ramWord r k =>
    wordOfBytes (maskByte (writesRam i s r k)) (maskByte (writesRam i s r (k + 1)))
      (maskByte (writesRam i s r (k + 2))) (maskByte (writesRam i s r (k + 3)))
  | .planeWord p r w => planeWordOf (writesCell i s p r) w
  | .unmapped => 0

/-- The command the engine is running: the pending word's, if it is one (spec/10_state.md R42). -/
def State.runningCommand (s : State) : Option Instr :=
  if s.status.busy then match s.pending with
    | some w => (decode w).toOption
    | none => none
  else none

/-- The bits of a location whose read is unspecified now (spec/20_memory.md R71). An ILLEGAL word has no write set. -/
def State.unspecifiedBits (s : State) (l : Location) : Word :=
  match s.runningCommand with
  | some i => s.writeSetBits i l
  | none => 0

/-- `v` with the bits of `mask` taken from the draw `d`. -/
def mixBits (v d mask : Word) : Word := (v &&& ~~~mask) ||| (d &&& mask)

/-- A served read at an offset (spec/20_memory.md R62, R71, R72): the current value, with a fresh draw for the bits in the running command's
write set. It changes no state of the block; a draw advances the model's own counter (log 4). -/
def State.busRead (s : State) (o : Nat) : Except Fault (Word × State) := do
  let v ← s.currentWord (locate o)
  let mask := s.unspecifiedBits (locate o)
  if mask = 0 then .ok (v, s)
  else .ok (mixBits v (Config.busyDraw s.draws) mask, { s with draws := s.draws + 1 })

/-- The effect of a write to a location while BUSY = 0 (spec/20_memory.md R64, R66). -/
def State.writeLocation (s : State) (l : Location) (w : Word) : State :=
  match l with
  | .reg r => s.writeReg r w
  | .ramWord r k => if r.hostWritable then { s with ram := s.ram.writeAll (r.base + k) (bytesOfWord w) } else s
  | .planeWord _ _ _ => s
  | .unmapped => s

/-- Whether a write to the location takes effect while BUSY = 1: STATUS and IRQ_EN only (spec/20_memory.md R70). -/
def Location.writableWhileBusy : Location → Bool
  | .reg r => r == .status || r == .irqEn
  | .ramWord _ _ => false
  | .planeWord _ _ _ => false
  | .unmapped => false

/-- A served write at an offset (spec/20_memory.md R66, R70; spec/60_exceptions.md R245): refused with OVR ← 1 while BUSY = 1, but for STATUS
and IRQ_EN. -/
def State.busWrite (s : State) (o : Nat) (w : Word) : State :=
  if s.status.busy && !(locate o).writableWhileBusy then { s with status := s.status.overrun }
  else s.writeLocation (locate o) w

/-- The block's response goes to the host (spec/20_memory.md R60). -/
def State.respond (s : State) (r : Response) : State := { s with resp := some r }

/-- One bus access by the host (spec/20_memory.md R62, R69, R74). A request while rst = 1 breaks the platform's contract
(spec/70_reset_and_hazards.md R273). -/
def hostAccess (q : Request) (s : State) : Host.Outcome State Fault Refusal :=
  if s.rst then .fault .busRequestInReset
  else if q.served then
    if q.write then .next ((s.busWrite q.addr.toNat q.wdata).respond (.write false))
    else match s.busRead q.addr.toNat with
      | .ok (v, t) => .next (t.respond (.read v false))
      | .error f => .fault f
  else .next (s.respond (if q.write then .write true else .read 0 true))

/-- The state after hardware reset (spec/70_reset_and_hazards.md R270, R271): a pending command leaves no trace, and every RAM byte is again
unwritten. The parameters, the events to come and the counters of the free values are not the block's and stay. -/
def State.afterReset (s : State) : State :=
  { State.reset with params := s.params, inbox := s.inbox, ramEpoch := s.ramEpoch + 1, draws := s.draws }

/-- The reset input takes a level (spec/70_reset_and_hazards.md R273). When it returns to 0 the state is that of reset; while it is 1 the engine
takes no step, and what the state is then is not stated (log 6). -/
def rstInput (level : Bool) (s : State) : State :=
  if level then { s with rst := true } else if s.rst then s.afterReset else s

end Sys2Proof.Machine
end

