-- ==== Sys2Proof/Machine/Control.lean ====
section
/-! DEFINITION. The control commands NOP, SOFT_RESET and ENCODE (spec/44_control.md R220 to R222), and the completion of an ILLEGAL word
(spec/60_exceptions.md R244). -/

namespace Sys2Proof.Machine

/-- NOP does nothing but complete (spec/44_control.md R220). -/
def nopBody (s : State) : Except Stop State := .ok s

/-- What SOFT_RESET writes (spec/44_control.md R221): every engine-written register, CW_VALID, BSTATE and the planes return to 0; the host-written
registers and the RAMs keep their values. -/
def softResetWrites (s : State) : State :=
  { s with engine := EngineRegs.zero, planes := Planes.zero
           status := { s.status with cwValid := false, bstate := .empty } }

/-- SOFT_RESET (spec/44_control.md R221). -/
def softResetBody (s : State) : Except Stop State := .ok (softResetWrites s)

/-- ENCODE (spec/44_control.md R222): both checks first, then the bodies of ASSEMBLE, MATRIX_INIT, MATRIX_PLACE, MASK_SELECT, WRITE_META and
FINALIZE, each with the configuration read at the top. -/
def encodeBody (s : State) : Except Stop State := do
  let data ← assembleOperands s
  let placed ← matrixPlaceWork (matrixInitWrites s.host.config (assembleWrites s.host.config data s))
  .ok (finalizeWrites (writeMetaWrites (maskSelectWrites placed)))

/-- NOP, R220. -/
def execNop (s : State) : Host.Outcome State Fault Refusal := runCommand nopBody s

/-- SOFT_RESET, R221. -/
def execSoftReset (s : State) : Host.Outcome State Fault Refusal := runCommand softResetBody s

/-- ENCODE, R222. -/
def execEncode (s : State) : Host.Outcome State Fault Refusal := runCommand encodeBody s

/-- The completion of an ILLEGAL word: IllegalCommand, and nothing but the completion bits changes (spec/60_exceptions.md R242, R244). -/
def execIllegal (s : State) : Host.Outcome State Fault Refusal := .next (s.raise .illegalCommand)

end Sys2Proof.Machine
end

