-- ==== Sys2Proof/Machine/Dispatch.lean ====
section
/-! DEFINITION. The dispatch: one arm per command. `exec i s` is the whole completion step of command `i` (spec/60_exceptions.md R246). -/

namespace Sys2Proof.Machine

def exec (i : Instr) (s : State) : Host.Outcome State Fault Refusal :=
  match i with
  | .nop => Sys2Proof.Machine.execNop s
  | .softReset => Sys2Proof.Machine.execSoftReset s
  | .gfExp => Sys2Proof.Machine.execGfExp s
  | .gfLog => Sys2Proof.Machine.execGfLog s
  | .gfMul => Sys2Proof.Machine.execGfMul s
  | .gfInv => Sys2Proof.Machine.execGfInv s
  | .polyMul => Sys2Proof.Machine.execPolyMul s
  | .polyMod => Sys2Proof.Machine.execPolyMod s
  | .rsGenpoly => Sys2Proof.Machine.execRsGenpoly s
  | .tableLookup => Sys2Proof.Machine.execTableLookup s
  | .assemble => Sys2Proof.Machine.execAssemble s
  | .bchFormat => Sys2Proof.Machine.execBchFormat s
  | .bchVersion => Sys2Proof.Machine.execBchVersion s
  | .matrixInit => Sys2Proof.Machine.execMatrixInit s
  | .matrixPlace => Sys2Proof.Machine.execMatrixPlace s
  | .maskScore => Sys2Proof.Machine.execMaskScore s
  | .maskSelect => Sys2Proof.Machine.execMaskSelect s
  | .maskForce => Sys2Proof.Machine.execMaskForce s
  | .writeMeta => Sys2Proof.Machine.execWriteMeta s
  | .finalize => Sys2Proof.Machine.execFinalize s
  | .encode => Sys2Proof.Machine.execEncode s

end Sys2Proof.Machine
end

