-- ==== Sys2Proof/Machine/Engine.lean ====
section
/-! DEFINITION. The engine's one step, completion (spec/60_exceptions.md R246), and the acceptance that places a command word before it. -/

namespace Sys2Proof.Machine

/-- The completion step on the pending word: its command, or IllegalCommand for a word that is none (spec/60_exceptions.md R246). -/
def completion (w : Word) (s : State) : Host.Outcome State Fault Refusal :=
  match decode w with
  | .ok i => exec i s
  | .error _ => execIllegal s

/-- The engine's turn: completion if a command is pending; the engine takes no step while rst = 1 (spec/70_reset_and_hazards.md R273). -/
def engineTurn (s : State) : Host.Outcome State Fault Refusal :=
  if s.rst then .next s
  else match s.pending with
    | some w => completion w s
    | none => .next s

/-- One event of the world (log 1). -/
def eventStep (e : Event) (s : State) : Host.Outcome State Fault Refusal :=
  match e with
  | .host q => hostAccess q s
  | .engine => engineTurn s
  | .rst level => .next (rstInput level s)

/-- The state in which the host's write of `w` to CMD has just been accepted and the engine moves next (spec/60_exceptions.md R245). -/
def State.withCommand (s : State) (w : Word) : State := { s.accept w with rst := false, inbox := .engine :: s.inbox }

end Sys2Proof.Machine
end

