-- ==== Sys2Proof/Machine/Step.lean ====
section
/-! DEFINITION. One step of the machine: a host bus access, a completion, or a change of the reset input (spec/00_scope.md R18). -/

namespace Sys2Proof.Machine

/-- The next event of the inbox happens; when there is none, the engine gets its turn (the weak fairness of spec/60_exceptions.md R248,
log 1). A step with nothing to do leaves the state as it is (log 2). -/
def step (s : State) : Host.Outcome State Fault Refusal :=
  match s.inbox with
  | [] => engineTurn s
  | e :: rest => eventStep e { s with inbox := rest }

/-- `s` with the command word whose `nbits` table bits are `w` accepted and the engine to move next, so that the next step completes exactly
that command (log 11). -/
def State.withFetchWord (s : State) (nbits w : Nat) : State := s.withCommand (tableWord nbits w)

end Sys2Proof.Machine
end

