-- ==== Sys2Proof/Machine/Program.lean ====
section
/-! DEFINITION. Host programs (spec/30_encoding.md R97, R98): one bus access a line, and the pseudo-instructions. A program is the list of events it
makes. `wait` polls STATUS until it reads BUSY = 0; how many polls come before the completion is not fixed (spec/60_exceptions.md R248), so it
is an argument here, and every choice of it is a run. -/

namespace Sys2Proof.Machine.Program

/-- `wr <target>, <value>`: MemWrite(offset, 4, value) (spec/30_encoding.md R97). -/
def wr (o : Nat) (v : Word) : Event := .host { write := true, addr := BitVec.ofNat 16 o, size := 4, wdata := v }

/-- `rd <target>`: MemRead(offset, 4) (spec/30_encoding.md R97). -/
def rd (o : Nat) : Event := .host { write := false, addr := BitVec.ofNat 16 o, size := 4, wdata := 0 }

/-- `wr` of a register by name. -/
def wrReg (r : Reg) (v : Word) : Event := wr r.offset v

/-- `rd` of a register by name. -/
def rdReg (r : Reg) : Event := rd r.offset

/-- The offset of the window element `<RAM>.w[j]` (spec/30_encoding.md R97, spec/20_memory.md R64). -/
def ramWordOffset (r : Ram) (j : Nat) : Nat := r.base + 4 * j

/-- The base offset of a plane's window (spec/20_memory.md R63). -/
def planeBase : PlaneId → Nat
  | .darkp => 0x4000
  | .asgn => 0x6000
  | .func => 0x8000

/-- The offset of the plane word `<plane>.row[r].w[k]` (spec/30_encoding.md R97, spec/20_memory.md R65). -/
def planeWordOffset (p : PlaneId) (r k : Nat) : Nat := planeBase p + 32 * r + 4 * k

/-- `cmd X` (spec/30_encoding.md R98). -/
def cmd (i : Instr) : Event := wrReg .cmd (encode i)

/-- `wait`, with `n` polls that still read BUSY = 1, the completion, and the poll that reads BUSY = 0 (spec/30_encoding.md R98). -/
def wait (n : Nat) : List Event := List.replicate n (rdReg .status) ++ [.engine, rdReg .status]

/-- `run X` (spec/30_encoding.md R98). -/
def run (i : Instr) (n : Nat) : List Event := cmd i :: wait n

/-- `cfg v, LVL` (spec/30_encoding.md R98). -/
def cfg (v : BitVec 6) (e : Level) : Event := wrReg .config { version := v, ecl := levelCode e : VersionLevel }.word

/-- `ack`: clears DONE, ERR and OVR (spec/30_encoding.md R98). -/
def ack : Event := wrReg .status 0x0000000E

/-- `bytes W[k], b0, b1, …` from word `j` of the window on, the last group padded with 0 bytes (spec/30_encoding.md R98). -/
def bytes (r : Ram) (j : Nat) : List Byte → List Event
  | [] => []
  | [a] => [wr (ramWordOffset r j) (wordOfBytes a 0 0 0)]
  | [a, b] => [wr (ramWordOffset r j) (wordOfBytes a b 0 0)]
  | [a, b, c] => [wr (ramWordOffset r j) (wordOfBytes a b c 0)]
  | a :: b :: c :: d :: rest => wr (ramWordOffset r j) (wordOfBytes a b c d) :: bytes r (j + 1) rest

end Sys2Proof.Machine.Program
end

