-- ==== Sys2Proof/Safety.lean ====
section
/-! DEFINITION. The terms the claims use: what a safe step is, the invariants of the block (spec/10_state.md R24, R35, R37, R41, R42, spec/43_matrix.md
R180, spec/60_exceptions.md R247), a command issued and completed, and the field and polynomial arithmetic written a second way, from
the spec's definitions and not from the tables the model uses. -/

namespace Sys2Proof.Machine

/-! ## Steps -/

/-- A step that breaks no contract of spec/93_implementation_defined.md: it answers a next state. -/
def SafeStep (s : State) : Prop := ∃ t, step s = .next t

/-- No command is running and the block is not held in reset: every bus access is served at once. -/
def State.Idle (s : State) : Prop := s.status.busy = false ∧ s.rst = false

/-- MemRead(o, 4) (spec/20_memory.md R62). -/
def readAt (o : Nat) : Request := { write := false, addr := BitVec.ofNat 16 o, size := 4, wdata := 0 }

/-- MemWrite(o, 4, w) (spec/20_memory.md R62). -/
def writeAt (o : Nat) (w : Word) : Request := { write := true, addr := BitVec.ofNat 16 o, size := 4, wdata := w }

/-- The host reads offset `o` in state `s` and is answered `v`, with err = 0; the state after it is `t`. -/
def ReadAnswers (s : State) (o : Nat) (v : Word) (t : State) : Prop :=
  hostAccess (readAt o) s = .next t ∧ t.resp = some (.read v false)

/-- RAM entries 0..n−1 of `r` can be read: each has been written since reset, or UNWRITTEN_READ = DRAW (spec/70_reset_and_hazards.md R272). -/
def State.Readable (s : State) (r : Ram) (n : Nat) : Prop := ∃ bs, s.ramBytes r 0 n = .ok bs

/-- A command issued while nothing is pending, and completed at once: acceptance, then its completion step (spec/60_exceptions.md R245, R246). -/
def issue (i : Instr) (s : State) : Host.Outcome State Fault Refusal := exec i (s.accept (encode i))

/-- Commands issued one after another, each after the one before completed. -/
def issueAll : List Instr → State → Host.Outcome State Fault Refusal
  | [], s => .next s
  | i :: rest, s => match issue i s with
    | .next t => issueAll rest t
    | .fault f => .fault f
    | .refused r => .refused r

/-! ## Runs and their end (spec/00_scope.md R19) -/

/-- `t` is the state `k` steps after `s`. -/
def ReachedIn : Nat → State → State → Prop
  | 0, s, t => t = s
  | k + 1, s, t => ∃ u, step s = .next u ∧ ReachedIn k u t

/-- A command write: a served write of CMD. One that is refused because BUSY = 1 (spec/20_memory.md R70) counts, one that is a refused access
(spec/20_memory.md R62) does not (log 17). -/
def Event.isCommandWrite : Event → Bool
  | .host q => q.write && q.served && q.addr.toNat == 0x004
  | .engine => false
  | .rst _ => false

/-- A served read of STATUS. -/
def Event.isStatusRead : Event → Bool
  | .host q => !q.write && q.served && q.addr.toNat == 0x008
  | .engine => false
  | .rst _ => false

/-- The step from `s` to `t` is the host's last command write: it is one, and no event still to come is one. -/
def LastCommandWrite (s t : State) : Prop :=
  (∃ e, s.inbox = e :: t.inbox ∧ e.isCommandWrite = true) ∧ step s = .next t ∧ ∀ e ∈ t.inbox, e.isCommandWrite = false

/-- In the step from `s` to `t` the host observes reg[STATUS].BUSY = 0: it reads STATUS, and the answer has bit 0 clear. -/
def ObservesIdle (s t : State) : Prop :=
  (∃ e, s.inbox = e :: t.inbox ∧ e.isStatusRead = true) ∧ step s = .next t ∧
    ∃ w : Word, t.resp = some (.read w false) ∧ w.getLsbD 0 = false

/-- `t` is the end of the run from `s`, R19: the first state in which the host has observed BUSY = 0 after its last command write. The run goes
from `s` to the last command write, from there in `k` steps to `v`, and in one more to `t`, which is the first of those after the write in which
the host observes BUSY = 0. Nothing is said of BSTATE, of ERR, or of a command the host never wrote. -/
def EndOfRun (s t : State) : Prop :=
  ∃ (j k : Nat) (r u v : State), ReachedIn j s r ∧ LastCommandWrite r u ∧ ReachedIn k u v ∧ ObservesIdle v t ∧
    ∀ m, m < k → ∀ x y, ReachedIn m u x → ¬ ObservesIdle x y

/-! ## Scores and the register map -/

/-- The least index below 8 at which `f` is least (spec/42_mask.md R170). -/
def IsFirstLeast (f : Nat → Nat) (b : Nat) : Prop := b < 8 ∧ ∀ p, p < 8 → f b ≤ f p ∧ (p < b → f b < f p)

/-- S(p) of the current matrix's candidate (spec/42_mask.md R169). -/
def State.maskScaled (s : State) (p : Nat) : Nat :=
  (scoreOf (candidate s.params.maskAxes s.planes p) s.matrixSide).scaled s.matrixSide

/-- The register map of spec/10_state.md R21, row by row: each register with its offset. -/
def registerMap : List (Reg × Nat) :=
  [(.id, 0x000), (.cmd, 0x004), (.status, 0x008), (.config, 0x00C), (.dataLen, 0x010), (.irqEn, 0x014), (.arg0, 0x018)] ++
  [(.arg1, 0x01C), (.result, 0x020), (.plenA, 0x024), (.plenB, 0x028), (.pshift, 0x02C), (.plenR, 0x030), (.cwLen, 0x034)] ++
  [(.cwCfg, 0x038), (.mtxCfg, 0x03C), (.formatInfo, 0x040), (.versionInfo, 0x044), (.mask, 0x048)] ++
  [(.tblTotal, 0x050), (.tblData, 0x054), (.tblEc, 0x058), (.tblG1, 0x05C), (.tblG2, 0x060), (.tblGeom, 0x064)] ++
  (List.finRange 8).flatMap fun m =>
    [(.pen m .p1, 0x100 + 16 * m.val), (.pen m .p2, 0x104 + 16 * m.val), (.pen m .p3, 0x108 + 16 * m.val),
      (.pen m .dark, 0x10C + 16 * m.val)]

/-! ## Invariants -/

/-- The life cycle of a command in STATUS and PENDING (spec/10_state.md R24, R42, spec/60_exceptions.md R245 to R247). -/
structure State.LifeCycleInv (s : State) : Prop where
  /-- PENDING is empty exactly when BUSY = 0, R42 -/
  busy_iff : s.status.busy = s.pending.isSome
  /-- DONE and ERR are never both 1, R24 -/
  not_both : ¬ (s.status.done = true ∧ s.status.err = true)
  /-- both are 0, and ERRCODE is 0, from acceptance to completion, R247, R24 -/
  busy_clear : s.status.busy = true → s.status.done = false ∧ s.status.err = false ∧ s.status.errcode = 0
  /-- after a completion without error ERRCODE is 0, R24 -/
  done_code : s.status.done = true → s.status.errcode = 0
  /-- ERR comes with a code, R240 -/
  err_code : s.status.err = true → s.status.errcode ≠ 0
  /-- ERRCODE is 0 or the code of an error; 2 and 10..15 are never held, R240 -/
  code_legal : s.status.errcode = 0 ∨ ∃ e : Err, s.status.errcode = e.code
  /-- LASTOP is the opcode field of the pending word, R245 -/
  lastop_pending : ∀ w, s.pending = some w → s.status.lastop = w.extractLsb' 0 8

/-- The canonical form of the RAM contents. -/
def State.MemoryInv (s : State) : Prop := Memory.wf s.ram

/-- The plane invariants (a) and (b) of spec/10_state.md R41, for side `n`. -/
structure Planes.CellInv (p : Planes) (n : Nat) : Prop where
  /-- (a) an unassigned cell is light -/
  unassigned_light : ∀ r c, p.asgn.get r c = false → p.darkp.get r c = false
  /-- (b) every cell outside the matrix has all three bits 0 -/
  outside_zero : ∀ r c, n ≤ r ∨ n ≤ c → p.darkp.get r c = false ∧ p.asgn.get r c = false ∧ p.func.get r c = false

/-- Whether a builder state is one in which a mask has been applied (spec/10_state.md R35). -/
def BState.hasMask : BState → Bool
  | .masked => true
  | .metadataWritten => true
  | .final => true
  | .empty => false
  | .functionPatternsPlaced => false
  | .dataPlaced => false

/-- Which cells are assigned in each builder state, for a matrix of side `n` whose function patterns `init` MATRIX_INIT placed (spec/10_state.md
R41 (c), (d); spec/43_matrix.md R186, R189, R196, R200): the function patterns; then the data cells too; then every cell. -/
def BState.assigned (b : BState) (init : Planes) (n r c : Nat) : Bool :=
  match b with
  | .empty => false
  | .functionPatternsPlaced => init.asgn.get r c
  | .dataPlaced => init.asgn.get r c || (decide (r < n) && decide (c < n) && !init.func.get r c)
  | .masked => init.asgn.get r c || (decide (r < n) && decide (c < n) && !init.func.get r c)
  | .metadataWritten => decide (r < n) && decide (c < n)
  | .final => decide (r < n) && decide (c < n)

/-- The builder state, MTX_CFG, MASK and the planes belong together (spec/10_state.md R33, R35, R37, R41, spec/43_matrix.md R180, R181). -/
structure State.BuilderInv (s : State) : Prop where
  /-- in Empty there is no matrix, R270, R221 -/
  empty_zero : s.status.bstate = .empty → s.engine.mtxCfg = { version := 0, ecl := 0, side := 0 } ∧ s.planes = Planes.zero
  /-- a matrix has a version in 1..40, R181 -/
  version_range : s.status.bstate ≠ .empty →
    1 ≤ s.engine.mtxCfg.version.toNat ∧ s.engine.mtxCfg.version.toNat ≤ 40
  /-- SIDE = 17 + 4·VERSION, R33 -/
  side_eq : s.status.bstate ≠ .empty → s.engine.mtxCfg.side.toNat = side s.engine.mtxCfg.version.toNat
  /-- R41 (a), (b) -/
  cells : s.planes.CellInv s.matrixSide
  /-- the function cells are those of the version's layout from MATRIX_INIT on, R181 to R186, R196 -/
  func_layout : s.status.bstate ≠ .empty →
    ∀ r c, s.planes.func.get r c = (initialPlanes s.engine.mtxCfg.version.toNat).func.get r c
  /-- the assigned cells are those of the builder state, R41 (c), (d) -/
  asgn_layout : s.status.bstate ≠ .empty →
    ∀ r c, s.planes.asgn.get r c =
      s.status.bstate.assigned (initialPlanes s.engine.mtxCfg.version.toNat) s.matrixSide r c
  /-- APPLIED_VALID is 1 in states Masked, MetadataWritten and Final, R35 -/
  applied_valid : s.engine.mask.appliedValid = s.status.bstate.hasMask

/-- What CW_VALID says (spec/10_state.md R32, spec/41_rs_codewords.md R149): CW_LEN is C(v) of a legal CW_CFG, and every byte of the stream has
been written; without it both registers are 0. -/
structure State.CodewordInv (s : State) : Prop where
  invalid_zero : s.status.cwValid = false → s.engine.cwLen = 0 ∧ s.engine.cwCfg = { version := 0, ecl := 0 }
  version_range : s.status.cwValid = true →
    1 ≤ s.engine.cwCfg.version.toNat ∧ s.engine.cwCfg.version.toNat ≤ 40
  len_eq : s.status.cwValid = true →
    s.engine.cwLen.toNat = totalCount s.engine.cwCfg.version.toNat (levelOf s.engine.cwCfg.ecl)
  written : ∀ k, k < s.engine.cwLen.toNat → (Memory.read s.ram (Ram.cw.base + k)).isSome = true

/-- The table of spec/43_matrix.md R180: the builder state after a success of command `i` in builder state `b`, none where `b` is not allowed. -/
def builderNext (i : Instr) (b : BState) : Option BState :=
  match i with
  | .matrixInit => some .functionPatternsPlaced
  | .matrixPlace => if b = .functionPatternsPlaced then some .dataPlaced else none
  | .maskScore => if b = .dataPlaced then some .dataPlaced else none
  | .maskSelect => if b = .dataPlaced then some .masked else none
  | .maskForce => if b = .dataPlaced then some .masked else none
  | .writeMeta => if b = .masked then some .metadataWritten else none
  | .finalize => if b = .metadataWritten then some .final else none
  | .encode => some .final
  | .softReset => some .empty
  | .nop => some b
  | .gfExp => some b
  | .gfLog => some b
  | .gfMul => some b
  | .gfInv => some b
  | .polyMul => some b
  | .polyMod => some b
  | .rsGenpoly => some b
  | .tableLookup => some b
  | .assemble => some b
  | .bchFormat => some b
  | .bchVersion => some b

/-! ## Field and polynomial arithmetic, a second way -/

/-- b·α^k: k doublings with reduction by 0x11D (spec/10_state.md R44). -/
def timesAlpha : Nat → Byte → Byte
  | 0, b => b
  | k + 1, b => doubleStep (timesAlpha k b)

/-- α^i (spec/40_gf_poly.md R110). -/
def alphaPow (i : Nat) : Byte := timesAlpha i 1

/-- The product of two elements as polynomials over GF(2), reduced by 0x11D (spec/40_gf_poly.md R114): the sum of b·α^k over the bits k of a. -/
def fieldProduct (a b : Byte) : Byte :=
  (List.range 8).foldl (fun acc k => if a.getLsbD k then acc ^^^ timesAlpha k b else acc) 0

/-- Coefficient k of a product: the sum of a[i]·b[j] over i + j = k (spec/40_gf_poly.md R120). -/
def convolution (a b : List Byte) (k : Nat) : Byte :=
  (List.range (k + 1)).foldl (fun acc i => acc ^^^ gmul (a.getD i 0) (b.getD (k - i) 0)) 0

/-- The value of a polynomial, highest degree first, at x. -/
def polyEval (p : List Byte) (x : Byte) : Byte := p.foldl (fun acc c => gmul acc x ^^^ c) 0

/-- The sum of two polynomials of the same length. -/
def polySum (a b : List Byte) : List Byte := List.zipWith (· ^^^ ·) a b

/-- Bit `k` of a codeword stream: bit 7 − (k mod 8) of codeword ⌊k/8⌋, 0 past its end (spec/43_matrix.md R190). -/
def streamBit (bs : List Byte) (k : Nat) : Bool := (bs.getD (k / 8) 0).getLsbD (7 - k % 8)

/-! ## The codeword stream, a second way (spec/41_rs_codewords.md R140 to R148) -/

/-- d_0, d_1, …: the data codewords of each block (R140). -/
def blockDataCounts (v : Nat) (e : Level) : List Nat := (blockList v e).map fun g => g.data

/-- off_j, the data offset of block j (R140). -/
def blockOffset (v : Nat) (e : Level) (j : Nat) : Nat := ((blockDataCounts v e).take j).sum

/-- dd[k], the padded data sequence (R144). -/
def paddedByte (data : List Byte) (k : Nat) : Byte :=
  if k < data.length then data.getD k 0 else if (k - data.length) % 2 = 0 then 0xEC else 0x11

/-- data_j[i] (R145). -/
def blockByte (v : Nat) (e : Level) (data : List Byte) (j i : Nat) : Byte := paddedByte data (blockOffset v e j + i)

/-- data_j (R145). -/
def blockData (v : Nat) (e : Level) (data : List Byte) (j : Nat) : List Byte :=
  (List.range ((blockDataCounts v e).getD j 0)).map (blockByte v e data j)

/-- The interleaved stream by the two double loops of R148, from block bytes and block EC codewords. -/
def streamByLoops (v : Nat) (e : Level) (data : List Byte) : List Byte :=
  let n := ecCount v e
  ((List.range ((blockDataCounts v e).foldr max 0)).flatMap fun i =>
    (List.range (blockList v e).length).flatMap fun j =>
      if i < (blockDataCounts v e).getD j 0 then [blockByte v e data j i] else [])
  ++ (List.range n).flatMap fun i =>
    (List.range (blockList v e).length).map fun j => (ecc (blockData v e data j) n).getD i 0

/-! ## The layout of a matrix, a second way (spec/43_matrix.md R182 to R186): a closed formula for each cell -/

/-- |a − b|. -/
def natDist (a b : Nat) : Nat := (a - b) + (b - a)

/-- The number of rings between cell (r, c) and the centre (a, b). -/
def ringOf (r c a b : Nat) : Nat := max (natDist r a) (natDist c b)

/-- The ring of the finder pattern a cell lies in, its centre being ring 0 and its separator ring 4 (R182). -/
def finderRing (n r c : Nat) : Option Nat :=
  ([(3, 3), (n - 4, 3), (3, n - 4)].map fun o => ringOf r c o.1 o.2).find? fun d => d ≤ 4

/-- The ring of the alignment pattern a cell lies in: its centre is a pair of the version's positions, other than the three that would overlap a
finder pattern (R183). -/
def alignRing (v r c : Nat) : Option Nat :=
  let n := side v
  (((alignCentres v).filter fun o => !([(6, 6), (6, n - 7), (n - 7, 6)].contains o)).map fun o => ringOf r c o.1 o.2).find?
    fun d => d ≤ 2

/-- Whether a cell lies on a timing pattern (R184). -/
def onTiming (n r c : Nat) : Bool :=
  (r == 6 && decide (8 ≤ c) && decide (c + 9 ≤ n)) || (c == 6 && decide (8 ≤ r) && decide (r + 9 ≤ n))

/-- Whether a cell is reserved for the format information or the dark module (R185: "column 8, rows 0..5, 7, 8 and N−8..N−1, and row 8, columns
0..5, 7 and N−8..N−1"). -/
def inFormatArea (n r c : Nat) : Bool :=
  (c == 8 && (decide (r ≤ 5) || r == 7 || r == 8 || decide (n ≤ r + 8)))
  || (r == 8 && (decide (c ≤ 5) || c == 7 || decide (n ≤ c + 8)))

/-- Whether a cell is reserved for the version information (R186). -/
def inVersionArea (n r c : Nat) : Bool :=
  (decide (r ≤ 5) && decide (n ≤ c + 11) && decide (c + 9 ≤ n)) || (decide (c ≤ 5) && decide (n ≤ r + 11) && decide (r + 9 ≤ n))

/-- Whether a cell belongs to a finder, separator, alignment or timing pattern of version `v`. -/
def isPatternCell (v r c : Nat) : Bool :=
  decide (r < side v) && decide (c < side v)
  && ((finderRing (side v) r c).isSome || (alignRing v r c).isSome || onTiming (side v) r c)

/-- Whether a pattern cell is dark: in a finder rings 0, 1 and 3; in an alignment pattern rings 0 and 2; on a timing pattern the even places. -/
def isDarkPattern (v r c : Nat) : Bool :=
  match finderRing (side v) r c with
  | some d => d == 0 || d == 1 || d == 3
  | none => match alignRing v r c with
    | some d => d == 0 || d == 2
    | none => (r + c) % 2 == 0

/-- Whether a cell is reserved in a matrix of version `v` (R185, R186). -/
def isReservedArea (v r c : Nat) : Bool :=
  decide (r < side v) && decide (c < side v)
  && (inFormatArea (side v) r c || (decide (7 ≤ v) && inVersionArea (side v) r c))

/-! ## The placement order, a second way: the loop of spec/43_matrix.md R189 -/

/-- The inner loop: the cells it yields from `row` on in direction `inc`, and the row and direction after it. -/
def zigzagColumn (n : Nat) (func : Plane) (col : Nat) : Nat → Int → Int → List (Nat × Nat) × Int × Int
  | 0, row, inc => ([], row, inc)
  | k + 1, row, inc =>
    let here := [(row.toNat, col), (row.toNat, col - 1)].filter fun x => !func.get x.1 x.2
    let row' := row + inc
    if row' < 0 ∨ (n : Int) ≤ row' then (here, row' - inc, -inc)
    else
      let rest := zigzagColumn n func col k row' inc
      (here ++ rest.1, rest.2)

/-- The outer loop, at most `k` column pairs. -/
def zigzagLoop (n : Nat) (func : Plane) : Nat → Int → Int → Nat → List (Nat × Nat)
  | 0, _, _, _ => []
  | k + 1, row, inc, col =>
    if col = 0 then []
    else
      let c := if col = 6 then 5 else col
      let swept := zigzagColumn n func c n row inc
      swept.1 ++ zigzagLoop n func k swept.2.1 swept.2.2 (c - 2)

/-- `placement_order(N)` as the loop of R189 yields it: row N−1, upwards, column N−1. -/
def placementLoop (n : Nat) (func : Plane) : List (Nat × Nat) := zigzagLoop n func n ((n : Int) - 1) (-1) (n - 1)

/-! ## The BCH codes and the penalty rules, a second way -/

/-- The product over GF(2), bits as coefficients, of a polynomial `q` of at most 6 bits and `g` (spec/43_matrix.md R191). -/
def carrylessProduct (q g : Nat) : Nat := (List.range 6).foldl (fun acc k => if q.testBit k then acc ^^^ (g <<< k) else acc) 0

/-- The pairs (r, c) with r < a and c < b. -/
def grid (a b : Nat) : List (Nat × Nat) := (List.range a).flatMap fun r => (List.range b).map fun c => (r, c)

/-- The number of cells at distance 1 from (r, c) inside the array with its bit (spec/42_mask.md R164). -/
def neighbourCount (m : Nat → Nat → Bool) (n r c : Nat) : Nat :=
  (grid n n).countP fun x => ringOf x.1 x.2 r c == 1 && m x.1 x.2 == m r c

/-- The finder-like run of spec/42_mask.md R166: dark, light, dark, dark, dark, light, dark. -/
def runAt (f : Nat → Bool) : Bool := f 0 && !f 1 && f 2 && f 3 && f 4 && !f 5 && f 6

end Sys2Proof.Machine
end

