-- ==== Sys2Proof/Certificates/Slice0/Obligations.lean ====
section
/-! DEFINITION. The statements for the provers. Each docstring names the rules of spec/ it formalises, and the log entry where a clause rests on a
choice of the model. `exec i s = .next t` says that command `i`'s completion step succeeds or reports an error, `State.complete` and `State.raise`
are the two ways a command ends (spec/60_exceptions.md R246), which `ErrorsArePrecise` spells out. -/

section

open Sys2Proof Sys2Proof.Machine

/-! ## Encoding -/

/-- R94, R95: the word of each of the 21 commands, and ILLEGAL words at the edges of the reserved ranges and with RSV ≠ 0. -/
def Obligations.CommandWordsDecode : Prop :=
  (decode 0x00000000 = .ok .nop ∧ decode 0x00000001 = .ok .softReset ∧ decode 0x00000010 = .ok .gfExp ∧
    decode 0x00000011 = .ok .gfLog ∧ decode 0x00000012 = .ok .gfMul ∧ decode 0x00000013 = .ok .gfInv ∧
    decode 0x00000018 = .ok .polyMul ∧ decode 0x00000019 = .ok .polyMod ∧ decode 0x0000001A = .ok .rsGenpoly ∧
    decode 0x00000020 = .ok .tableLookup ∧ decode 0x00000021 = .ok .assemble) ∧
  (decode 0x00000030 = .ok .bchFormat ∧ decode 0x00000031 = .ok .bchVersion ∧ decode 0x00000040 = .ok .matrixInit ∧
    decode 0x00000041 = .ok .matrixPlace ∧ decode 0x00000042 = .ok .maskScore ∧ decode 0x00000043 = .ok .maskSelect ∧
    decode 0x00000044 = .ok .maskForce ∧ decode 0x00000045 = .ok .writeMeta ∧ decode 0x00000046 = .ok .finalize ∧
    decode 0x00000050 = .ok .encode) ∧
  (decode 0x00000002 = .error .reservedOpcode ∧ decode 0x0000000F = .error .reservedOpcode ∧
    decode 0x00000014 = .error .reservedOpcode ∧ decode 0x00000047 = .error .reservedOpcode ∧
    decode 0x000000FF = .error .reservedOpcode ∧ decode 0x00000110 = .error .reservedBitsSet ∧
    decode 0x80000050 = .error .reservedBitsSet)

/-- R90, R91, R94, R96: a word decodes to a command exactly when it is that command's word, so decoding inverts encoding, no two commands share
a word, and no bit of the word is ignored. -/
def Obligations.DecodeExactlyTheEncodings : Prop := ∀ (w : Word) (i : Instr), decode w = .ok i ↔ w = encode i

/-- R95, R244: which words are ILLEGAL (RSV ≠ 0, or OPC in a reserved range of R94), and that the completion of one records IllegalCommand (code
1) and changes nothing but the completion bits. -/
def Obligations.IllegalWordsChangeNothing : Prop :=
  (∀ w : Word, (∃ e, decode w = .error e) ↔
    (w.toNat / 256 ≠ 0 ∨
      (let opc := w.toNat % 256
       (0x02 ≤ opc ∧ opc ≤ 0x0F) ∨ (0x14 ≤ opc ∧ opc ≤ 0x17) ∨ (0x1B ≤ opc ∧ opc ≤ 0x1F) ∨ (0x22 ≤ opc ∧ opc ≤ 0x2F) ∨
       (0x32 ≤ opc ∧ opc ≤ 0x3F) ∨ (0x47 ≤ opc ∧ opc ≤ 0x4F) ∨ (0x51 ≤ opc ∧ opc ≤ 0xFF)))) ∧
  ∀ (w : Word) (e : Illegal) (s : State), decode w = .error e →
    completion w s = .next { s with
      pending := none, status := { s.status with err := true, errcode := 1, busy := false } }

/-! ## Steps and the life cycle of a command -/

/-- R246, R244, R61, R273: the engine's turn runs the decoded pending command, and completes an ILLEGAL pending word with code 1 and nothing else
changed; a host event is one bus access; the reset input takes its level, and the reset state comes when it returns to 0. That the engine has the
turn when no event is left is the model's choice (log 1), that a turn with nothing pending leaves the state as it is the model's (log 2), and that
the state stays while rst = 1 the model's (log 6). -/
def Obligations.StepRunsThePendingCommand : Prop :=
  (∀ (s : State) (w : Word) (i : Instr), s.pending = some w → s.rst = false → decode w = .ok i →
    (s.inbox = [] → step s = exec i s) ∧
    ∀ rest, s.inbox = .engine :: rest → step s = exec i { s with inbox := rest }) ∧
  (∀ (s : State) (w : Word) (e : Illegal), s.pending = some w → s.rst = false → decode w = .error e →
    (s.inbox = [] → step s = .next { s with
      pending := none, status := { s.status with err := true, errcode := 1, busy := false } }) ∧
    ∀ rest, s.inbox = .engine :: rest → step s = .next { s with
      pending := none, status := { s.status with err := true, errcode := 1, busy := false }, inbox := rest }) ∧
  (∀ (s : State) (q : Request) rest, s.inbox = .host q :: rest → step s = hostAccess q { s with inbox := rest }) ∧
  (∀ (s : State) (level : Bool) rest, s.inbox = .rst level :: rest →
    (level = true → step s = .next { s with rst := true, inbox := rest }) ∧
    (level = false → s.rst = true → step s = .next (State.afterReset { s with inbox := rest })) ∧
    (level = false → s.rst = false → step s = .next { s with inbox := rest })) ∧
  ∀ s : State, s.pending = none → (s.inbox = [] → step s = .next s) ∧
    ∀ rest, s.inbox = .engine :: rest → step s = .next { s with inbox := rest }

/-- R245: acceptance of a CMD write, with BUSY = 0 and with BUSY = 1. -/
def Obligations.CommandAcceptance : Prop :=
  ∀ (s : State) (w : Word), s.rst = false →
    (s.status.busy = false → hostAccess (writeAt 0x004 w) s = .next { s with
      pending := some w
      status := { s.status with
        busy := true, done := false, err := false, errcode := 0, lastop := BitVec.ofNat 8 (w.toNat % 256) }
      resp := some (.write false) }) ∧
    (s.status.busy = true → hostAccess (writeAt 0x004 w) s = .next { s with
      status := { s.status with ovr := true }, resp := some (.write false) })

/-- R70: while BUSY = 1 only STATUS and IRQ_EN take a write; every other served write changes nothing but OVR ← 1 and answers err = 0. -/
def Obligations.BusyWritesAreRefused : Prop :=
  ∀ (s : State) (o : Nat) (w : Word), s.rst = false → s.status.busy = true → o < 65536 → o % 4 = 0 →
    (o ≠ 0x008 → o ≠ 0x014 → hostAccess (writeAt o w) s = .next { s with
      status := { s.status with ovr := true }, resp := some (.write false) }) ∧
    (o = 0x008 → hostAccess (writeAt o w) s = .next { s with
      status := { s.status with
        done := s.status.done && !w.getLsbD 1, err := s.status.err && !w.getLsbD 2, ovr := s.status.ovr && !w.getLsbD 3 }
      resp := some (.write false) }) ∧
    (o = 0x014 → hostAccess (writeAt o w) s = .next { s with
      host := { s.host with irqEn := { doneIe := w.getLsbD 0, errIe := w.getLsbD 1, ovrIe := w.getLsbD 2 } }
      resp := some (.write false) })

/-- R62: a request of another size or not aligned is answered err = 1 (a read with rdata = 0) and changes no state of the block, BUSY or not;
every other request is answered err = 0. -/
def Obligations.RefusedBusAccess : Prop :=
  ∀ (s : State) (q : Request), s.rst = false →
    (¬ (q.size.toNat = 4 ∧ q.addr.toNat % 4 = 0) →
      hostAccess q s = .next { s with resp := some (if q.write then .write true else .read 0 true) }) ∧
    (q.size.toNat = 4 ∧ q.addr.toNat % 4 = 0 → ∀ t, hostAccess q s = .next t →
      t.resp = some (.write false) ∨ ∃ v, t.resp = some (.read v false))

/-- R72: a read changes no state of the block; while BUSY = 0 it answers the location's current value, and a second read the same. The fields
resp and draws are the model's own (logs 4, 10). -/
def Obligations.ReadsChangeNothing : Prop :=
  (∀ (s t : State) (q : Request), q.write = false → hostAccess q s = .next t → t = { s with resp := t.resp, draws := t.draws }) ∧
  ∀ (s : State) (o : Nat) (v : Word), s.Idle → o < 65536 → o % 4 = 0 → s.currentWord (locate o) = .ok v →
    ∃ t, ReadAnswers s o v t ∧ t.draws = s.draws ∧ ∃ t', ReadAnswers t o v t'

/-- R71 and log 4: while a command runs, a read is exact in every bit outside its write set, takes a fresh draw in every bit of it (bit by bit: the
model's reading, log 4), and is exact for STATUS. A cell is in the write set of a command that does not start or clear a matrix only where the
matrix has such a cell: for WRITE_META a function cell of it, for the others a data cell of it. -/
def Obligations.BusyReadsOutsideTheWriteSetAreExact : Prop :=
  (∀ (s : State) (w : Word) (i : Instr) (o : Nat) (v : Word), s.rst = false → s.status.busy = true → s.pending = some w →
    decode w = .ok i → o < 65536 → o % 4 = 0 → s.currentWord (locate o) = .ok v →
    ∃ (x : Word) (t : State), ReadAnswers s o x t ∧
      (∀ b, (s.writeSetBits i (locate o)).getLsbD b = false → x.getLsbD b = v.getLsbD b) ∧
      (∀ b, (s.writeSetBits i (locate o)).getLsbD b = true →
        x.getLsbD b = (Config.busyDraw s.draws).getLsbD b ∧ t.draws = s.draws + 1) ∧
      (o = 0x008 → x = statusWord s.status)) ∧
  ∀ (s : State) (i : Instr) (p : PlaneId) (r c : Nat), writesCell i s p r c = true →
    [Instr.softReset, .matrixInit, .encode].contains i = true ∨
    (r < s.matrixSide ∧ c < s.matrixSide ∧ s.planes.func.get r c = decide (i = .writeMeta))

/-- R19, R74 (b), R75: once a read of STATUS shows BUSY = 0, no command is pending, and the read has changed nothing: what the command wrote is
there for every later read. The end of a run, the first state in which the host has observed BUSY = 0 after its last command write, is one state;
no command is pending in it and none is written after it. A program that issues one command and polls, with `n` polls before the completion,
reaches the end of its run with UNWRITTEN_READ = DRAW, in the state that the command's completion left, be it a success or an error. Which writes
of CMD count as command writes is the model's reading (log 17). -/
def Obligations.ObservingIdleMeansCompleted : Prop :=
  (∀ s t : State, s.LifeCycleInv → ObservesIdle s t →
    s.pending = none ∧ t = { s with inbox := t.inbox, resp := t.resp } ∧ ∃ e, s.inbox = e :: t.inbox) ∧
  (∀ s t : State, s.LifeCycleInv → EndOfRun s t →
    t.pending = none ∧ t.status.busy = false ∧ (∀ e ∈ t.inbox, e.isCommandWrite = false) ∧ ∀ t', EndOfRun s t' → t' = t) ∧
  ∀ (s : State) (i : Instr) (n : Nat), s.LifeCycleInv → s.Idle → s.params.unwrittenRead = .draw → s.inbox = Program.run i n →
    ∃ p u t : State, p = { s.accept (encode i) with inbox := p.inbox, resp := p.resp } ∧ exec i p = .next u ∧
      t = { u with inbox := [], resp := t.resp } ∧ EndOfRun s t

/-! ## The bus windows and the register map -/

/-- R64: a byte window packs four RAM entries a word, the first in bits 7:0; a write of a RW window sets all four and no other byte. -/
def Obligations.ByteWindowAccess : Prop :=
  (∀ (s : State) (r : Ram) (j : Nat) (b0 b1 b2 b3 : Byte), s.Idle → 4 * j + 3 < r.size →
    s.ramByte r (4 * j) = .ok b0 → s.ramByte r (4 * j + 1) = .ok b1 → s.ramByte r (4 * j + 2) = .ok b2 →
    s.ramByte r (4 * j + 3) = .ok b3 →
    ∃ (x : Word) (t : State), ReadAnswers s (r.base + 4 * j) x t ∧
      x.toNat = b0.toNat + 2 ^ 8 * b1.toNat + 2 ^ 16 * b2.toNat + 2 ^ 24 * b3.toNat) ∧
  ∀ (s : State) (r : Ram) (j : Nat) (w : Word), s.Idle → 4 * j + 3 < r.size → (r = .data ∨ r = .pa ∨ r = .pb) →
    ∃ t, hostAccess (writeAt (r.base + 4 * j) w) s = .next t ∧ t = { s with ram := t.ram, resp := some (.write false) } ∧
      (∀ i, i < 4 → t.ramByte r (4 * j + i) = .ok (BitVec.ofNat 8 (w.toNat / 2 ^ (8 * i)))) ∧
      ∀ (r' : Ram) (k : Nat), k < r'.size → ¬ (r' = r ∧ 4 * j ≤ k ∧ k < 4 * j + 4) → t.ramByte r' k = s.ramByte r' k

/-- R65: bit i of the word at B + 32·r + 4·w of a plane's window is cell [r][32·w + i]; cells outside the matrix read 0 where the plane invariant
R41 (b) holds. -/
def Obligations.PlaneWindowRead : Prop :=
  ∀ (s : State) (p : PlaneId) (r w : Nat), s.Idle → r < 256 → w < 8 →
    let base := match p with
      | .darkp => 0x4000
      | .asgn => 0x6000
      | .func => 0x8000
    ∃ (x : Word) (t : State), ReadAnswers s (base + 32 * r + 4 * w) x t ∧
      ∀ i, i < 32 → x.getLsbD i = (s.planes.plane p).get r (32 * w + i) ∧
        (s.planes.CellInv s.matrixSide → s.matrixSide ≤ r ∨ s.matrixSide ≤ 32 * w + i → x.getLsbD i = false)

/-- R66: an unmapped or reserved offset reads 0 and ignores a write; a read-only register or window ignores a write; none sets a status bit. The
ranges are those of R21 and R63. -/
def Obligations.UnmappedAndReadOnlyOffsets : Prop :=
  ∀ (s : State) (o : Nat) (w : Word), s.Idle → o < 65536 → o % 4 = 0 →
    let unmapped := o = 0x04C ∨ (0x068 ≤ o ∧ o < 0x100) ∨ (0x180 ≤ o ∧ o < 0x1000) ∨ (0x3100 ≤ o ∧ o < 0x3400) ∨
      (0x3500 ≤ o ∧ o < 0x3800) ∨ (0x3A00 ≤ o ∧ o < 0x4000) ∨ 0xA000 ≤ o
    let readOnly := o = 0x000 ∨ o = 0x020 ∨ (0x030 ≤ o ∧ o ≤ 0x048) ∨ (0x050 ≤ o ∧ o ≤ 0x064) ∨ (0x100 ≤ o ∧ o < 0x180) ∨
      (0x2000 ≤ o ∧ o < 0x3000) ∨ (0x3800 ≤ o ∧ o < 0x3A00) ∨ (0x4000 ≤ o ∧ o < 0xA000)
    (unmapped → hostAccess (readAt o) s = .next { s with resp := some (.read 0 false) }) ∧
    (unmapped ∨ readOnly → hostAccess (writeAt o w) s = .next { s with resp := some (.write false) })

/-- R21, R24 to R30: every register is read at its offset in the map of R21 (`registerMap` of Safety.lean, which holds the numbers), its reserved bits
as 0; a write of a RW register there holds the bits of its fields and changes no other register; a write of STATUS clears the W1C bits it names
and changes nothing else. -/
def Obligations.RegisterAccess : Prop :=
  (∀ r : Reg, ∃ o, (r, o) ∈ registerMap) ∧
  (∀ (s : State) (r : Reg) (o : Nat), s.Idle → (r, o) ∈ registerMap →
    ∃ t, ReadAnswers s o (s.readReg r) t ∧ s.readReg r &&& ~~~r.fieldBits = 0) ∧
  (∀ (s : State) (r : Reg) (o : Nat) (w : Word), s.Idle → (r, o) ∈ registerMap →
    [Reg.config, .dataLen, .irqEn, .arg0, .arg1, .plenA, .plenB, .pshift].contains r = true →
    ∃ t, hostAccess (writeAt o w) s = .next t ∧ t = { s with host := t.host, resp := some (.write false) } ∧
      t.readReg r = w &&& r.fieldBits ∧ ∀ r', r' ≠ r → t.readReg r' = s.readReg r') ∧
  ∀ (s : State) (w : Word), s.Idle →
    ∃ t, hostAccess (writeAt 0x008 w) s = .next t ∧ t = { s with status := t.status, resp := some (.write false) } ∧
      t.readReg .status = s.readReg .status &&& ~~~(w &&& 0x0000000E)

/-- R250: irq is the OR of the three STATUS bits, each with its enable; a STATUS write ends the sources whose bits it has 1 in, and no other, BUSY or
not; an acceptance ends DONE and ERR; irq is 0 after reset. -/
def Obligations.InterruptLevel : Prop :=
  (∀ s : State, s.irq =
    (((s.readReg .status).getLsbD 1 && (s.readReg .irqEn).getLsbD 0) ||
      ((s.readReg .status).getLsbD 2 && (s.readReg .irqEn).getLsbD 1) ||
      ((s.readReg .status).getLsbD 3 && (s.readReg .irqEn).getLsbD 2))) ∧
  (∀ (s : State) (w : Word), s.rst = false → ∃ t, hostAccess (writeAt 0x008 w) s = .next t ∧ t.irq =
    (((s.readReg .status).getLsbD 1 && !w.getLsbD 1 && (s.readReg .irqEn).getLsbD 0) ||
      ((s.readReg .status).getLsbD 2 && !w.getLsbD 2 && (s.readReg .irqEn).getLsbD 1) ||
      ((s.readReg .status).getLsbD 3 && !w.getLsbD 3 && (s.readReg .irqEn).getLsbD 2))) ∧
  (∀ (s t : State) (w : Word), s.Idle → hostAccess (writeAt 0x004 w) s = .next t →
    t.irq = (s.status.ovr && s.host.irqEn.ovrIe)) ∧
  State.reset.irq = false

/-! ## Reset -/

/-- R270, R271, R273: when rst returns to 0 the state is that of reset, whatever was pending: CONFIG reads 0x101, ID its constant, every other
register 0; every plane bit is 0; no RAM byte counts as written; irq = 0. -/
def Obligations.HardwareResetState : Prop :=
  ∀ (s : State) rest, s.rst = true → s.inbox = .rst false :: rest →
    ∃ t, step s = .next t ∧ t.pending = none ∧ t.rst = false ∧ t.irq = false ∧
      (∀ r : Reg, t.readReg r = if r = .id then 0x51520001 else if r = .config then 0x00000101 else 0) ∧
      (∀ (p : PlaneId) (r c : Nat), (t.planes.plane p).get r c = false) ∧
      (∀ a, Memory.read t.ram a = none) ∧ t.params = s.params ∧ t.inbox = rest

/-- R271 ("Reset is the only way a pending command can be abandoned"), R246, R273: a pending command leaves PENDING only by its completion step or, when
rst returns to 0, by hardware reset. That PENDING keeps the word while rst is 1 is the model's choice (log 6). -/
def Obligations.PendingIsAbandonedOnlyByReset : Prop :=
  ∀ (s t : State) (w : Word), s.status.busy = true → s.pending = some w → step s = .next t →
    t.pending = some w ∨
    (s.rst = false ∧ ∃ u : State, u.inbox = t.inbox ∧ u = { s with inbox := u.inbox } ∧ completion w u = .next t) ∨
    (s.rst = true ∧ ∃ rest, s.inbox = .rst false :: rest ∧ t = State.afterReset { s with inbox := rest } ∧
      t.pending = none ∧ t.readReg .status = 0)

/-- R273, U7 of 93_implementation_defined.md: while rst = 1 the engine takes no step and a bus request breaks the platform's contract. That the whole
state, STATUS and irq among it, stays as it is then is the model's choice (logs 2 and 6), and so is that the model stops on the request (log 7). -/
def Obligations.HeldInReset : Prop :=
  (∀ s : State, s.rst = true → s.inbox = [] → step s = .next s) ∧
  (∀ (s : State) rest, s.rst = true → s.inbox = .engine :: rest → step s = .next { s with inbox := rest }) ∧
  ∀ (s : State) (q : Request), s.rst = true → hostAccess q s = .fault .busRequestInReset

/-! ## Progress and invariants -/

/-- R248, R282: with UNWRITTEN_READ = DRAW and no reset among the events to come, a pending command completes within as many steps as there are events
and one more, with exactly one of DONE and ERR. That the engine has the turn when no event is left is the model's form of weak fairness (log 1). -/
def Obligations.PendingCommandCompletes : Prop :=
  ∀ (s : State) (w : Word), s.LifeCycleInv → s.pending = some w → s.rst = false → s.params.unwrittenRead = .draw →
    (∀ level, Event.rst level ∉ s.inbox) →
    ∃ k, k ≤ s.inbox.length + 1 ∧ ∃ t, Host.Core.run Sys2Proof.core k s = .next t ∧
      t.pending = none ∧ t.status.busy = false ∧ t.status.done = !t.status.err

/-- R42, R24, R41, R32, R35, R37 at reset (R270): the invariants hold. -/
def Obligations.ResetMeetsTheInvariants : Prop :=
  State.reset.LifeCycleInv ∧ State.reset.MemoryInv ∧ State.reset.CodewordInv ∧ State.reset.BuilderInv

/-- R24, R42, R245 to R247: every step keeps the life-cycle invariant of STATUS and PENDING. -/
def Obligations.StepKeepsLifeCycle : Prop := ∀ s t : State, s.LifeCycleInv → step s = .next t → t.LifeCycleInv

/-- R39, R64: every step keeps the RAM contents in canonical form, every entry a byte of one of the five RAMs. -/
def Obligations.StepKeepsMemoryForm : Prop := ∀ s t : State, s.MemoryInv → step s = .next t → t.MemoryInv

/-- R32, R149: every step keeps CW_VALID, CW_LEN, CW_CFG and the written bytes of CW together. -/
def Obligations.StepKeepsCodewords : Prop := ∀ s t : State, s.CodewordInv → step s = .next t → t.CodewordInv

/-- R33, R35, R37, R41, R180: every step keeps BSTATE, MTX_CFG, MASK.APPLIED_VALID and the planes together; R41 (a) to (d) are clauses of it. -/
def Obligations.StepKeepsBuilder : Prop := ∀ s t : State, s.BuilderInv → step s = .next t → t.BuilderInv

/-! ## Field and polynomial commands -/

/-- R115: GF_EXP. RESULT ← α^ARG0, for every ARG0, computed here by doubling; nothing else but the completion bits changes. -/
def Obligations.GfExpResult : Prop :=
  encode .gfExp = 0x00000010 ∧
  ∀ s : State, exec .gfExp s = .next (State.complete { s with engine := { s.engine with
    result := (alphaPow s.host.arg0.toNat).setWidth 32 } }) ∧
    alphaPow (s.host.arg0.toNat % 255) = alphaPow s.host.arg0.toNat

/-- R116: GF_LOG. RESULT ← the i in 0..254 with α^i = ARG0; DomainError for 0 and above 255. -/
def Obligations.GfLogResult : Prop :=
  encode .gfLog = 0x00000011 ∧
  ∀ s : State,
    (1 ≤ s.host.arg0.toNat → s.host.arg0.toNat ≤ 255 →
      ∃ i, i < 255 ∧ (alphaPow i).toNat = s.host.arg0.toNat ∧
        exec .gfLog s = .next (State.complete { s with engine := { s.engine with result := BitVec.ofNat 32 i } })) ∧
    (s.host.arg0.toNat = 0 ∨ s.host.arg0.toNat > 255 → exec .gfLog s = .next (s.raise .domainError))

/-- R117: GF_MUL. RESULT ← the field product, computed here as a product of polynomials over GF(2) reduced by 0x11D; DomainError above 255. -/
def Obligations.GfMulResult : Prop :=
  encode .gfMul = 0x00000012 ∧
  ∀ s : State,
    (s.host.arg0.toNat ≤ 255 → s.host.arg1.toNat ≤ 255 →
      exec .gfMul s = .next (State.complete { s with engine := { s.engine with
        result := (fieldProduct (s.host.arg0.setWidth 8) (s.host.arg1.setWidth 8)).setWidth 32 } })) ∧
    (s.host.arg0.toNat > 255 ∨ s.host.arg1.toNat > 255 → exec .gfMul s = .next (s.raise .domainError))

/-- R118: GF_INV. RESULT ← the b with ARG0·b = 1, and the inverse of that is ARG0 again; DomainError for 0 and above 255. -/
def Obligations.GfInvResult : Prop :=
  encode .gfInv = 0x00000013 ∧
  ∀ s : State,
    (1 ≤ s.host.arg0.toNat → s.host.arg0.toNat ≤ 255 →
      ∃ b : Byte, fieldProduct (s.host.arg0.setWidth 8) b = 1 ∧ ginv b = s.host.arg0.setWidth 8 ∧
        exec .gfInv s = .next (State.complete { s with engine := { s.engine with result := b.setWidth 32 } })) ∧
    (s.host.arg0.toNat = 0 ∨ s.host.arg0.toNat > 255 → exec .gfInv s = .next (s.raise .domainError))

/-- R114: with ⊕ and gmul the bytes form a field, the one of polynomials over GF(2) reduced by 0x11D. -/
def Obligations.GaloisFieldLaws : Prop :=
  (∀ a b : Byte, gmul a b = fieldProduct a b) ∧
  (∀ a b : Byte, gmul a b = gmul b a) ∧
  (∀ a b c : Byte, gmul (gmul a b) c = gmul a (gmul b c)) ∧
  (∀ a : Byte, gmul 1 a = a) ∧
  (∀ a b c : Byte, gmul a (b ^^^ c) = gmul a b ^^^ gmul a c) ∧
  ∀ a : Byte, a ≠ 0 → gmul a (ginv a) = 1

/-- R119, R120: POLY_MUL. PR[0..LR−1] ← the product of A·x^S and B, each coefficient the sum of its products (`convolution`), PLEN_R ← LR;
InvalidArgument for the four length conditions, before any coefficient is read. -/
def Obligations.PolyMulResult : Prop :=
  encode .polyMul = 0x00000018 ∧
  ∀ s : State,
    let la := s.host.plenA.toNat
    let lb := s.host.plenB.toNat
    let sh := s.host.pshift.toNat
    let lr := la + sh + lb - 1
    (∀ a b, 1 ≤ la → la ≤ 256 → 1 ≤ lb → lb ≤ 256 → lr ≤ 512 →
      s.ramBytes .pa 0 la = .ok a → s.ramBytes .pb 0 lb = .ok b →
      exec .polyMul s = .next (State.complete
        { s.writeRam .pr ((List.range lr).map (convolution (a ++ List.replicate sh 0) b)) with
          engine := { s.engine with plenR := BitVec.ofNat 10 lr } })) ∧
    (la = 0 ∨ lb = 0 ∨ la > 256 ∨ lb > 256 ∨ la + sh > 512 ∨ lr > 512 →
      exec .polyMul s = .next (s.raise .invalidArgument))

/-- R119, R121: POLY_MOD. PR[0..LB−2] ← the remainder r of A·x^S by B, PLEN_R ← LB − 1: A·x^S = q·B + r with a quotient q of LA1 − LB + 1 terms,
or, when LA1 < LB, r is A·x^S left-padded with zeros; InvalidArgument for the length conditions, then DomainError when PB[0] = 0. -/
def Obligations.PolyModResult : Prop :=
  encode .polyMod = 0x00000019 ∧
  ∀ s : State,
    let la := s.host.plenA.toNat
    let lb := s.host.plenB.toNat
    let sh := s.host.pshift.toNat
    (∀ a b, 1 ≤ la → la ≤ 256 → 1 ≤ lb → lb ≤ 256 → la + sh ≤ 512 →
      s.ramBytes .pa 0 la = .ok a → s.ramBytes .pb 0 lb = .ok b → b.getD 0 0 ≠ 0 →
      let dividend := a ++ List.replicate sh 0
      ∃ r : List Byte, r.length = lb - 1 ∧
        exec .polyMod s = .next (State.complete
          { s.writeRam .pr r with engine := { s.engine with plenR := BitVec.ofNat 10 (lb - 1) } }) ∧
        (la + sh < lb → r = List.replicate (lb - 1 - (la + sh)) 0 ++ dividend) ∧
        (lb ≤ la + sh → ∃ q : List Byte, q.length = la + sh - lb + 1 ∧
          ∀ k, k < la + sh → dividend.getD k 0 = convolution q b k ^^^
            (if k < la + sh - (lb - 1) then 0 else r.getD (k - (la + sh - (lb - 1))) 0))) ∧
    (la = 0 ∨ lb = 0 ∨ la > 256 ∨ lb > 256 ∨ la + sh > 512 → exec .polyMod s = .next (s.raise .invalidArgument)) ∧
    (1 ≤ la → la ≤ 256 → 1 ≤ lb → lb ≤ 256 → la + sh ≤ 512 → s.ramByte .pb 0 = .ok 0 →
      exec .polyMod s = .next (s.raise .domainError))

/-- R122: RS_GENPOLY. PB[0..n] ← the monic polynomial of n + 1 terms with the roots α^0..α^(n−1), PLEN_B ← n + 1; InvalidArgument above 255. -/
def Obligations.RsGenpolyResult : Prop :=
  encode .rsGenpoly = 0x0000001A ∧
  ∀ s : State,
    (s.host.arg0.toNat ≤ 255 → ∃ g : List Byte,
      exec .rsGenpoly s = .next (State.complete
        { s.writeRam .pb g with host := { s.host with plenB := BitVec.ofNat 9 (s.host.arg0.toNat + 1) } }) ∧
      g.length = s.host.arg0.toNat + 1 ∧ g.getD 0 0 = 1 ∧ ∀ i, i < s.host.arg0.toNat → polyEval g (alphaPow i) = 0) ∧
    (s.host.arg0.toNat > 255 → exec .rsGenpoly s = .next (s.raise .invalidArgument))

/-- R123: a codeword d ++ e, e the remainder of d·x^n by the generator of degree n, leaves n zero coefficients when it is divided again, and is 0 at
α^0..α^(n−1). -/
def Obligations.ReedSolomonCodewords : Prop :=
  ∀ (d : List Byte) (n : Nat), 1 ≤ d.length → 1 ≤ n → n ≤ 255 → d.length + n ≤ 512 →
    (ecc d n).length = n ∧ polyRem (d ++ ecc d n) (genPoly n) = List.replicate n 0 ∧
      ∀ i, i < n → polyEval (d ++ ecc d n) (gexp i) = 0

/-- R124: the EC codewords of a block are what RS_GENPOLY and POLY_MOD leave in PR for it. -/
def Obligations.EcCodewordsByCommands : Prop :=
  ∀ (s : State) (d : List Byte) (n : Nat), 1 ≤ d.length → d.length ≤ 256 → n ≤ 255 → d.length + n ≤ 512 →
    s.host.arg0.toNat = n → s.host.plenA.toNat = d.length → s.host.pshift.toNat = n → s.ramBytes .pa 0 d.length = .ok d →
    ∃ t, issueAll [.rsGenpoly, .polyMod] s = .next t ∧ t.status.err = false ∧ t.engine.plenR.toNat = n ∧
      t.ramBytes .pr 0 n = .ok (ecc d n)

/-! ## Tables and codeword assembly -/

/-- R141, R36, R48: TABLE_LOOKUP. What each of the six registers reads for a version in 1..40, and InvalidVersion for any other; the level codes are
L = 01, M = 00, Q = 11, H = 10, in CONFIG and in bits 4:3 of the format datum. -/
def Obligations.TableLookupResult : Prop :=
  encode .tableLookup = 0x00000020 ∧
  (levelOf 0b01 = .l ∧ levelOf 0b00 = .m ∧ levelOf 0b11 = .q ∧ levelOf 0b10 = .h) ∧
  (∀ (ecl : BitVec 2) (p : BitVec 3), formatDatum ecl p = 8 * ecl.toNat + p.toNat) ∧
  ∀ s : State,
    let v := s.host.config.version.toNat
    let e := levelOf s.host.config.ecl
    (1 ≤ v → v ≤ 40 → ∃ t g rest, exec .tableLookup s = .next t ∧
      t = State.complete { s with engine := { s.engine with tbl := t.engine.tbl } } ∧
      rsBlocks v e = g :: rest ∧ rest.length ≤ 1 ∧
      (t.readReg .tblTotal).toNat = totalCount v e ∧ (t.readReg .tblData).toNat = dataCount v e ∧
      (t.readReg .tblEc).toNat = g.total - g.data ∧
      (t.readReg .tblG1).toNat = g.count + 2 ^ 8 * g.total + 2 ^ 16 * g.data ∧
      (t.readReg .tblG2).toNat = (rest.map fun h => h.count + 2 ^ 8 * h.total + 2 ^ 16 * h.data).headD 0 ∧
      (t.readReg .tblGeom).toNat = 17 + 4 * v + 2 ^ 8 * (alignPos v).length + 2 ^ 16 * remBits v) ∧
    (v = 0 ∨ v > 40 → exec .tableLookup s = .next (s.raise .invalidVersion))

/-- R140, R150: for all 160 entries D + B·n = C, the four levels of a version have one C, and every block has n = t − d. -/
def Obligations.BlockTableTotals : Prop :=
  ∀ v, 1 ≤ v → v ≤ 40 → ∀ e : Level,
    dataCount v e + (blockList v e).length * ecCount v e = totalCount v e ∧ totalCount v e = totalCount v .l ∧
      ∀ g ∈ blockList v e, g.total = g.data + ecCount v e ∧ 9 ≤ g.data ∧ 25 ≤ g.total

/-- R187, R51: in the state MATRIX_INIT leaves for a version in 1..40, the number of data cells of the matrix is 8·C(v) + REMBITS(v), whatever the level;
for version 1 it is 208. -/
def Obligations.DataCellCount : Prop :=
  ∀ s : State,
    let v := s.host.config.version.toNat
    1 ≤ v → v ≤ 40 → ∃ t, exec .matrixInit s = .next t ∧ t.status.done = true ∧ t.matrixSide = 17 + 4 * v ∧
      let cells := (grid t.matrixSide t.matrixSide).countP fun x => !t.planes.func.get x.1 x.2
      (∀ e : Level, cells = 8 * totalCount v e + remBits v) ∧ (v = 1 → cells = 208)

/-- R142 to R149: ASSEMBLE. CW[0..C−1] ← the stream that padding, splitting, EC codewords and the loops of R148 give, CW_LEN ← C, CW_CFG ← the
configuration, CW_VALID ← 1; InvalidVersion, then DataOverflow, before anything is read. -/
def Obligations.AssembleResult : Prop :=
  encode .assemble = 0x00000021 ∧
  ∀ s : State,
    let v := s.host.config.version.toNat
    let e := levelOf s.host.config.ecl
    let l := s.host.dataLen.toNat
    (∀ data, 1 ≤ v → v ≤ 40 → l ≤ dataCount v e → s.ramBytes .data 0 l = .ok data →
      exec .assemble s = .next (State.complete
        { s.writeRam .cw (streamByLoops v e data) with
          engine := { s.engine with cwLen := BitVec.ofNat 12 (totalCount v e), cwCfg := s.host.config }
          status := { s.status with cwValid := true } }) ∧
      (streamByLoops v e data).length = totalCount v e ∧ totalCount v e ≤ 3706) ∧
    (v = 0 ∨ v > 40 → exec .assemble s = .next (s.raise .invalidVersion)) ∧
    (1 ≤ v → v ≤ 40 → l > dataCount v e → exec .assemble s = .next (s.raise .dataOverflow))

/-! ## The BCH unit -/

/-- R191 to R195: BCH_FORMAT and BCH_VERSION. RESULT ← a word whose high bits are the datum and which is a multiple, over GF(2), of the generator,
the format word with the mask constant XORed on; InvalidArgument above 31 and above 63. -/
def Obligations.BchWords : Prop :=
  encode .bchFormat = 0x00000030 ∧ encode .bchVersion = 0x00000031 ∧
  ∀ s : State,
    (s.host.arg0.toNat ≤ 31 → ∃ w q, exec .bchFormat s = .next (State.complete { s with engine := { s.engine with
        result := BitVec.ofNat 32 w } }) ∧ w < 2 ^ 15 ∧ (w ^^^ 0x5412) / 2 ^ 10 = s.host.arg0.toNat ∧
      q < 2 ^ 5 ∧ w ^^^ 0x5412 = carrylessProduct q 0x537) ∧
    (s.host.arg0.toNat > 31 → exec .bchFormat s = .next (s.raise .invalidArgument)) ∧
    (s.host.arg0.toNat ≤ 63 → ∃ w q, exec .bchVersion s = .next (State.complete { s with engine := { s.engine with
        result := BitVec.ofNat 32 w } }) ∧ w < 2 ^ 18 ∧ w / 2 ^ 12 = s.host.arg0.toNat ∧
      q < 2 ^ 6 ∧ w = carrylessProduct q 0x1F25) ∧
    (s.host.arg0.toNat > 63 → exec .bchVersion s = .next (s.raise .invalidArgument))

/-! ## The matrix builder -/

/-- R181 to R186: MATRIX_INIT. The planes hold, cell by cell, the layout of the closed formulas of Safety.lean; MTX_CFG is the configuration with side
17 + 4·v; MASK, PEN_*, FORMAT_INFO and VERSION_INFO are 0; BSTATE ← FunctionPatternsPlaced; InvalidVersion outside 1..40. -/
def Obligations.MatrixInitLayout : Prop :=
  encode .matrixInit = 0x00000040 ∧
  ∀ s : State,
    let v := s.host.config.version.toNat
    (1 ≤ v → v ≤ 40 → ∃ p : Planes,
      exec .matrixInit s = .next (State.complete { s with
        planes := p
        engine := { s.engine with
          mtxCfg := { version := s.host.config.version, ecl := s.host.config.ecl, side := BitVec.ofNat 8 (17 + 4 * v) }
          mask := { applied := 0, appliedValid := false, best := 0, scored := false }
          pen := penZero, formatInfo := 0, versionInfo := 0 }
        status := { s.status with bstate := .functionPatternsPlaced } }) ∧
      ∀ r c, p.asgn.get r c = isPatternCell v r c ∧ p.func.get r c = (isPatternCell v r c || isReservedArea v r c) ∧
        p.darkp.get r c = (isPatternCell v r c && isDarkPattern v r c) ∧
        (isPatternCell v r c && isReservedArea v r c) = false) ∧
    (v = 0 ∨ v > 40 → exec .matrixInit s = .next (s.raise .invalidVersion))

/-- R189: the placement order is what the loop of R189 yields; it yields every data cell of the matrix outside column 6 once and nothing else; and in the
layout of every version column 6 has no data cell. -/
def Obligations.PlacementOrder : Prop :=
  (∀ (n : Nat) (func : Plane), n % 2 = 1 → 7 < n →
    placementOrder n func = placementLoop n func ∧ (placementOrder n func).Nodup ∧
      ∀ r c, (r, c) ∈ placementOrder n func ↔ r < n ∧ c < n ∧ c ≠ 6 ∧ func.get r c = false) ∧
  ∀ v, 1 ≤ v → v ≤ 40 → ∀ r, r < side v → (initialPlanes v).func.get r 6 = true

/-- R188, R190: MATRIX_PLACE. Cell k of the order becomes assigned with bit 7 − (k mod 8) of codeword ⌊k/8⌋, or 0 past the last codeword; no other
cell and no FUNC bit changes; SequenceError in another state, without a stream, or with one of another version or level. -/
def Obligations.MatrixPlaceResult : Prop :=
  encode .matrixPlace = 0x00000041 ∧
  ∀ s : State,
    let order := placementOrder s.matrixSide s.planes.func
    (∀ bs, s.status.bstate = .functionPatternsPlaced → s.status.cwValid = true →
      s.engine.cwCfg.version = s.engine.mtxCfg.version → s.engine.cwCfg.ecl = s.engine.mtxCfg.ecl →
      s.ramBytes .cw 0 s.engine.cwLen.toNat = .ok bs →
      ∃ p : Planes, exec .matrixPlace s = .next (State.complete { s with
          planes := p, status := { s.status with bstate := .dataPlaced } }) ∧ p.func = s.planes.func ∧
        (∀ k x, order[k]? = some x → p.darkp.get x.1 x.2 = streamBit bs k ∧ p.asgn.get x.1 x.2 = true) ∧
        ∀ r c, (r, c) ∉ order →
          p.darkp.get r c = s.planes.darkp.get r c ∧ p.asgn.get r c = s.planes.asgn.get r c) ∧
    (s.status.bstate ≠ .functionPatternsPlaced ∨ s.status.cwValid = false ∨
        s.engine.cwCfg.version ≠ s.engine.mtxCfg.version ∨ s.engine.cwCfg.ecl ≠ s.engine.mtxCfg.ecl →
      exec .matrixPlace s = .next (s.raise .sequenceError))

/-- R196 to R199: WRITE_META. Both copies of the format word and, from version 7 on, of the version word are in their cells, the dark module is dark, these
cells are assigned, and no other cell changes; FORMAT_INFO and VERSION_INFO hold the words; SequenceError in another state. -/
def Obligations.WriteMetaResult : Prop :=
  encode .writeMeta = 0x00000045 ∧
  ∀ s : State,
    let v := s.engine.mtxCfg.version.toNat
    let n := s.matrixSide
    let f := formatWord (formatDatum s.engine.mtxCfg.ecl s.engine.mask.applied)
    let w : BitVec 18 := if 7 ≤ v then versionWord v else 0
    (s.status.bstate = .masked → 1 ≤ v → v ≤ 40 → n = side v →
      ∃ p : Planes, exec .writeMeta s = .next (State.complete { s with
          planes := p, engine := { s.engine with formatInfo := f, versionInfo := w }
          status := { s.status with bstate := .metadataWritten } }) ∧
        (∀ i, i < 15 → p.darkp.get (fpos1 n i).1 (fpos1 n i).2 = f.getLsbD i ∧
          p.darkp.get (fpos2 n i).1 (fpos2 n i).2 = f.getLsbD i) ∧
        p.darkp.get (n - 8) 8 = true ∧
        (7 ≤ v → ∀ i, i < 18 → p.darkp.get (vpos1 n i).1 (vpos1 n i).2 = w.getLsbD i ∧
          p.darkp.get (vpos2 n i).1 (vpos2 n i).2 = w.getLsbD i) ∧
        ∀ r c, (isReservedArea v r c = true → p.asgn.get r c = true ∧ p.func.get r c = true) ∧
          (isReservedArea v r c = false → p.darkp.get r c = s.planes.darkp.get r c ∧
            p.asgn.get r c = s.planes.asgn.get r c ∧ p.func.get r c = s.planes.func.get r c)) ∧
    (s.status.bstate ≠ .masked → exec .writeMeta s = .next (s.raise .sequenceError))

/-- R200: FINALIZE. With every cell assigned, BSTATE ← Final and nothing else; IncompleteMatrix otherwise; SequenceError in another state; and where the
builder invariant holds every cell is assigned. -/
def Obligations.FinalizeResult : Prop :=
  encode .finalize = 0x00000046 ∧
  ∀ s : State,
    let complete := ∀ r c, r < s.matrixSide → c < s.matrixSide → s.planes.asgn.get r c = true
    (s.status.bstate = .metadataWritten → complete →
      exec .finalize s = .next (State.complete { s with status := { s.status with bstate := .final } })) ∧
    (s.status.bstate = .metadataWritten → ¬ complete → exec .finalize s = .next (s.raise .incompleteMatrix)) ∧
    (s.status.bstate ≠ .metadataWritten → exec .finalize s = .next (s.raise .sequenceError)) ∧
    (s.status.bstate = .metadataWritten → s.BuilderInv → complete)

/-! ## Masks -/

/-- R164 to R167, R169: the penalty rules as counts over the array, rule 4 as an exact rational, and the scaled score as T times the total. -/
def Obligations.PenaltyRules : Prop :=
  (∀ (m : Nat → Nat → Bool) (n : Nat),
    penalty1 m n = ((grid n n).map fun x =>
      if neighbourCount m n x.1 x.2 > 5 then 3 + (neighbourCount m n x.1 x.2 - 5) else 0).sum ∧
    penalty2 m n = 3 * (grid (n - 1) (n - 1)).countP (fun x =>
      m x.1 x.2 == m (x.1 + 1) x.2 && m x.1 x.2 == m x.1 (x.2 + 1) && m x.1 x.2 == m (x.1 + 1) (x.2 + 1)) ∧
    penalty3 m n = 40 * ((grid n (n - 6)).countP (fun x => runAt fun k => m x.1 (x.2 + k)) +
      (grid (n - 6) n).countP (fun x => runAt fun k => m (x.1 + k) x.2)) ∧
    darkCount m n = (grid n n).countP fun x => m x.1 x.2) ∧
  (∀ dark total : Nat, 0 < total →
    penalty4 dark total = 2 * ratAbs (100 * (dark : Rat) - 50 * (total : Rat)) / (total : Rat)) ∧
  ∀ (x : Score) (n : Nat), 0 < n → ((x.scaled n : Nat) : Rat) = ((n * n : Nat) : Rat) * x.total n

/-- R171, R168, R170: MASK_SCORE. PEN_*[p] hold the penalties of candidate p without loss (each below 2^22), MASK.BEST is the least id with the least scaled
score, MASK.SCORED ← 1, and nothing else changes; SequenceError in another state. -/
def Obligations.MaskScoreResult : Prop :=
  encode .maskScore = 0x00000042 ∧
  ∀ s : State,
    (s.status.bstate = .dataPlaced → s.matrixSide ≤ 177 → ∃ (t : State) (b : Nat),
      exec .maskScore s = .next t ∧ IsFirstLeast s.maskScaled b ∧
      t = State.complete { s with engine := { s.engine with
        pen := t.engine.pen, mask := { s.engine.mask with best := BitVec.ofNat 3 b, scored := true } } } ∧
      ∀ p : Fin 8,
        let m := candidate s.params.maskAxes s.planes p.val
        t.engine.pen[p].p1.toNat = penalty1 m s.matrixSide ∧ t.engine.pen[p].p2.toNat = penalty2 m s.matrixSide ∧
        t.engine.pen[p].p3.toNat = penalty3 m s.matrixSide ∧ t.engine.pen[p].dark.toNat = darkCount m s.matrixSide ∧
        t.engine.pen[p].p1.toNat < 2 ^ 22 ∧ t.engine.pen[p].p2.toNat < 2 ^ 22 ∧ t.engine.pen[p].p3.toNat < 2 ^ 22 ∧
        t.engine.pen[p].dark.toNat < 2 ^ 22) ∧
    (s.status.bstate ≠ .dataPlaced → exec .maskScore s = .next (s.raise .sequenceError))

/-- R170, R171, R172: scoring an unchanged matrix again gives the same state, and a MASK_SCORE before MASK_SELECT does not change its result. -/
def Obligations.RescoringChangesNothing : Prop :=
  ∀ s : State, s.status.bstate = .dataPlaced →
    (∃ t, issue .maskScore s = .next t ∧ issue .maskScore t = .next t) ∧
    ∃ t, issue .maskSelect s = .next t ∧ issueAll [.maskScore, .maskSelect] s = .next t

/-- R172, R174: MASK_SELECT. The scoring of MASK_SCORE, then the matrix becomes its candidate of the best mask; APPLIED ← best, APPLIED_VALID ← 1, BSTATE ←
Masked; SequenceError in another state. -/
def Obligations.MaskSelectResult : Prop :=
  encode .maskSelect = 0x00000043 ∧
  ∀ s : State,
    (s.status.bstate = .dataPlaced → ∃ (u : State) (b : Nat) (q : Plane),
      exec .maskScore s = .next u ∧ IsFirstLeast s.maskScaled b ∧
      exec .maskSelect s = .next (State.complete { s with
        planes := { s.planes with darkp := q }
        engine := { u.engine with mask := {
          applied := BitVec.ofNat 3 b, appliedValid := true, best := BitVec.ofNat 3 b, scored := true } }
        status := { s.status with bstate := .masked } }) ∧
      ∀ r c, q.get r c = if r < s.matrixSide ∧ c < s.matrixSide then candidate s.params.maskAxes s.planes b r c
        else s.planes.darkp.get r c) ∧
    (s.status.bstate ≠ .dataPlaced → exec .maskSelect s = .next (s.raise .sequenceError))

/-- R161, R162, R173, R174: MASK_FORCE. The matrix becomes its candidate of mask ARG0, without scoring; SequenceError in another state, then
InvalidMaskPattern above 7. The mask of each id is its formula of R162 in x and y, (column, row) with MASK_AXES = DOC, the default, and
(row, column) with ISO; masks 0, 3, 5, 6 and 7 do not depend on the binding, and masks 1, 2 and 4 do. -/
def Obligations.MaskForceResult : Prop :=
  encode .maskForce = 0x00000044 ∧ State.reset.params.maskAxes = .doc ∧
  (∀ (axes : MaskAxes) (r c : Nat),
    let x := if axes = .doc then c else r
    let y := if axes = .doc then r else c
    maskBit axes 0 r c = decide ((x + y) % 2 = 0) ∧ maskBit axes 1 r c = decide (x % 2 = 0) ∧
    maskBit axes 2 r c = decide (y % 3 = 0) ∧ maskBit axes 3 r c = decide ((x + y) % 3 = 0) ∧
    maskBit axes 4 r c = decide ((x / 2 + y / 3) % 2 = 0) ∧ maskBit axes 5 r c = decide (x * y % 2 + x * y % 3 = 0) ∧
    maskBit axes 6 r c = decide ((x * y % 2 + x * y % 3) % 2 = 0) ∧
    maskBit axes 7 r c = decide ((x * y % 3 + (x + y) % 2) % 2 = 0)) ∧
  (∀ p ∈ [0, 3, 5, 6, 7], ∀ r c, maskBit .doc p r c = maskBit .iso p r c) ∧
  (∀ p ∈ [1, 2, 4], ∃ r c, maskBit .doc p r c ≠ maskBit .iso p r c) ∧
  ∀ s : State,
    (s.status.bstate = .dataPlaced → s.host.arg0.toNat ≤ 7 → ∃ q : Plane,
      exec .maskForce s = .next (State.complete { s with
        planes := { s.planes with darkp := q }
        engine := { s.engine with mask := { s.engine.mask with
          applied := BitVec.ofNat 3 s.host.arg0.toNat, appliedValid := true } }
        status := { s.status with bstate := .masked } }) ∧
      ∀ r c, q.get r c = if r < s.matrixSide ∧ c < s.matrixSide
        then candidate s.params.maskAxes s.planes s.host.arg0.toNat r c else s.planes.darkp.get r c) ∧
    (s.status.bstate ≠ .dataPlaced → exec .maskForce s = .next (s.raise .sequenceError)) ∧
    (s.status.bstate = .dataPlaced → s.host.arg0.toNat > 7 → exec .maskForce s = .next (s.raise .invalidMaskPattern))

/-! ## Control -/

/-- R220, R221: NOP only completes. SOFT_RESET sets every engine-written register, CW_VALID, BSTATE and the planes to 0 and leaves the host-written registers,
the RAMs, OVR and LASTOP. -/
def Obligations.NopAndSoftReset : Prop :=
  encode .nop = 0x00000000 ∧ encode .softReset = 0x00000001 ∧
  (∀ s : State, exec .nop s = .next { s with pending := none, status := { s.status with done := true, busy := false } }) ∧
  ∀ s : State, ∃ t, exec .softReset s = .next t ∧
    t = { s with
      engine := t.engine, planes := t.planes, pending := none
      status := { s.status with cwValid := false, bstate := .empty, done := true, busy := false } } ∧
    (∀ r : Reg, [Reg.id, .cmd, .status, .config, .dataLen, .irqEn, .arg0, .arg1, .plenA, .plenB, .pshift].contains r = false →
      t.readReg r = 0) ∧
    ∀ (p : PlaneId) (r c : Nat), (t.planes.plane p).get r c = false

/-- R222: ENCODE. From any state, for a version in 1..40 and data that fits: BSTATE ← Final; CW holds the stream; the function cells are those of the layout, and
every cell of the matrix, and no other, is assigned. Cell by cell: a pattern cell is as the layout says, the k-th data cell is bit k of the stream masked by the
applied mask, the format cells hold the word of the level and the applied mask, the version cells the version's word from version 7 on, the dark module is
dark, and a cell outside the matrix is light. The applied mask is the best one: with `q` the dark cells of the placed matrix (the pattern, bit k of the
stream in data cell k, light elsewhere), it is the least id with the least scaled score of q's candidates, and PEN_* hold their penalties. The host's
registers and every other RAM byte are as they were. InvalidVersion, then DataOverflow, otherwise. -/
def Obligations.EncodeBuildsTheSymbol : Prop :=
  encode .encode = 0x00000050 ∧
  ∀ s : State,
    let v := s.host.config.version.toNat
    let e := levelOf s.host.config.ecl
    let l := s.host.dataLen.toNat
    (∀ data, 1 ≤ v → v ≤ 40 → l ≤ dataCount v e → s.ramBytes .data 0 l = .ok data → ∃ t, exec .encode s = .next t ∧
      t = { s.writeRam .cw (streamByLoops v e data) with
        engine := t.engine, planes := t.planes, pending := none
        status := { s.status with cwValid := true, bstate := .final, done := true, busy := false } } ∧
      t.engine.cwLen.toNat = totalCount v e ∧ t.engine.cwCfg = s.host.config ∧
      t.engine.mtxCfg = { version := s.host.config.version, ecl := s.host.config.ecl, side := BitVec.ofNat 8 (side v) } ∧
      t.engine.mask.applied = t.engine.mask.best ∧ t.engine.mask.appliedValid = true ∧ t.engine.mask.scored = true ∧
      t.engine.formatInfo = formatWord (formatDatum s.host.config.ecl t.engine.mask.applied) ∧
      t.engine.versionInfo = (if 7 ≤ v then versionWord v else 0) ∧
      t.engine.result = s.engine.result ∧ t.engine.plenR = s.engine.plenR ∧ t.engine.tbl = s.engine.tbl ∧
      (∀ r c, t.planes.func.get r c = (isPatternCell v r c || isReservedArea v r c) ∧
        t.planes.asgn.get r c = (decide (r < side v) && decide (c < side v)) ∧
        (side v ≤ r ∨ side v ≤ c → t.planes.darkp.get r c = false) ∧
        (isPatternCell v r c = true → t.planes.darkp.get r c = isDarkPattern v r c)) ∧
      (∀ k x, (placementOrder (side v) t.planes.func)[k]? = some x → t.planes.darkp.get x.1 x.2 =
        (streamBit (streamByLoops v e data) k).xor (maskBit s.params.maskAxes t.engine.mask.applied.toNat x.1 x.2)) ∧
      (∀ i, i < 15 → t.planes.darkp.get (fpos1 (side v) i).1 (fpos1 (side v) i).2 = t.engine.formatInfo.getLsbD i ∧
        t.planes.darkp.get (fpos2 (side v) i).1 (fpos2 (side v) i).2 = t.engine.formatInfo.getLsbD i) ∧
      (7 ≤ v → ∀ i, i < 18 → t.planes.darkp.get (vpos1 (side v) i).1 (vpos1 (side v) i).2 = t.engine.versionInfo.getLsbD i ∧
        t.planes.darkp.get (vpos2 (side v) i).1 (vpos2 (side v) i).2 = t.engine.versionInfo.getLsbD i) ∧
      t.planes.darkp.get (side v - 8) 8 = true ∧
      ∃ q : Plane,
        let order := placementOrder (side v) t.planes.func
        let score := fun p => scoreOf (candidate s.params.maskAxes { t.planes with darkp := q } p) (side v)
        (∀ k x, order[k]? = some x → q.get x.1 x.2 = streamBit (streamByLoops v e data) k) ∧
        (∀ r c, (r, c) ∉ order → q.get r c = (isPatternCell v r c && isDarkPattern v r c)) ∧
        IsFirstLeast (fun p => (score p).scaled (side v)) t.engine.mask.best.toNat ∧
        ∀ p : Fin 8, t.engine.pen[p].p1.toNat = (score p.val).p1 ∧ t.engine.pen[p].p2.toNat = (score p.val).p2 ∧
          t.engine.pen[p].p3.toNat = (score p.val).p3 ∧ t.engine.pen[p].dark.toNat = (score p.val).dark) ∧
    (v = 0 ∨ v > 40 → exec .encode s = .next (s.raise .invalidVersion)) ∧
    (1 ≤ v → v ≤ 40 → l > dataCount v e → exec .encode s = .next (s.raise .dataOverflow))

/-- R223: ENCODE and the six commands issued one after another end in the same state but for LASTOP (0x50 against 0x46); when ASSEMBLE, the first of them, fails,
ENCODE fails with the same error. -/
def Obligations.EncodeEqualsSixCommands : Prop :=
  ∀ s : State,
    let v := s.host.config.version.toNat
    let e := levelOf s.host.config.ecl
    let l := s.host.dataLen.toNat
    (1 ≤ v → v ≤ 40 → l ≤ dataCount v e → s.Readable .data l → ∃ t,
      issueAll [.assemble, .matrixInit, .matrixPlace, .maskSelect, .writeMeta, .finalize] s = .next t ∧
      t.status.lastop = 0x46 ∧ t.status.bstate = .final ∧ t.status.err = false ∧
      issue .encode s = .next { t with status := { t.status with lastop := 0x50 } }) ∧
    ∀ t, issue .assemble s = .next t → t.status.err = true →
      issue .encode s = .next { t with status := { t.status with lastop := 0x50 } }

/-- R180: each command is allowed from the states of the table and then leaves the state the table gives, or an error with BSTATE as it was; in any other state
it raises SequenceError and changes nothing. -/
def Obligations.BuilderTransitions : Prop :=
  ∀ (i : Instr) (s : State),
    (builderNext i s.status.bstate = none → exec i s = .next (s.raise .sequenceError)) ∧
    ∀ (b : BState) (t : State), builderNext i s.status.bstate = some b → exec i s = .next t →
      (t.status.bstate = b ∧ t.status.done = true ∧ t.status.err = s.status.err) ∨
      (t.status.bstate = s.status.bstate ∧ t.status.err = true ∧ t.status.errcode ≠ 0 ∧ t.status.done = s.status.done)

/-- R241, R246, R247, R240: from a running command's state (DONE = ERR = 0, ERRCODE = 0), every command ends either with an error, a legal code, and nothing
else changed, or with DONE = 1 and ERR = 0, ERRCODE = 0; OVR and LASTOP are as they were, and PENDING is empty, either way. -/
def Obligations.ErrorsArePrecise : Prop :=
  ∀ (i : Instr) (s t : State), s.status.done = false → s.status.err = false → s.status.errcode = 0 → exec i s = .next t →
    (∃ e : Err, t = { s with pending := none, status := { s.status with err := true, errcode := e.code, busy := false } } ∧
      e.code ≠ 0 ∧ e.code ≠ 2 ∧ e.code.toNat ≤ 9) ∨
    (t.status.done = true ∧ t.status.err = false ∧ t.status.errcode = 0 ∧ t.status.busy = false ∧ t.pending = none ∧
      t.status.ovr = s.status.ovr ∧ t.status.lastop = s.status.lastop)

/-- R272, R282, U2: with UNWRITTEN_READ = DRAW every command completes, whatever its operands; with FAULT a command stops the model only on a byte of DATA,
PA, PB or CW not written since reset; no command is refused. -/
def Obligations.CommandsStopOnlyOnUnwrittenReads : Prop :=
  (∀ (i : Instr) (s : State), s.params.unwrittenRead = .draw → ∃ t, exec i s = .next t) ∧
  (∀ (i : Instr) (s : State) (f : Fault), exec i s = .fault f →
    s.params.unwrittenRead = .fault ∧ ∃ (r : Ram) (k : Nat), r ≠ .pr ∧ k < r.size ∧ f = .unwrittenRead (r.base + k) ∧
      Memory.read s.ram (r.base + k) = none) ∧
  (∀ (i : Instr) (s : State) (r : Refusal), exec i s ≠ .refused r) ∧
  ∀ s : State, s.CodewordInv → ∃ t, exec .matrixPlace s = .next t

/-- R201, R270: in Final the six builder commands raise SequenceError, and a step leaves the planes, MTX_CFG, MASK, FORMAT_INFO, VERSION_INFO and BSTATE as
they are unless it is the completion of MATRIX_INIT, ENCODE or SOFT_RESET, or the end of a hardware reset; no host access changes them. -/
def Obligations.FinalIsImmutable : Prop :=
  ∀ s : State, s.status.bstate = .final →
    (∀ i, [Instr.matrixPlace, .maskScore, .maskSelect, .maskForce, .writeMeta, .finalize].contains i = true →
      exec i s = .next (s.raise .sequenceError)) ∧
    ∀ t, step s = .next t →
      (t.planes = s.planes ∧ t.engine.mtxCfg = s.engine.mtxCfg ∧ t.engine.mask = s.engine.mask ∧
        t.engine.formatInfo = s.engine.formatInfo ∧ t.engine.versionInfo = s.engine.versionInfo ∧ t.status.bstate = .final) ∨
      (s.rst = false ∧ (∀ q rest, s.inbox ≠ .host q :: rest) ∧ ∃ (w : Word) (i : Instr) (u : State),
        s.pending = some w ∧ decode w = .ok i ∧ [Instr.matrixInit, .encode, .softReset].contains i = true ∧
        u = { s with inbox := t.inbox } ∧ exec i u = .next t) ∨
      (s.rst = true ∧ ∃ rest, s.inbox = .rst false :: rest ∧ t = State.afterReset { s with inbox := rest })

/-! ## Frames -/

/-- The frame of the commands that write one register or none (R115 to R118, R141, R193, R195, R220, R200): every host-written register, plane, RAM byte and
other engine register is as it was; OVR, CW_VALID and LASTOP too; BSTATE but for FINALIZE. -/
def Obligations.RegisterCommandFrame : Prop :=
  ∀ (i : Instr) (s t : State),
    [Instr.nop, .gfExp, .gfLog, .gfMul, .gfInv, .tableLookup, .bchFormat, .bchVersion, .finalize].contains i = true →
    exec i s = .next t →
      t.host = s.host ∧ t.planes = s.planes ∧ (∀ r k, t.ramByte r k = s.ramByte r k) ∧
      t.engine = { s.engine with result := t.engine.result, tbl := t.engine.tbl } ∧
      ([Instr.nop, .tableLookup, .finalize].contains i = true → t.engine.result = s.engine.result) ∧
      (i ≠ .tableLookup → t.engine.tbl = s.engine.tbl) ∧
      t.status.ovr = s.status.ovr ∧ t.status.cwValid = s.status.cwValid ∧ t.status.lastop = s.status.lastop ∧
      (i ≠ .finalize → t.status.bstate = s.status.bstate) ∧
      t.params = s.params ∧ t.rst = s.rst ∧ t.inbox = s.inbox

/-- The frame of the commands that store bytes (R120, R121, R122, R149, R222): every byte outside the stored ones reads as before, the stored ones being the first
LR of PR, LB − 1 of PR, n + 1 of PB and C of CW; of the registers the first three write only PLEN_R or PLEN_B, and ASSEMBLE only CW_LEN and
CW_CFG. -/
def Obligations.StoringCommandFrame : Prop :=
  ∀ (i : Instr) (s t : State), exec i s = .next t →
    let lengths := polyLengths s
    let c := totalCount s.host.config.version.toNat (levelOf s.host.config.ecl)
    (i = .polyMul → ∀ a, a < Ram.pr.base ∨ Ram.pr.base + lengths.product ≤ a → Memory.read t.ram a = Memory.read s.ram a) ∧
    (i = .polyMod → ∀ a, a < Ram.pr.base ∨ Ram.pr.base + (lengths.lb - 1) ≤ a → Memory.read t.ram a = Memory.read s.ram a) ∧
    (i = .rsGenpoly → ∀ a, a < Ram.pb.base ∨ Ram.pb.base + (s.host.arg0.toNat + 1) ≤ a →
      Memory.read t.ram a = Memory.read s.ram a) ∧
    (i = .assemble ∨ i = .encode → ∀ a, a < Ram.cw.base ∨ Ram.cw.base + c ≤ a → Memory.read t.ram a = Memory.read s.ram a) ∧
    (i = .polyMul ∨ i = .polyMod → t.host = s.host ∧ t.engine = { s.engine with plenR := t.engine.plenR }) ∧
    (i = .rsGenpoly → t.engine = s.engine ∧ t.host = { s.host with plenB := t.host.plenB }) ∧
    (i = .assemble → t.host = s.host ∧
      t.engine = { s.engine with cwLen := t.engine.cwLen, cwCfg := t.engine.cwCfg }) ∧
    ([Instr.polyMul, .polyMod, .rsGenpoly, .assemble].contains i = true → t.planes = s.planes ∧
      t.status.bstate = s.status.bstate ∧ t.status.ovr = s.status.ovr ∧ t.status.lastop = s.status.lastop ∧
      (i ≠ .assemble → t.status.cwValid = s.status.cwValid))

/-- The frame of the commands on the matrix (R171 to R173, R181, R188, R196, R221): no RAM byte and no host-written register changes; RESULT, PLEN_R, CW_* and TBL_*
change by SOFT_RESET only, MTX_CFG by MATRIX_INIT and SOFT_RESET only, FORMAT_INFO and VERSION_INFO not by the mask commands; MASK_SCORE changes no
plane, and MASK_SELECT and MASK_FORCE only DARKP. -/
def Obligations.MatrixCommandFrame : Prop :=
  ∀ (i : Instr) (s t : State),
    [Instr.matrixInit, .matrixPlace, .maskScore, .maskSelect, .maskForce, .writeMeta, .softReset].contains i = true →
    exec i s = .next t →
      t.host = s.host ∧ (∀ r k, t.ramByte r k = s.ramByte r k) ∧ t.status.ovr = s.status.ovr ∧ t.status.lastop = s.status.lastop ∧
      t.params = s.params ∧ t.rst = s.rst ∧ t.inbox = s.inbox ∧
      (i ≠ .softReset → t.engine = { s.engine with
        mtxCfg := t.engine.mtxCfg, mask := t.engine.mask, pen := t.engine.pen
        formatInfo := t.engine.formatInfo, versionInfo := t.engine.versionInfo } ∧ t.status.cwValid = s.status.cwValid) ∧
      (i ≠ .softReset → i ≠ .matrixInit → t.engine.mtxCfg = s.engine.mtxCfg) ∧
      (i = .maskScore ∨ i = .maskSelect ∨ i = .maskForce → t.engine.formatInfo = s.engine.formatInfo ∧
        t.engine.versionInfo = s.engine.versionInfo ∧ t.planes.asgn = s.planes.asgn ∧ t.planes.func = s.planes.func) ∧
      (i = .maskScore → t.planes = s.planes ∧ t.engine.mask.applied = s.engine.mask.applied ∧
        t.engine.mask.appliedValid = s.engine.mask.appliedValid) ∧
      (i = .maskForce → t.engine.pen = s.engine.pen ∧ t.engine.mask.best = s.engine.mask.best ∧
        t.engine.mask.scored = s.engine.mask.scored) ∧
      (i = .matrixPlace ∨ i = .writeMeta → t.engine.mask = s.engine.mask ∧ t.engine.pen = s.engine.pen) ∧
      (i = .matrixPlace → t.engine = s.engine ∧ t.planes.func = s.planes.func)

/-- R14, R93, R241: where the builder invariant holds, a command's completion changes no bit of a register, RAM entry or plane cell outside its write set, but for
BUSY, DONE, ERR and ERRCODE of STATUS. -/
def Obligations.CommandsStayInTheirWriteSet : Prop :=
  ∀ (i : Instr) (s t : State), s.BuilderInv → exec i s = .next t →
    (∀ r : Reg,
      let changed := writtenBits i r ||| (if r = .status then 0x0000F007 else 0)
      t.readReg r &&& ~~~changed = s.readReg r &&& ~~~changed) ∧
    (∀ (r : Ram) (k : Nat), k < r.size → writesRam i s r k = false → t.ramByte r k = s.ramByte r k) ∧
    ∀ (p : PlaneId) (r c : Nat), writesCell i s p r c = false → (t.planes.plane p).get r c = (s.planes.plane p).get r c

end
end

