-- ==== Sys2Proof/Laws/State.lean ====
section
/-! SUPPORT. One lemma per field per update of the state, each by rfl, so that no later proof unfolds a record update. -/

namespace Sys2Proof.Machine

/-! ### State.accept -/

@[simp] theorem State.accept_status (s : State) (w : Word) : (s.accept w).status = s.status.accepted w := rfl
@[simp] theorem State.accept_host (s : State) (w : Word) : (s.accept w).host = s.host := rfl
@[simp] theorem State.accept_engine (s : State) (w : Word) : (s.accept w).engine = s.engine := rfl
@[simp] theorem State.accept_ram (s : State) (w : Word) : (s.accept w).ram = s.ram := rfl
@[simp] theorem State.accept_planes (s : State) (w : Word) : (s.accept w).planes = s.planes := rfl
@[simp] theorem State.accept_pending (s : State) (w : Word) : (s.accept w).pending = some w := rfl
@[simp] theorem State.accept_rst (s : State) (w : Word) : (s.accept w).rst = s.rst := rfl
@[simp] theorem State.accept_params (s : State) (w : Word) : (s.accept w).params = s.params := rfl
@[simp] theorem State.accept_inbox (s : State) (w : Word) : (s.accept w).inbox = s.inbox := rfl
@[simp] theorem State.accept_resp (s : State) (w : Word) : (s.accept w).resp = s.resp := rfl
@[simp] theorem State.accept_ramEpoch (s : State) (w : Word) : (s.accept w).ramEpoch = s.ramEpoch := rfl
@[simp] theorem State.accept_draws (s : State) (w : Word) : (s.accept w).draws = s.draws := rfl

/-! ### State.complete -/

@[simp] theorem State.complete_status (s : State) : s.complete.status = s.status.completed := rfl
@[simp] theorem State.complete_host (s : State) : s.complete.host = s.host := rfl
@[simp] theorem State.complete_engine (s : State) : s.complete.engine = s.engine := rfl
@[simp] theorem State.complete_ram (s : State) : s.complete.ram = s.ram := rfl
@[simp] theorem State.complete_planes (s : State) : s.complete.planes = s.planes := rfl
@[simp] theorem State.complete_pending (s : State) : s.complete.pending = none := rfl
@[simp] theorem State.complete_rst (s : State) : s.complete.rst = s.rst := rfl
@[simp] theorem State.complete_params (s : State) : s.complete.params = s.params := rfl
@[simp] theorem State.complete_inbox (s : State) : s.complete.inbox = s.inbox := rfl
@[simp] theorem State.complete_resp (s : State) : s.complete.resp = s.resp := rfl
@[simp] theorem State.complete_ramEpoch (s : State) : s.complete.ramEpoch = s.ramEpoch := rfl
@[simp] theorem State.complete_draws (s : State) : s.complete.draws = s.draws := rfl

/-! ### State.raise -/

@[simp] theorem State.raise_status (s : State) (e : Err) : (s.raise e).status = s.status.failed e := rfl
@[simp] theorem State.raise_host (s : State) (e : Err) : (s.raise e).host = s.host := rfl
@[simp] theorem State.raise_engine (s : State) (e : Err) : (s.raise e).engine = s.engine := rfl
@[simp] theorem State.raise_ram (s : State) (e : Err) : (s.raise e).ram = s.ram := rfl
@[simp] theorem State.raise_planes (s : State) (e : Err) : (s.raise e).planes = s.planes := rfl
@[simp] theorem State.raise_pending (s : State) (e : Err) : (s.raise e).pending = none := rfl
@[simp] theorem State.raise_rst (s : State) (e : Err) : (s.raise e).rst = s.rst := rfl
@[simp] theorem State.raise_params (s : State) (e : Err) : (s.raise e).params = s.params := rfl
@[simp] theorem State.raise_inbox (s : State) (e : Err) : (s.raise e).inbox = s.inbox := rfl
@[simp] theorem State.raise_resp (s : State) (e : Err) : (s.raise e).resp = s.resp := rfl
@[simp] theorem State.raise_ramEpoch (s : State) (e : Err) : (s.raise e).ramEpoch = s.ramEpoch := rfl
@[simp] theorem State.raise_draws (s : State) (e : Err) : (s.raise e).draws = s.draws := rfl

/-! ### State.acknowledge -/

@[simp] theorem State.acknowledge_status (s : State) (w : Word) : (s.acknowledge w).status = s.status.cleared w := rfl
@[simp] theorem State.acknowledge_host (s : State) (w : Word) : (s.acknowledge w).host = s.host := rfl
@[simp] theorem State.acknowledge_engine (s : State) (w : Word) : (s.acknowledge w).engine = s.engine := rfl
@[simp] theorem State.acknowledge_ram (s : State) (w : Word) : (s.acknowledge w).ram = s.ram := rfl
@[simp] theorem State.acknowledge_planes (s : State) (w : Word) : (s.acknowledge w).planes = s.planes := rfl
@[simp] theorem State.acknowledge_pending (s : State) (w : Word) : (s.acknowledge w).pending = s.pending := rfl
@[simp] theorem State.acknowledge_rst (s : State) (w : Word) : (s.acknowledge w).rst = s.rst := rfl
@[simp] theorem State.acknowledge_params (s : State) (w : Word) : (s.acknowledge w).params = s.params := rfl
@[simp] theorem State.acknowledge_inbox (s : State) (w : Word) : (s.acknowledge w).inbox = s.inbox := rfl
@[simp] theorem State.acknowledge_resp (s : State) (w : Word) : (s.acknowledge w).resp = s.resp := rfl
@[simp] theorem State.acknowledge_ramEpoch (s : State) (w : Word) : (s.acknowledge w).ramEpoch = s.ramEpoch := rfl
@[simp] theorem State.acknowledge_draws (s : State) (w : Word) : (s.acknowledge w).draws = s.draws := rfl

/-! ### State.writeRam -/

@[simp] theorem State.writeRam_status (s : State) (r : Ram) (bs : List Byte) : (s.writeRam r bs).status = s.status := rfl
@[simp] theorem State.writeRam_host (s : State) (r : Ram) (bs : List Byte) : (s.writeRam r bs).host = s.host := rfl
@[simp] theorem State.writeRam_engine (s : State) (r : Ram) (bs : List Byte) : (s.writeRam r bs).engine = s.engine := rfl
@[simp] theorem State.writeRam_ram (s : State) (r : Ram) (bs : List Byte) : (s.writeRam r bs).ram = s.ram.writeAll r.base bs := rfl
@[simp] theorem State.writeRam_planes (s : State) (r : Ram) (bs : List Byte) : (s.writeRam r bs).planes = s.planes := rfl
@[simp] theorem State.writeRam_pending (s : State) (r : Ram) (bs : List Byte) : (s.writeRam r bs).pending = s.pending := rfl
@[simp] theorem State.writeRam_rst (s : State) (r : Ram) (bs : List Byte) : (s.writeRam r bs).rst = s.rst := rfl
@[simp] theorem State.writeRam_params (s : State) (r : Ram) (bs : List Byte) : (s.writeRam r bs).params = s.params := rfl
@[simp] theorem State.writeRam_inbox (s : State) (r : Ram) (bs : List Byte) : (s.writeRam r bs).inbox = s.inbox := rfl
@[simp] theorem State.writeRam_resp (s : State) (r : Ram) (bs : List Byte) : (s.writeRam r bs).resp = s.resp := rfl
@[simp] theorem State.writeRam_ramEpoch (s : State) (r : Ram) (bs : List Byte) : (s.writeRam r bs).ramEpoch = s.ramEpoch := rfl
@[simp] theorem State.writeRam_draws (s : State) (r : Ram) (bs : List Byte) : (s.writeRam r bs).draws = s.draws := rfl

/-! ### State.respond -/

@[simp] theorem State.respond_status (s : State) (x : Response) : (s.respond x).status = s.status := rfl
@[simp] theorem State.respond_host (s : State) (x : Response) : (s.respond x).host = s.host := rfl
@[simp] theorem State.respond_engine (s : State) (x : Response) : (s.respond x).engine = s.engine := rfl
@[simp] theorem State.respond_ram (s : State) (x : Response) : (s.respond x).ram = s.ram := rfl
@[simp] theorem State.respond_planes (s : State) (x : Response) : (s.respond x).planes = s.planes := rfl
@[simp] theorem State.respond_pending (s : State) (x : Response) : (s.respond x).pending = s.pending := rfl
@[simp] theorem State.respond_rst (s : State) (x : Response) : (s.respond x).rst = s.rst := rfl
@[simp] theorem State.respond_params (s : State) (x : Response) : (s.respond x).params = s.params := rfl
@[simp] theorem State.respond_inbox (s : State) (x : Response) : (s.respond x).inbox = s.inbox := rfl
@[simp] theorem State.respond_resp (s : State) (x : Response) : (s.respond x).resp = some x := rfl
@[simp] theorem State.respond_ramEpoch (s : State) (x : Response) : (s.respond x).ramEpoch = s.ramEpoch := rfl
@[simp] theorem State.respond_draws (s : State) (x : Response) : (s.respond x).draws = s.draws := rfl

/-! ### State.setResult -/

@[simp] theorem State.setResult_status (s : State) (v : Word) : (s.setResult v).status = s.status := rfl
@[simp] theorem State.setResult_host (s : State) (v : Word) : (s.setResult v).host = s.host := rfl
@[simp] theorem State.setResult_engine (s : State) (v : Word) : (s.setResult v).engine = { s.engine with result := v } := rfl
@[simp] theorem State.setResult_ram (s : State) (v : Word) : (s.setResult v).ram = s.ram := rfl
@[simp] theorem State.setResult_planes (s : State) (v : Word) : (s.setResult v).planes = s.planes := rfl
@[simp] theorem State.setResult_pending (s : State) (v : Word) : (s.setResult v).pending = s.pending := rfl
@[simp] theorem State.setResult_rst (s : State) (v : Word) : (s.setResult v).rst = s.rst := rfl
@[simp] theorem State.setResult_params (s : State) (v : Word) : (s.setResult v).params = s.params := rfl
@[simp] theorem State.setResult_inbox (s : State) (v : Word) : (s.setResult v).inbox = s.inbox := rfl
@[simp] theorem State.setResult_resp (s : State) (v : Word) : (s.setResult v).resp = s.resp := rfl
@[simp] theorem State.setResult_ramEpoch (s : State) (v : Word) : (s.setResult v).ramEpoch = s.ramEpoch := rfl
@[simp] theorem State.setResult_draws (s : State) (v : Word) : (s.setResult v).draws = s.draws := rfl

/-! ### State.setPolyResult -/

@[simp] theorem State.setPolyResult_status (s : State) (bs : List Byte) : (s.setPolyResult bs).status = s.status := rfl
@[simp] theorem State.setPolyResult_host (s : State) (bs : List Byte) : (s.setPolyResult bs).host = s.host := rfl
@[simp] theorem State.setPolyResult_engine (s : State) (bs : List Byte) : (s.setPolyResult bs).engine = { s.engine with plenR := BitVec.ofNat 10 bs.length } := rfl
@[simp] theorem State.setPolyResult_ram (s : State) (bs : List Byte) : (s.setPolyResult bs).ram = s.ram.writeAll Ram.pr.base bs := rfl
@[simp] theorem State.setPolyResult_planes (s : State) (bs : List Byte) : (s.setPolyResult bs).planes = s.planes := rfl
@[simp] theorem State.setPolyResult_pending (s : State) (bs : List Byte) : (s.setPolyResult bs).pending = s.pending := rfl
@[simp] theorem State.setPolyResult_rst (s : State) (bs : List Byte) : (s.setPolyResult bs).rst = s.rst := rfl
@[simp] theorem State.setPolyResult_params (s : State) (bs : List Byte) : (s.setPolyResult bs).params = s.params := rfl
@[simp] theorem State.setPolyResult_inbox (s : State) (bs : List Byte) : (s.setPolyResult bs).inbox = s.inbox := rfl
@[simp] theorem State.setPolyResult_resp (s : State) (bs : List Byte) : (s.setPolyResult bs).resp = s.resp := rfl
@[simp] theorem State.setPolyResult_ramEpoch (s : State) (bs : List Byte) : (s.setPolyResult bs).ramEpoch = s.ramEpoch := rfl
@[simp] theorem State.setPolyResult_draws (s : State) (bs : List Byte) : (s.setPolyResult bs).draws = s.draws := rfl

/-! ### State.setDivisor -/

@[simp] theorem State.setDivisor_status (s : State) (bs : List Byte) : (s.setDivisor bs).status = s.status := rfl
@[simp] theorem State.setDivisor_host (s : State) (bs : List Byte) : (s.setDivisor bs).host = { s.host with plenB := BitVec.ofNat 9 bs.length } := rfl
@[simp] theorem State.setDivisor_engine (s : State) (bs : List Byte) : (s.setDivisor bs).engine = s.engine := rfl
@[simp] theorem State.setDivisor_ram (s : State) (bs : List Byte) : (s.setDivisor bs).ram = s.ram.writeAll Ram.pb.base bs := rfl
@[simp] theorem State.setDivisor_planes (s : State) (bs : List Byte) : (s.setDivisor bs).planes = s.planes := rfl
@[simp] theorem State.setDivisor_pending (s : State) (bs : List Byte) : (s.setDivisor bs).pending = s.pending := rfl
@[simp] theorem State.setDivisor_rst (s : State) (bs : List Byte) : (s.setDivisor bs).rst = s.rst := rfl
@[simp] theorem State.setDivisor_params (s : State) (bs : List Byte) : (s.setDivisor bs).params = s.params := rfl
@[simp] theorem State.setDivisor_inbox (s : State) (bs : List Byte) : (s.setDivisor bs).inbox = s.inbox := rfl
@[simp] theorem State.setDivisor_resp (s : State) (bs : List Byte) : (s.setDivisor bs).resp = s.resp := rfl
@[simp] theorem State.setDivisor_ramEpoch (s : State) (bs : List Byte) : (s.setDivisor bs).ramEpoch = s.ramEpoch := rfl
@[simp] theorem State.setDivisor_draws (s : State) (bs : List Byte) : (s.setDivisor bs).draws = s.draws := rfl

/-! ### assembleWrites -/

@[simp] theorem assembleWrites_status (cfg : VersionLevel) (bs : List Byte) (s : State) : (assembleWrites cfg bs s).status = { s.status with cwValid := true } := rfl
@[simp] theorem assembleWrites_host (cfg : VersionLevel) (bs : List Byte) (s : State) : (assembleWrites cfg bs s).host = s.host := rfl
@[simp] theorem assembleWrites_engine (cfg : VersionLevel) (bs : List Byte) (s : State) : (assembleWrites cfg bs s).engine = { s.engine with cwLen := BitVec.ofNat 12 (totalCount cfg.version.toNat (levelOf cfg.ecl)), cwCfg := cfg } := rfl
@[simp] theorem assembleWrites_ram (cfg : VersionLevel) (bs : List Byte) (s : State) : (assembleWrites cfg bs s).ram = s.ram.writeAll Ram.cw.base (codewordStream cfg.version.toNat (levelOf cfg.ecl) bs) := rfl
@[simp] theorem assembleWrites_planes (cfg : VersionLevel) (bs : List Byte) (s : State) : (assembleWrites cfg bs s).planes = s.planes := rfl
@[simp] theorem assembleWrites_pending (cfg : VersionLevel) (bs : List Byte) (s : State) : (assembleWrites cfg bs s).pending = s.pending := rfl
@[simp] theorem assembleWrites_rst (cfg : VersionLevel) (bs : List Byte) (s : State) : (assembleWrites cfg bs s).rst = s.rst := rfl
@[simp] theorem assembleWrites_params (cfg : VersionLevel) (bs : List Byte) (s : State) : (assembleWrites cfg bs s).params = s.params := rfl
@[simp] theorem assembleWrites_inbox (cfg : VersionLevel) (bs : List Byte) (s : State) : (assembleWrites cfg bs s).inbox = s.inbox := rfl
@[simp] theorem assembleWrites_resp (cfg : VersionLevel) (bs : List Byte) (s : State) : (assembleWrites cfg bs s).resp = s.resp := rfl
@[simp] theorem assembleWrites_ramEpoch (cfg : VersionLevel) (bs : List Byte) (s : State) : (assembleWrites cfg bs s).ramEpoch = s.ramEpoch := rfl
@[simp] theorem assembleWrites_draws (cfg : VersionLevel) (bs : List Byte) (s : State) : (assembleWrites cfg bs s).draws = s.draws := rfl

/-! ### matrixInitWrites -/

@[simp] theorem matrixInitWrites_status (cfg : VersionLevel) (s : State) : (matrixInitWrites cfg s).status = { s.status with bstate := .functionPatternsPlaced } := rfl
@[simp] theorem matrixInitWrites_host (cfg : VersionLevel) (s : State) : (matrixInitWrites cfg s).host = s.host := rfl
@[simp] theorem matrixInitWrites_engine (cfg : VersionLevel) (s : State) : (matrixInitWrites cfg s).engine = { s.engine with
      mtxCfg := { version := cfg.version, ecl := cfg.ecl, side := BitVec.ofNat 8 (side cfg.version.toNat) }
      mask := MaskReg.zero, pen := penZero, formatInfo := 0, versionInfo := 0 } := rfl
@[simp] theorem matrixInitWrites_ram (cfg : VersionLevel) (s : State) : (matrixInitWrites cfg s).ram = s.ram := rfl
@[simp] theorem matrixInitWrites_planes (cfg : VersionLevel) (s : State) : (matrixInitWrites cfg s).planes = initialPlanes cfg.version.toNat := rfl
@[simp] theorem matrixInitWrites_pending (cfg : VersionLevel) (s : State) : (matrixInitWrites cfg s).pending = s.pending := rfl
@[simp] theorem matrixInitWrites_rst (cfg : VersionLevel) (s : State) : (matrixInitWrites cfg s).rst = s.rst := rfl
@[simp] theorem matrixInitWrites_params (cfg : VersionLevel) (s : State) : (matrixInitWrites cfg s).params = s.params := rfl
@[simp] theorem matrixInitWrites_inbox (cfg : VersionLevel) (s : State) : (matrixInitWrites cfg s).inbox = s.inbox := rfl
@[simp] theorem matrixInitWrites_resp (cfg : VersionLevel) (s : State) : (matrixInitWrites cfg s).resp = s.resp := rfl
@[simp] theorem matrixInitWrites_ramEpoch (cfg : VersionLevel) (s : State) : (matrixInitWrites cfg s).ramEpoch = s.ramEpoch := rfl
@[simp] theorem matrixInitWrites_draws (cfg : VersionLevel) (s : State) : (matrixInitWrites cfg s).draws = s.draws := rfl

/-! ### writeMetaWrites -/

@[simp] theorem writeMetaWrites_status (s : State) : (writeMetaWrites s).status = { s.status with bstate := .metadataWritten } := rfl
@[simp] theorem writeMetaWrites_host (s : State) : (writeMetaWrites s).host = s.host := rfl
@[simp] theorem writeMetaWrites_engine (s : State) : (writeMetaWrites s).engine = { s.engine with formatInfo := metaFormat s, versionInfo := metaVersion s } := rfl
@[simp] theorem writeMetaWrites_ram (s : State) : (writeMetaWrites s).ram = s.ram := rfl
@[simp] theorem writeMetaWrites_planes (s : State) : (writeMetaWrites s).planes = metaPlanes s := rfl
@[simp] theorem writeMetaWrites_pending (s : State) : (writeMetaWrites s).pending = s.pending := rfl
@[simp] theorem writeMetaWrites_rst (s : State) : (writeMetaWrites s).rst = s.rst := rfl
@[simp] theorem writeMetaWrites_params (s : State) : (writeMetaWrites s).params = s.params := rfl
@[simp] theorem writeMetaWrites_inbox (s : State) : (writeMetaWrites s).inbox = s.inbox := rfl
@[simp] theorem writeMetaWrites_resp (s : State) : (writeMetaWrites s).resp = s.resp := rfl
@[simp] theorem writeMetaWrites_ramEpoch (s : State) : (writeMetaWrites s).ramEpoch = s.ramEpoch := rfl
@[simp] theorem writeMetaWrites_draws (s : State) : (writeMetaWrites s).draws = s.draws := rfl

/-! ### finalizeWrites -/

@[simp] theorem finalizeWrites_status (s : State) : (finalizeWrites s).status = { s.status with bstate := .final } := rfl
@[simp] theorem finalizeWrites_host (s : State) : (finalizeWrites s).host = s.host := rfl
@[simp] theorem finalizeWrites_engine (s : State) : (finalizeWrites s).engine = s.engine := rfl
@[simp] theorem finalizeWrites_ram (s : State) : (finalizeWrites s).ram = s.ram := rfl
@[simp] theorem finalizeWrites_planes (s : State) : (finalizeWrites s).planes = s.planes := rfl
@[simp] theorem finalizeWrites_pending (s : State) : (finalizeWrites s).pending = s.pending := rfl
@[simp] theorem finalizeWrites_rst (s : State) : (finalizeWrites s).rst = s.rst := rfl
@[simp] theorem finalizeWrites_params (s : State) : (finalizeWrites s).params = s.params := rfl
@[simp] theorem finalizeWrites_inbox (s : State) : (finalizeWrites s).inbox = s.inbox := rfl
@[simp] theorem finalizeWrites_resp (s : State) : (finalizeWrites s).resp = s.resp := rfl
@[simp] theorem finalizeWrites_ramEpoch (s : State) : (finalizeWrites s).ramEpoch = s.ramEpoch := rfl
@[simp] theorem finalizeWrites_draws (s : State) : (finalizeWrites s).draws = s.draws := rfl

/-! ### scoreWrites -/

@[simp] theorem scoreWrites_status (s : State) : (scoreWrites s).status = s.status := rfl
@[simp] theorem scoreWrites_host (s : State) : (scoreWrites s).host = s.host := rfl
@[simp] theorem scoreWrites_engine (s : State) : (scoreWrites s).engine = { s.engine with
      pen := penOf s.scores, mask := { s.engine.mask with best := BitVec.ofNat 3 s.bestMask, scored := true } } := rfl
@[simp] theorem scoreWrites_ram (s : State) : (scoreWrites s).ram = s.ram := rfl
@[simp] theorem scoreWrites_planes (s : State) : (scoreWrites s).planes = s.planes := rfl
@[simp] theorem scoreWrites_pending (s : State) : (scoreWrites s).pending = s.pending := rfl
@[simp] theorem scoreWrites_rst (s : State) : (scoreWrites s).rst = s.rst := rfl
@[simp] theorem scoreWrites_params (s : State) : (scoreWrites s).params = s.params := rfl
@[simp] theorem scoreWrites_inbox (s : State) : (scoreWrites s).inbox = s.inbox := rfl
@[simp] theorem scoreWrites_resp (s : State) : (scoreWrites s).resp = s.resp := rfl
@[simp] theorem scoreWrites_ramEpoch (s : State) : (scoreWrites s).ramEpoch = s.ramEpoch := rfl
@[simp] theorem scoreWrites_draws (s : State) : (scoreWrites s).draws = s.draws := rfl

/-! ### applyMask -/

@[simp] theorem applyMask_status (p : Nat) (s : State) : (applyMask p s).status = { s.status with bstate := .masked } := rfl
@[simp] theorem applyMask_host (p : Nat) (s : State) : (applyMask p s).host = s.host := rfl
@[simp] theorem applyMask_engine (p : Nat) (s : State) : (applyMask p s).engine = { s.engine with
      mask := { s.engine.mask with applied := BitVec.ofNat 3 p, appliedValid := true } } := rfl
@[simp] theorem applyMask_ram (p : Nat) (s : State) : (applyMask p s).ram = s.ram := rfl
@[simp] theorem applyMask_planes (p : Nat) (s : State) : (applyMask p s).planes = { s.planes with darkp := maskedPlane s.params.maskAxes s.planes s.matrixSide p } := rfl
@[simp] theorem applyMask_pending (p : Nat) (s : State) : (applyMask p s).pending = s.pending := rfl
@[simp] theorem applyMask_rst (p : Nat) (s : State) : (applyMask p s).rst = s.rst := rfl
@[simp] theorem applyMask_params (p : Nat) (s : State) : (applyMask p s).params = s.params := rfl
@[simp] theorem applyMask_inbox (p : Nat) (s : State) : (applyMask p s).inbox = s.inbox := rfl
@[simp] theorem applyMask_resp (p : Nat) (s : State) : (applyMask p s).resp = s.resp := rfl
@[simp] theorem applyMask_ramEpoch (p : Nat) (s : State) : (applyMask p s).ramEpoch = s.ramEpoch := rfl
@[simp] theorem applyMask_draws (p : Nat) (s : State) : (applyMask p s).draws = s.draws := rfl

/-! ### softResetWrites -/

@[simp] theorem softResetWrites_status (s : State) : (softResetWrites s).status = { s.status with cwValid := false, bstate := .empty } := rfl
@[simp] theorem softResetWrites_host (s : State) : (softResetWrites s).host = s.host := rfl
@[simp] theorem softResetWrites_engine (s : State) : (softResetWrites s).engine = EngineRegs.zero := rfl
@[simp] theorem softResetWrites_ram (s : State) : (softResetWrites s).ram = s.ram := rfl
@[simp] theorem softResetWrites_planes (s : State) : (softResetWrites s).planes = Planes.zero := rfl
@[simp] theorem softResetWrites_pending (s : State) : (softResetWrites s).pending = s.pending := rfl
@[simp] theorem softResetWrites_rst (s : State) : (softResetWrites s).rst = s.rst := rfl
@[simp] theorem softResetWrites_params (s : State) : (softResetWrites s).params = s.params := rfl
@[simp] theorem softResetWrites_inbox (s : State) : (softResetWrites s).inbox = s.inbox := rfl
@[simp] theorem softResetWrites_resp (s : State) : (softResetWrites s).resp = s.resp := rfl
@[simp] theorem softResetWrites_ramEpoch (s : State) : (softResetWrites s).ramEpoch = s.ramEpoch := rfl
@[simp] theorem softResetWrites_draws (s : State) : (softResetWrites s).draws = s.draws := rfl

end Sys2Proof.Machine
end

