-- ==== Sys2Proof/Laws/Memory.lean ====
section
/-! SUPPORT. The laws of the byte RAMs: a read after a write, that every write keeps the canonical form, and what reading a run of bytes gives. -/

namespace Sys2Proof.Machine

/-! ## One byte -/

theorem Memory.read_write (m : Memory) (a x : Nat) (b : Byte) :
    Memory.read (Memory.write m a b) x = if x = a then some b else Memory.read m x := by
  induction m with
  | nil => simp only [Memory.write, Memory.read, eq_comm]
  | cons e rest ih =>
    obtain ⟨k, v⟩ := e
    simp only [Memory.write]
    split
    · simp only [Memory.read, eq_comm]
    · split
      · subst_vars
        simp only [Memory.read, eq_comm]
        split <;> simp_all
      · simp only [Memory.read, ih]
        split
        · split <;> simp_all
        · rfl

/-- The entries of a memory after a write: the written one, or one that was there. -/
theorem Memory.mem_write {m : Memory} {a : Nat} {b : Byte} {x : Host.Cell} (h : x ∈ Memory.write m a b) :
    x = (a, b) ∨ x ∈ m := by
  induction m with
  | nil => simpa [Memory.write] using h
  | cons e rest ih =>
    simp only [Memory.write] at h
    split at h
    · simpa using h
    · split at h
      · rcases List.mem_cons.mp h with h | h <;> simp [h]
      · rcases List.mem_cons.mp h with h | h
        · simp [h]
        · rcases ih h with h | h <;> simp [h]

theorem Memory.write_pairwise {m : Memory} (a : Nat) (b : Byte) (h : m.Pairwise (fun x y => x.1 < y.1)) :
    (Memory.write m a b).Pairwise (fun x y => x.1 < y.1) := by
  induction m with
  | nil => simp [Memory.write]
  | cons e rest ih =>
    obtain ⟨he, hr⟩ := List.pairwise_cons.mp h
    simp only [Memory.write]
    split
    · rename_i hlt
      refine List.pairwise_cons.mpr ⟨fun y hy => ?_, h⟩
      rcases List.mem_cons.mp hy with rfl | hy
      · exact hlt
      · exact Nat.lt_trans hlt (he y hy)
    · split
      · rename_i heq
        exact List.pairwise_cons.mpr ⟨fun y hy => heq ▸ he y hy, hr⟩
      · refine List.pairwise_cons.mpr ⟨fun y hy => ?_, ih hr⟩
        rcases Memory.mem_write hy with rfl | hy
        · show e.1 < a
          omega
        · exact he y hy

/-- A write of a RAM byte keeps the canonical form. -/
theorem Memory.write_wf {m : Memory} {a : Nat} (b : Byte) (h : Memory.wf m) (ha : isRamOffset a = true) :
    Memory.wf (Memory.write m a b) := by
  refine ⟨Memory.write_pairwise a b h.1, List.all_eq_true.mpr fun x hx => ?_⟩
  rcases Memory.mem_write hx with rfl | hx
  · exact ha
  · exact List.all_eq_true.mp h.2 x hx

/-! ## A run of bytes -/

theorem Memory.read_writeAll (m : Memory) (a x : Nat) (bs : List Byte) :
    Memory.read (Memory.writeAll m a bs) x =
      if a ≤ x ∧ x < a + bs.length then bs[x - a]? else Memory.read m x := by
  induction bs generalizing m a with
  | nil =>
    simp only [Memory.writeAll, List.length_nil]
    rw [if_neg (by omega)]
  | cons b rest ih =>
    simp only [Memory.writeAll, ih, Memory.read_write, List.length_cons]
    by_cases hx : x = a
    · subst hx
      rw [if_neg (by omega), if_pos rfl, if_pos (by omega), Nat.sub_self]
      rfl
    · by_cases hr : a + 1 ≤ x ∧ x < a + 1 + rest.length
      · rw [if_pos hr, if_pos (by omega), show x - a = (x - (a + 1)) + 1 by omega]
        rfl
      · rw [if_neg hr, if_neg hx, if_neg (by omega)]

/-- A byte outside a run of written bytes reads as before. -/
theorem Memory.read_writeAll_outside {m : Memory} {a x : Nat} {bs : List Byte} (h : x < a ∨ a + bs.length ≤ x) :
    Memory.read (Memory.writeAll m a bs) x = Memory.read m x := by
  rw [Memory.read_writeAll, if_neg (by omega)]

/-- A run of writes to RAM bytes keeps the canonical form. -/
theorem Memory.writeAll_wf {m : Memory} (a : Nat) (bs : List Byte) (h : Memory.wf m)
    (ha : ∀ k, k < bs.length → isRamOffset (a + k) = true) : Memory.wf (Memory.writeAll m a bs) := by
  induction bs generalizing m a with
  | nil => exact h
  | cons b rest ih =>
    refine ih (a + 1) (Memory.write_wf b h (by simpa using ha 0 (by simp))) fun k hk => ?_
    have := ha (k + 1) (by simpa using hk)
    rwa [show a + (k + 1) = a + 1 + k by omega] at this

/-- The entries of a RAM are RAM offsets. -/
theorem Ram.isRamOffset_base (r : Ram) {k : Nat} (h : k < r.size) : isRamOffset (r.base + k) = true := by
  have hm : r ∈ allRams := by cases r <;> decide
  refine List.any_eq_true.mpr ⟨r, hm, ?_⟩
  simp only [Ram.holds, Bool.and_eq_true, decide_eq_true_eq]
  omega

/-- Writing a RAM's first entries keeps the canonical form. -/
theorem State.writeRam_wf {s : State} (r : Ram) {bs : List Byte} (h : Memory.wf s.ram) (hb : bs.length ≤ r.size) :
    Memory.wf (s.writeRam r bs).ram :=
  Memory.writeAll_wf r.base bs h fun _ hk => Ram.isRamOffset_base r (Nat.lt_of_lt_of_le hk hb)

/-- The windows of two RAMs do not meet. -/
theorem Ram.base_ne {r r' : Ram} (h : r ≠ r') {k k' : Nat} (hk : k < r.size) (hk' : k' < r'.size) :
    r.base + k ≠ r'.base + k' := by
  cases r <;> cases r' <;> simp only [ne_eq, not_true_eq_false, reduceCtorEq, not_false_eq_true] at h <;>
    simp only [Ram.base, Ram.size] at * <;> omega

/-! ## Reading bytes -/

/-- With UNWRITTEN_READ = DRAW every read of a byte gives a value. -/
theorem State.ramByte_draw {s : State} (h : s.params.unwrittenRead = .draw) (r : Ram) (k : Nat) :
    ∃ b, s.ramByte r k = .ok b := by
  unfold State.ramByte
  split
  · exact ⟨_, rfl⟩
  · rw [h]
    exact ⟨_, rfl⟩

/-- A read of a byte depends on the RAM contents, the parameter and the epoch only. -/
theorem State.ramByte_congr {s t : State} {r : Ram} {k : Nat}
    (hr : Memory.read s.ram (r.base + k) = Memory.read t.ram (r.base + k)) (hp : s.params = t.params)
    (he : s.ramEpoch = t.ramEpoch) : s.ramByte r k = t.ramByte r k := by
  simp only [State.ramByte, hr, hp, he]

theorem State.ramBytes_draw {s : State} (h : s.params.unwrittenRead = .draw) (r : Ram) (k n : Nat) :
    ∃ bs, s.ramBytes r k n = .ok bs := by
  induction n generalizing k with
  | zero => exact ⟨[], rfl⟩
  | succ n ih =>
    obtain ⟨b, hb⟩ := State.ramByte_draw h r k
    obtain ⟨bs, hbs⟩ := ih (k + 1)
    exact ⟨b :: bs, by simp only [State.ramBytes, hb, hbs]⟩

/-- What a run of bytes is when it can be read: its length, and each of its bytes. -/
theorem State.ramBytes_ok {s : State} {r : Ram} {k n : Nat} {bs : List Byte} (h : s.ramBytes r k n = .ok bs) :
    bs.length = n ∧ ∀ j, (hj : j < bs.length) → s.ramByte r (k + j) = .ok bs[j] := by
  induction n generalizing k bs with
  | zero =>
    simp only [State.ramBytes, Except.ok.injEq] at h
    subst h
    simp
  | succ n ih =>
    simp only [State.ramBytes] at h
    split at h
    · cases h
    · rename_i b hb
      split at h
      · cases h
      · rename_i bs' hbs
        simp only [Except.ok.injEq] at h
        subst h
        obtain ⟨hl, hg⟩ := ih hbs
        refine ⟨by simp [hl], fun j hj => ?_⟩
        cases j with
        | zero => simpa using hb
        | succ j =>
          have := hg j (by simpa using hj)
          rw [show k + (j + 1) = k + 1 + j by omega]
          simpa using this

/-- A run of bytes that each read as given reads as their list. -/
theorem State.ramBytes_of_bytes {s : State} {r : Ram} {k : Nat} {bs : List Byte}
    (h : ∀ j, (hj : j < bs.length) → s.ramByte r (k + j) = .ok bs[j]) : s.ramBytes r k bs.length = .ok bs := by
  induction bs generalizing k with
  | nil => rfl
  | cons b rest ih =>
    have h0 : s.ramByte r k = .ok b := h 0 (by simp)
    have hr : s.ramBytes r (k + 1) rest.length = .ok rest := ih fun j hj => by
      have := h (j + 1) (by simpa using hj)
      rw [show k + (j + 1) = k + 1 + j by omega] at this
      simpa using this
    simp only [List.length_cons, State.ramBytes, h0, hr]

/-- A byte read after a RAM's first entries were written. -/
theorem State.ramByte_writeRam (s : State) (r r' : Ram) (bs : List Byte) {k : Nat} (hb : bs.length ≤ r.size) (hk : k < r'.size) :
    (s.writeRam r bs).ramByte r' k =
      if h : r' = r ∧ k < bs.length then .ok bs[k] else s.ramByte r' k := by
  by_cases h : r' = r ∧ k < bs.length
  · obtain ⟨rfl, hl⟩ := h
    have : Memory.read (s.writeRam r' bs).ram (r'.base + k) = some bs[k] := by
      simp only [State.writeRam_ram, Memory.read_writeAll]
      rw [if_pos (by omega), Nat.add_sub_cancel_left, List.getElem?_eq_getElem hl]
    rw [dif_pos ⟨rfl, hl⟩]
    simp only [State.ramByte, this]
  · rw [dif_neg h]
    refine State.ramByte_congr ?_ rfl rfl
    rw [State.writeRam_ram]
    apply Memory.read_writeAll_outside
    by_cases he : r' = r
    · subst he
      have : ¬ k < bs.length := fun hc => h ⟨rfl, hc⟩
      omega
    · by_cases hlt : r'.base + k < r.base
      · exact Or.inl hlt
      · refine Or.inr (Nat.le_of_not_lt fun hc => ?_)
        exact Ram.base_ne he hk (k' := r'.base + k - r.base) (by omega) (by omega)

/-- The bytes just written to a RAM read back. -/
theorem State.ramBytes_writeRam_self (s : State) (r : Ram) {bs : List Byte} (hb : bs.length ≤ r.size) {n : Nat} (hn : n ≤ bs.length) :
    (s.writeRam r bs).ramBytes r 0 n = .ok (bs.take n) := by
  have hlen : (bs.take n).length = n := by simp [hn]
  have := State.ramBytes_of_bytes (s := s.writeRam r bs) (r := r) (k := 0) (bs := bs.take n) fun j hj => by
    have hj' : j < bs.length := by rw [hlen] at hj; omega
    rw [Nat.zero_add, State.ramByte_writeRam s r r bs hb (by omega), dif_pos ⟨rfl, hj'⟩]
    simp
  rwa [hlen] at this

end Sys2Proof.Machine
end

