-- ==== Sys2Proof/Laws/Bus.lean ====
section
/-! SUPPORT. The address map (what each offset names), and all that a bus access, an event and a step can do. -/

namespace Sys2Proof.Machine

/-! ## The address map -/

theorem regAt_offset (r : Reg) : regAt r.offset = some r := by
  cases r with
  | pen m k => revert m; cases k <;> decide
  | _ => decide

theorem locate_offset (r : Reg) : locate r.offset = .reg r := by
  unfold locate
  rw [regAt_offset]

/-- The map of R21 and the model's offsets agree. -/
theorem mem_registerMap (r : Reg) (o : Nat) : (r, o) ∈ registerMap ↔ o = r.offset := by
  constructor
  · intro h
    have : ∀ x ∈ registerMap, x.2 = x.1.offset := by decide
    exact this _ h
  · rintro rfl
    cases r with
    | pen m k => revert m; cases k <;> decide
    | _ => decide

/-- An offset that names a register is that register's offset. -/
theorem offset_of_regAt {o : Nat} {r : Reg} (h : regAt o = some r) : r.offset = o := by
  have := List.find?_some h
  simpa using this

/-- Registers stand below 0x180. -/
theorem Reg.offset_lt (r : Reg) : r.offset < 0x180 := by
  cases r with
  | pen m k => cases k <;> simp only [Reg.offset, PenKind.offset] <;> omega
  | _ => decide

theorem regAt_none {o : Nat} (h : 0x180 ≤ o) : regAt o = none := by
  cases hr : regAt o with
  | none => rfl
  | some r => have := offset_of_regAt hr; have := r.offset_lt; omega

theorem ramAt_some {o : Nat} {r : Ram} (h : ramAt o = some r) : r.base ≤ o ∧ o < r.base + r.size := by
  have := List.find?_some h
  simpa [Ram.holds] using this

/-- The entries of a RAM are found in its window. -/
theorem ramAt_base (r : Ram) {k : Nat} (h : k < r.size) : ramAt (r.base + k) = some r := by
  cases hf : ramAt (r.base + k) with
  | none =>
    have hm : r ∈ allRams := by cases r <;> decide
    have := List.find?_eq_none.mp hf r hm
    simp [Ram.holds, h] at this
  | some r' =>
    obtain ⟨h1, h2⟩ := ramAt_some hf
    by_cases he : r = r'
    · rw [he]
    · exact absurd (by omega) (Ram.base_ne he h (k' := r.base + k - r'.base) (by omega))

theorem locate_ram (r : Ram) {k : Nat} (h : k < r.size) : locate (r.base + k) = .ramWord r k := by
  unfold locate
  rw [regAt_none (by cases r <;> simp only [Ram.base] <;> omega), ramAt_base r h]
  simp

/-- An offset that names a word of a RAM window lies in it. -/
theorem locate_ram_inv {o k : Nat} {r : Ram} (h : locate o = .ramWord r k) : o = r.base + k ∧ k < r.size := by
  unfold locate at h
  split at h
  · cases h
  · split at h
    · rename_i r' hr'
      have := ramAt_some hr'
      cases h
      omega
    · split at h <;> cases h

/-- An offset that names a register is that register's. -/
theorem locate_reg_inv {o : Nat} {r : Reg} (h : locate o = .reg r) : o = r.offset := by
  unfold locate at h
  split at h
  · rename_i r' hr'
    cases h
    exact (offset_of_regAt hr').symm
  · split at h
    · cases h
    · split at h <;> cases h

/-! ## Reads -/

/-- A served read changes no field but the draw counter. -/
theorem State.busRead_state {s t : State} {o : Nat} {v : Word} (h : s.busRead o = .ok (v, t)) : t = { s with draws := t.draws } := by
  simp only [State.busRead, bind, Except.bind] at h
  split at h
  · cases h
  · split at h <;> cases h <;> rfl

/-- With no command running, a read gives the current value. -/
theorem State.busRead_idle {s : State} {o : Nat} {v : Word} (hb : s.status.busy = false) (h : s.currentWord (locate o) = .ok v) :
    s.busRead o = .ok (v, s) := by
  have : s.unspecifiedBits (locate o) = 0 := by simp [State.unspecifiedBits, State.runningCommand, hb]
  simp [State.busRead, h, this, bind, Except.bind]

/-- A read faults only where the current value cannot be read. -/
theorem State.busRead_fault {s : State} {o : Nat} {f : Fault} (h : s.busRead o = .error f) : s.currentWord (locate o) = .error f := by
  simp only [State.busRead, bind, Except.bind] at h
  split at h
  · rename_i e he
    cases h
    exact he
  · split at h <;> cases h

/-- With UNWRITTEN_READ = DRAW every location has a current value. -/
theorem State.currentWord_draw {s : State} (h : s.params.unwrittenRead = .draw) (l : Location) : ∃ v, s.currentWord l = .ok v := by
  cases l with
  | ramWord r k =>
    obtain ⟨b0, h0⟩ := State.ramByte_draw h r k
    obtain ⟨b1, h1⟩ := State.ramByte_draw h r (k + 1)
    obtain ⟨b2, h2⟩ := State.ramByte_draw h r (k + 2)
    obtain ⟨b3, h3⟩ := State.ramByte_draw h r (k + 3)
    exact ⟨_, by simp only [State.currentWord, h0, h1, h2, h3, bind, Except.bind]; rfl⟩
  | _ => exact ⟨_, rfl⟩

/-! ## Writes -/

/-- A write changes only STATUS, the host-written registers, the RAMs and PENDING. -/
theorem State.busWrite_state (s : State) (o : Nat) (w : Word) :
    ∃ st h m p, s.busWrite o w = { s with status := st, host := h, ram := m, pending := p } := by
  unfold State.busWrite
  split
  · exact ⟨_, _, _, _, rfl⟩
  · unfold State.writeLocation
    split
    · rename_i r _
      cases r <;> exact ⟨_, _, _, _, rfl⟩
    · split <;> exact ⟨_, _, _, _, rfl⟩
    · exact ⟨_, _, _, _, rfl⟩
    · exact ⟨_, _, _, _, rfl⟩

/-- While BUSY = 1 a write leaves PENDING and the RAMs as they are. -/
theorem State.busWrite_busy {s : State} (hb : s.status.busy = true) (o : Nat) (w : Word) :
    (s.busWrite o w).pending = s.pending ∧ (s.busWrite o w).ram = s.ram := by
  unfold State.busWrite
  split
  · exact ⟨rfl, rfl⟩
  · rename_i hn
    simp only [hb, Bool.true_and, Bool.not_eq_true', Bool.not_eq_false] at hn
    cases hl : locate o with
    | reg r =>
      rw [hl] at hn
      simp only [Location.writableWhileBusy, Bool.or_eq_true, beq_iff_eq] at hn
      rcases hn with rfl | rfl <;> exact ⟨rfl, rfl⟩
    | _ => rw [hl] at hn; cases hn

/-! ## Accesses, events and steps -/

/-- What a bus access that answers can be: refused, a write, or a read. -/
theorem hostAccess_next {q : Request} {s t : State} (h : hostAccess q s = .next t) :
    s.rst = false ∧
      ((q.served = false ∧ t = s.respond (if q.write then .write true else .read 0 true)) ∨
       (q.served = true ∧ q.write = true ∧ t = (s.busWrite q.addr.toNat q.wdata).respond (.write false)) ∨
       (q.served = true ∧ q.write = false ∧
         ∃ v u, s.busRead q.addr.toNat = .ok (v, u) ∧ t = u.respond (.read v false))) := by
  unfold hostAccess at h
  split at h
  · cases h
  · rename_i hr
    refine ⟨by simpa using hr, ?_⟩
    split at h
    · rename_i hq
      split at h
      · rename_i hw
        exact .inr (.inl ⟨hq, hw, by simpa using h.symm⟩)
      · rename_i hw
        split at h
        · rename_i v u hv
          exact .inr (.inr ⟨hq, by simpa using hw, v, u, hv, by simpa using h.symm⟩)
        · cases h
    · rename_i hq
      exact .inl ⟨by simpa using hq, by simpa using h.symm⟩

/-- What the engine's turn can be: nothing, or a completion. -/
theorem engineTurn_next {s t : State} (h : engineTurn s = .next t) :
    (t = s ∧ (s.rst = true ∨ s.pending = none)) ∨ (s.rst = false ∧ ∃ w, s.pending = some w ∧ completion w s = .next t) := by
  unfold engineTurn at h
  split at h
  · rename_i hr
    exact .inl ⟨by simpa using h.symm, .inl hr⟩
  · rename_i hr
    split at h
    · rename_i w hw
      exact .inr ⟨by simpa using hr, w, hw, h⟩
    · rename_i hn
      exact .inl ⟨by simpa using h.symm, .inr hn⟩

/-- A completion runs a command or records IllegalCommand. -/
theorem completion_next {w : Word} {s t : State} (h : completion w s = .next t) :
    (∃ i, decode w = .ok i ∧ exec i s = .next t) ∨ (∃ e, decode w = .error e ∧ t = s.raise .illegalCommand) := by
  unfold completion at h
  split at h
  · rename_i i hi
    exact .inl ⟨i, hi, h⟩
  · rename_i e he
    exact .inr ⟨e, he, by simpa [execIllegal] using h.symm⟩

/-- Everything one step can be. -/
theorem step_next {s t : State} (h : step s = .next t) :
    (s.inbox = [] ∧ engineTurn s = .next t) ∨
    ∃ e rest, s.inbox = e :: rest ∧
      ((e = .engine ∧ engineTurn { s with inbox := rest } = .next t) ∨
       (∃ q, e = .host q ∧ hostAccess q { s with inbox := rest } = .next t) ∨
       ∃ level, e = .rst level ∧ t = rstInput level { s with inbox := rest }) := by
  unfold step at h
  split at h
  · rename_i hn
    exact .inl ⟨hn, h⟩
  · rename_i e rest he
    refine .inr ⟨e, rest, he, ?_⟩
    cases e with
    | engine => exact .inl ⟨rfl, h⟩
    | host q => exact .inr (.inl ⟨q, rfl, h⟩)
    | rst level => exact .inr (.inr ⟨level, rfl, by simpa [eventStep] using h.symm⟩)

/-- What a change of the reset input can be. -/
theorem rstInput_cases (level : Bool) (s : State) :
    rstInput level s = { s with rst := true } ∨ (s.rst = true ∧ rstInput level s = s.afterReset) ∨ rstInput level s = s := by
  unfold rstInput
  split
  · exact .inl rfl
  · split
    · rename_i h
      exact .inr (.inl ⟨h, rfl⟩)
    · exact .inr (.inr rfl)

/-! ## The cells of a write set -/

theorem State.isDataCell_iff (s : State) (r c : Nat) :
    s.isDataCell r c = true ↔ r < s.matrixSide ∧ c < s.matrixSide ∧ s.planes.func.get r c = false := by
  simp [State.isDataCell, and_assoc]

theorem State.isReservedCell_iff (s : State) (r c : Nat) :
    s.isReservedCell r c = true ↔ r < s.matrixSide ∧ c < s.matrixSide ∧ s.planes.func.get r c = true ∧
      (r, c) ∈ reservedCells s.engine.mtxCfg.version.toNat s.matrixSide := by
  simp [State.isReservedCell, and_assoc]

end Sys2Proof.Machine
end

