-- ==== Sys2Proof/Laws/Command.lean ====
section
/-! SUPPORT. What a command's run can do: the three ways `runCommand` ends, the checks as conditions, and one equation per command body that shows its
checks in order and its writes. -/

namespace Sys2Proof.Machine

/-! ## The run of a command -/

theorem runCommand_ok {body : State → Except Stop State} {s t : State} (h : body s = .ok t) :
    runCommand body s = .next t.complete := by
  simp [runCommand, h]

theorem runCommand_err {body : State → Except Stop State} {s : State} {e : Err} (h : body s = .error (.err e)) :
    runCommand body s = .next (s.raise e) := by
  simp [runCommand, h]

theorem runCommand_fault {body : State → Except Stop State} {s : State} {f : Fault} (h : body s = .error (.fault f)) :
    runCommand body s = .fault f := by
  simp [runCommand, h]

/-- A command that answers a next state completed its body or raised an error. -/
theorem runCommand_next {body : State → Except Stop State} {s t : State} (h : runCommand body s = .next t) :
    (∃ u, body s = .ok u ∧ t = u.complete) ∨ ∃ e, body s = .error (.err e) ∧ t = s.raise e := by
  unfold runCommand at h
  split at h
  · rename_i u hu
    exact .inl ⟨u, hu, by simpa using h.symm⟩
  · rename_i e he
    exact .inr ⟨e, he, by simpa using h.symm⟩
  · cases h

/-- A command faults exactly where its body meets a contract violation. -/
theorem runCommand_fault_iff {body : State → Except Stop State} {s : State} {f : Fault} :
    runCommand body s = .fault f ↔ body s = .error (.fault f) := by
  unfold runCommand
  split <;> simp_all

theorem runCommand_ne_refused (body : State → Except Stop State) (s : State) (r : Refusal) : runCommand body s ≠ .refused r := by
  unfold runCommand
  split <;> simp

/-- The body each command runs. -/
def bodyOf : Instr → State → Except Stop State
  | .nop => nopBody
  | .softReset => softResetBody
  | .gfExp => gfExpBody
  | .gfLog => gfLogBody
  | .gfMul => gfMulBody
  | .gfInv => gfInvBody
  | .polyMul => polyMulBody
  | .polyMod => polyModBody
  | .rsGenpoly => rsGenpolyBody
  | .tableLookup => tableLookupBody
  | .assemble => assembleBody
  | .bchFormat => bchFormatBody
  | .bchVersion => bchVersionBody
  | .matrixInit => matrixInitBody
  | .matrixPlace => matrixPlaceBody
  | .maskScore => maskScoreBody
  | .maskSelect => maskSelectBody
  | .maskForce => maskForceBody
  | .writeMeta => writeMetaBody
  | .finalize => finalizeBody
  | .encode => encodeBody

/-- Every command is a run of its body. -/
theorem exec_eq_run (i : Instr) (s : State) : exec i s = runCommand (bodyOf i) s := by cases i <;> rfl

/-! ## The checks -/

theorem liftFault_ok {α : Type} {x : Except Fault α} {a : α} : liftFault x = .ok a ↔ x = .ok a := by
  cases x <;> simp [liftFault]

/-- A RAM read inside a command never raises an error. -/
theorem liftFault_ne_err {α : Type} (x : Except Fault α) (e : Err) : liftFault x ≠ .error (.err e) := by
  cases x <;> simp [liftFault]

theorem liftFault_fault {α : Type} {x : Except Fault α} {f : Fault} : liftFault x = .error (.fault f) ↔ x = .error f := by
  cases x <;> simp [liftFault]

theorem checkVersion_ok {v : BitVec 6} (h1 : 1 ≤ v.toNat) (h2 : v.toNat ≤ 40) : checkVersion v = .ok v.toNat :=
  if_neg (by omega)

theorem checkVersion_err {v : BitVec 6} (h : v.toNat = 0 ∨ v.toNat > 40) : checkVersion v = .error (.err .invalidVersion) :=
  if_pos (by omega)

theorem checkVersion_ok_inv {v : BitVec 6} {n : Nat} (h : checkVersion v = .ok n) : n = v.toNat ∧ 1 ≤ n ∧ n ≤ 40 := by
  unfold checkVersion at h
  split at h
  · cases h
  · cases h
    omega

theorem checkBState_ok {s : State} {b : BState} (h : s.status.bstate = b) : checkBState s b = .ok () := if_pos h

theorem checkBState_err {s : State} {b : BState} (h : s.status.bstate ≠ b) : checkBState s b = .error (.err .sequenceError) :=
  if_neg h

theorem checkPolyLengths_ok {n : PolyLengths} (h1 : 1 ≤ n.la) (h2 : n.la ≤ 256) (h3 : 1 ≤ n.lb) (h4 : n.lb ≤ 256)
    (h5 : n.la + n.s ≤ 512) : checkPolyLengths n = .ok () := by
  unfold checkPolyLengths
  rw [if_neg (by omega), if_neg (by omega), if_neg (by omega)]

theorem checkPolyLengths_err {n : PolyLengths} (h : n.la = 0 ∨ n.lb = 0 ∨ n.la > 256 ∨ n.lb > 256 ∨ n.la + n.s > 512) :
    checkPolyLengths n = .error (.err .invalidArgument) := by
  unfold checkPolyLengths
  split
  · rfl
  · split
    · rfl
    · rw [if_pos (by omega)]

theorem checkPolyLengths_ok_inv {n : PolyLengths} {u : Unit} (h : checkPolyLengths n = .ok u) :
    1 ≤ n.la ∧ n.la ≤ 256 ∧ 1 ≤ n.lb ∧ n.lb ≤ 256 ∧ n.la + n.s ≤ 512 := by
  unfold checkPolyLengths at h
  split at h
  · cases h
  · split at h
    · cases h
    · split at h
      · cases h
      · omega

theorem checkCapacity_ok {l d : Nat} (h : l ≤ d) : checkCapacity l d = .ok () := if_neg (by omega)

theorem checkCapacity_err {l d : Nat} (h : l > d) : checkCapacity l d = .error (.err .dataOverflow) := if_pos h

theorem assembleOperands_ok {s : State} {data : List Byte} (h1 : 1 ≤ s.host.config.version.toNat)
    (h2 : s.host.config.version.toNat ≤ 40)
    (h3 : s.host.dataLen.toNat ≤ dataCount s.host.config.version.toNat (levelOf s.host.config.ecl))
    (h4 : s.ramBytes .data 0 s.host.dataLen.toNat = .ok data) : assembleOperands s = .ok data := by
  simp [assembleOperands, checkVersion_ok h1 h2, checkCapacity_ok h3, dataBytes, h4, liftFault, bind, Except.bind]

/-- What ASSEMBLE's and ENCODE's checks and reads establish. -/
theorem assembleOperands_ok_inv {s : State} {data : List Byte} (h : assembleOperands s = .ok data) :
    1 ≤ s.host.config.version.toNat ∧ s.host.config.version.toNat ≤ 40 ∧
      s.host.dataLen.toNat ≤ dataCount s.host.config.version.toNat (levelOf s.host.config.ecl) ∧
      s.ramBytes .data 0 s.host.dataLen.toNat = .ok data := by
  simp only [assembleOperands, bind, Except.bind] at h
  split at h
  · cases h
  · rename_i v hv
    obtain ⟨rfl, h1, h2⟩ := checkVersion_ok_inv hv
    split at h
    · cases h
    · rename_i u hu
      unfold checkCapacity at hu
      split at hu
      · cases hu
      · exact ⟨h1, h2, by omega, liftFault_ok.mp h⟩

/-! ## The bodies: each command's checks in order, then its writes -/

theorem gfLogBody_eq (s : State) : gfLogBody s =
    if s.host.arg0.toNat = 0 ∨ s.host.arg0.toNat > 255 then .error (.err .domainError)
    else .ok (s.setResult (BitVec.ofNat 32 (glog (s.host.arg0.setWidth 8)))) := by
  simp only [gfLogBody, nonzeroFieldOperand, bind, Except.bind]
  split <;> rename_i h <;> split at h <;> simp_all

theorem gfInvBody_eq (s : State) : gfInvBody s =
    if s.host.arg0.toNat = 0 ∨ s.host.arg0.toNat > 255 then .error (.err .domainError)
    else .ok (s.setResult ((ginv (s.host.arg0.setWidth 8)).setWidth 32)) := by
  simp only [gfInvBody, nonzeroFieldOperand, bind, Except.bind]
  split <;> rename_i h <;> split at h <;> simp_all

theorem gfMulBody_eq (s : State) : gfMulBody s =
    if s.host.arg0.toNat > 255 ∨ s.host.arg1.toNat > 255 then .error (.err .domainError)
    else .ok (s.setResult ((gmul (s.host.arg0.setWidth 8) (s.host.arg1.setWidth 8)).setWidth 32)) := by
  by_cases h0 : s.host.arg0.toNat > 255 <;> by_cases h1 : s.host.arg1.toNat > 255 <;>
    simp [gfMulBody, fieldOperand, bind, Except.bind, h0, h1]

theorem bchFormatBody_eq (s : State) : bchFormatBody s =
    if s.host.arg0.toNat > 31 then .error (.err .invalidArgument)
    else .ok (s.setResult ((formatWord s.host.arg0.toNat).setWidth 32)) := by
  by_cases h : s.host.arg0.toNat > 31 <;> simp [bchFormatBody, boundedOperand, bind, Except.bind, h]

theorem bchVersionBody_eq (s : State) : bchVersionBody s =
    if s.host.arg0.toNat > 63 then .error (.err .invalidArgument)
    else .ok (s.setResult ((versionWord s.host.arg0.toNat).setWidth 32)) := by
  by_cases h : s.host.arg0.toNat > 63 <;> simp [bchVersionBody, boundedOperand, bind, Except.bind, h]

theorem rsGenpolyBody_eq (s : State) : rsGenpolyBody s =
    if s.host.arg0.toNat > 255 then .error (.err .invalidArgument) else .ok (s.setDivisor (genPoly s.host.arg0.toNat)) := by
  by_cases h : s.host.arg0.toNat > 255 <;> simp [rsGenpolyBody, boundedOperand, bind, Except.bind, h]

theorem tableLookupBody_eq (s : State) : tableLookupBody s =
    if s.host.config.version.toNat < 1 ∨ s.host.config.version.toNat > 40 then .error (.err .invalidVersion)
    else .ok { s with engine := { s.engine with tbl := tableRegs s.host.config.version.toNat (levelOf s.host.config.ecl) } } := by
  by_cases h : s.host.config.version.toNat < 1 ∨ s.host.config.version.toNat > 40 <;>
    simp only [tableLookupBody, checkVersion, bind, Except.bind, h, if_true, if_false]

theorem matrixInitBody_eq (s : State) : matrixInitBody s =
    if s.host.config.version.toNat < 1 ∨ s.host.config.version.toNat > 40 then .error (.err .invalidVersion)
    else .ok (matrixInitWrites s.host.config s) := by
  by_cases h : s.host.config.version.toNat < 1 ∨ s.host.config.version.toNat > 40 <;>
    simp only [matrixInitBody, checkVersion, bind, Except.bind, h, if_true, if_false]

theorem maskScoreBody_eq (s : State) : maskScoreBody s =
    if s.status.bstate = .dataPlaced then .ok (scoreWrites s) else .error (.err .sequenceError) := by
  by_cases h : s.status.bstate = .dataPlaced <;> simp [maskScoreBody, checkBState, bind, Except.bind, h]

theorem maskSelectBody_eq (s : State) : maskSelectBody s =
    if s.status.bstate = .dataPlaced then .ok (maskSelectWrites s) else .error (.err .sequenceError) := by
  by_cases h : s.status.bstate = .dataPlaced <;> simp [maskSelectBody, checkBState, bind, Except.bind, h]

theorem maskForceBody_eq (s : State) : maskForceBody s =
    if s.status.bstate ≠ .dataPlaced then .error (.err .sequenceError)
    else if s.host.arg0.toNat > 7 then .error (.err .invalidMaskPattern) else .ok (applyMask s.host.arg0.toNat s) := by
  by_cases h : s.status.bstate = .dataPlaced <;> by_cases h7 : s.host.arg0.toNat > 7 <;>
    simp [maskForceBody, maskOperand, checkBState, bind, Except.bind, h, h7]

theorem writeMetaBody_eq (s : State) : writeMetaBody s =
    if s.status.bstate = .masked then .ok (writeMetaWrites s) else .error (.err .sequenceError) := by
  by_cases h : s.status.bstate = .masked <;> simp [writeMetaBody, checkBState, bind, Except.bind, h]

theorem finalizeBody_eq (s : State) : finalizeBody s =
    if s.status.bstate ≠ .metadataWritten then .error (.err .sequenceError)
    else if allAssigned s.engine.mtxCfg.side.toNat s.planes.asgn then .ok (finalizeWrites s)
    else .error (.err .incompleteMatrix) := by
  by_cases h : s.status.bstate = .metadataWritten <;> simp [finalizeBody, checkBState, bind, Except.bind, h]

theorem assembleBody_eq (s : State) : assembleBody s =
    match assembleOperands s with
    | .ok data => .ok (assembleWrites s.host.config data s)
    | .error e => .error e := by
  unfold assembleBody
  cases assembleOperands s <;> rfl

theorem encodeBody_eq (s : State) : encodeBody s =
    match assembleOperands s with
    | .ok data => match matrixPlaceWork (matrixInitWrites s.host.config (assembleWrites s.host.config data s)) with
      | .ok p => .ok (finalizeWrites (writeMetaWrites (maskSelectWrites p)))
      | .error e => .error e
    | .error e => .error e := by
  unfold encodeBody
  cases assembleOperands s with
  | error e => rfl
  | ok data => cases h : matrixPlaceWork (matrixInitWrites s.host.config (assembleWrites s.host.config data s)) <;>
      simp [bind, Except.bind, h]

/-- The three checks of MATRIX_PLACE. -/
theorem matrixPlaceCheck_eq (s : State) : matrixPlaceCheck s =
    if s.status.bstate = .functionPatternsPlaced ∧ s.status.cwValid = true ∧
        s.engine.cwCfg.version = s.engine.mtxCfg.version ∧ s.engine.cwCfg.ecl = s.engine.mtxCfg.ecl
    then .ok () else .error (.err .sequenceError) := by
  by_cases h1 : s.status.bstate = .functionPatternsPlaced <;> by_cases h2 : s.status.cwValid = true <;>
    by_cases h3 : s.engine.cwCfg.version = s.engine.mtxCfg.version <;>
    by_cases h4 : s.engine.cwCfg.ecl = s.engine.mtxCfg.ecl <;>
    simp [matrixPlaceCheck, checkBState, bind, Except.bind, h1, h2, h3, h4]

/-- What MATRIX_PLACE does after its checks. -/
theorem matrixPlaceWork_ok_inv {s t : State} (h : matrixPlaceWork s = .ok t) :
    ∃ bs, s.ramBytes .cw 0 (placedCodewords s.engine.cwLen.toNat
        (placementOrder s.engine.mtxCfg.side.toNat s.planes.func).length) = .ok bs ∧
      t = { s with
        planes := placeBits (placementOrder s.engine.mtxCfg.side.toNat s.planes.func) (codewordBits bs) s.planes
        status := { s.status with bstate := .dataPlaced } } := by
  simp only [matrixPlaceWork, bind, Except.bind] at h
  split at h
  · cases h
  · rename_i bs hbs
    exact ⟨bs, liftFault_ok.mp hbs, by simpa using h.symm⟩

end Sys2Proof.Machine
end

