-- ==== Sys2Proof/Laws/Galois.lean ====
section
/-! SUPPORT. The lengths of polynomial results and of the codeword stream (spec/40_gf_poly.md R120 to R122, spec/41_rs_codewords.md R147, R148). -/

namespace Sys2Proof.Machine

theorem xorInto_length {p acc : List Byte} (h : p.length ≤ acc.length) : (xorInto p acc).length = acc.length := by
  induction p generalizing acc with
  | nil => rfl
  | cons x p ih =>
    cases acc with
    | nil => simp at h
    | cons a acc => simpa [xorInto] using ih (by simpa using h)

@[simp] theorem scale_length (f : Byte) (p : List Byte) : (scale f p).length = p.length := by simp [scale]

/-- A product has |a| + |b| − 1 terms. -/
theorem polyMul_length {a b : List Byte} (ha : a ≠ []) (hb : b ≠ []) : (polyMul a b).length = a.length + b.length - 1 := by
  have hb' : 1 ≤ b.length := List.length_pos_iff.mpr hb
  induction a with
  | nil => exact absurd rfl ha
  | cons x a ih =>
    have hl : (polyMul a b).length = a.length + b.length - 1 := by
      by_cases hn : a = []
      · subst hn; simp [polyMul]
      · exact ih hn
    rw [polyMul, xorInto_length] <;> simp [hl] <;> omega

/-- The generator polynomial of degree n has n + 1 terms. -/
theorem genPoly_length (n : Nat) : (genPoly n).length = n + 1 := by
  induction n with
  | zero => rfl
  | succ n ih =>
    have hn : genPoly n ≠ [] := by intro h; simp [h] at ih
    rw [genPoly, polyMul_length hn (by simp), ih]
    simp

theorem rightAlign_length (n : Nat) (r : List Byte) : (rightAlign n r).length = n := by
  simp [rightAlign]
  omega

/-- A remainder has |b| − 1 terms. -/
theorem polyRem_length (a b : List Byte) : (polyRem a b).length = b.length - 1 := rightAlign_length _ _

theorem shiftPoly_length (a : List Byte) (n : Nat) : (shiftPoly a n).length = a.length + n := by simp [shiftPoly]

/-- ecc(d, n) has n bytes (R147). -/
theorem ecc_length (d : List Byte) (n : Nat) : (ecc d n).length = n := by
  simp [ecc, polyRem_length, genPoly_length]

/-! ## The stream -/

theorem padBytes_length (n : Nat) : (padBytes n).length = n := by
  induction n using padBytes.induct with
  | case1 => rfl
  | case2 => rfl
  | case3 n ih => simp [padBytes, ih]

theorem padData_length {data : List Byte} {d : Nat} (h : data.length ≤ d) : (padData data d).length = d := by
  simp [padData, padBytes_length]
  omega

/-- The blocks have their own lengths, when there are bytes enough. -/
theorem splitBlocks_lengths {bs : List Byte} {ds : List Nat} (h : ds.sum ≤ bs.length) :
    (splitBlocks bs ds).map List.length = ds := by
  induction ds generalizing bs with
  | nil => rfl
  | cons d ds ih =>
    simp only [List.sum_cons] at h
    simp only [splitBlocks, List.map_cons, List.length_take, List.cons.injEq]
    exact ⟨by omega, ih (by simp; omega)⟩

/-- One column holds one byte of each block that is long enough. -/
theorem column_length (blocks : List (List Byte)) (i : Nat) :
    (blocks.filterMap fun b => b[i]?).length = (blocks.map fun b => if i < b.length then 1 else 0).sum := by
  induction blocks with
  | nil => rfl
  | cons b rest ih =>
    by_cases h : i < b.length
    · simp [h, ih]; omega
    · simp [h, ih]

theorem sum_map_const (l : List Nat) (c : Nat) : (l.map fun _ => c).sum = l.length * c := by
  induction l with
  | nil => simp
  | cons x l ih => simp only [List.map_cons, List.sum_cons, ih, List.length_cons, Nat.add_mul]; omega

theorem sum_range_lt (n w : Nat) (h : n ≤ w) : ((List.range w).map fun i => if i < n then 1 else 0).sum = n := by
  induction w with
  | zero => simp; omega
  | succ w ih =>
    simp only [List.range_succ, List.map_append, List.sum_append, List.map_cons, List.map_nil, List.sum_cons, List.sum_nil]
    by_cases hn : n ≤ w
    · rw [ih hn, if_neg (by omega)]
      omega
    · have : n = w + 1 := by omega
      subst this
      have hc : ((List.range w).map fun i => if i < w + 1 then 1 else 0) = (List.range w).map fun _ => 1 := by
        apply List.map_congr_left
        intro i hi
        simp at hi
        rw [if_pos (by omega)]
      rw [hc, sum_map_const]
      simp

/-- Reading blocks column by column gives every byte of every block once. -/
theorem columns_length {blocks : List (List Byte)} {w : Nat} (h : ∀ b ∈ blocks, b.length ≤ w) :
    (columns blocks w).length = (blocks.map List.length).sum := by
  unfold columns
  rw [List.length_flatMap]
  simp only [column_length]
  induction blocks with
  | nil => simpa using sum_map_const (List.range w) 0
  | cons b rest ih =>
    have ih := ih fun x hx => h x (by simp [hx])
    simp only [List.map_cons, List.sum_cons]
    have hb := sum_range_lt b.length w (h b (by simp))
    rw [← ih]
    conv => rhs; rw [← hb]
    clear ih hb h
    induction (List.range w) with
    | nil => rfl
    | cons i l ihl => simp only [List.map_cons, List.sum_cons, ihl]; omega

theorem le_maxLength {blocks : List (List Byte)} {b : List Byte} (h : b ∈ blocks) : b.length ≤ maxLength blocks := by
  unfold maxLength
  induction blocks with
  | nil => cases h
  | cons x rest ih =>
    simp only [List.map_cons, List.foldr_cons]
    rcases List.mem_cons.mp h with rfl | h
    · exact Nat.le_max_left _ _
    · exact Nat.le_trans (ih h) (Nat.le_max_right _ _)

theorem interleave_length {datas ecs : List (List Byte)} {n : Nat} (h : ∀ e ∈ ecs, e.length = n) :
    (interleave datas ecs n).length = (datas.map List.length).sum + ecs.length * n := by
  unfold interleave
  rw [List.length_append, columns_length fun b hb => le_maxLength hb, columns_length fun b hb => Nat.le_of_eq (h b hb)]
  congr 1
  clear datas
  induction ecs with
  | nil => simp
  | cons e rest ih =>
    simp only [List.map_cons, List.sum_cons, List.length_cons, h e (by simp), ih fun x hx => h x (by simp [hx])]
    rw [Nat.add_mul]
    omega

/-- The stream of a version and level from data that fits has D + B·n bytes. -/
theorem codewordStream_length {v : Nat} {e : Level} {data : List Byte} (h : data.length ≤ dataCount v e) :
    (codewordStream v e data).length = dataCount v e + (blockList v e).length * ecCount v e := by
  have hs : (dataBlocks v e data).map List.length = (blockList v e).map (·.data) :=
    splitBlocks_lengths (by rw [padData_length h]; exact Nat.le_refl _)
  have hl : (dataBlocks v e data).length = (blockList v e).length := by
    have := congrArg List.length hs
    simpa using this
  unfold codewordStream
  rw [interleave_length (n := ecCount v e), hs, List.length_map, hl]
  · rfl
  · intro x hx
    obtain ⟨d, _, rfl⟩ := List.mem_map.mp hx
    exact ecc_length _ _

end Sys2Proof.Machine
end

