-- ==== Sys2Proof/Laws/Exec.lean ====
section
/-! SUPPORT. What no command's body touches: the platform's side of the state and the STATUS bits of the life cycle; what a completion leaves;
and the events to come along a run. -/

namespace Sys2Proof.Machine

/-- The parts of the state no command's own writes reach: the platform's fields, the model's fields, PENDING, and the STATUS bits of acceptance
and completion (spec/60_exceptions.md R245, R246). -/
structure SamePlatform (s u : State) : Prop where
  pending : u.pending = s.pending
  rst : u.rst = s.rst
  params : u.params = s.params
  inbox : u.inbox = s.inbox
  resp : u.resp = s.resp
  ramEpoch : u.ramEpoch = s.ramEpoch
  draws : u.draws = s.draws
  busy : u.status.busy = s.status.busy
  done : u.status.done = s.status.done
  err : u.status.err = s.status.err
  ovr : u.status.ovr = s.status.ovr
  errcode : u.status.errcode = s.status.errcode
  lastop : u.status.lastop = s.status.lastop
  irqEn : u.host.irqEn = s.host.irqEn

theorem SamePlatform.refl (s : State) : SamePlatform s s := by constructor <;> rfl

theorem SamePlatform.trans {s u t : State} (h : SamePlatform s u) (h' : SamePlatform u t) : SamePlatform s t where
  pending := h'.pending.trans h.pending
  rst := h'.rst.trans h.rst
  params := h'.params.trans h.params
  inbox := h'.inbox.trans h.inbox
  resp := h'.resp.trans h.resp
  ramEpoch := h'.ramEpoch.trans h.ramEpoch
  draws := h'.draws.trans h.draws
  busy := h'.busy.trans h.busy
  done := h'.done.trans h.done
  err := h'.err.trans h.err
  ovr := h'.ovr.trans h.ovr
  errcode := h'.errcode.trans h.errcode
  lastop := h'.lastop.trans h.lastop
  irqEn := h'.irqEn.trans h.irqEn

/-- MATRIX_PLACE's work leaves the platform alone. -/
theorem matrixPlaceWork_samePlatform {s u : State} (h : matrixPlaceWork s = .ok u) : SamePlatform s u := by
  obtain ⟨bs, _, rfl⟩ := matrixPlaceWork_ok_inv h
  constructor <;> rfl

/-- POLY_MUL's body, when it ends well: the product of the operands it read. -/
theorem polyMulBody_ok_inv {s u : State} (h : polyMulBody s = .ok u) :
    ∃ a b, 1 ≤ (polyLengths s).la ∧ 1 ≤ (polyLengths s).lb ∧ (polyLengths s).product ≤ 512 ∧
      s.ramBytes .pa 0 (polyLengths s).la = .ok a ∧ s.ramBytes .pb 0 (polyLengths s).lb = .ok b ∧
      u = s.setPolyResult (polyMul (shiftPoly a (polyLengths s).s) b) := by
  simp only [polyMulBody, bind, Except.bind] at h
  split at h
  · cases h
  · rename_i hc
    obtain ⟨h1, _, h3, _⟩ := checkPolyLengths_ok_inv hc
    split at h
    · cases h
    · rename_i hp
      split at h
      · cases h
      · rename_i a' ha
        split at h
        · cases h
        · rename_i b hb
          unfold polyA at ha
          split at ha
          · cases ha
          · rename_i a hra
            cases ha
            exact ⟨a, b, h1, h3, by omega, liftFault_ok.mp hra, liftFault_ok.mp hb, by simpa using h.symm⟩

/-- POLY_MOD's body, when it ends well: the remainder of the operands it read, the divisor's leading coefficient not 0. -/
theorem polyModBody_ok_inv {s u : State} (h : polyModBody s = .ok u) :
    ∃ a b, 1 ≤ (polyLengths s).la ∧ (polyLengths s).la + (polyLengths s).s ≤ 512 ∧ 1 ≤ (polyLengths s).lb ∧
      (polyLengths s).lb ≤ 256 ∧ s.ramBytes .pa 0 (polyLengths s).la = .ok a ∧ s.ramBytes .pb 0 (polyLengths s).lb = .ok b ∧
      b.headD 0 ≠ 0 ∧ u = s.setPolyResult (polyRem (shiftPoly a (polyLengths s).s) b) := by
  simp only [polyModBody, bind, Except.bind] at h
  split at h
  · cases h
  · rename_i hc
    obtain ⟨h1, _, h3, h4, h5⟩ := checkPolyLengths_ok_inv hc
    split at h
    · cases h
    · rename_i lead hlead
      split at h
      · cases h
      · rename_i hnz
        split at h
        · cases h
        · rename_i a' ha
          split at h
          · cases h
          · rename_i b hb
            unfold polyA at ha
            split at ha
            · cases ha
            · rename_i a hra
              cases ha
              have hb := liftFault_ok.mp hb
              have hlead := liftFault_ok.mp hlead
              obtain ⟨hbl, hbg⟩ := State.ramBytes_ok hb
              refine ⟨a, b, h1, h5, h3, h4, liftFault_ok.mp hra, hb, ?_, by simpa using h.symm⟩
              have hpos : 0 < b.length := by omega
              have h0 := hbg 0 hpos
              rw [Nat.zero_add, hlead, Except.ok.injEq] at h0
              cases b with
              | nil => simp at hpos
              | cons x b =>
                have h0 : lead = x := by simpa using h0
                simpa [h0] using hnz

/-- No command's own writes reach the platform's side of the state. -/
theorem bodyOf_samePlatform {i : Instr} {s u : State} (h : bodyOf i s = .ok u) : SamePlatform s u := by
  cases i <;> simp only [bodyOf] at h
  case nop => cases h; exact .refl s
  case softReset => cases h; constructor <;> rfl
  case gfExp => cases h; constructor <;> rfl
  case gfLog => rw [gfLogBody_eq] at h; split at h <;> cases h; constructor <;> rfl
  case gfMul => rw [gfMulBody_eq] at h; split at h <;> cases h; constructor <;> rfl
  case gfInv => rw [gfInvBody_eq] at h; split at h <;> cases h; constructor <;> rfl
  case polyMul => obtain ⟨a, b, _, _, _, _, _, rfl⟩ := polyMulBody_ok_inv h; constructor <;> rfl
  case polyMod => obtain ⟨a, b, _, _, _, _, _, _, _, rfl⟩ := polyModBody_ok_inv h; constructor <;> rfl
  case rsGenpoly => rw [rsGenpolyBody_eq] at h; split at h <;> cases h; constructor <;> rfl
  case tableLookup => rw [tableLookupBody_eq] at h; split at h <;> cases h; constructor <;> rfl
  case assemble => rw [assembleBody_eq] at h; split at h <;> cases h; constructor <;> rfl
  case bchFormat => rw [bchFormatBody_eq] at h; split at h <;> cases h; constructor <;> rfl
  case bchVersion => rw [bchVersionBody_eq] at h; split at h <;> cases h; constructor <;> rfl
  case matrixInit => rw [matrixInitBody_eq] at h; split at h <;> cases h; constructor <;> rfl
  case matrixPlace =>
    simp only [matrixPlaceBody, bind, Except.bind] at h
    split at h
    · cases h
    · exact matrixPlaceWork_samePlatform h
  case maskScore => rw [maskScoreBody_eq] at h; split at h <;> cases h; constructor <;> rfl
  case maskSelect => rw [maskSelectBody_eq] at h; split at h <;> cases h; constructor <;> rfl
  case maskForce => rw [maskForceBody_eq] at h; split at h <;> try cases h
                    split at h <;> cases h; constructor <;> rfl
  case writeMeta => rw [writeMetaBody_eq] at h; split at h <;> cases h; constructor <;> rfl
  case finalize => rw [finalizeBody_eq] at h; split at h <;> try cases h
                   split at h <;> cases h; constructor <;> rfl
  case encode =>
    rw [encodeBody_eq] at h
    split at h
    · rename_i data _
      split at h
      · rename_i p hp
        cases h
        have h1 : SamePlatform s (matrixInitWrites s.host.config (assembleWrites s.host.config data s)) := by constructor <;> rfl
        exact (h1.trans (matrixPlaceWork_samePlatform hp)).trans (by constructor <;> rfl)
      · cases h
    · cases h

/-- A command's completion changes nothing of the platform's side of the state. -/
theorem exec_keeps_platform {i : Instr} {s t : State} (h : exec i s = .next t) :
    t.rst = s.rst ∧ t.params = s.params ∧ t.inbox = s.inbox ∧ t.resp = s.resp ∧ t.ramEpoch = s.ramEpoch ∧ t.draws = s.draws ∧
      t.host.irqEn = s.host.irqEn ∧ t.status.ovr = s.status.ovr ∧ t.status.lastop = s.status.lastop ∧
      t.status.busy = false ∧ t.pending = none := by
  rw [exec_eq_run] at h
  rcases runCommand_next h with ⟨u, hu, rfl⟩ | ⟨e, _, rfl⟩
  · have := bodyOf_samePlatform hu
    exact ⟨this.rst, this.params, this.inbox, this.resp, this.ramEpoch, this.draws, this.irqEn, this.ovr, this.lastop, rfl, rfl⟩
  · exact ⟨rfl, rfl, rfl, rfl, rfl, rfl, rfl, rfl, rfl, rfl, rfl⟩

/-! ## The events to come, along a run -/

theorem hostAccess_inbox {q : Request} {s t : State} (h : hostAccess q s = .next t) : t.inbox = s.inbox := by
  obtain ⟨-, ⟨-, rfl⟩ | ⟨-, -, rfl⟩ | ⟨-, -, v, u, hu, rfl⟩⟩ := hostAccess_next h
  · rfl
  · obtain ⟨_, _, _, _, hw⟩ := State.busWrite_state s q.addr.toNat q.wdata
    rw [State.respond_inbox, hw]
  · rw [State.respond_inbox, State.busRead_state hu]

theorem engineTurn_inbox {s t : State} (h : engineTurn s = .next t) : t.inbox = s.inbox := by
  obtain ⟨rfl, -⟩ | ⟨-, w, -, hw⟩ := engineTurn_next h
  · rfl
  · obtain ⟨i, -, hi⟩ | ⟨-, -, rfl⟩ := completion_next hw
    · exact (exec_keeps_platform hi).2.2.1
    · rfl

/-- A step takes the first event to come and leaves the rest. -/
theorem step_inbox {s t : State} (h : step s = .next t) : t.inbox = s.inbox.tail := by
  obtain ⟨hn, he⟩ | ⟨e, rest, hs, ⟨-, he⟩ | ⟨q, -, he⟩ | ⟨level, -, rfl⟩⟩ := step_next h
  · rw [engineTurn_inbox he, hn]; rfl
  · rw [engineTurn_inbox he, hs]; rfl
  · rw [hostAccess_inbox he, hs]; rfl
  · rw [hs]
    obtain h | ⟨-, h⟩ | h := rstInput_cases level { s with inbox := rest } <;> rw [h] <;> rfl

/-- A run is deterministic. -/
theorem ReachedIn.unique {k : Nat} {s t t' : State} (h : ReachedIn k s t) (h' : ReachedIn k s t') : t = t' := by
  induction k generalizing s with
  | zero => exact h.trans h'.symm
  | succ k ih =>
    obtain ⟨u, hu, h⟩ := h
    obtain ⟨u', hu', h'⟩ := h'
    cases hu.symm.trans hu'
    exact ih h h'

/-- What is still to come after `k` steps of a run. -/
theorem ReachedIn.inbox {k : Nat} {s t : State} (h : ReachedIn k s t) : t.inbox = s.inbox.drop k := by
  induction k generalizing s with
  | zero => rw [show t = s from h, List.drop_zero]
  | succ k ih =>
    obtain ⟨u, hu, h⟩ := h
    rw [ih h, step_inbox hu, List.drop_tail]

end Sys2Proof.Machine
end

