-- ==== Sys2Proof/WellFormed.lean ====
section
/-! DEFINITION. What is well formed: a command word (spec/30_encoding.md R90, R91, R94) and a bus request (spec/20_memory.md R60, R62). A
command itself carries no operand field (R92), so every `Instr` is well formed; the checks are on the raw words the host sends. -/

namespace Sys2Proof

/-- The assigned opcode values of spec/30_encoding.md R94, in ascending order. -/
def assignedOpcodes : List Nat :=
  [0x00, 0x01, 0x10, 0x11, 0x12, 0x13, 0x18, 0x19, 0x1A, 0x20, 0x21] ++
  [0x30, 0x31, 0x40, 0x41, 0x42, 0x43, 0x44, 0x45, 0x46, 0x50]

/-- A command word is well formed when RSV = 0 and OPC is assigned; every other word is ILLEGAL (spec/30_encoding.md R95). -/
def CommandWord.wf (w : Word) : Bool := rsvField w == 0 && assignedOpcodes.contains (opcField w).toNat

/-- Every command is well formed: it has no operand field (spec/30_encoding.md R92). -/
def Instr.wf (_ : Instr) : Bool := true

/-- A bus request has one of the three sizes the port carries (spec/20_memory.md R60: "access size in bytes: 1, 2 or 4"). -/
def Machine.Request.wf (q : Machine.Request) : Bool := [1, 2, 4].contains q.size.toNat

end Sys2Proof
end

