-- ==== Sys2Proof/Laws/PerInstr.lean ====
section
/-! SUPPORT. The family ReservedZero: the word of every command has RSV = 0 and an assigned opcode (spec/30_encoding.md R90, R94). -/

namespace Sys2Proof.Laws.ReservedZero

/-- The word of `i` has RSV = 0 and an assigned opcode, so it is well formed. -/
def Statement (i : Sys2Proof.Instr) : Prop :=
  Sys2Proof.rsvField (Sys2Proof.encode i) = 0 ∧
    Sys2Proof.assignedOpcodes.contains (Sys2Proof.opcField (Sys2Proof.encode i)).toNat = true ∧
    Sys2Proof.CommandWord.wf (Sys2Proof.encode i) = true

theorem nop : Statement .nop := by unfold Statement; decide

theorem softReset : Statement .softReset := by unfold Statement; decide

theorem gfExp : Statement .gfExp := by unfold Statement; decide

theorem gfLog : Statement .gfLog := by unfold Statement; decide

theorem gfMul : Statement .gfMul := by unfold Statement; decide

theorem gfInv : Statement .gfInv := by unfold Statement; decide

theorem polyMul : Statement .polyMul := by unfold Statement; decide

theorem polyMod : Statement .polyMod := by unfold Statement; decide

theorem rsGenpoly : Statement .rsGenpoly := by unfold Statement; decide

theorem tableLookup : Statement .tableLookup := by unfold Statement; decide

theorem assemble : Statement .assemble := by unfold Statement; decide

theorem bchFormat : Statement .bchFormat := by unfold Statement; decide

theorem bchVersion : Statement .bchVersion := by unfold Statement; decide

theorem matrixInit : Statement .matrixInit := by unfold Statement; decide

theorem matrixPlace : Statement .matrixPlace := by unfold Statement; decide

theorem maskScore : Statement .maskScore := by unfold Statement; decide

theorem maskSelect : Statement .maskSelect := by unfold Statement; decide

theorem maskForce : Statement .maskForce := by unfold Statement; decide

theorem writeMeta : Statement .writeMeta := by unfold Statement; decide

theorem finalize : Statement .finalize := by unfold Statement; decide

theorem encode : Statement .encode := by unfold Statement; decide

end Sys2Proof.Laws.ReservedZero
end

