-- ==== Sys2Proof/Laws/Planes.lean ====
section
/-! SUPPORT. The laws of the planes: reading a cell after a cell was set, and of a plane given by its cells. -/

namespace Sys2Proof.Machine

theorem getLsbD_rowSet (w : BitVec 256) (c c' : Nat) (b : Bool) :
    (rowSet w c b).getLsbD c' = if c' = c ∧ c < 256 then b else w.getLsbD c' := by
  unfold rowSet
  by_cases hc' : c' < 256
  · by_cases h : c' = c
    · subst h
      cases b <;> simp [hc']
    · cases b <;> simp [h, hc']
  · have hw : w.getLsbD c' = false := BitVec.getLsbD_of_ge _ _ (by omega)
    have hn : ¬(c' = c ∧ c < 256) := by omega
    rw [if_neg hn, hw]
    exact BitVec.getLsbD_of_ge _ _ (by omega)

/-- A cell outside the 256 × 256 storage reads 0. -/
theorem Plane.get_outside (p : Plane) {r c : Nat} (h : 256 ≤ r ∨ 256 ≤ c) : p.get r c = false := by
  unfold Plane.get
  split
  · exact BitVec.getLsbD_of_ge _ _ (by omega)
  · rfl

theorem Plane.get_set (p : Plane) (r c r' c' : Nat) (b : Bool) :
    (p.set r c b).get r' c' = if r' = r ∧ c' = c ∧ r < 256 ∧ c < 256 then b else p.get r' c' := by
  unfold Plane.set
  by_cases hr : r < 256
  · rw [dif_pos hr]
    by_cases hr' : r' < 256
    · simp only [Plane.get, hr', dif_pos]
      by_cases h : r' = r
      · subst h
        simp only [Vector.getElem_set_self, getLsbD_rowSet]
        simp [hr']
      · rw [Vector.getElem_set_ne _ _ (Ne.symm h)]
        simp [h]
    · have h : ¬ r' = r := by omega
      rw [if_neg (by omega), Plane.get_outside _ (by omega), Plane.get_outside _ (by omega)]
  · rw [dif_neg hr, if_neg (by omega)]

theorem getLsbD_rowOf (g : Nat → Bool) (n c : Nat) (hn : n ≤ 256) :
    (rowOf g n).getLsbD c = (decide (c < n) && g c) := by
  induction n with
  | zero => simp [rowOf]
  | succ n ih =>
    have ih := ih (by omega)
    unfold rowOf
    by_cases hc : c = n
    · subst hc
      cases hg : g c <;> simp [ih, hg]
      omega
    · have h1 : decide (c < n + 1) = decide (c < n) := decide_eq_decide.mpr (by omega)
      rw [h1]
      cases hg : g n <;> simp [ih, Ne.symm hc]

theorem Plane.get_tabulate (g : Nat → Nat → Bool) (r c : Nat) :
    (Plane.tabulate g).get r c = (decide (r < 256) && decide (c < 256) && g r c) := by
  unfold Plane.get Plane.tabulate
  by_cases hr : r < 256
  · rw [dif_pos hr, Vector.getElem_ofFn, getLsbD_rowOf _ _ _ (Nat.le_refl _)]
    simp [hr]
  · simp [hr]

@[simp] theorem Plane.get_zero (r c : Nat) : Plane.zero.get r c = false := by
  unfold Plane.get Plane.zero
  split <;> simp

/-! ## The three planes together -/

@[simp] theorem Planes.setf_darkp (p : Planes) (r c : Nat) (d : Bool) : (p.setf r c d).darkp = p.darkp.set r c d := rfl
@[simp] theorem Planes.setf_asgn (p : Planes) (r c : Nat) (d : Bool) : (p.setf r c d).asgn = p.asgn.set r c true := rfl
@[simp] theorem Planes.setf_func (p : Planes) (r c : Nat) (d : Bool) : (p.setf r c d).func = p.func.set r c true := rfl
@[simp] theorem Planes.reserve_darkp (p : Planes) (r c : Nat) : (p.reserve r c).darkp = p.darkp := rfl
@[simp] theorem Planes.reserve_asgn (p : Planes) (r c : Nat) : (p.reserve r c).asgn = p.asgn := rfl
@[simp] theorem Planes.reserve_func (p : Planes) (r c : Nat) : (p.reserve r c).func = p.func.set r c true := rfl
@[simp] theorem Planes.place_darkp (p : Planes) (r c : Nat) (d : Bool) : (p.place r c d).darkp = p.darkp.set r c d := rfl
@[simp] theorem Planes.place_asgn (p : Planes) (r c : Nat) (d : Bool) : (p.place r c d).asgn = p.asgn.set r c true := rfl
@[simp] theorem Planes.place_func (p : Planes) (r c : Nat) (d : Bool) : (p.place r c d).func = p.func := rfl
@[simp] theorem Planes.zero_darkp : Planes.zero.darkp = Plane.zero := rfl
@[simp] theorem Planes.zero_asgn : Planes.zero.asgn = Plane.zero := rfl
@[simp] theorem Planes.zero_func : Planes.zero.func = Plane.zero := rfl

/-- A property every step of a fold keeps holds at its end. -/
theorem foldl_keeps {α β : Type} {P : β → Prop} {f : β → α → β} {xs : List α} {b : β} (h0 : P b)
    (hs : ∀ b x, x ∈ xs → P b → P (f b x)) : P (xs.foldl f b) := by
  induction xs generalizing b with
  | nil => exact h0
  | cons x rest ih =>
    exact ih (hs b x (by simp) h0) fun b y hy hb => hs b y (by simp [hy]) hb

/-- Placing bits leaves FUNC as it is. -/
@[simp] theorem placeBits_func (cells : List (Nat × Nat)) (bits : List Bool) (p : Planes) :
    (placeBits cells bits p).func = p.func := by
  induction cells generalizing bits p with
  | nil => rfl
  | cons x rest ih => cases bits <;> simp [placeBits, ih]

/-- Placing bits assigns every cell of the list and no other. -/
theorem placeBits_asgn (cells : List (Nat × Nat)) (bits : List Bool) (p : Planes) (r c : Nat) :
    (placeBits cells bits p).asgn.get r c =
      (p.asgn.get r c || (cells.contains (r, c) && decide (r < 256) && decide (c < 256))) := by
  induction cells generalizing bits p with
  | nil => simp [placeBits]
  | cons x rest ih =>
    obtain ⟨a, b⟩ := x
    cases bits <;> simp only [placeBits, ih, Planes.place_asgn, Plane.get_set] <;>
    · by_cases h : r = a ∧ c = b
      · obtain ⟨rfl, rfl⟩ := h
        by_cases hr : r < 256 <;> by_cases hc : c < 256 <;> simp [hr, hc]
      · rw [if_neg fun hc => h ⟨hc.1, hc.2.1⟩]
        have h' : (decide (r = a) && decide (c = b)) = false := by simpa using h
        simp [h']

/-! ## Reserving, writing bits, masking -/

@[simp] theorem reserveCells_asgn (cells : List (Nat × Nat)) (p : Planes) : (reserveCells cells p).asgn = p.asgn :=
  foldl_keeps (P := fun q : Planes => q.asgn = p.asgn) rfl fun _ _ _ h => h

@[simp] theorem reserveCells_darkp (cells : List (Nat × Nat)) (p : Planes) : (reserveCells cells p).darkp = p.darkp :=
  foldl_keeps (P := fun q : Planes => q.darkp = p.darkp) rfl fun _ _ _ h => h

/-- Reserving sets FUNC of the cells of the list and no other. -/
theorem reserveCells_func (cells : List (Nat × Nat)) (p : Planes) (r c : Nat) :
    (reserveCells cells p).func.get r c =
      (p.func.get r c || (cells.contains (r, c) && decide (r < 256) && decide (c < 256))) := by
  unfold reserveCells
  induction cells generalizing p with
  | nil => simp
  | cons x rest ih =>
    obtain ⟨a, b⟩ := x
    simp only [List.foldl_cons, ih, Planes.reserve_func, Plane.get_set]
    by_cases h : r = a ∧ c = b
    · obtain ⟨rfl, rfl⟩ := h
      by_cases hr : r < 256 <;> by_cases hc : c < 256 <;> simp [hr, hc]
    · rw [if_neg fun hc => h ⟨hc.1, hc.2.1⟩]
      have h' : (decide (r = a) && decide (c = b)) = false := by simpa using h
      simp [h']

/-- Writing bits to cells leaves every other cell of the three planes as it is. -/
theorem writeBits_outside {k : Nat} {pos1 pos2 : Nat → Nat × Nat} {w r c : Nat} (p : Planes)
    (h1 : ∀ i, i < k → pos1 i ≠ (r, c)) (h2 : ∀ i, i < k → pos2 i ≠ (r, c)) :
    (writeBits k pos1 pos2 w p).darkp.get r c = p.darkp.get r c ∧
      (writeBits k pos1 pos2 w p).asgn.get r c = p.asgn.get r c ∧
      (writeBits k pos1 pos2 w p).func.get r c = p.func.get r c := by
  refine foldl_keeps (P := fun q : Planes => q.darkp.get r c = p.darkp.get r c ∧ q.asgn.get r c = p.asgn.get r c ∧
    q.func.get r c = p.func.get r c) ⟨rfl, rfl, rfl⟩ fun q i hi hq => ?_
  have hi := List.mem_range.mp hi
  have n1 : ¬ (r = (pos1 i).1 ∧ c = (pos1 i).2 ∧ (pos1 i).1 < 256 ∧ (pos1 i).2 < 256) :=
    fun hc => h1 i hi (Prod.ext hc.1.symm hc.2.1.symm)
  have n2 : ¬ (r = (pos2 i).1 ∧ c = (pos2 i).2 ∧ (pos2 i).1 < 256 ∧ (pos2 i).2 < 256) :=
    fun hc => h2 i hi (Prod.ext hc.1.symm hc.2.1.symm)
  simpa only [Planes.setf_darkp, Planes.setf_asgn, Planes.setf_func, Plane.get_set, if_neg n1, if_neg n2] using hq

/-- A cell of the masked plane: inverted where it is a data cell of the matrix and the mask is true. -/
theorem maskedPlane_get (axes : MaskAxes) (pl : Planes) (n p r c : Nat) (hn : n ≤ 256) :
    (maskedPlane axes pl n p).get r c =
      (pl.darkp.get r c).xor (decide (r < n) && decide (c < n) && !pl.func.get r c && maskBit axes p r c) := by
  unfold maskedPlane
  rw [Plane.get_tabulate]
  by_cases h : r < 256 ∧ c < 256
  · simp [h.1, h.2]
  · have hd : pl.darkp.get r c = false := Plane.get_outside _ (by omega)
    have ho : (decide (r < n) && decide (c < n)) = false := by
      simp only [Bool.and_eq_false_iff, decide_eq_false_iff_not]
      omega
    have h' : (decide (r < 256) && decide (c < 256)) = false := by
      simp only [Bool.and_eq_false_iff, decide_eq_false_iff_not]
      omega
    rw [h', hd, ho]
    rfl

end Sys2Proof.Machine
end

