-- ==== Sys2Proof/Tests/Slice0.lean ====
section
/-! SUPPORT. The model's own tests. Decoding words are written out from spec/30_encoding.md R90 and R94 (OPC in bits 7:0, RSV = 0 in bits 31:8); expected
results come from the examples of the rules and from spec/95_test_vectors.md, named with each test. -/

namespace Sys2Proof.Tests

open Sys2Proof.Machine

set_option Elab.async false

/-! ## Decoding -/

theorem test_decode_control : decode 0b00000000000000000000000000000000 = .ok .nop ∧
    decode 0b00000000000000000000000000000001 = .ok .softReset ∧
    decode 0b00000000000000000000000001010000 = .ok .encode := ⟨rfl, rfl, rfl⟩

theorem test_decode_field : decode 0b00000000000000000000000000010000 = .ok .gfExp ∧
    decode 0b00000000000000000000000000010001 = .ok .gfLog ∧
    decode 0b00000000000000000000000000010010 = .ok .gfMul ∧
    decode 0b00000000000000000000000000010011 = .ok .gfInv := ⟨rfl, rfl, rfl, rfl⟩

theorem test_decode_poly : decode 0b00000000000000000000000000011000 = .ok .polyMul ∧
    decode 0b00000000000000000000000000011001 = .ok .polyMod ∧
    decode 0b00000000000000000000000000011010 = .ok .rsGenpoly := ⟨rfl, rfl, rfl⟩

theorem test_decode_symbol : decode 0b00000000000000000000000000100000 = .ok .tableLookup ∧
    decode 0b00000000000000000000000000100001 = .ok .assemble := ⟨rfl, rfl⟩

theorem test_decode_bch : decode 0b00000000000000000000000000110000 = .ok .bchFormat ∧
    decode 0b00000000000000000000000000110001 = .ok .bchVersion := ⟨rfl, rfl⟩

theorem test_decode_matrix : decode 0b00000000000000000000000001000000 = .ok .matrixInit ∧
    decode 0b00000000000000000000000001000001 = .ok .matrixPlace ∧
    decode 0b00000000000000000000000001000101 = .ok .writeMeta ∧
    decode 0b00000000000000000000000001000110 = .ok .finalize := ⟨rfl, rfl, rfl, rfl⟩

theorem test_decode_mask : decode 0b00000000000000000000000001000010 = .ok .maskScore ∧
    decode 0b00000000000000000000000001000011 = .ok .maskSelect ∧
    decode 0b00000000000000000000000001000100 = .ok .maskForce := ⟨rfl, rfl, rfl⟩

/-- R94, R95: both ends of every reserved range, and a reserved bit at each end of RSV. -/
theorem test_decode_illegal :
    ([0x02, 0x0F, 0x14, 0x17, 0x1B, 0x1F, 0x22, 0x2F, 0x32, 0x3F, 0x47, 0x4F, 0x51, 0xFF] : List Word).all
      (fun w => (decode w).toOption.isNone) = true ∧
    decode 0x00000100 = .error .reservedBitsSet ∧ decode 0x80000000 = .error .reservedBitsSet :=
  ⟨by decide, rfl, rfl⟩

/-- The table's numbering: bits 7:0 of the word. -/
theorem test_decode_table_word : decodeTableWord 32 0x41 = some .matrixPlace ∧ decodeTableWord 8 0x50 = some .encode ∧
    decodeTableWord 32 0x101 = none := by decide

/-! ## Well-formedness refuses ill-formed terms -/

theorem test_wellFormed_command_reserved_bits : CommandWord.wf 0x00000100 = false := by decide
theorem test_wellFormed_command_reserved_opcode : CommandWord.wf 0x00000047 = false := by decide
theorem test_wellFormed_command_accepts : CommandWord.wf 0x00000046 = true := by decide
theorem test_wellFormed_request_size : Request.wf { write := false, addr := 0, size := 3, wdata := 0 } = false := by decide
theorem test_wellFormed_request_accepts : Request.wf { write := false, addr := 0, size := 4, wdata := 0 } = true := by decide

/-! ## States and results -/

/-- The state after a step, if it answers one. -/
def nextOf (o : Host.Outcome State Fault Refusal) : Option State :=
  match o with
  | .next t => some t
  | .fault _ => none
  | .refused _ => none

/-- A value of the state after a step. -/
def after {α : Type} (o : Host.Outcome State Fault Refusal) (f : State → α) : Option α := (nextOf o).map f

/-- Reset, with operands in ARG0 and ARG1. -/
def withArgs (a b : Word) : State := { State.reset with host := { State.reset.host with arg0 := a, arg1 := b } }

/-- Reset, with polynomials in PA and PB and a shift. -/
def withPolys (a b : List Byte) (sh : BitVec 9) : State :=
  { (State.reset.writeRam .pa a).writeRam .pb b with host := { State.reset.host with
      plenA := BitVec.ofNat 9 a.length, plenB := BitVec.ofNat 9 b.length, pshift := sh } }

/-- Reset, with a configuration. -/
def withConfig (v : BitVec 6) (e : Level) : State :=
  { State.reset with host := { State.reset.host with config := { version := v, ecl := levelCode e } } }

/-- The data of V-E1's symbol: version 1, level M, "01234567" as six bytes (95_test_vectors.md V-R3). -/
def withData : State :=
  { (State.reset.writeRam .data [0x10, 0x20, 0x0C, 0x56, 0x61, 0x80]) with host := { State.reset.host with
      config := { version := 1, ecl := 0 }, dataLen := 6 } }

/-! ## Control and field commands -/

/-- R220's example: from STATUS = 0x0021_6004 NOP leaves 0x0000_0002. -/
theorem test_nop : after (issue .nop { State.reset with status := { Status.reset with err := true, errcode := 6, lastop := 0x21 } })
    (fun t => statusWord t.status) = some 0x00000002 := by decide

/-- R221: RESULT and BSTATE return to 0, ARG0 stays. -/
theorem test_softReset : after (exec .softReset { (withArgs 7 0).setResult 9 with status := { Status.reset with bstate := .final } })
    (fun t => (t.engine.result, t.status.bstate, t.host.arg0)) = some (0, .empty, 7) := by decide +kernel

theorem test_gfExp : after (exec .gfExp (withArgs 8 0)) (·.engine.result) = some 0x1D := by decide +kernel
theorem test_gfExp_wraps : after (exec .gfExp (withArgs 0xFFFFFFFF 0)) (·.engine.result) = some 1 := by decide +kernel
theorem test_gfLog : after (exec .gfLog (withArgs 0x8E 0)) (·.engine.result) = some 254 := by decide +kernel
theorem test_gfLog_zero : after (exec .gfLog (withArgs 0 0)) (fun t => (t.status.err, t.status.errcode, t.engine.result)) =
    some (true, 7, 0) := by decide +kernel
theorem test_gfMul : after (exec .gfMul (withArgs 0xFF 0xFF)) (·.engine.result) = some 0xE2 := by decide +kernel
theorem test_gfMul_zero : after (exec .gfMul (withArgs 0 0x80)) (fun t => (t.status.err, t.engine.result)) = some (false, 0) := by
  decide +kernel
theorem test_gfInv : after (exec .gfInv (withArgs 0x53 0)) (·.engine.result) = some 0x8C := by decide +kernel
theorem test_gfInv_above : after (exec .gfInv (withArgs 256 0)) (·.status.errcode) = some 7 := by decide +kernel

/-! ## Polynomial commands -/

/-- R120's example: [01, 02]·x·[01, 03]. -/
theorem test_polyMul : after (exec .polyMul (withPolys [1, 2] [1, 3] 1)) (fun t => (t.engine.plenR, t.ram.filter (·.1 ≥ 0x3800))) =
    some (4, [(0x3800, 1), (0x3801, 1), (0x3802, 6), (0x3803, 0)]) := by decide +kernel

/-- R121: a divisor whose leading coefficient is not 1. -/
theorem test_polyMod : after (exec .polyMod (withPolys [1, 0, 0] [2, 3] 0)) (fun t => (t.engine.plenR, t.ram.filter (·.1 ≥ 0x3800))) =
    some (1, [(0x3800, 0x46)]) := by decide +kernel

/-- R121: LA1 < LB, left-padded. -/
theorem test_polyMod_short : after (exec .polyMod (withPolys [5] [1, 2, 3, 4] 0)) (fun t => t.ram.filter (·.1 ≥ 0x3800)) =
    some [(0x3800, 0), (0x3801, 0), (0x3802, 5)] := by decide +kernel

/-- R122's example, n = 7. -/
theorem test_rsGenpoly : after (exec .rsGenpoly (withArgs 7 0)) (fun t => (t.host.plenB, t.ram.map (·.2))) =
    some (8, [0x01, 0x7F, 0x7A, 0x9A, 0xA4, 0x0B, 0x44, 0x75]) := by decide +kernel

/-! ## Tables, the stream, the BCH unit -/

/-- R141's example, version 5, level Q. -/
theorem test_tableLookup : after (exec .tableLookup (withConfig 5 .q)) (fun t =>
    ([Reg.tblTotal, .tblData, .tblEc, .tblG1, .tblG2, .tblGeom]).map t.readReg) =
    some [134, 62, 18, 0x000F2102, 0x00102202, 0x00070225] := by decide +kernel

/-- R142's example. -/
theorem test_assemble : after (exec .assemble withData) (fun t =>
    ((t.ram.filter (·.1 ≥ 0x2000)).map (·.2), t.readReg .cwLen, t.readReg .cwCfg, t.status.cwValid)) =
    some ([0x10, 0x20, 0x0C, 0x56, 0x61, 0x80, 0xEC, 0x11, 0xEC, 0x11, 0xEC, 0x11, 0xEC, 0x11, 0xEC, 0x11] ++
      [0xA5, 0x24, 0xD4, 0xC1, 0xED, 0x36, 0xC7, 0x87, 0x2C, 0x55], 26, 1, true) := by decide +kernel

theorem test_bchFormat : after (exec .bchFormat (withArgs 8 0)) (·.engine.result) = some 0x77C4 := by decide +kernel
theorem test_bchVersion : after (exec .bchVersion (withArgs 7 0)) (·.engine.result) = some 0x7C94 := by decide +kernel
theorem test_bchVersion_above : after (exec .bchVersion (withArgs 64 0)) (·.status.errcode) = some 8 := by decide +kernel

/-! ## The matrix -/

/-- The DARKP words of rows 0..20 of V-M3, the placed matrix of version 1, level M, "01234567". -/
def placedRows : List (BitVec 256) :=
  [0x001FC87F, 0x00104C41, 0x0017525D, 0x0017505D, 0x00174E5D, 0x00104241, 0x001FD57F, 0x00000A00, 0x00000040, 0x000207A1] ++
  [0x001BB8CD, 0x00031019, 0x0005BBF1, 0x0002EE00, 0x0004447F, 0x0010EE41, 0x0002025D, 0x0004005D, 0x0001BE5D, 0x00091241] ++
  [0x0001BC7F]

/-- The planes of V-M3. -/
def placedPlanes : Planes := { initialPlanes 1 with darkp := Vector.ofFn fun r => placedRows.getD r.val 0 }

/-- A state with a version 1, level M matrix. -/
def withMatrix (b : BState) (p : Planes) : State :=
  { withData with
    planes := p, status := { Status.reset with bstate := b }
    engine := { EngineRegs.zero with mtxCfg := { version := 1, ecl := 0, side := 21 } } }

/-- R181's example and V-M1: MTX_CFG, BSTATE, and 208 data cells. -/
theorem test_matrixInit : after (exec .matrixInit withData) (fun t =>
    (t.readReg .mtxCfg, t.status.bstate, (grid 21 21).countP fun x => !t.planes.func.get x.1 x.2)) =
    some (0x00150001, .functionPatternsPlaced, 208) := by decide +kernel

/-- V-M3: the first and the last row of the placed matrix, from V-R3's codewords. -/
theorem test_matrixPlace :
    (match assembleOperands withData with
     | .ok data => after (exec .matrixPlace (matrixInitWrites withData.host.config (assembleWrites withData.host.config data withData)))
         fun t => (t.status.bstate, (t.planes.darkp[0], t.planes.darkp[12], t.planes.darkp[20]))
     | .error _ => none) = some (.dataPlaced, (0x001FC87F, 0x0005BBF1, 0x0001BC7F)) := by decide +kernel

/-- V-E1, p = 3: P1, P2, P3 and DARK of the candidate of V-M3's matrix. -/
theorem test_maskScore_penalties : scoreOf (candidate .doc placedPlanes 3) 21 = { p1 := 221, p2 := 192, p3 := 760, dark := 199 } := by
  decide +kernel

/-- V-E1: the scaled score of mask 3. -/
theorem test_maskScore_scaled : Score.scaled { p1 := 221, p2 := 192, p3 := 760, dark := 199 } 21 = 521593 := by decide +kernel

/-- R173's example: ARG0 = 5 in DataPlaced, and ARG0 = 8. -/
theorem test_maskForce : after (exec .maskForce { withMatrix .dataPlaced placedPlanes with host := (withArgs 5 0).host })
    (fun t => (t.readReg .mask, t.status.bstate)) = some (0x0D, .masked) := by decide +kernel
theorem test_maskForce_invalid : after (exec .maskForce { withMatrix .dataPlaced placedPlanes with host := (withArgs 8 0).host })
    (fun t => (t.status.errcode, t.status.bstate)) = some (5, .dataPlaced) := by decide +kernel

/-- V-M5: WRITE_META with mask 3 at level M; (0, 8) and (8, 20) get bit 0 of 0x5B4B, and (13, 8) is dark. -/
theorem test_writeMeta :
    (let s := withMatrix .masked placedPlanes
     after (exec .writeMeta { s with engine := { s.engine with mask := { MaskReg.zero with applied := 3 } } }) fun t =>
       (t.readReg .formatInfo, t.readReg .versionInfo, t.planes.darkp.get 0 8, t.planes.darkp.get 8 20, t.planes.darkp.get 13 8)) =
    some (0x5B4B, 0, true, true, true) := by decide +kernel

/-- R200: a matrix with unassigned cells is not sealed. -/
theorem test_finalize_incomplete : after (exec .finalize (withMatrix .metadataWritten placedPlanes))
    (fun t => (t.status.errcode, t.status.bstate)) = some (9, .metadataWritten) := by decide +kernel

/-- V-M6: FINALIZE in state 3. -/
theorem test_finalize_sequence : after (exec .finalize (withMatrix .masked placedPlanes)) (·.status.errcode) = some 3 := by decide +kernel

/-- R222's example: 1-M, "01234567", MASK_AXES = DOC. -/
theorem test_encode : after (exec .encode withData) (fun t =>
    (t.status.bstate, t.readReg .mask, t.readReg .formatInfo, t.readReg .versionInfo)) = some (.final, 0xBB, 0x5B4B, 0) := by
  decide +kernel

/-! ## The bus -/

/-- R245: a CMD write on the bus, then a STATUS read: BUSY = 1 and LASTOP = 0x10. -/
theorem test_cmd_then_status :
    ((nextOf (hostAccess (writeAt 4 0x10) State.reset)).bind fun t => after (hostAccess (readAt 8) t) (·.resp)) =
      some (some (.read 0x00100001 false)) := by decide +kernel

/-- R64: a window write is little-endian. -/
theorem test_data_write : after (hostAccess (writeAt 0x1004 0x80615620) State.reset) (·.ram) =
    some [(0x1004, 0x20), (0x1005, 0x56), (0x1006, 0x61), (0x1007, 0x80)] := by decide +kernel

/-- R62: a misaligned read answers err = 1. -/
theorem test_misaligned : after (hostAccess (readAt 0x1002) State.reset) (·.resp) = some (some (.read 0 true)) := by decide +kernel

/-! ## Witnesses: states and operands that meet the hypotheses of the statements, clause by clause -/

/-- A command accepted and pending. -/
def running (i : Instr) (inbox : List Event) : State := { State.reset.accept (encode i) with inbox := inbox }

/-- Held in reset. -/
def held (inbox : List Event) : State := { State.reset with rst := true, inbox := inbox }

/-- Reset, in a builder state, with a matrix of side n. -/
def inState (b : BState) (v : BitVec 6) (n : BitVec 8) : State :=
  { State.reset with
    status := { Status.reset with bstate := b }
    engine := { EngineRegs.zero with mtxCfg := { version := v, ecl := 0, side := n } } }

/-- R71: with WRITE_META pending and no matrix there is no reserved cell, so the words of (0, 8) and (8, 0) read 0 with no draw. -/
theorem test_busy_read_without_matrix :
    ([0x4000, 0x4100, 0x6000, 0x6100].map fun o => after (hostAccess (readAt o) (running .writeMeta [])) fun t => (t.resp, t.draws)) =
      List.replicate 4 (some (some (.read 0 false), 0)) := by decide +kernel

theorem witness_IllegalWordsChangeNothing :
    decode 0x00000002 = .error .reservedOpcode ∧ decode 0x000000FF = .error .reservedOpcode ∧
      decode 0xFFFFFF00 = .error .reservedBitsSet := ⟨rfl, rfl, rfl⟩

theorem witness_StepRunsThePendingCommand :
    ((running .nop []).pending = some 0 ∧ (running .nop []).rst = false ∧ decode 0 = .ok .nop ∧ (running .nop []).inbox = []) ∧
    (running .encode [.engine]).inbox = [.engine] ∧ (running .encode [.host (readAt 8)]).inbox = [.host (readAt 8)] ∧
    State.reset.pending = none ∧ State.reset.inbox = [] ∧ { State.reset with inbox := [.engine] }.inbox = [.engine] ∧
    ((State.reset.accept 0x47).pending = some 0x47 ∧ (State.reset.accept 0x47).rst = false ∧
      decode 0x47 = .error .reservedOpcode ∧ (State.reset.accept 0x47).inbox = []) ∧
    (running .nop [.rst true]).inbox = [.rst true] ∧ (running .nop [.rst false]).inbox = [.rst false] ∧
    (held [.rst false]).inbox = [.rst false] ∧ (held [.rst false]).rst = true :=
  ⟨⟨rfl, rfl, rfl, rfl⟩, rfl, rfl, rfl, rfl, rfl, ⟨rfl, rfl, rfl, rfl⟩, rfl, rfl, rfl, rfl⟩

theorem witness_CommandAcceptance :
    State.reset.rst = false ∧ State.reset.status.busy = false ∧ (running .nop []).rst = false ∧
      (running .nop []).status.busy = true := ⟨rfl, rfl, rfl, rfl⟩

theorem witness_BusyWritesAreRefused :
    (running .nop []).rst = false ∧ (running .nop []).status.busy = true ∧
      ([0x004, 0x008, 0x010, 0x014, 0x018, 0xFFFC].all fun o => decide (o < 65536) && o % 4 == 0) = true := by decide

/-- A request of a wrong size, a misaligned one at the end of the map, and one that is served. -/
theorem witness_RefusedBusAccess :
    State.reset.rst = false ∧
    ¬ (({ write := true, addr := 0, size := 2, wdata := 0 } : Request).size.toNat = 4 ∧ 0 % 4 = 0) ∧
    ¬ ((readAt 0xFFFF).size.toNat = 4 ∧ (readAt 0xFFFF).addr.toNat % 4 = 0) ∧
    ((readAt 0xFFFC).size.toNat = 4 ∧ (readAt 0xFFFC).addr.toNat % 4 = 0) ∧
    (after (hostAccess (readAt 0xFFFC) State.reset) (·.resp)).isSome = true := by decide +kernel

theorem witness_ReadsChangeNothing :
    (readAt 0).write = false ∧ (nextOf (hostAccess (readAt 0) State.reset)).isSome = true ∧ State.reset.Idle ∧
      State.reset.currentWord (locate 0) = .ok 0x51520001 ∧ State.reset.currentWord (locate 0xFFFC) = .ok 0 :=
  ⟨rfl, by decide +kernel, ⟨rfl, rfl⟩, rfl, rfl⟩

/-- RESULT is in GF_EXP's write set; STATUS and DATA are not. -/
theorem witness_BusyReadsOutsideTheWriteSetAreExact :
    (running .gfExp []).rst = false ∧ (running .gfExp []).status.busy = true ∧ (running .gfExp []).pending = some 0x10 ∧
      decode 0x10 = .ok .gfExp ∧ (running .gfExp []).currentWord (locate 0x020) = .ok 0 ∧
      ((running .gfExp []).writeSetBits .gfExp (locate 0x020)).getLsbD 31 = true ∧
      ((running .gfExp []).writeSetBits .gfExp (locate 0x01C)).getLsbD 31 = false ∧
      (running .gfExp []).currentWord (locate 0x008) = .ok 0x00100001 ∧
      (let s := matrixInitWrites { version := 7, ecl := 0 } State.reset
       writesCell .writeMeta s .darkp 8 0 = true ∧ writesCell .writeMeta s .asgn 44 8 = true ∧
         writesCell .matrixPlace s .darkp 44 44 = true) := by
  refine ⟨rfl, rfl, rfl, rfl, rfl, ?_, ?_, rfl, ?_⟩ <;> decide +kernel

theorem reset_lifeCycle (inbox : List Event) : State.LifeCycleInv { State.reset with inbox := inbox } where
  busy_iff := rfl
  not_both := by simp [State.reset, Status.reset]
  busy_clear := by simp [State.reset, Status.reset]
  done_code := by simp [State.reset, Status.reset]
  err_code := by simp [State.reset, Status.reset]
  code_legal := .inl rfl
  lastop_pending := by intro w h; cases h

/-- Without a stream the codeword invariant holds. -/
theorem no_codewords {s : State} (h : s.status.cwValid = false) (hl : s.engine.cwLen = 0)
    (hc : s.engine.cwCfg = { version := 0, ecl := 0 }) : s.CodewordInv where
  invalid_zero := fun _ => ⟨hl, hc⟩
  version_range := by intro h'; rw [h] at h'; cases h'
  len_eq := by intro h'; rw [h] at h'; cases h'
  written := by intro k hk; rw [hl] at hk; simp at hk

/-- GF_LOG of 0 issued from reset, with one poll before its completion. -/
def logProgram : State := { State.reset with inbox := Program.run .gfLog 1 }

/-- Its states after the write of CMD, after the poll that still reads BUSY = 1, after the completion, and at the end. -/
def logWritten : State := { State.reset.accept 0x11 with inbox := Program.wait 1, resp := some (.write false) }
def logPolled : State :=
  { logWritten with inbox := [.engine, Program.rdReg .status], resp := some (.read 0x00110001 false) }
def logDone : State := { logPolled.raise .domainError with inbox := [Program.rdReg .status] }
def logEnd : State := { logDone with inbox := [], resp := some (.read 0x00117004 false) }

theorem step_logProgram : step logProgram = .next logWritten := rfl
theorem step_logWritten : step logWritten = .next logPolled := rfl
theorem step_logPolled : step logPolled = .next logDone := rfl
theorem step_logDone : step logDone = .next logEnd := rfl

/-- The run ends at the second poll, not at the first. -/
theorem logEnd_ends : EndOfRun logProgram logEnd := by
  refine ⟨0, 2, logProgram, logWritten, logDone, rfl, ⟨⟨_, rfl, rfl⟩, step_logProgram, by decide⟩,
    ⟨_, step_logWritten, _, step_logPolled, rfl⟩, ⟨⟨_, rfl, rfl⟩, step_logDone, _, rfl, rfl⟩, ?_⟩
  rintro m hm x y hx ⟨⟨e, he, hr⟩, hs, w, hw, hb⟩
  obtain rfl | rfl : m = 0 ∨ m = 1 := by omega
  · cases hx
    rw [step_logWritten] at hs
    cases hs
    cases hw
    cases hb
  · obtain ⟨z, hz, rfl⟩ := hx
    rw [step_logWritten] at hz
    cases hz
    injection he with h1
    subst h1
    cases hr

theorem logDone_lifeCycle : logDone.LifeCycleInv where
  busy_iff := rfl
  not_both := by decide
  busy_clear := by decide
  done_code := by decide
  err_code := by decide
  code_legal := .inr ⟨.domainError, rfl⟩
  lastop_pending := by intro w h; cases h

/-- R19: a run that ends with ERR = 1 and BSTATE = Empty. -/
theorem witness_ObservingIdleMeansCompleted :
    logProgram.LifeCycleInv ∧ logProgram.Idle ∧ logProgram.params.unwrittenRead = .draw ∧
      (logDone.LifeCycleInv ∧ ObservesIdle logDone logEnd) ∧ EndOfRun logProgram logEnd ∧
      logEnd.status.err = true ∧ logEnd.status.bstate = .empty :=
  ⟨reset_lifeCycle _, ⟨rfl, rfl⟩, rfl, ⟨logDone_lifeCycle, ⟨_, rfl, rfl⟩, step_logDone, _, rfl, rfl⟩, logEnd_ends, rfl, rfl⟩

/-- Every word of every byte window can be read with UNWRITTEN_READ = DRAW, the last ones of DATA and PR among them. -/
theorem witness_ByteWindowAccess :
    State.reset.Idle ∧ (∀ (r : Ram) (k : Nat), ∃ b, State.reset.ramByte r k = .ok b) ∧ 4 * 1023 + 3 < Ram.data.size ∧
      4 * 63 + 3 < Ram.pb.size ∧ 4 * 127 + 3 < Ram.pr.size :=
  ⟨⟨rfl, rfl⟩, fun r k => State.ramByte_draw rfl r k, by decide, by decide, by decide⟩

theorem zero_cells (n : Nat) : Planes.zero.CellInv n := by
  constructor <;> intros <;> simp

theorem witness_PlaneWindowRead :
    State.reset.Idle ∧ 255 < 256 ∧ 7 < 8 ∧ State.reset.planes.CellInv State.reset.matrixSide ∧ State.reset.matrixSide ≤ 0 :=
  ⟨⟨rfl, rfl⟩, by decide, by decide, zero_cells _, by decide⟩

/-- An offset at an edge of each range. -/
theorem witness_UnmappedAndReadOnlyOffsets :
    State.reset.Idle ∧
    ([0x04C, 0x068, 0x0FC, 0x180, 0xFFC, 0x3100, 0x33FC, 0x3500, 0x37FC, 0x3A00, 0x3FFC, 0xA000, 0xFFFC, 0x000, 0x020, 0x030, 0x048,
      0x050, 0x064, 0x100, 0x17C, 0x2000, 0x2FFC, 0x3800, 0x39FC, 0x4000, 0x9FFC].all
        fun o => decide (o < 65536) && o % 4 == 0) = true := ⟨⟨rfl, rfl⟩, by decide⟩

theorem witness_RegisterAccess :
    State.reset.Idle ∧ (Reg.plenB, 0x028) ∈ registerMap ∧ (Reg.pen 7 .dark, 0x17C) ∈ registerMap ∧
      ([Reg.config, .dataLen, .irqEn, .arg0, .arg1, .plenA, .plenB, .pshift].contains Reg.plenB) = true :=
  ⟨⟨rfl, rfl⟩, by decide, by decide, by decide⟩

theorem witness_InterruptLevel :
    State.reset.rst = false ∧ (running .nop []).rst = false ∧ State.reset.Idle ∧
      (nextOf (hostAccess (writeAt 0x004 0) State.reset)).isSome = true :=
  ⟨rfl, rfl, ⟨rfl, rfl⟩, by decide +kernel⟩

theorem witness_HardwareResetState :
    (held [.rst false, .engine]).rst = true ∧ (held [.rst false, .engine]).inbox = .rst false :: [.engine] := ⟨rfl, rfl⟩

/-- The engine's turn, a host write and a reset, each with a command pending. -/
theorem witness_PendingIsAbandonedOnlyByReset :
    (running .nop []).status.busy = true ∧ (running .nop []).pending = some 0 ∧ (nextOf (step (running .nop []))).isSome = true ∧
      (nextOf (step (running .nop [.host (writeAt 4 1)]))).isSome = true ∧
      (nextOf (step { running .nop [.rst false] with rst := true })).isSome = true := by
  refine ⟨rfl, rfl, ?_, ?_, ?_⟩ <;> decide +kernel

theorem witness_HeldInReset :
    (held []).rst = true ∧ (held []).inbox = [] ∧ (held [.engine]).inbox = .engine :: [] := ⟨rfl, rfl, rfl⟩

theorem running_lifeCycle (i : Instr) (inbox : List Event) : (running i inbox).LifeCycleInv where
  busy_iff := rfl
  not_both := by simp [running, State.accept, Status.accepted]
  busy_clear := by simp [running, State.accept, Status.accepted]
  done_code := by simp [running, State.accept, Status.accepted]
  err_code := by simp [running, State.accept, Status.accepted]
  code_legal := .inl rfl
  lastop_pending := by
    intro w h
    cases h
    rfl

/-- A command pending with a refused write and a read before its completion. -/
theorem witness_PendingCommandCompletes :
    (running .encode [.host (writeAt 4 1), .host (readAt 8)]).LifeCycleInv ∧
      (running .encode [.host (writeAt 4 1), .host (readAt 8)]).pending = some 0x50 ∧
      (running .encode [.host (writeAt 4 1), .host (readAt 8)]).rst = false ∧
      (running .encode [.host (writeAt 4 1), .host (readAt 8)]).params.unwrittenRead = .draw ∧
      ∀ level, Event.rst level ∉ (running .encode [.host (writeAt 4 1), .host (readAt 8)]).inbox :=
  ⟨running_lifeCycle _ _, rfl, rfl, rfl, by intro level; simp [running]⟩

theorem witness_StepKeepsLifeCycle : (running .nop []).LifeCycleInv ∧ (nextOf (step (running .nop []))).isSome = true :=
  ⟨running_lifeCycle _ _, by decide +kernel⟩

theorem witness_StepKeepsMemoryForm :
    State.MemoryInv { withData with inbox := [.host (writeAt 0x1000 0xFFFFFFFF)] } ∧
      (nextOf (step { withData with inbox := [.host (writeAt 0x1000 0xFFFFFFFF)] })).isSome = true :=
  ⟨State.writeRam_wf (s := State.reset) .data ⟨.nil, rfl⟩ (by decide), by decide +kernel⟩

theorem witness_StepKeepsCodewords : (running .assemble []).CodewordInv ∧ (nextOf (step (running .matrixPlace []))).isSome = true :=
  ⟨no_codewords rfl rfl rfl, by decide +kernel⟩

/-- The state MATRIX_INIT leaves for version 1 meets the builder invariant. -/
def initialised : State := { matrixInitWrites { version := 1, ecl := 0 } State.reset with pending := some 0 }

/-- Row by row: every dark cell is assigned, and nothing stands outside the 21 × 21 cells. -/
theorem initialised_rows :
    ∀ r : Fin 256, (initialPlanes 1).darkp[r] &&& (initialPlanes 1).asgn[r] = (initialPlanes 1).darkp[r] ∧
      (initialPlanes 1).darkp[r] >>> (if r.val < 21 then 21 else 0) = 0 ∧
      (initialPlanes 1).asgn[r] >>> (if r.val < 21 then 21 else 0) = 0 ∧
      (initialPlanes 1).func[r] >>> (if r.val < 21 then 21 else 0) = 0 := by
  decide +kernel

theorem getLsbD_of_shift {w : BitVec 256} {n c : Nat} (h : w >>> n = 0) (hc : n ≤ c) : w.getLsbD c = false := by
  have := congrArg (·.getLsbD (c - n)) h
  simpa [BitVec.getLsbD_ushiftRight, Nat.add_sub_cancel' hc] using this

theorem initialised_builder : initialised.BuilderInv where
  empty_zero := by intro h; cases h
  version_range := by intro _; decide
  side_eq := by intro _; decide
  cells := by
    show (initialPlanes 1).CellInv 21
    constructor
    · intro r c h
      by_cases hb : r < 256
      · have hrow : (initialPlanes 1).darkp[r] &&& (initialPlanes 1).asgn[r] = (initialPlanes 1).darkp[r] :=
          (initialised_rows ⟨r, hb⟩).1
        simp only [Plane.get, hb, dif_pos] at h ⊢
        rw [← hrow, BitVec.getLsbD_and, h, Bool.and_false]
      · exact Plane.get_outside _ (by omega)
    · intro r c h
      by_cases hb : r < 256
      · obtain ⟨_, h1, h2, h3⟩ := initialised_rows ⟨r, hb⟩
        simp only [Plane.get, hb, dif_pos]
        have hs : (if r < 21 then 21 else 0) ≤ c := by split <;> omega
        exact ⟨getLsbD_of_shift h1 hs, getLsbD_of_shift h2 hs, getLsbD_of_shift h3 hs⟩
      · exact ⟨Plane.get_outside _ (by omega), Plane.get_outside _ (by omega), Plane.get_outside _ (by omega)⟩
  func_layout := fun _ _ _ => rfl
  asgn_layout := fun _ _ _ => rfl
  applied_valid := rfl

theorem witness_StepKeepsBuilder : initialised.BuilderInv ∧ (nextOf (step initialised)).isSome = true :=
  ⟨initialised_builder, rfl⟩

theorem witness_CommandsStayInTheirWriteSet : initialised.BuilderInv ∧ (nextOf (exec .writeMeta initialised)).isSome = true :=
  ⟨initialised_builder, rfl⟩

/-- For GfLogResult, GfMulResult, GfInvResult and BchWords: the ends of the operand ranges, and a refused operand of each. -/
theorem witness_scalar_operands :
    ((withArgs 1 0).host.arg0.toNat = 1 ∧ (withArgs 255 255).host.arg0.toNat = 255 ∧ (withArgs 255 255).host.arg1.toNat = 255 ∧
      (withArgs 0 256).host.arg0.toNat = 0 ∧ (withArgs 0 256).host.arg1.toNat = 256) ∧
    ((withArgs 31 0).host.arg0.toNat ≤ 31 ∧ (withArgs 32 0).host.arg0.toNat > 31 ∧ (withArgs 63 0).host.arg0.toNat ≤ 63 ∧
      (withArgs 64 0).host.arg0.toNat > 63 ∧ (withArgs 0xFFFFFFFF 0).host.arg0.toNat > 255) := by decide

/-- POLY_MUL's longest product that fits, its shortest operands, and one operand for each refusal. -/
theorem witness_PolyMulResult :
    (∃ a b, State.ramBytes { State.reset with host := { HostRegs.reset with plenA := 256, plenB := 256, pshift := 1 } } .pa 0 256 = .ok a ∧
      State.ramBytes { State.reset with host := { HostRegs.reset with plenA := 256, plenB := 256, pshift := 1 } } .pb 0 256 = .ok b) ∧
    256 + 1 + 256 - 1 ≤ 512 ∧
    (withPolys [7] [9] 0).ramBytes .pa 0 1 = .ok [7] ∧ (withPolys [7] [9] 0).ramBytes .pb 0 1 = .ok [9] ∧
    (HostRegs.reset.plenA.toNat = 0 ∧ { HostRegs.reset with plenB := 257 }.plenB.toNat > 256 ∧ 256 + 257 > 512 ∧ 256 + 2 + 256 - 1 > 512) := by
  refine ⟨?_, by decide, rfl, rfl, by decide⟩
  obtain ⟨a, ha⟩ := State.ramBytes_draw
    (s := { State.reset with host := { HostRegs.reset with plenA := 256, plenB := 256, pshift := 1 } }) rfl .pa 0 256
  obtain ⟨b, hb⟩ := State.ramBytes_draw
    (s := { State.reset with host := { HostRegs.reset with plenA := 256, plenB := 256, pshift := 1 } }) rfl .pb 0 256
  exact ⟨a, b, ha, hb⟩

/-- POLY_MOD's operands: a divisor longer than the dividend, one of equal length, a constant one, and one that begins with 0. -/
theorem witness_PolyModResult :
    ((withPolys [5] [1, 2, 3, 4] 0).ramBytes .pa 0 1 = .ok [5] ∧ (withPolys [5] [1, 2, 3, 4] 0).ramBytes .pb 0 4 = .ok [1, 2, 3, 4] ∧
      ([1, 2, 3, 4] : List Byte).getD 0 0 ≠ 0 ∧ 1 + 0 < 4) ∧
    ((withPolys [5, 6] [2, 3] 0).ramBytes .pa 0 2 = .ok [5, 6] ∧ (withPolys [5, 6] [2, 3] 0).ramBytes .pb 0 2 = .ok [2, 3] ∧ 2 ≤ 2 + 0) ∧
    ((withPolys [5] [2] 511).host.pshift.toNat = 511 ∧ 1 + 511 ≤ 512) ∧
    ((withPolys [5] [0, 3] 0).ramByte .pb 0 = .ok 0) := ⟨⟨rfl, rfl, by decide, by decide⟩, ⟨rfl, rfl, by decide⟩, ⟨rfl, by decide⟩, rfl⟩

theorem witness_RsGenpolyResult : (withArgs 0 0).host.arg0.toNat ≤ 255 ∧ (withArgs 255 0).host.arg0.toNat ≤ 255 ∧
    (withArgs 256 0).host.arg0.toNat > 255 := by decide

/-- The longest block and the shortest. -/
theorem witness_ReedSolomonCodewords :
    (1 ≤ (List.replicate 257 (1 : Byte)).length ∧ (List.replicate 257 (1 : Byte)).length + 255 ≤ 512) ∧
      1 ≤ ([7] : List Byte).length ∧ 1 ≤ 1 ∧ 255 ≤ 255 := by
  rw [List.length_replicate]
  decide

theorem witness_EcCodewordsByCommands :
    (let s := { withPolys [1, 2, 3] [] 2 with host := { (withPolys [1, 2, 3] [] 2).host with arg0 := 2 } }
     s.host.arg0.toNat = 2 ∧ s.host.plenA.toNat = 3 ∧ s.host.pshift.toNat = 2 ∧ s.ramBytes .pa 0 3 = .ok [1, 2, 3]) :=
  ⟨rfl, rfl, rfl, rfl⟩

/-- For TableLookupResult, MatrixInitLayout, AssembleResult, EncodeBuildsTheSymbol, BlockTableTotals and DataCellCount: the ends of the
version range, and the versions outside it. -/
theorem witness_versions :
    (withConfig 1 .l).host.config.version.toNat = 1 ∧ (withConfig 7 .h).host.config.version.toNat = 7 ∧
      (withConfig 40 .h).host.config.version.toNat = 40 ∧
      (withConfig 0 .l).host.config.version.toNat = 0 ∧ (withConfig 41 .l).host.config.version.toNat > 40 ∧
      (withConfig 63 .q).host.config.version.toNat > 40 := by decide

/-- ASSEMBLE and ENCODE: no data, data that fills the capacity (version 1, level M: 16 bytes), and one byte too many. -/
theorem witness_AssembleResult :
    (withConfig 1 .l).ramBytes .data 0 0 = .ok [] ∧ dataCount 1 .m = 16 ∧
      (∃ data, State.ramBytes { withData with host := { withData.host with dataLen := 16 } } .data 0 16 = .ok data) ∧
      (17 : BitVec 12).toNat > dataCount 1 .m ∧ withData.ramBytes .data 0 6 = .ok [0x10, 0x20, 0x0C, 0x56, 0x61, 0x80] := by
  refine ⟨rfl, by decide, State.ramBytes_draw rfl _ _ _, by decide, rfl⟩

theorem witness_EncodeEqualsSixCommands :
    withData.host.config.version.toNat = 1 ∧ withData.host.dataLen.toNat ≤ dataCount 1 .m ∧ withData.Readable .data 6 ∧
      after (issue .assemble (withConfig 0 .l)) (·.status.err) = some true := by
  refine ⟨rfl, by decide, ⟨_, rfl⟩, by decide +kernel⟩

/-- MATRIX_PLACE with no codeword and with an unwritten stream; and a reason for each refusal. -/
theorem witness_MatrixPlaceResult :
    (let s := { inState .functionPatternsPlaced 1 21 with
        status := { Status.reset with bstate := .functionPatternsPlaced, cwValid := true }
        engine := { EngineRegs.zero with
          cwCfg := { version := 1, ecl := 0 }, mtxCfg := { version := 1, ecl := 0, side := 21 }, cwLen := 26 } }
     s.status.bstate = .functionPatternsPlaced ∧ s.status.cwValid = true ∧ s.engine.cwCfg.version = s.engine.mtxCfg.version ∧
       s.engine.cwCfg.ecl = s.engine.mtxCfg.ecl ∧ ∃ bs, s.ramBytes .cw 0 26 = .ok bs) ∧
    (inState .final 1 21).status.bstate ≠ .functionPatternsPlaced ∧ (inState .functionPatternsPlaced 1 21).status.cwValid = false ∧
    (inState .functionPatternsPlaced 1 21).engine.cwCfg.version ≠ (inState .functionPatternsPlaced 1 21).engine.mtxCfg.version :=
  ⟨⟨rfl, rfl, rfl, rfl, State.ramBytes_draw rfl _ _ _⟩, by decide, rfl, by decide⟩

theorem witness_PlacementOrder : 9 % 2 = 1 ∧ 7 < 9 ∧ 177 % 2 = 1 ∧ side 40 = 177 ∧ 176 < side 40 := by decide

theorem witness_WriteMetaResult :
    ((inState .masked 1 21).status.bstate = .masked ∧ (inState .masked 1 21).engine.mtxCfg.version.toNat = 1 ∧
      (inState .masked 1 21).matrixSide = side 1) ∧
    ((inState .masked 7 45).engine.mtxCfg.version.toNat = 7 ∧ (inState .masked 7 45).matrixSide = side 7) ∧
    ((inState .masked 40 177).engine.mtxCfg.version.toNat = 40 ∧ (inState .masked 40 177).matrixSide = side 40) ∧
    (inState .final 1 21).status.bstate ≠ .masked := by decide

/-- A complete matrix (of side 1, one cell), an incomplete one, and another state. -/
theorem witness_FinalizeResult :
    (let s := { inState .metadataWritten 0 1 with planes := Planes.zero.place 0 0 false }
     s.status.bstate = .metadataWritten ∧ ∀ r c, r < s.matrixSide → c < s.matrixSide → s.planes.asgn.get r c = true) ∧
    ¬ (∀ r c, r < (inState .metadataWritten 1 21).matrixSide → c < (inState .metadataWritten 1 21).matrixSide →
        (inState .metadataWritten 1 21).planes.asgn.get r c = true) ∧
    (inState .masked 1 21).status.bstate ≠ .metadataWritten := by
  refine ⟨⟨rfl, fun r c hr hc => ?_⟩, fun h => ?_, by decide⟩
  · have hr : r = 0 := by simpa [inState, State.matrixSide] using hr
    have hc : c = 0 := by simpa [inState, State.matrixSide] using hc
    subst hr hc
    rfl
  · exact absurd (h 0 0 (by decide) (by decide)) (by decide)

/-- For MaskScoreResult, MaskSelectResult and MaskForceResult: the state they run in, one they refuse, and both sides of the mask range. -/
theorem witness_mask_commands :
    ((inState .dataPlaced 40 177).status.bstate = .dataPlaced ∧ (inState .dataPlaced 40 177).matrixSide ≤ 177) ∧
    (inState .masked 1 21).status.bstate ≠ .dataPlaced ∧ (withArgs 7 0).host.arg0.toNat ≤ 7 ∧ (withArgs 8 0).host.arg0.toNat > 7 := by
  decide

theorem witness_PenaltyRules : 0 < 441 ∧ 0 < 1 := by decide

/-- A command in a state its row does not allow, and one in a state it does. -/
theorem witness_BuilderTransitions :
    builderNext .matrixPlace (inState .final 1 21).status.bstate = none ∧
      builderNext .finalize (inState .metadataWritten 0 0).status.bstate = some .final ∧
      (nextOf (exec .finalize (inState .metadataWritten 0 0))).isSome = true := by decide +kernel

theorem witness_ErrorsArePrecise :
    (running .gfLog []).status.done = false ∧ (running .gfLog []).status.err = false ∧ (running .gfLog []).status.errcode = 0 ∧
      (nextOf (exec .gfLog (running .gfLog []))).isSome = true ∧ (nextOf (exec .nop (running .nop []))).isSome = true := by
  decide +kernel

/-- The reset state reads unwritten bytes by a draw; with the other setting an unwritten byte stops the command that reads it. -/
theorem witness_CommandsStopOnlyOnUnwrittenReads :
    State.reset.params.unwrittenRead = .draw ∧ State.reset.CodewordInv ∧
      exec .assemble { withData with ram := [], params := { Params.default with unwrittenRead := .fault } } =
        .fault (.unwrittenRead 0x1000) :=
  ⟨rfl, no_codewords rfl rfl rfl, rfl⟩

/-- In Final: a step that runs a refused command, one that starts a new matrix, and one that resets. -/
theorem witness_FinalIsImmutable :
    (inState .final 1 21).status.bstate = .final ∧
      (nextOf (step { inState .final 1 21 with pending := some 0x42 })).isSome = true ∧
      (after (step { inState .final 1 21 with pending := some 0x40 }) (·.status.bstate)) = some .functionPatternsPlaced ∧
      (nextOf (step { inState .final 1 21 with rst := true, inbox := [.rst false] })).isSome = true := by
  refine ⟨rfl, ?_, ?_, ?_⟩ <;> decide +kernel

/-- For RegisterCommandFrame, StoringCommandFrame and MatrixCommandFrame: commands of each group that answer a next state. -/
theorem witness_frames :
    (nextOf (exec .gfExp (withArgs 8 0))).isSome = true ∧ (nextOf (exec .polyMul (withPolys [1] [1] 0))).isSome = true ∧
      (nextOf (exec .assemble withData)).isSome = true ∧ (nextOf (exec .rsGenpoly (withArgs 2 0))).isSome = true ∧
      (nextOf (exec .softReset State.reset)).isSome = true ∧
      (nextOf (exec .maskForce (inState .dataPlaced 0 0))).isSome = true := by
  decide +kernel

theorem witness_RescoringChangesNothing : (inState .dataPlaced 1 21).status.bstate = .dataPlaced := rfl

end Sys2Proof.Tests
end

/-! ## The life cycle of a command along a run -/

namespace Sys2Proof.Machine

/-! ### The life-cycle invariant is kept -/

/-- The life-cycle invariant speaks of STATUS and PENDING only. -/
theorem State.LifeCycleInv.of_eq {s t : State} (h : s.LifeCycleInv) (hs : t.status = s.status) (hp : t.pending = s.pending) :
    t.LifeCycleInv where
  busy_iff := by rw [hs, hp]; exact h.busy_iff
  not_both := by rw [hs]; exact h.not_both
  busy_clear := by rw [hs]; exact h.busy_clear
  done_code := by rw [hs]; exact h.done_code
  err_code := by rw [hs]; exact h.err_code
  code_legal := by rw [hs]; exact h.code_legal
  lastop_pending := by rw [hs, hp]; exact h.lastop_pending

theorem State.LifeCycleInv.pending_eq_none {s : State} (h : s.LifeCycleInv) (hb : s.status.busy = false) : s.pending = none := by
  simpa [hb] using h.busy_iff.symm

theorem State.LifeCycleInv.busy_of_pending {s : State} (h : s.LifeCycleInv) {w : Word} (hp : s.pending = some w) :
    s.status.busy = true := by
  simp [h.busy_iff, hp]

theorem State.accept_lifeCycle (s : State) (w : Word) : (s.accept w).LifeCycleInv where
  busy_iff := rfl
  not_both := by simp [Status.accepted]
  busy_clear := by simp [Status.accepted]
  done_code := by simp [Status.accepted]
  err_code := by simp [Status.accepted]
  code_legal := .inl rfl
  lastop_pending := by simp [Status.accepted]

/-- No error has code 0 (R240). -/
theorem Err.code_ne_zero (e : Err) : e.code ≠ 0 := by cases e <;> decide

theorem State.raise_lifeCycle {s : State} (hd : s.status.done = false) (e : Err) : (s.raise e).LifeCycleInv where
  busy_iff := rfl
  not_both := by simp [Status.failed, hd]
  busy_clear := by simp [Status.failed]
  done_code := by simp [Status.failed, hd]
  err_code := fun _ => e.code_ne_zero
  code_legal := .inr ⟨e, rfl⟩
  lastop_pending := by simp

theorem State.complete_lifeCycle {s : State} (he : s.status.err = false) (hc : s.status.errcode = 0) : s.complete.LifeCycleInv where
  busy_iff := rfl
  not_both := by simp [Status.completed, he]
  busy_clear := by simp [Status.completed]
  done_code := fun _ => hc
  err_code := by simp [Status.completed, he]
  code_legal := .inl hc
  lastop_pending := by simp

/-- A host write to STATUS clears flags and sets none (R24). -/
theorem State.acknowledge_lifeCycle {s : State} (h : s.LifeCycleInv) (w : Word) : (s.acknowledge w).LifeCycleInv where
  busy_iff := h.busy_iff
  not_both := fun hc => h.not_both ⟨(Bool.and_eq_true_iff.mp hc.1).1, (Bool.and_eq_true_iff.mp hc.2).1⟩
  busy_clear hb := by
    obtain ⟨hd, he, hc⟩ := h.busy_clear hb
    simp [Status.cleared, hd, he, hc]
  done_code := fun hd => h.done_code (Bool.and_eq_true_iff.mp hd).1
  err_code := fun he => h.err_code (Bool.and_eq_true_iff.mp he).1
  code_legal := h.code_legal
  lastop_pending := h.lastop_pending

theorem State.overrun_lifeCycle {s : State} (h : s.LifeCycleInv) : State.LifeCycleInv { s with status := s.status.overrun } where
  busy_iff := h.busy_iff
  not_both := h.not_both
  busy_clear := h.busy_clear
  done_code := h.done_code
  err_code := h.err_code
  code_legal := h.code_legal
  lastop_pending := h.lastop_pending

theorem State.afterReset_lifeCycle (s : State) : s.afterReset.LifeCycleInv where
  busy_iff := rfl
  not_both := by simp [State.afterReset, State.reset, Status.reset]
  busy_clear := by simp [State.afterReset, State.reset, Status.reset]
  done_code := by simp [State.afterReset, State.reset, Status.reset]
  err_code := by simp [State.afterReset, State.reset, Status.reset]
  code_legal := .inl rfl
  lastop_pending := by simp [State.afterReset, State.reset]

theorem State.writeReg_lifeCycle {s : State} (h : s.LifeCycleInv) (r : Reg) (w : Word) : (s.writeReg r w).LifeCycleInv := by
  cases r
  case cmd => exact s.accept_lifeCycle w
  case status => exact State.acknowledge_lifeCycle h w
  all_goals exact h.of_eq rfl rfl

theorem State.busWrite_lifeCycle {s : State} (h : s.LifeCycleInv) (o : Nat) (w : Word) : (s.busWrite o w).LifeCycleInv := by
  unfold State.busWrite
  split
  · exact State.overrun_lifeCycle h
  · unfold State.writeLocation
    split
    · exact State.writeReg_lifeCycle h _ w
    · split
      · exact h.of_eq rfl rfl
      · exact h
    · exact h
    · exact h

theorem hostAccess_lifeCycle {q : Request} {s t : State} (h : s.LifeCycleInv) (ht : hostAccess q s = .next t) : t.LifeCycleInv := by
  obtain ⟨-, ⟨-, rfl⟩ | ⟨-, -, rfl⟩ | ⟨-, -, v, u, hu, rfl⟩⟩ := hostAccess_next ht
  · exact h.of_eq rfl rfl
  · exact (State.busWrite_lifeCycle h q.addr.toNat q.wdata).of_eq rfl rfl
  · rw [State.busRead_state hu]
    exact h.of_eq rfl rfl

/-- A command completes from a pending one, so with DONE, ERR and ERRCODE cleared (R247), and sets DONE, or ERR with a code. -/
theorem exec_lifeCycle {i : Instr} {s t : State} (h : s.LifeCycleInv) (hb : s.status.busy = true) (ht : exec i s = .next t) :
    t.LifeCycleInv := by
  obtain ⟨hd, he, hc⟩ := h.busy_clear hb
  rw [exec_eq_run] at ht
  rcases runCommand_next ht with ⟨u, hu, rfl⟩ | ⟨e, -, rfl⟩
  · have hp := bodyOf_samePlatform hu
    exact State.complete_lifeCycle (hp.err.trans he) (hp.errcode.trans hc)
  · exact State.raise_lifeCycle hd e

theorem engineTurn_lifeCycle {s t : State} (h : s.LifeCycleInv) (ht : engineTurn s = .next t) : t.LifeCycleInv := by
  obtain ⟨rfl, -⟩ | ⟨-, w, hp, hw⟩ := engineTurn_next ht
  · exact h
  · have hb := h.busy_of_pending hp
    obtain ⟨i, -, hi⟩ | ⟨-, -, rfl⟩ := completion_next hw
    · exact exec_lifeCycle h hb hi
    · exact State.raise_lifeCycle (h.busy_clear hb).1 _

theorem rstInput_lifeCycle {s : State} (h : s.LifeCycleInv) (level : Bool) : (rstInput level s).LifeCycleInv := by
  obtain he | ⟨-, he⟩ | he := rstInput_cases level s <;> rw [he]
  · exact h.of_eq rfl rfl
  · exact s.afterReset_lifeCycle
  · exact h

/-- Every step keeps the life-cycle invariant. -/
theorem step_lifeCycle {s t : State} (h : s.LifeCycleInv) (ht : step s = .next t) : t.LifeCycleInv := by
  have hrest (rest : List Event) : State.LifeCycleInv { s with inbox := rest } := h.of_eq rfl rfl
  obtain ⟨-, he⟩ | ⟨e, rest, -, ⟨-, he⟩ | ⟨q, -, he⟩ | ⟨level, -, rfl⟩⟩ := step_next ht
  · exact engineTurn_lifeCycle h he
  · exact engineTurn_lifeCycle (hrest rest) he
  · exact hostAccess_lifeCycle (hrest rest) he
  · exact rstInput_lifeCycle (hrest rest) level

theorem ReachedIn.lifeCycle {k : Nat} {s t : State} (h : s.LifeCycleInv) (hk : ReachedIn k s t) : t.LifeCycleInv := by
  induction k generalizing s with
  | zero => exact (show t = s from hk) ▸ h
  | succ k ih =>
    obtain ⟨u, hu, hk⟩ := hk
    exact ih (step_lifeCycle h hu) hk

/-! ### With UNWRITTEN_READ = DRAW every command completes -/

theorem liftFault_ramBytes_draw {s : State} (h : s.params.unwrittenRead = .draw) (r : Ram) (k n : Nat) :
    ∃ bs, liftFault (s.ramBytes r k n) = .ok bs := by
  obtain ⟨bs, hbs⟩ := State.ramBytes_draw h r k n
  exact ⟨bs, liftFault_ok.mpr hbs⟩

theorem polyA_draw {s : State} (h : s.params.unwrittenRead = .draw) : ∃ a, polyA s = .ok a := by
  obtain ⟨a, ha⟩ := liftFault_ramBytes_draw h .pa 0 (polyLengths s).la
  exact ⟨shiftPoly a (polyLengths s).s, by simp only [polyA, ha]⟩

theorem checkPolyLengths_ne_fault (n : PolyLengths) (f : Fault) : checkPolyLengths n ≠ .error (.fault f) := by
  unfold checkPolyLengths
  split
  · nofun
  · split
    · nofun
    · split <;> nofun

theorem polyMulBody_ne_fault {s : State} (h : s.params.unwrittenRead = .draw) (f : Fault) : polyMulBody s ≠ .error (.fault f) := by
  obtain ⟨a, ha⟩ := polyA_draw h
  obtain ⟨b, hb⟩ := liftFault_ramBytes_draw h .pb 0 (polyLengths s).lb
  simp only [polyMulBody, polyB, bind, Except.bind, ha, hb]
  split
  · next e he =>
    rintro ⟨⟩
    exact checkPolyLengths_ne_fault _ f he
  · split <;> nofun

theorem polyModBody_ne_fault {s : State} (h : s.params.unwrittenRead = .draw) (f : Fault) : polyModBody s ≠ .error (.fault f) := by
  obtain ⟨a, ha⟩ := polyA_draw h
  obtain ⟨b, hb⟩ := liftFault_ramBytes_draw h .pb 0 (polyLengths s).lb
  obtain ⟨lead, hl⟩ := State.ramByte_draw h .pb 0
  simp only [polyModBody, polyB, bind, Except.bind, ha, hb, liftFault_ok.mpr hl]
  split
  · next e he =>
    rintro ⟨⟩
    exact checkPolyLengths_ne_fault _ f he
  · split <;> nofun

theorem assembleOperands_ne_fault {s : State} (h : s.params.unwrittenRead = .draw) (f : Fault) :
    assembleOperands s ≠ .error (.fault f) := by
  obtain ⟨data, hd⟩ := liftFault_ramBytes_draw h .data 0 s.host.dataLen.toNat
  simp only [assembleOperands, checkVersion, checkCapacity, dataBytes, bind, Except.bind, hd]
  split
  · next he =>
    split at he
    · cases he
      nofun
    · cases he
  · split
    · next he =>
      split at he
      · cases he
        nofun
      · cases he
    · nofun

theorem matrixPlaceWork_draw {s : State} (h : s.params.unwrittenRead = .draw) : ∃ u, matrixPlaceWork s = .ok u := by
  obtain ⟨bs, hbs⟩ := liftFault_ramBytes_draw h .cw 0
    (placedCodewords s.engine.cwLen.toNat (placementOrder s.engine.mtxCfg.side.toNat s.planes.func).length)
  exact ⟨_, by simp only [matrixPlaceWork, bind, Except.bind, hbs]; rfl⟩

theorem matrixPlaceBody_ne_fault {s : State} (h : s.params.unwrittenRead = .draw) (f : Fault) :
    matrixPlaceBody s ≠ .error (.fault f) := by
  obtain ⟨u, hu⟩ := matrixPlaceWork_draw h
  simp only [matrixPlaceBody, matrixPlaceCheck_eq, bind, Except.bind, hu]
  split
  · next he =>
    split at he <;> cases he
    nofun
  · nofun

theorem encodeBody_ne_fault {s : State} (h : s.params.unwrittenRead = .draw) (f : Fault) : encodeBody s ≠ .error (.fault f) := by
  rw [encodeBody_eq]
  split
  · next data _ =>
    obtain ⟨u, hu⟩ := matrixPlaceWork_draw (s := matrixInitWrites s.host.config (assembleWrites s.host.config data s)) h
    rw [hu]
    nofun
  · next e he =>
    rintro ⟨⟩
    exact assembleOperands_ne_fault h f he

/-- With UNWRITTEN_READ = DRAW no command's body meets a contract violation (R272). -/
theorem bodyOf_ne_fault {s : State} (h : s.params.unwrittenRead = .draw) (i : Instr) (f : Fault) :
    bodyOf i s ≠ .error (.fault f) := by
  cases i <;> simp only [bodyOf]
  case nop | softReset | gfExp => nofun
  case gfLog => rw [gfLogBody_eq]; split <;> nofun
  case gfMul => rw [gfMulBody_eq]; split <;> nofun
  case gfInv => rw [gfInvBody_eq]; split <;> nofun
  case polyMul => exact polyMulBody_ne_fault h f
  case polyMod => exact polyModBody_ne_fault h f
  case rsGenpoly => rw [rsGenpolyBody_eq]; split <;> nofun
  case tableLookup => rw [tableLookupBody_eq]; split <;> nofun
  case assemble =>
    rw [assembleBody_eq]
    split
    · nofun
    · next e he =>
      rintro ⟨⟩
      exact assembleOperands_ne_fault h f he
  case bchFormat => rw [bchFormatBody_eq]; split <;> nofun
  case bchVersion => rw [bchVersionBody_eq]; split <;> nofun
  case matrixInit => rw [matrixInitBody_eq]; split <;> nofun
  case matrixPlace => exact matrixPlaceBody_ne_fault h f
  case maskScore => rw [maskScoreBody_eq]; split <;> nofun
  case maskSelect => rw [maskSelectBody_eq]; split <;> nofun
  case maskForce =>
    rw [maskForceBody_eq]
    split
    · nofun
    · split <;> nofun
  case writeMeta => rw [writeMetaBody_eq]; split <;> nofun
  case finalize =>
    rw [finalizeBody_eq]
    split
    · nofun
    · split <;> nofun
  case encode => exact encodeBody_ne_fault h f

/-- With UNWRITTEN_READ = DRAW every command completes, with success or an error. -/
theorem exec_draw {s : State} (h : s.params.unwrittenRead = .draw) (i : Instr) : ∃ t, exec i s = .next t := by
  rw [exec_eq_run]
  match hb : bodyOf i s with
  | .ok u => exact ⟨_, runCommand_ok hb⟩
  | .error (.err e) => exact ⟨_, runCommand_err hb⟩
  | .error (.fault f) => exact absurd hb (bodyOf_ne_fault h i f)

/-! ### Reads of STATUS -/

/-- BUSY is bit 0 of STATUS (R24). -/
theorem statusWord_busy (t : Status) : (statusWord t).getLsbD 0 = t.busy := by
  rw [statusWord, BitVec.getLsbD_append]
  simp

/-- A read of STATUS is exact, BUSY or not, and changes nothing (R71). -/
theorem State.busRead_status (s : State) : s.busRead 0x008 = .ok (statusWord s.status, s) := by
  have hl : locate 0x008 = .reg .status := locate_offset .status
  have hm : s.unspecifiedBits (.reg .status) = 0 := by
    unfold State.unspecifiedBits
    split <;> rfl
  simp only [State.busRead, hl, State.currentWord, bind, Except.bind, hm, if_true]
  rfl

theorem hostAccess_statusRead {q : Request} {s : State} (hq : (Event.host q).isStatusRead = true) (hr : s.rst = false) :
    hostAccess q s = .next (s.respond (.read (statusWord s.status) false)) := by
  simp only [Event.isStatusRead, Bool.and_eq_true, Bool.not_eq_true', beq_iff_eq] at hq
  obtain ⟨⟨hw, hs⟩, ha⟩ := hq
  simp [hostAccess, hr, hs, hw, ha, State.busRead_status]

theorem step_host {s : State} {q : Request} {rest : List Event} (h : s.inbox = .host q :: rest) :
    step s = hostAccess q { s with inbox := rest } := by
  simp only [step, h, eventStep]

theorem step_statusRead {s : State} {q : Request} {rest : List Event} (h : s.inbox = .host q :: rest)
    (hq : (Event.host q).isStatusRead = true) (hr : s.rst = false) :
    step s = .next { s with inbox := rest, resp := some (.read (statusWord s.status) false) } := by
  rw [step_host h]
  exact hostAccess_statusRead (s := { s with inbox := rest }) hq hr

/-- An observation of BUSY = 0 is made in a state with BUSY = 0, and changes nothing but the response (R19, R75). -/
theorem ObservesIdle.inv {s t : State} (h : ObservesIdle s t) :
    s.status.busy = false ∧ t = { s with inbox := t.inbox, resp := t.resp } ∧ ∃ e, s.inbox = e :: t.inbox := by
  obtain ⟨⟨e, he, hr⟩, hs, w, hw, h0⟩ := h
  cases e with
  | engine => cases hr
  | rst level => cases hr
  | host q =>
    have hrst : s.rst = false := by
      rw [step_host he] at hs
      exact (hostAccess_next hs).1
    generalize t.inbox = rest at he ⊢
    rw [step_statusRead he hr hrst] at hs
    cases hs
    cases hw
    exact ⟨(statusWord_busy _).symm.trans h0, rfl, _, he⟩

/-! ### The end of a run is one state (R19) -/

/-- Of two last command writes of one run neither comes after the other. -/
theorem LastCommandWrite.le {j j' : Nat} {s r u r' u' : State} (hr : ReachedIn j s r) (hu : LastCommandWrite r u)
    (hr' : ReachedIn j' s r') (hu' : LastCommandWrite r' u') : j' ≤ j := by
  refine Nat.le_of_not_lt fun hlt => ?_
  obtain ⟨-, hs, hlast⟩ := hu
  obtain ⟨⟨e, he, hw⟩, -, -⟩ := hu'
  have hmem : e ∈ s.inbox.drop j' := by
    rw [← hr'.inbox, he]
    exact List.mem_cons_self
  have hin : u.inbox = s.inbox.drop (j + 1) := by rw [step_inbox hs, hr.inbox, List.tail_drop]
  rw [hlast e (hin ▸ List.drop_subset_drop_left _ hlt hmem)] at hw
  cases hw

theorem EndOfRun.unique {s t t' : State} (h : EndOfRun s t) (h' : EndOfRun s t') : t' = t := by
  obtain ⟨j, k, r, u, v, hr, hu, hv, ht, hfirst⟩ := h
  obtain ⟨j', k', r', u', v', hr', hu', hv', ht', hfirst'⟩ := h'
  obtain rfl : j = j' := Nat.le_antisymm (hu'.le hr' hr hu) (hu.le hr hr' hu')
  obtain rfl := hr.unique hr'
  obtain rfl : u = u' := by
    cases hu.2.1.symm.trans hu'.2.1
    rfl
  obtain rfl : k = k' := Nat.le_antisymm (Nat.le_of_not_lt fun hlt => hfirst k' hlt v' t' hv' ht')
    (Nat.le_of_not_lt fun hlt => hfirst' k hlt v t hv ht)
  obtain rfl := hv.unique hv'
  cases ht.2.1.symm.trans ht'.2.1
  rfl

/-- At the end of a run no command is pending and none is written after it. -/
theorem EndOfRun.idle {s t : State} (hinv : s.LifeCycleInv) (h : EndOfRun s t) :
    t.pending = none ∧ t.status.busy = false ∧ ∀ e ∈ t.inbox, e.isCommandWrite = false := by
  obtain ⟨j, k, r, u, v, hr, ⟨-, hu, hlast⟩, hv, ht, -⟩ := h
  obtain ⟨hb, heq, e, he⟩ := ht.inv
  have hinv' : v.LifeCycleInv := hv.lifeCycle (step_lifeCycle (hr.lifeCycle hinv) hu)
  refine ⟨by rw [heq]; exact hinv'.pending_eq_none hb, by rw [heq]; exact hb, fun x hx => hlast x ?_⟩
  have hx' : x ∈ v.inbox := he ▸ List.mem_cons_of_mem _ hx
  exact List.mem_of_mem_drop (hv.inbox ▸ hx')

/-! ### One command, polled (R98, R248) -/

theorem decode_encode (i : Instr) : decode (encode i) = .ok i := by cases i <;> rfl

theorem ReachedIn.snoc {k : Nat} {s t u : State} (h : ReachedIn k s t) (hu : step t = .next u) : ReachedIn (k + 1) s u := by
  induction k generalizing s with
  | zero => exact ⟨u, (show t = s from h) ▸ hu, rfl⟩
  | succ k ih =>
    obtain ⟨v, hv, h⟩ := h
    exact ⟨v, hv, ih h⟩

/-- `n` polls of STATUS change nothing but the response. -/
theorem polls_reach {n : Nat} {s : State} {rest : List Event} (hr : s.rst = false)
    (h : s.inbox = List.replicate n (Program.rdReg .status) ++ rest) :
    ∃ t, ReachedIn n s t ∧ t = { s with inbox := rest, resp := t.resp } := by
  induction n generalizing s with
  | zero => exact ⟨s, rfl, by rw [show rest = s.inbox from h.symm]⟩
  | succ n ih =>
    have hs := step_statusRead (s := s) (rest := List.replicate n (Program.rdReg .status) ++ rest) h rfl hr
    obtain ⟨t, ht, he⟩ := ih (s := { s with
      inbox := List.replicate n (Program.rdReg .status) ++ rest, resp := some (.read (statusWord s.status) false) }) hr rfl
    exact ⟨t, ⟨_, hs, ht⟩, he⟩

/-- While BUSY = 1 no poll observes BUSY = 0. -/
theorem not_observesIdle_polling {n m : Nat} {s x y : State} {rest : List Event} (hb : s.status.busy = true) (hr : s.rst = false)
    (h : s.inbox = List.replicate n (Program.rdReg .status) ++ rest) (hm : m ≤ n) (hx : ReachedIn m s x) : ¬ ObservesIdle x y := by
  intro ho
  obtain ⟨d, rfl⟩ := Nat.exists_eq_add_of_le hm
  rw [← List.replicate_append_replicate, List.append_assoc] at h
  obtain ⟨x', hx', he⟩ := polls_reach hr h
  have hbusy : x.status.busy = true := by rw [hx.unique hx', he]; exact hb
  rw [ho.inv.1] at hbusy
  cases hbusy

theorem cmd_isCommandWrite (i : Instr) : (Program.cmd i).isCommandWrite = true := by cases i <;> rfl

/-- A command write with BUSY = 0 is accepted (R245). -/
theorem hostAccess_commandWrite {q : Request} {s : State} (hq : (Event.host q).isCommandWrite = true) (hi : s.Idle) :
    hostAccess q s = .next ((s.accept q.wdata).respond (.write false)) := by
  simp only [Event.isCommandWrite, Bool.and_eq_true, beq_iff_eq] at hq
  obtain ⟨⟨hw, hs⟩, ha⟩ := hq
  have hl : locate 0x004 = .reg .cmd := locate_offset .cmd
  simp [hostAccess, hi.2, hs, hw, ha, State.busWrite, hi.1, hl, State.writeLocation, State.writeReg]

theorem step_cmd {s : State} {i : Instr} {rest : List Event} (hi : s.Idle) (h : s.inbox = Program.cmd i :: rest) :
    step s = .next { s.accept (encode i) with inbox := rest, resp := some (.write false) } := by
  rw [step_host h]
  exact hostAccess_commandWrite (s := { s with inbox := rest }) (cmd_isCommandWrite i) hi

/-- The engine's turn completes the pending command (R246). -/
theorem step_engine_exec {s : State} {i : Instr} {rest : List Event} (h : s.inbox = .engine :: rest) (hr : s.rst = false)
    (hp : s.pending = some (encode i)) : step s = exec i { s with inbox := rest } := by
  simp [step, h, eventStep, engineTurn, hr, hp, completion, decode_encode]

theorem wait_no_commandWrite (n : Nat) : ∀ e ∈ Program.wait n, e.isCommandWrite = false := by
  intro e he
  rcases List.mem_append.mp he with he | he
  · rw [List.eq_of_mem_replicate he]
    rfl
  · simp only [List.mem_cons, List.not_mem_nil, or_false] at he
    rcases he with rfl | rfl <;> rfl

/-- A command issued and polled reaches the end of its run, in the state its completion left. -/
theorem run_reaches_endOfRun {s : State} {i : Instr} {n : Nat} (hi : s.Idle) (hd : s.params.unwrittenRead = .draw)
    (h : s.inbox = Program.run i n) :
    ∃ p u t : State, p = { s.accept (encode i) with inbox := p.inbox, resp := p.resp } ∧ exec i p = .next u ∧
      t = { u with inbox := [], resp := t.resp } ∧ EndOfRun s t := by
  have hcmd := step_cmd hi h
  generalize ha : { s.accept (encode i) with inbox := Program.wait n, resp := some (.write false) } = a at hcmd
  have hbusy : a.status.busy = true := by rw [← ha]; rfl
  have hrst : a.rst = false := by rw [← ha]; exact hi.2
  have hpolls : a.inbox = List.replicate n (Program.rdReg .status) ++ [.engine, Program.rdReg .status] := by rw [← ha]; rfl
  obtain ⟨b, hb, hbe⟩ := polls_reach hrst hpolls
  have hbp : b.pending = some (encode i) := by rw [hbe, ← ha]; rfl
  have hbi : b.inbox = [.engine, Program.rdReg .status] := by rw [hbe]
  have hstep := step_engine_exec hbi (by rw [hbe]; exact hrst) hbp
  have hdraw : b.params.unwrittenRead = .draw := by rw [hbe, ← ha]; exact hd
  obtain ⟨u, hu⟩ := exec_draw (s := { b with inbox := [Program.rdReg .status] }) hdraw i
  obtain ⟨hur, -, hui, -, -, -, -, -, -, hub, -⟩ := exec_keeps_platform hu
  have hread := step_statusRead hui rfl (hur.trans (by rw [hbe]; exact hrst))
  refine ⟨_, u, _, ?_, hu, rfl, 0, n + 1, s, a, u, rfl, ⟨⟨Program.cmd i, ?_, cmd_isCommandWrite i⟩, hcmd, ?_⟩, hb.snoc (hstep.trans hu),
    ⟨⟨_, hui, rfl⟩, hread, _, rfl, (statusWord_busy _).trans hub⟩, fun m hm x y hx =>
      not_observesIdle_polling hbusy hrst hpolls (Nat.le_of_lt_succ hm) hx⟩
  · rw [hbe, ← ha]
  · rw [h, ← ha]
    rfl
  · rw [← ha]
    exact wait_no_commandWrite n

/-- Settles O10: an observation of BUSY = 0 is made with nothing pending; the end of a run is fixed by the last command write and the first
observation after it; and a polled command reaches it. -/
theorem observingIdleMeansCompleted : Obligations.ObservingIdleMeansCompleted := by
  refine ⟨fun s t hinv ho => ?_, fun s t hinv he => ?_, fun s i n _ hi hd hin => run_reaches_endOfRun hi hd hin⟩
  · obtain ⟨hb, heq, hin⟩ := ho.inv
    exact ⟨hinv.pending_eq_none hb, heq, hin⟩
  · obtain ⟨hp, hb, hlast⟩ := he.idle hinv
    exact ⟨hp, hb, hlast, fun t' he' => he.unique he'⟩

end Sys2Proof.Machine

/-! ## Commands stay in their write set -/

namespace Sys2Proof.Machine

/-! ### Words that agree outside a mask -/

/-- Two changes, each inside its own mask, stay inside the two masks together. -/
theorem eq_outside_or {x y z m k : Word} (h : x &&& ~~~m = y &&& ~~~m) (h' : y &&& ~~~k = z &&& ~~~k) :
    x &&& ~~~(m ||| k) = z &&& ~~~(m ||| k) := by
  calc x &&& ~~~(m ||| k)
      = (x &&& ~~~m) &&& ~~~k := by rw [BitVec.not_or, BitVec.and_assoc]
    _ = (y &&& ~~~k) &&& ~~~m := by rw [h, BitVec.and_assoc, BitVec.and_comm (~~~m), BitVec.and_assoc]
    _ = z &&& ~~~(m ||| k) := by rw [h', BitVec.not_or, BitVec.and_assoc, BitVec.and_comm (~~~k)]

/-- The fields of STATUS, each under its own part of a mask. -/
theorem statusWord_and (t : Status) (x : BitVec 8) (l : BitVec 8) (e : BitVec 4) (x' : BitVec 1) (b : BitVec 3) (v : BitVec 1)
    (x'' : BitVec 3) (o r d y : BitVec 1) :
    statusWord t &&& (x ++ l ++ e ++ x' ++ b ++ v ++ x'' ++ o ++ r ++ d ++ y : BitVec 32) =
      (0#8 ++ (t.lastop &&& l) ++ (t.errcode &&& e) ++ 0#1 ++ (t.bstate.code &&& b) ++ (bit t.cwValid &&& v) ++ 0#3
        ++ (bit t.ovr &&& o) ++ (bit t.err &&& r) ++ (bit t.done &&& d) ++ (bit t.busy &&& y) : BitVec 32) := by
  rw [statusWord, BitVec.and_append]
  simp only [BitVec.and_append, BitVec.zero_and]

theorem statusWord_outside_bstate (t : Status) (b : BState) :
    statusWord { t with bstate := b } &&& ~~~bstateBits = statusWord t &&& ~~~bstateBits := by
  rw [show ~~~bstateBits = (255#8 ++ 255#8 ++ 15#4 ++ 1#1 ++ 0#3 ++ 1#1 ++ 7#3 ++ 1#1 ++ 1#1 ++ 1#1 ++ 1#1 : BitVec 32) from rfl,
    statusWord_and, statusWord_and]
  simp only [BitVec.and_zero]

theorem statusWord_outside_cwValid (t : Status) (b : Bool) :
    statusWord { t with cwValid := b } &&& ~~~cwValidBits = statusWord t &&& ~~~cwValidBits := by
  rw [show ~~~cwValidBits = (255#8 ++ 255#8 ++ 15#4 ++ 1#1 ++ 7#3 ++ 0#1 ++ 7#3 ++ 1#1 ++ 1#1 ++ 1#1 ++ 1#1 : BitVec 32) from rfl,
    statusWord_and, statusWord_and]
  simp only [BitVec.and_zero]

/-- BUSY, DONE, ERR and ERRCODE are the bits 0xF007 of STATUS (R24). -/
theorem statusWord_outside_completion (t : Status) (busy done err : Bool) (code : BitVec 4) :
    statusWord { t with busy := busy, done := done, err := err, errcode := code } &&& ~~~0x0000F007#32 =
      statusWord t &&& ~~~0x0000F007#32 := by
  rw [show ~~~0x0000F007#32 = (255#8 ++ 255#8 ++ 0#4 ++ 1#1 ++ 7#3 ++ 1#1 ++ 7#3 ++ 1#1 ++ 0#1 ++ 0#1 ++ 0#1 : BitVec 32) from rfl,
    statusWord_and, statusWord_and]
  simp only [BitVec.and_zero]

/-- The fields of MASK, each under its own part of a mask. -/
theorem MaskReg.word_and (m : MaskReg) (x : BitVec 24) (s : BitVec 1) (b : BitVec 3) (v : BitVec 1) (a : BitVec 3) :
    m.word &&& (x ++ s ++ b ++ v ++ a : BitVec 32) =
      (0#24 ++ (bit m.scored &&& s) ++ (m.best &&& b) ++ (bit m.appliedValid &&& v) ++ (m.applied &&& a) : BitVec 32) := by
  rw [MaskReg.word, BitVec.and_append]
  simp only [BitVec.and_append, BitVec.zero_and]

theorem MaskReg.word_outside_score (m : MaskReg) (b : BitVec 3) (v : Bool) :
    MaskReg.word { m with best := b, scored := v } &&& ~~~maskScoreBits = m.word &&& ~~~maskScoreBits := by
  rw [show ~~~maskScoreBits = (0xFFFFFF#24 ++ 0#1 ++ 0#3 ++ 1#1 ++ 7#3 : BitVec 32) from rfl, word_and, word_and]
  simp only [BitVec.and_zero]

theorem MaskReg.word_outside_applied (m : MaskReg) (a : BitVec 3) (v : Bool) :
    MaskReg.word { m with applied := a, appliedValid := v } &&& ~~~maskAppliedBits = m.word &&& ~~~maskAppliedBits := by
  rw [show ~~~maskAppliedBits = (0xFFFFFF#24 ++ 1#1 ++ 7#3 ++ 0#1 ++ 0#3 : BitVec 32) from rfl, word_and, word_and]
  simp only [BitVec.and_zero]

/-! ### Reserved bits -/

/-- A field in the low bits of a register leaves the bits above it 0. -/
theorem setWidth_reserved {n : Nat} (x : BitVec n) : x.setWidth 32 &&& ~~~(BitVec.ofNat 32 (2 ^ n - 1)) = 0 := by
  refine BitVec.eq_of_getLsbD_eq fun i hi => ?_
  by_cases h : i < n
  · simp [BitVec.getLsbD_ofNat, Nat.testBit_two_pow_sub_one, h]
  · simp [BitVec.getLsbD_of_ge x i (by omega)]

theorem VersionLevel.word_reserved (c : VersionLevel) : c.word &&& ~~~0x33F#32 = 0 := by
  rw [show ~~~0x33F#32 = (0x3FFFFF#22 ++ 0#2 ++ 3#2 ++ 0#6 : BitVec 32) from rfl, word, BitVec.and_append]
  simp only [BitVec.and_append, BitVec.and_zero, BitVec.zero_and]
  rfl

theorem MatrixConfig.word_reserved (c : MatrixConfig) : c.word &&& ~~~0xFF033F#32 = 0 := by
  rw [show ~~~0xFF033F#32 = (0xFF#8 ++ 0#8 ++ 0x3F#6 ++ 0#2 ++ 3#2 ++ 0#6 : BitVec 32) from rfl, word, BitVec.and_append]
  simp only [BitVec.and_append, BitVec.and_zero, BitVec.zero_and]
  rfl

theorem IrqEnable.word_reserved (e : IrqEnable) : e.word &&& ~~~0x7#32 = 0 := by
  rw [show ~~~0x7#32 = (0x1FFFFFFF#29 ++ 0#1 ++ 0#1 ++ 0#1 : BitVec 32) from rfl, word, BitVec.and_append]
  simp only [BitVec.and_append, BitVec.and_zero, BitVec.zero_and]
  rfl

theorem MaskReg.word_reserved (m : MaskReg) : m.word &&& ~~~0xFF#32 = 0 := by
  rw [show ~~~0xFF#32 = (0xFFFFFF#24 ++ 0#1 ++ 0#3 ++ 0#1 ++ 0#3 : BitVec 32) from rfl, word_and]
  simp only [BitVec.and_zero]
  rfl

theorem BlockGroupReg.word_reserved (g : BlockGroupReg) : g.word &&& ~~~0xFFFFFF#32 = 0 := by
  rw [show ~~~0xFFFFFF#32 = (0xFF#8 ++ 0#8 ++ 0#8 ++ 0#8 : BitVec 32) from rfl, word, BitVec.and_append]
  simp only [BitVec.and_append, BitVec.and_zero, BitVec.zero_and]
  rfl

theorem GeometryReg.word_reserved (g : GeometryReg) : g.word &&& ~~~0xF0FFF#32 = 0 := by
  rw [show ~~~0xF0FFF#32 = (0xFFF#12 ++ 0#4 ++ 0xF#4 ++ 0#4 ++ 0#8 : BitVec 32) from rfl, word, BitVec.and_append]
  simp only [BitVec.and_append, BitVec.and_zero, BitVec.zero_and]
  rfl

theorem statusWord_reserved (t : Status) : statusWord t &&& ~~~0x00FFF78F#32 = 0 := by
  rw [show ~~~0x00FFF78F#32 = (255#8 ++ 0#8 ++ 0#4 ++ 1#1 ++ 0#3 ++ 0#1 ++ 7#3 ++ 0#1 ++ 0#1 ++ 0#1 ++ 0#1 : BitVec 32) from rfl,
    statusWord_and]
  simp only [BitVec.and_zero]
  rfl

/-- Reserved bits of every register read 0 (R22 to R38). -/
theorem State.readReg_reserved (s : State) (r : Reg) : s.readReg r &&& ~~~r.fieldBits = 0 := by
  cases r with
  | id => exact BitVec.and_zero
  | cmd => exact BitVec.zero_and
  | status => exact statusWord_reserved _
  | config => exact VersionLevel.word_reserved _
  | dataLen => exact setWidth_reserved s.host.dataLen
  | irqEn => exact IrqEnable.word_reserved _
  | arg0 => exact BitVec.and_zero
  | arg1 => exact BitVec.and_zero
  | result => exact BitVec.and_zero
  | plenA => exact setWidth_reserved s.host.plenA
  | plenB => exact setWidth_reserved s.host.plenB
  | pshift => exact setWidth_reserved s.host.pshift
  | plenR => exact setWidth_reserved s.engine.plenR
  | cwLen => exact setWidth_reserved s.engine.cwLen
  | cwCfg => exact VersionLevel.word_reserved _
  | mtxCfg => exact MatrixConfig.word_reserved _
  | formatInfo => exact setWidth_reserved s.engine.formatInfo
  | versionInfo => exact setWidth_reserved s.engine.versionInfo
  | mask => exact MaskReg.word_reserved _
  | tblTotal => exact setWidth_reserved s.engine.tbl.total
  | tblData => exact setWidth_reserved s.engine.tbl.data
  | tblEc => exact setWidth_reserved s.engine.tbl.ec
  | tblG1 => exact BlockGroupReg.word_reserved _
  | tblG2 => exact BlockGroupReg.word_reserved _
  | tblGeom => exact GeometryReg.word_reserved _
  | pen m k =>
    show _ &&& ~~~0xFFFFFFFF#32 = 0
    exact BitVec.and_zero

/-- Any two states agree in the reserved bits of a register. -/
theorem readReg_outside_fieldBits (s u : State) (r : Reg) : u.readReg r &&& ~~~r.fieldBits = s.readReg r &&& ~~~r.fieldBits := by
  rw [State.readReg_reserved, State.readReg_reserved]

/-! ### Registers that agree outside a set of bits -/

/-- Every register of `u` agrees with that of `s` outside the bits `m` gives for it. -/
def RegsAgree (m : Reg → Word) (s u : State) : Prop := ∀ r, u.readReg r &&& ~~~m r = s.readReg r &&& ~~~m r

theorem RegsAgree.trans {m : Reg → Word} {s u t : State} (h : RegsAgree m s u) (h' : RegsAgree m u t) : RegsAgree m s t :=
  fun r => (h' r).trans (h r)

/-- Agreement outside some bits is agreement outside more bits. -/
theorem RegsAgree.mono {m k : Reg → Word} {s u : State} (h : RegsAgree m s u) (hk : ∀ r, m r ||| k r = k r) : RegsAgree k s u := by
  intro r
  have := eq_outside_or (k := k r) (h r) rfl
  rwa [hk r] at this

/-- The registers are read from STATUS, the host-written and the engine's registers, so they agree where those do. -/
theorem RegsAgree.of_eq {m : Reg → Word} {s u : State} (hs : u.status = s.status) (hh : u.host = s.host)
    (he : u.engine = s.engine) : RegsAgree m s u := by
  intro r
  cases r <;> simp only [State.readReg, hs, hh, he]

theorem setResult_regs (s : State) (v : Word) : RegsAgree (fun r => r.bitsIf (r == .result)) s (s.setResult v) := by
  intro r
  cases r
  case result => exact readReg_outside_fieldBits _ _ _
  all_goals rfl

theorem setPolyResult_regs (s : State) (bs : List Byte) : RegsAgree (fun r => r.bitsIf (r == .plenR)) s (s.setPolyResult bs) := by
  intro r
  cases r
  case plenR => exact readReg_outside_fieldBits _ _ _
  all_goals rfl

theorem setDivisor_regs (s : State) (bs : List Byte) : RegsAgree (fun r => r.bitsIf (r == .plenB)) s (s.setDivisor bs) := by
  intro r
  cases r
  case plenB => exact readReg_outside_fieldBits _ _ _
  all_goals rfl

theorem tbl_regs (s : State) (x : TableRegs) :
    RegsAgree (writtenBits .tableLookup) s { s with engine := { s.engine with tbl := x } } := by
  intro r
  cases r
  case tblTotal | tblData | tblEc | tblG1 | tblG2 | tblGeom => exact readReg_outside_fieldBits _ _ _
  all_goals rfl

theorem assembleWrites_regs (cfg : VersionLevel) (bs : List Byte) (s : State) :
    RegsAgree (writtenBits .assemble) s (assembleWrites cfg bs s) := by
  intro r
  cases r
  case status => exact statusWord_outside_cwValid _ _
  case cwLen | cwCfg => exact readReg_outside_fieldBits _ _ _
  all_goals rfl

theorem matrixInitWrites_regs (cfg : VersionLevel) (s : State) : RegsAgree (writtenBits .matrixInit) s (matrixInitWrites cfg s) := by
  intro r
  cases r
  case status => exact statusWord_outside_bstate _ _
  case mtxCfg | mask | formatInfo | versionInfo | pen => exact readReg_outside_fieldBits _ _ _
  all_goals rfl

theorem matrixPlaceWork_regs {s u : State} (h : matrixPlaceWork s = .ok u) : RegsAgree (writtenBits .matrixPlace) s u := by
  obtain ⟨bs, -, rfl⟩ := matrixPlaceWork_ok_inv h
  intro r
  cases r
  case status => exact statusWord_outside_bstate _ _
  all_goals rfl

theorem finalizeWrites_regs (s : State) : RegsAgree (writtenBits .finalize) s (finalizeWrites s) := by
  intro r
  cases r
  case status => exact statusWord_outside_bstate _ _
  all_goals rfl

theorem scoreWrites_regs (s : State) : RegsAgree (writtenBits .maskScore) s (scoreWrites s) := by
  intro r
  cases r
  case mask => exact MaskReg.word_outside_score _ _ _
  case pen => exact readReg_outside_fieldBits _ _ _
  all_goals rfl

theorem applyMask_regs (p : Nat) (s : State) : RegsAgree (writtenBits .maskForce) s (applyMask p s) := by
  intro r
  cases r
  case status => exact statusWord_outside_bstate _ _
  case mask => exact MaskReg.word_outside_applied _ _ _
  all_goals rfl

/-- MASK_SELECT's write set holds those of the scoring and of the masking it does (R172). -/
theorem writtenBits_maskSelect {i : Instr} (hi : i = .maskScore ∨ i = .maskForce) (r : Reg) :
    writtenBits i r ||| writtenBits .maskSelect r = writtenBits .maskSelect r := by
  rcases hi with rfl | rfl <;> cases r <;>
    simp [writtenBits, Reg.bitsIf, Reg.fieldBits, Reg.isPen, maskScoreBits, maskAppliedBits, bstateBits]

theorem maskSelectWrites_regs (s : State) : RegsAgree (writtenBits .maskSelect) s (maskSelectWrites s) :=
  ((scoreWrites_regs s).mono (writtenBits_maskSelect (.inl rfl))).trans
    ((applyMask_regs s.bestMask (scoreWrites s)).mono (writtenBits_maskSelect (.inr rfl)))

theorem writeMetaWrites_regs (s : State) : RegsAgree (writtenBits .writeMeta) s (writeMetaWrites s) := by
  intro r
  cases r
  case status => exact statusWord_outside_bstate _ _
  case formatInfo | versionInfo => exact readReg_outside_fieldBits _ _ _
  all_goals rfl

theorem softResetWrites_regs (s : State) : RegsAgree (writtenBits .softReset) s (softResetWrites s) := by
  intro r
  cases r
  case status =>
    show _ &&& ~~~(cwValidBits ||| bstateBits) = _ &&& ~~~(cwValidBits ||| bstateBits)
    exact eq_outside_or (statusWord_outside_cwValid { s.status with bstate := .empty } false)
      (statusWord_outside_bstate s.status .empty)
  case id | cmd | config | dataLen | irqEn | arg0 | arg1 | plenA | plenB | pshift => rfl
  all_goals exact readReg_outside_fieldBits _ _ _

/-- ENCODE's write set holds those of the six commands whose work it does (R222). -/
theorem writtenBits_encode {i : Instr} (hi : i ∈ [Instr.assemble, .matrixInit, .matrixPlace, .maskSelect, .writeMeta, .finalize])
    (r : Reg) : writtenBits i r ||| writtenBits .encode r = writtenBits .encode r := by
  simp only [List.mem_cons, List.not_mem_nil, or_false] at hi
  rcases hi with rfl | rfl | rfl | rfl | rfl | rfl <;> cases r <;>
    simp [writtenBits, Reg.bitsIf, Reg.fieldBits, Reg.isPen, Reg.matrixInit, cwValidBits, bstateBits]

/-- The six parts of ENCODE (R222) together reach no bit outside its write set. -/
theorem encodeWrites_regs {cfg : VersionLevel} {bs : List Byte} {s p : State}
    (h : matrixPlaceWork (matrixInitWrites cfg (assembleWrites cfg bs s)) = .ok p) :
    RegsAgree (writtenBits .encode) s (finalizeWrites (writeMetaWrites (maskSelectWrites p))) := by
  have assembled := (assembleWrites_regs cfg bs s).mono (writtenBits_encode (by simp))
  have initialised := (matrixInitWrites_regs cfg (assembleWrites cfg bs s)).mono (writtenBits_encode (by simp))
  have placed := (matrixPlaceWork_regs h).mono (writtenBits_encode (by simp))
  have masked := (maskSelectWrites_regs p).mono (writtenBits_encode (by simp))
  have described := (writeMetaWrites_regs (maskSelectWrites p)).mono (writtenBits_encode (by simp))
  have final := (finalizeWrites_regs (writeMetaWrites (maskSelectWrites p))).mono (writtenBits_encode (by simp))
  exact ((((assembled.trans initialised).trans placed).trans masked).trans described).trans final

/-! ### RAM entries -/

/-- A command that wrote `bs` to the first entries of a RAM and nothing else to the RAMs leaves every other entry as it is. -/
theorem ramByte_outside_written {s u : State} {w r : Ram} {bs : List Byte} {k : Nat} (hp : SamePlatform s u)
    (hu : u.ram = s.ram.writeAll w.base bs) (hb : bs.length ≤ w.size) (hk : k < r.size) (h : ¬ (r = w ∧ k < bs.length)) :
    u.ramByte r k = s.ramByte r k := by
  have hc : u.ramByte r k = (s.writeRam w bs).ramByte r k := State.ramByte_congr (by rw [hu, State.writeRam_ram]) hp.params hp.ramEpoch
  rw [hc, State.ramByte_writeRam s w r bs hb hk, dif_neg h]

/-- The totals of RS_BLOCKS (R47, R51) for one version and level: D + B·n_ec = C, and C codewords fit in CW. -/
def blockTotalsFit (v : Nat) (e : Level) : Bool :=
  dataCount v e + (blockList v e).length * ecCount v e == totalCount v e && decide (totalCount v e ≤ Ram.cw.size)

theorem blockTotalsFit_all : ((List.range 41).all fun v => [Level.l, .m, .q, .h].all (blockTotalsFit v)) = true := by decide +kernel

theorem blockTotals {v : Nat} (h : v ≤ 40) (e : Level) :
    dataCount v e + (blockList v e).length * ecCount v e = totalCount v e ∧ totalCount v e ≤ Ram.cw.size := by
  have hv := List.all_eq_true.mp blockTotalsFit_all v (List.mem_range.mpr (by omega))
  have he := List.all_eq_true.mp hv e (by cases e <;> decide)
  simpa [blockTotalsFit] using he

/-- The stream ASSEMBLE and ENCODE write has C(v) bytes, the number of entries in their write set, and fits in CW. -/
theorem assembleOperands_stream_length {s : State} {data : List Byte} (h : assembleOperands s = .ok data) :
    (codewordStream s.host.config.version.toNat (levelOf s.host.config.ecl) data).length = writtenCodewords s ∧
      writtenCodewords s ≤ Ram.cw.size := by
  obtain ⟨h1, h2, h3, h4⟩ := assembleOperands_ok_inv h
  obtain ⟨ht, hf⟩ := blockTotals h2 (levelOf s.host.config.ecl)
  have hl : data.length = s.host.dataLen.toNat := (State.ramBytes_ok h4).1
  rw [codewordStream_length (by omega), ht, writtenCodewords, checkVersion_ok h1 h2]
  exact ⟨rfl, hf⟩

/-! ### Plane cells -/

theorem mem_pairColumns {k col c : Nat} (h : c ∈ pairColumns k col) : 0 < col ∧ c ≤ col := by
  induction k generalizing col with
  | zero => cases h
  | succ k ih =>
    unfold pairColumns at h
    by_cases h0 : col = 0
    · rw [if_pos h0] at h
      cases h
    · rw [if_neg h0] at h
      have hle : (if col = 6 then 5 else col) ≤ col := by split <;> omega
      rcases List.mem_cons.mp h with rfl | h
      · exact ⟨by omega, hle⟩
      · have := (ih h).2
        omega

theorem mem_sweepCells {n col : Nat} {up : Bool} {x : Nat × Nat} (h : x ∈ sweepCells n up col) : x.1 < n ∧ x.2 ≤ col := by
  obtain ⟨r, hr, hx⟩ := List.mem_flatMap.mp h
  have hr : r < n := by cases up <;> simpa [sweepRows] using hr
  simp only [List.mem_cons, List.not_mem_nil, or_false] at hx
  rcases hx with rfl | rfl
  · exact ⟨hr, Nat.le_refl _⟩
  · exact ⟨hr, Nat.sub_le _ _⟩

theorem mem_sweeps {n : Nat} {up : Bool} {cols : List Nat} {x : Nat × Nat} (h : x ∈ sweeps n up cols) :
    x.1 < n ∧ ∃ c ∈ cols, x.2 ≤ c := by
  induction cols generalizing up with
  | nil => cases h
  | cons col rest ih =>
    rcases List.mem_append.mp h with h | h
    · obtain ⟨hr, hc⟩ := mem_sweepCells h
      exact ⟨hr, col, List.mem_cons_self, hc⟩
    · obtain ⟨hr, c, hm, hc⟩ := ih h
      exact ⟨hr, c, List.mem_cons_of_mem _ hm, hc⟩

/-- The placement order visits data cells of the matrix only (R189). -/
theorem mem_placementOrder {n : Nat} {func : Plane} {x : Nat × Nat} (h : x ∈ placementOrder n func) :
    x.1 < n ∧ x.2 < n ∧ func.get x.1 x.2 = false := by
  obtain ⟨hx, hf⟩ := List.mem_filter.mp h
  obtain ⟨hr, c, hm, hc⟩ := mem_sweeps hx
  have := mem_pairColumns hm
  exact ⟨hr, by omega, by simpa using hf⟩

/-- Placing bits leaves the cells outside the list as they are. -/
theorem placeBits_outside {cells : List (Nat × Nat)} {r c : Nat} (h : (r, c) ∉ cells) (bits : List Bool) (p : Planes) (id : PlaneId) :
    ((placeBits cells bits p).plane id).get r c = (p.plane id).get r c := by
  induction cells generalizing bits p with
  | nil => rfl
  | cons x rest ih =>
    obtain ⟨hx, hrest⟩ := not_or.mp (mt List.mem_cons.mpr h)
    have hp : ∀ d, ((p.place x.1 x.2 d).plane id).get r c = (p.plane id).get r c := by
      intro d
      have hne : ¬ (r = x.1 ∧ c = x.2 ∧ x.1 < 256 ∧ x.2 < 256) := fun hc => hx (Prod.ext hc.1 hc.2.1)
      cases id <;> simp only [Planes.plane, Planes.place_darkp, Planes.place_asgn, Planes.place_func, Plane.get_set, if_neg hne]
    cases bits <;> rw [placeBits, ih hrest, hp]

/-- MATRIX_PLACE writes DARKP and ASGN of data cells of the matrix only (R188). -/
theorem matrixPlaceWork_cells {s u : State} (h : matrixPlaceWork s = .ok u) {id : PlaneId} {r c : Nat}
    (hw : writesCell .matrixPlace s id r c = false) : (u.planes.plane id).get r c = (s.planes.plane id).get r c := by
  obtain ⟨bs, -, rfl⟩ := matrixPlaceWork_ok_inv h
  by_cases hm : (r, c) ∈ placementOrder s.engine.mtxCfg.side.toNat s.planes.func
  · have hd : s.isDataCell r c = true := (s.isDataCell_iff r c).mpr (mem_placementOrder hm)
    cases id with
    | func => exact congrArg (·.get r c) (placeBits_func _ _ _)
    | _ => simp [writesCell, hd] at hw
  · exact placeBits_outside hm _ _ _

/-- Masking writes DARKP of data cells of the matrix only (R174). -/
theorem applyMask_cells (p : Nat) {s : State} {id : PlaneId} {r c : Nat} (hw : writesCell .maskForce s id r c = false) :
    ((applyMask p s).planes.plane id).get r c = (s.planes.plane id).get r c := by
  cases id with
  | darkp =>
    have hd : s.isDataCell r c = false := by simpa [writesCell] using hw
    have hn : s.matrixSide ≤ 256 := Nat.le_of_lt s.engine.mtxCfg.side.isLt
    rw [applyMask_planes, Planes.plane, maskedPlane_get _ _ _ _ _ _ hn]
    unfold State.isDataCell at hd
    rw [hd, Bool.false_and, Bool.xor_false]
    rfl
  | _ => simp only [applyMask_planes, Planes.plane]

/-! ### The reserved cells -/

theorem fpos1_mem_reservedCells (v n : Nat) {i : Nat} (h : i < 15) : fpos1 n i ∈ reservedCells v n := by
  simp only [reservedCells, formatCells, List.mem_append, List.mem_map, List.mem_range]
  exact .inl (.inl (.inl ⟨i, h, rfl⟩))

theorem fpos2_mem_reservedCells (v n : Nat) {i : Nat} (h : i < 15) : fpos2 n i ∈ reservedCells v n := by
  simp only [reservedCells, formatCells, List.mem_append, List.mem_map, List.mem_range]
  exact .inl (.inl (.inr ⟨i, h, rfl⟩))

theorem darkModule_mem_reservedCells (v n : Nat) : darkModule n ∈ reservedCells v n := by
  simp [reservedCells, formatCells]

theorem vpos1_mem_reservedCells {v : Nat} (n : Nat) (hv : 7 ≤ v) {i : Nat} (h : i < 18) : vpos1 n i ∈ reservedCells v n := by
  simp only [reservedCells, versionCells, if_pos (show v ≥ 7 from hv), List.mem_append, List.mem_map, List.mem_range]
  exact .inr (.inl ⟨i, h, rfl⟩)

theorem vpos2_mem_reservedCells {v : Nat} (n : Nat) (hv : 7 ≤ v) {i : Nat} (h : i < 18) : vpos2 n i ∈ reservedCells v n := by
  simp only [reservedCells, versionCells, if_pos (show v ≥ 7 from hv), List.mem_append, List.mem_map, List.mem_range]
  exact .inr (.inr ⟨i, h, rfl⟩)

/-- The reserved cells lie inside the matrix. -/
theorem mem_reservedCells_lt {v : Nat} {x : Nat × Nat} (hv : 1 ≤ v) (h : x ∈ reservedCells v (side v)) :
    x.1 < side v ∧ x.2 < side v := by
  have hn : 21 ≤ side v := by unfold side; omega
  rcases List.mem_append.mp h with h | h
  · simp only [formatCells, List.mem_append, List.mem_map, List.mem_range, List.mem_singleton] at h
    rcases h with (⟨i, hi, rfl⟩ | ⟨i, hi, rfl⟩) | rfl
    · simp only [fpos1]
      split
      · constructor <;> dsimp only <;> omega
      · split <;> constructor <;> dsimp only <;> omega
    · simp only [fpos2]
      split
      · constructor <;> dsimp only <;> omega
      · split <;> constructor <;> dsimp only <;> omega
    · simp only [darkModule]
      omega
  · unfold versionCells at h
    split at h
    · simp only [List.mem_append, List.mem_map, List.mem_range] at h
      rcases h with ⟨i, hi, rfl⟩ | ⟨i, hi, rfl⟩ <;> simp only [vpos1, vpos2] <;> omega
    · cases h

/-- MATRIX_INIT makes every reserved cell a function cell (R185, R186). -/
theorem initialPlanes_func_reserved {v : Nat} {x : Nat × Nat} (hv : 1 ≤ v) (hv' : v ≤ 40) (h : x ∈ reservedCells v (side v)) :
    (initialPlanes v).func.get x.1 x.2 = true := by
  have hlt := mem_reservedCells_lt hv h
  have h1 : x.1 < 256 := by have := hlt.1; unfold side at this; omega
  have h2 : x.2 < 256 := by have := hlt.2; unfold side at this; omega
  rw [initialPlanes, reserveCells_func, reserveCells_func]
  rcases List.mem_append.mp h with h | h <;> simp [h, h1, h2]

/-- Under the builder invariant a matrix's reserved cells are reserved cells in the sense of WRITE_META's write set. -/
theorem State.BuilderInv.isReservedCell {s : State} (h : s.BuilderInv) (hb : s.status.bstate ≠ .empty) {r c : Nat}
    (hm : (r, c) ∈ reservedCells s.engine.mtxCfg.version.toNat s.matrixSide) : s.isReservedCell r c = true := by
  obtain ⟨h1, h2⟩ := h.version_range hb
  have hside : s.matrixSide = side s.engine.mtxCfg.version.toNat := h.side_eq hb
  have hm' := hside ▸ hm
  obtain ⟨hr, hc⟩ := mem_reservedCells_lt h1 hm'
  exact (s.isReservedCell_iff r c).mpr
    ⟨hside ▸ hr, hside ▸ hc, (h.func_layout hb r c).trans (initialPlanes_func_reserved h1 h2 hm'), hm⟩

/-! ### WRITE_META -/

/-- What setting function cells at the places of a word's bits keeps, writing the word keeps. -/
theorem writeBits_keeps {P : Planes → Prop} {k : Nat} {pos1 pos2 : Nat → Nat × Nat} (w : Nat) {p : Planes} (h0 : P p)
    (h1 : ∀ i, i < k → ∀ q d, P q → P (q.setf (pos1 i).1 (pos1 i).2 d))
    (h2 : ∀ i, i < k → ∀ q d, P q → P (q.setf (pos2 i).1 (pos2 i).2 d)) : P (writeBits k pos1 pos2 w p) :=
  foldl_keeps h0 fun _ _ hi hq => h2 _ (List.mem_range.mp hi) _ _ (h1 _ (List.mem_range.mp hi) _ _ hq)

/-- WRITE_META sets reserved cells and no other: what setting a reserved cell keeps, it keeps (R196 to R199). -/
theorem metaPlanes_keeps {P : Planes → Prop} {s : State} (h0 : P s.planes)
    (hs : ∀ x ∈ reservedCells s.engine.mtxCfg.version.toNat s.matrixSide, ∀ q d, P q → P (q.setf x.1 x.2 d)) : P (metaPlanes s) := by
  have hf : P (writeBits 15 (fpos1 s.matrixSide) (fpos2 s.matrixSide) (metaFormat s).toNat s.planes) :=
    writeBits_keeps _ h0 (fun _ hi => hs _ (fpos1_mem_reservedCells _ _ hi)) fun _ hi => hs _ (fpos2_mem_reservedCells _ _ hi)
  have hd := hs _ (darkModule_mem_reservedCells _ _) _ true hf
  unfold metaPlanes
  by_cases hv : s.engine.mtxCfg.version.toNat ≥ 7
  · rw [if_pos hv]
    exact writeBits_keeps _ hd (fun _ hi => hs _ (vpos1_mem_reservedCells _ hv hi)) fun _ hi => hs _ (vpos2_mem_reservedCells _ hv hi)
  · rw [if_neg hv]
    exact hd

/-- Setting a cell leaves every other cell of the three planes as it is. -/
theorem Planes.setf_outside {x : Nat × Nat} {r c : Nat} (h : x ≠ (r, c)) (p : Planes) (d : Bool) (id : PlaneId) :
    ((p.setf x.1 x.2 d).plane id).get r c = (p.plane id).get r c := by
  have hne : ¬ (r = x.1 ∧ c = x.2 ∧ x.1 < 256 ∧ x.2 < 256) := fun hc => h (Prod.ext hc.1.symm hc.2.1.symm)
  cases id <;> simp only [plane, setf_darkp, setf_asgn, setf_func, Plane.get_set, if_neg hne]

/-- WRITE_META leaves the cells that are not reserved as they are. -/
theorem metaPlanes_outside {s : State} {r c : Nat} (h : (r, c) ∉ reservedCells s.engine.mtxCfg.version.toNat s.matrixSide)
    (id : PlaneId) : ((metaPlanes s).plane id).get r c = (s.planes.plane id).get r c :=
  metaPlanes_keeps (P := fun q => (q.plane id).get r c = (s.planes.plane id).get r c) rfl fun _ hx q d hq =>
    (Planes.setf_outside (fun he => h (he ▸ hx)) q d id).trans hq

/-- Where the reserved cells are function cells, WRITE_META leaves FUNC as it is. -/
theorem metaPlanes_func {s : State}
    (h : ∀ x ∈ reservedCells s.engine.mtxCfg.version.toNat s.matrixSide, s.planes.func.get x.1 x.2 = true) (r c : Nat) :
    (metaPlanes s).func.get r c = s.planes.func.get r c := by
  refine metaPlanes_keeps (P := fun q => q.func.get r c = s.planes.func.get r c) rfl fun x hx q d hq => ?_
  rw [Planes.setf_func, Plane.get_set]
  split
  · next hc => rw [hc.1, hc.2.1, h x hx]
  · exact hq

/-- Under the builder invariant WRITE_META writes DARKP and ASGN of reserved cells only (R196). -/
theorem writeMetaWrites_cells {s : State} (h : s.BuilderInv) (hb : s.status.bstate ≠ .empty) {id : PlaneId} {r c : Nat}
    (hw : writesCell .writeMeta s id r c = false) :
    ((writeMetaWrites s).planes.plane id).get r c = (s.planes.plane id).get r c := by
  by_cases hm : (r, c) ∈ reservedCells s.engine.mtxCfg.version.toNat s.matrixSide
  · cases id with
    | func => exact metaPlanes_func (fun x hx => ((s.isReservedCell_iff x.1 x.2).mp (h.isReservedCell hb hx)).2.2.1) r c
    | _ => simp [writesCell, h.isReservedCell hb hm] at hw
  · exact metaPlanes_outside hm id

/-! ### Every command -/

/-- What a command's own writes, those of its body, leave as it is (R14, R93). -/
structure StaysInWriteSet (i : Instr) (s u : State) : Prop where
  regs : RegsAgree (writtenBits i) s u
  ram : ∀ (r : Ram) (k : Nat), k < r.size → writesRam i s r k = false → u.ramByte r k = s.ramByte r k
  cells : ∀ (p : PlaneId) (r c : Nat), writesCell i s p r c = false → (u.planes.plane p).get r c = (s.planes.plane p).get r c

/-- A command that only changes registers. -/
theorem StaysInWriteSet.of_regs {i : Instr} {s u : State} (h : RegsAgree (writtenBits i) s u) (hp : SamePlatform s u)
    (hr : u.ram = s.ram) (hc : u.planes = s.planes) : StaysInWriteSet i s u :=
  ⟨h, fun _ _ _ _ => State.ramByte_congr (by rw [hr]) hp.params hp.ramEpoch, fun _ _ _ _ => by rw [hc]⟩

/-- A command that writes the first entries of one RAM, all of them in its write set. -/
theorem StaysInWriteSet.of_written {i : Instr} {s u : State} {w : Ram} {bs : List Byte} (h : RegsAgree (writtenBits i) s u)
    (hp : SamePlatform s u) (hr : u.ram = s.ram.writeAll w.base bs) (hb : bs.length ≤ w.size)
    (hw : ∀ k, k < bs.length → writesRam i s w k = true)
    (hc : ∀ p r c, writesCell i s p r c = false → (u.planes.plane p).get r c = (s.planes.plane p).get r c) :
    StaysInWriteSet i s u where
  regs := h
  ram r k hk hn := by
    refine ramByte_outside_written hp hr hb hk ?_
    rintro ⟨rfl, hl⟩
    rw [hw k hl] at hn
    cases hn
  cells := hc

theorem polyMulBody_staysInWriteSet {s u : State} (h : polyMulBody s = .ok u) : StaysInWriteSet .polyMul s u := by
  have hp : SamePlatform s u := bodyOf_samePlatform (i := .polyMul) h
  obtain ⟨a, b, hla, hlb, hprod, ha, hb, rfl⟩ := polyMulBody_ok_inv h
  have hlen : (polyMul (shiftPoly a (polyLengths s).s) b).length = (polyLengths s).product := by
    have hal := (State.ramBytes_ok ha).1
    have hbl := (State.ramBytes_ok hb).1
    rw [polyMul_length (List.length_pos_iff.mp (by rw [shiftPoly_length]; omega)) (List.length_pos_iff.mp (by omega)),
      shiftPoly_length, hal, hbl, PolyLengths.product]
  exact .of_written (w := .pr) (setPolyResult_regs _ _) hp rfl (hlen ▸ hprod) (by simp [writesRam, hlen]) fun _ _ _ _ => rfl

theorem polyModBody_staysInWriteSet {s u : State} (h : polyModBody s = .ok u) : StaysInWriteSet .polyMod s u := by
  have hp : SamePlatform s u := bodyOf_samePlatform (i := .polyMod) h
  obtain ⟨a, b, -, -, -, hlb, -, hb, -, rfl⟩ := polyModBody_ok_inv h
  have hlen : (polyRem (shiftPoly a (polyLengths s).s) b).length = (polyLengths s).lb - 1 := by
    rw [polyRem_length, (State.ramBytes_ok hb).1]
  have hfit : (polyLengths s).lb - 1 ≤ Ram.pr.size := by
    simp only [Ram.size]
    omega
  exact .of_written (w := .pr) (setPolyResult_regs _ _) hp rfl (hlen ▸ hfit) (by simp [writesRam, hlen]) fun _ _ _ _ => rfl

theorem rsGenpolyBody_staysInWriteSet {s u : State} (h : rsGenpolyBody s = .ok u) : StaysInWriteSet .rsGenpoly s u := by
  have hp : SamePlatform s u := bodyOf_samePlatform (i := .rsGenpoly) h
  rw [rsGenpolyBody_eq] at h
  split at h <;> cases h
  have hfit : s.host.arg0.toNat + 1 ≤ Ram.pb.size := by
    simp only [Ram.size]
    omega
  exact .of_written (w := .pb) (setDivisor_regs _ _) hp rfl (genPoly_length s.host.arg0.toNat ▸ hfit) (by simp [writesRam, genPoly_length])
    fun _ _ _ _ => rfl

theorem assembleBody_staysInWriteSet {s u : State} (h : assembleBody s = .ok u) : StaysInWriteSet .assemble s u := by
  have hp : SamePlatform s u := bodyOf_samePlatform (i := .assemble) h
  rw [assembleBody_eq] at h
  split at h <;> cases h
  next data hd =>
    obtain ⟨hlen, hfit⟩ := assembleOperands_stream_length hd
    exact .of_written (w := .cw) (assembleWrites_regs _ _ _) hp rfl (hlen ▸ hfit) (by simp [writesRam, hlen]) fun _ _ _ _ => rfl

/-- ENCODE's body, when it ends well: the placement of the stream it assembled, then mask, metadata and FINALIZE (R222). -/
theorem encodeBody_ok_inv {s u : State} (h : encodeBody s = .ok u) :
    ∃ data p, assembleOperands s = .ok data ∧
      matrixPlaceWork (matrixInitWrites s.host.config (assembleWrites s.host.config data s)) = .ok p ∧
      u = finalizeWrites (writeMetaWrites (maskSelectWrites p)) := by
  rw [encodeBody_eq] at h
  split at h
  next data hd =>
    split at h
    next p hw => exact ⟨data, p, hd, hw, by simpa using h.symm⟩
    next => cases h
  next => cases h

theorem encodeBody_staysInWriteSet {s u : State} (h : encodeBody s = .ok u) : StaysInWriteSet .encode s u := by
  have hp : SamePlatform s u := bodyOf_samePlatform (i := .encode) h
  obtain ⟨data, p, hd, hw, rfl⟩ := encodeBody_ok_inv h
  obtain ⟨hlen, hfit⟩ := assembleOperands_stream_length hd
  obtain ⟨cw, -, hpl⟩ := matrixPlaceWork_ok_inv hw
  exact .of_written (w := .cw) (encodeWrites_regs hw) hp (by rw [hpl]; rfl) (hlen ▸ hfit) (by simp [writesRam, hlen])
    fun _ _ _ hn => nomatch hn

theorem matrixPlaceBody_ok_inv {s u : State} (h : matrixPlaceBody s = .ok u) :
    matrixPlaceCheck s = .ok () ∧ matrixPlaceWork s = .ok u := by
  simp only [matrixPlaceBody, bind, Except.bind] at h
  split at h
  · cases h
  · next hc => exact ⟨hc, h⟩

theorem matrixPlaceBody_staysInWriteSet {s u : State} (h : matrixPlaceBody s = .ok u) : StaysInWriteSet .matrixPlace s u := by
  obtain ⟨-, hw⟩ := matrixPlaceBody_ok_inv h
  obtain ⟨bs, -, hpl⟩ := matrixPlaceWork_ok_inv hw
  exact ⟨matrixPlaceWork_regs hw, fun _ _ _ _ => by rw [hpl]; rfl, fun _ _ _ => matrixPlaceWork_cells hw⟩

/-- No command's own writes leave its write set. -/
theorem bodyOf_staysInWriteSet {i : Instr} {s u : State} (hinv : s.BuilderInv) (h : bodyOf i s = .ok u) : StaysInWriteSet i s u := by
  have hp := bodyOf_samePlatform h
  cases i <;> simp only [bodyOf] at h
  case nop => cases h; exact .of_regs (fun _ => rfl) hp rfl rfl
  case softReset => cases h; exact ⟨softResetWrites_regs s, fun _ _ _ _ => rfl, fun _ _ _ hn => nomatch hn⟩
  case gfExp => cases h; exact .of_regs (setResult_regs _ _) hp rfl rfl
  case gfLog => rw [gfLogBody_eq] at h; split at h <;> cases h; exact .of_regs (setResult_regs _ _) hp rfl rfl
  case gfMul => rw [gfMulBody_eq] at h; split at h <;> cases h; exact .of_regs (setResult_regs _ _) hp rfl rfl
  case gfInv => rw [gfInvBody_eq] at h; split at h <;> cases h; exact .of_regs (setResult_regs _ _) hp rfl rfl
  case polyMul => exact polyMulBody_staysInWriteSet h
  case polyMod => exact polyModBody_staysInWriteSet h
  case rsGenpoly => exact rsGenpolyBody_staysInWriteSet h
  case tableLookup => rw [tableLookupBody_eq] at h; split at h <;> cases h; exact .of_regs (tbl_regs _ _) hp rfl rfl
  case assemble => exact assembleBody_staysInWriteSet h
  case bchFormat => rw [bchFormatBody_eq] at h; split at h <;> cases h; exact .of_regs (setResult_regs _ _) hp rfl rfl
  case bchVersion => rw [bchVersionBody_eq] at h; split at h <;> cases h; exact .of_regs (setResult_regs _ _) hp rfl rfl
  case matrixInit =>
    rw [matrixInitBody_eq] at h
    split at h <;> cases h
    exact ⟨matrixInitWrites_regs _ _, fun _ _ _ _ => rfl, fun _ _ _ hn => nomatch hn⟩
  case matrixPlace => exact matrixPlaceBody_staysInWriteSet h
  case maskScore => rw [maskScoreBody_eq] at h; split at h <;> cases h; exact .of_regs (scoreWrites_regs _) hp rfl rfl
  case maskSelect =>
    rw [maskSelectBody_eq] at h
    split at h <;> cases h
    exact ⟨maskSelectWrites_regs s, fun _ _ _ _ => rfl, fun _ _ _ hn => applyMask_cells _ (s := scoreWrites s) hn⟩
  case maskForce =>
    rw [maskForceBody_eq] at h
    split at h
    · cases h
    · split at h <;> cases h
      exact ⟨applyMask_regs _ s, fun _ _ _ _ => rfl, fun _ _ _ hn => applyMask_cells _ hn⟩
  case writeMeta =>
    rw [writeMetaBody_eq] at h
    split at h <;> cases h
    next hb =>
      exact ⟨writeMetaWrites_regs s, fun _ _ _ _ => rfl, fun _ _ _ => writeMetaWrites_cells hinv (by rw [hb]; decide)⟩
  case finalize =>
    rw [finalizeBody_eq] at h
    split at h
    · cases h
    · split at h <;> cases h
      exact .of_regs (finalizeWrites_regs _) hp rfl rfl
  case encode => exact encodeBody_staysInWriteSet h

/-- BUSY, DONE, ERR and ERRCODE of STATUS: the bits a completion writes besides the command's own writes (R246). -/
def completionBits (r : Reg) : Word := if r = .status then 0x0000F007 else 0

theorem State.complete_regs (s : State) : RegsAgree completionBits s s.complete := by
  intro r
  cases r
  case status => exact statusWord_outside_completion s.status false true s.status.err s.status.errcode
  all_goals rfl

theorem State.raise_regs (s : State) (e : Err) : RegsAgree completionBits s (s.raise e) := by
  intro r
  cases r
  case status => exact statusWord_outside_completion s.status false s.status.done true e.code
  all_goals rfl

/-- Settles O60: a completion is the command's own writes and the completion bits, or on an error the completion bits alone. -/
theorem commandsStayInTheirWriteSet : Obligations.CommandsStayInTheirWriteSet := by
  intro i s t hinv h
  rw [exec_eq_run] at h
  rcases runCommand_next h with ⟨u, hu, rfl⟩ | ⟨e, -, rfl⟩
  · have hs := bodyOf_staysInWriteSet hinv hu
    refine ⟨fun r => ?_, hs.ram, hs.cells⟩
    have := eq_outside_or (u.complete_regs r) (hs.regs r)
    rwa [BitVec.or_comm] at this
  · refine ⟨fun r => ?_, fun _ _ _ _ => rfl, fun _ _ _ _ => rfl⟩
    exact eq_outside_or (y := (s.raise e).readReg r) rfl (s.raise_regs e r)

end Sys2Proof.Machine

/-! ## The invariants of the state are kept by every step -/

namespace Sys2Proof.Machine

/-! ### What a step can do to the contents of the block -/

/-- Two states that hold the same engine-written registers, RAM bytes, planes, CW_VALID and BSTATE: they differ at most in the host-written
registers, the life-cycle bits of STATUS, PENDING and the platform's side. -/
structure SameContents (s t : State) : Prop where
  engine : t.engine = s.engine
  ram : t.ram = s.ram
  planes : t.planes = s.planes
  cwValid : t.status.cwValid = s.status.cwValid
  bstate : t.status.bstate = s.status.bstate

theorem State.complete_contents (s : State) : SameContents s s.complete := ⟨rfl, rfl, rfl, rfl, rfl⟩

theorem State.raise_contents (s : State) (e : Err) : SameContents s (s.raise e) := ⟨rfl, rfl, rfl, rfl, rfl⟩

theorem State.respond_contents (s : State) (r : Response) : SameContents s (s.respond r) := ⟨rfl, rfl, rfl, rfl, rfl⟩

theorem State.writeReg_contents (s : State) (r : Reg) (w : Word) : SameContents s (s.writeReg r w) := by
  cases r <;> exact ⟨rfl, rfl, rfl, rfl, rfl⟩

/-- The state after a host write of the word `w` to entries 4·j to 4·j + 3 of RAM `r` (R64). -/
def State.writeWindow (s : State) (r : Ram) (j : Nat) (w : Word) : State :=
  { s with ram := s.ram.writeAll (r.base + 4 * j) (bytesOfWord w) }

/-- A host write to an aligned offset changes the contents only where it stores a word in a RAM. -/
theorem State.busWrite_contents (s : State) {o : Nat} (ho : o % 4 = 0) (w : Word) :
    SameContents s (s.busWrite o w) ∨ ∃ r j, 4 * j + 3 < r.size ∧ s.busWrite o w = s.writeWindow r j w := by
  unfold State.busWrite
  split
  · exact .inl ⟨rfl, rfl, rfl, rfl, rfl⟩
  · unfold State.writeLocation
    split
    · exact .inl (s.writeReg_contents _ w)
    · next r k hl =>
      split
      · obtain ⟨hk, hlt⟩ := locate_ram_inv hl
        obtain ⟨j, rfl, hj⟩ : ∃ j, k = 4 * j ∧ 4 * j + 3 < r.size := by
          refine ⟨k / 4, ?_⟩
          cases r <;> simp only [Ram.base, Ram.size] at * <;> omega
        exact .inr ⟨r, j, hj, rfl⟩
      · exact .inl ⟨rfl, rfl, rfl, rfl, rfl⟩
    · exact .inl ⟨rfl, rfl, rfl, rfl, rfl⟩
    · exact .inl ⟨rfl, rfl, rfl, rfl, rfl⟩

/-- A served request is aligned (R62). -/
theorem Request.served_aligned {q : Request} (h : q.served = true) : q.addr.toNat % 4 = 0 := by
  simp only [Request.served, Bool.and_eq_true, beq_iff_eq] at h
  simpa using congrArg BitVec.toNat h.2

/-- The writes the commands' bodies are made of, each with what holds where it is done. MASK_SELECT and ENCODE do several in a row (R172,
R222). -/
inductive Writes : State → State → Prop where
  | nothing (s : State) : Writes s s
  | softReset (s : State) : Writes s (softResetWrites s)
  | result (s : State) (v : Word) : Writes s (s.setResult v)
  | polyResult (s : State) (bs : List Byte) (h : bs.length ≤ Ram.pr.size) : Writes s (s.setPolyResult bs)
  | divisor (s : State) (bs : List Byte) (h : bs.length ≤ Ram.pb.size) : Writes s (s.setDivisor bs)
  | tables (s : State) (x : TableRegs) : Writes s { s with engine := { s.engine with tbl := x } }
  | assemble (s : State) (data : List Byte) (h : assembleOperands s = .ok data) : Writes s (assembleWrites s.host.config data s)
  | init (s : State) (cfg : VersionLevel) (h1 : 1 ≤ cfg.version.toNat) (h2 : cfg.version.toNat ≤ 40) :
      Writes s (matrixInitWrites cfg s)
  | place (s u : State) (hb : s.status.bstate = .functionPatternsPlaced) (h : matrixPlaceWork s = .ok u) : Writes s u
  | score (s : State) (hb : s.status.bstate = .dataPlaced) : Writes s (scoreWrites s)
  | mask (s : State) (p : Nat) (hb : s.status.bstate = .dataPlaced) : Writes s (applyMask p s)
  | metadata (s : State) (hb : s.status.bstate = .masked) : Writes s (writeMetaWrites s)
  | finalize (s : State) (hb : s.status.bstate = .metadataWritten) : Writes s (finalizeWrites s)
  | andThen {s u t : State} (h : Writes s u) (h' : Writes u t) : Writes s t

/-- MASK_SELECT scores, then masks (R172). -/
theorem Writes.maskSelect {s : State} (hb : s.status.bstate = .dataPlaced) : Writes s (maskSelectWrites s) :=
  (score s hb).andThen (mask (scoreWrites s) s.bestMask hb)

theorem polyMulBody_writes {s u : State} (h : polyMulBody s = .ok u) : Writes s u := by
  obtain ⟨a, b, hla, hlb, hprod, ha, hb, rfl⟩ := polyMulBody_ok_inv h
  have hal := (State.ramBytes_ok ha).1
  have hbl := (State.ramBytes_ok hb).1
  refine .polyResult s _ ?_
  rw [polyMul_length (List.length_pos_iff.mp (by rw [shiftPoly_length]; omega)) (List.length_pos_iff.mp (by omega)),
    shiftPoly_length, hal, hbl]
  exact hprod

theorem polyModBody_writes {s u : State} (h : polyModBody s = .ok u) : Writes s u := by
  obtain ⟨a, b, -, -, -, hlb, -, hb, -, rfl⟩ := polyModBody_ok_inv h
  refine .polyResult s _ ?_
  rw [polyRem_length, (State.ramBytes_ok hb).1]
  simp only [Ram.size]
  omega

theorem encodeBody_writes {s u : State} (h : encodeBody s = .ok u) : Writes s u := by
  obtain ⟨data, p, hd, hp, rfl⟩ := encodeBody_ok_inv h
  obtain ⟨h1, h2, -, -⟩ := assembleOperands_ok_inv hd
  obtain ⟨bs, -, hpl⟩ := matrixPlaceWork_ok_inv hp
  have hb : p.status.bstate = .dataPlaced := by rw [hpl]
  exact (Writes.assemble s data hd).andThen <| (Writes.init _ s.host.config h1 h2).andThen <| (Writes.place _ p rfl hp).andThen <|
    (Writes.maskSelect hb).andThen <| (Writes.metadata (maskSelectWrites p) rfl).andThen <| Writes.finalize _ rfl

/-- A command's body, when it ends well, has done a row of these writes. -/
theorem bodyOf_writes {i : Instr} {s u : State} (h : bodyOf i s = .ok u) : Writes s u := by
  cases i <;> simp only [bodyOf] at h
  case nop => cases h; exact .nothing s
  case softReset => cases h; exact .softReset s
  case gfExp => cases h; exact .result s _
  case gfLog => rw [gfLogBody_eq] at h; split at h <;> cases h; exact .result s _
  case gfMul => rw [gfMulBody_eq] at h; split at h <;> cases h; exact .result s _
  case gfInv => rw [gfInvBody_eq] at h; split at h <;> cases h; exact .result s _
  case polyMul => exact polyMulBody_writes h
  case polyMod => exact polyModBody_writes h
  case rsGenpoly =>
    rw [rsGenpolyBody_eq] at h
    split at h <;> cases h
    exact .divisor s _ (by rw [genPoly_length]; simp only [Ram.size]; omega)
  case tableLookup => rw [tableLookupBody_eq] at h; split at h <;> cases h; exact .tables s _
  case assemble =>
    rw [assembleBody_eq] at h
    split at h <;> cases h
    next data hd => exact .assemble s data hd
  case bchFormat => rw [bchFormatBody_eq] at h; split at h <;> cases h; exact .result s _
  case bchVersion => rw [bchVersionBody_eq] at h; split at h <;> cases h; exact .result s _
  case matrixInit => rw [matrixInitBody_eq] at h; split at h <;> cases h; exact .init s _ (by omega) (by omega)
  case matrixPlace =>
    obtain ⟨hc, hw⟩ := matrixPlaceBody_ok_inv h
    rw [matrixPlaceCheck_eq] at hc
    split at hc <;> cases hc
    next hb => exact .place s u hb.1 hw
  case maskScore => rw [maskScoreBody_eq] at h; split at h <;> cases h; exact .score s ‹_›
  case maskSelect => rw [maskSelectBody_eq] at h; split at h <;> cases h; exact .maskSelect ‹_›
  case maskForce =>
    rw [maskForceBody_eq] at h
    split at h
    · cases h
    · next hb =>
      split at h <;> cases h
      exact .mask s _ (Decidable.not_not.mp hb)
  case writeMeta => rw [writeMetaBody_eq] at h; split at h <;> cases h; exact .metadata s ‹_›
  case finalize =>
    rw [finalizeBody_eq] at h
    split at h
    · cases h
    · next hb =>
      split at h <;> cases h
      exact .finalize s (Decidable.not_not.mp hb)
  case encode => exact encodeBody_writes h

/-- A property of the contents that hardware reset establishes and that every store of the host and every write of a command keeps. -/
structure ContentInvariant (P : State → Prop) : Prop where
  same : ∀ {s t : State}, SameContents s t → P s → P t
  window : ∀ {s : State} {r : Ram} {j : Nat} (w : Word), 4 * j + 3 < r.size → P s → P (s.writeWindow r j w)
  reset : ∀ s : State, P s.afterReset
  writes : ∀ {s u : State}, Writes s u → P s → P u

namespace ContentInvariant

variable {P : State → Prop} (hP : ContentInvariant P)
include hP

theorem hostAccess_keeps {q : Request} {s t : State} (h : P s) (ht : hostAccess q s = .next t) : P t := by
  obtain ⟨-, ⟨-, rfl⟩ | ⟨hq, -, rfl⟩ | ⟨-, -, v, u, hu, rfl⟩⟩ := hostAccess_next ht
  · exact hP.same (s.respond_contents _) h
  · refine hP.same (State.respond_contents _ _) ?_
    obtain hsame | ⟨r, j, hj, hw⟩ := s.busWrite_contents (Request.served_aligned hq) q.wdata
    · exact hP.same hsame h
    · rw [hw]
      exact hP.window q.wdata hj h
  · rw [State.busRead_state hu]
    exact hP.same (s := s) ⟨rfl, rfl, rfl, rfl, rfl⟩ h

theorem engineTurn_keeps {s t : State} (h : P s) (ht : engineTurn s = .next t) : P t := by
  obtain ⟨rfl, -⟩ | ⟨-, w, -, hw⟩ := engineTurn_next ht
  · exact h
  · obtain ⟨i, -, hi⟩ | ⟨-, -, rfl⟩ := completion_next hw
    · rw [exec_eq_run] at hi
      obtain ⟨u, hu, rfl⟩ | ⟨e, -, rfl⟩ := runCommand_next hi
      · exact hP.same u.complete_contents (hP.writes (bodyOf_writes hu) h)
      · exact hP.same (s.raise_contents e) h
    · exact hP.same (s.raise_contents _) h

theorem rstInput_keeps {s : State} (h : P s) (level : Bool) : P (rstInput level s) := by
  obtain he | ⟨-, he⟩ | he := rstInput_cases level s <;> rw [he]
  · exact hP.same (s := s) ⟨rfl, rfl, rfl, rfl, rfl⟩ h
  · exact hP.reset s
  · exact h

/-- Every step keeps such a property. -/
theorem step_keeps {s t : State} (h : P s) (ht : step s = .next t) : P t := by
  have hrest (rest : List Event) : P { s with inbox := rest } := hP.same (s := s) ⟨rfl, rfl, rfl, rfl, rfl⟩ h
  obtain ⟨-, he⟩ | ⟨e, rest, -, ⟨-, he⟩ | ⟨q, -, he⟩ | ⟨level, -, rfl⟩⟩ := step_next ht
  · exact hP.engineTurn_keeps h he
  · exact hP.engineTurn_keeps (hrest rest) he
  · exact hP.hostAccess_keeps (hrest rest) he
  · exact hP.rstInput_keeps (hrest rest) level

end ContentInvariant

/-! ### The life cycle -/

/-- Settles O21, by the cases of a step. -/
theorem stepKeepsLifeCycle : Obligations.StepKeepsLifeCycle := fun _ _ h ht => step_lifeCycle h ht

/-! ### The canonical form of the RAMs -/

@[simp] theorem bytesOfWord_length (w : Word) : (bytesOfWord w).length = 4 := rfl

theorem State.writeWindow_memory {s : State} {r : Ram} {j : Nat} (w : Word) (hj : 4 * j + 3 < r.size) (h : s.MemoryInv) :
    (s.writeWindow r j w).MemoryInv :=
  Memory.writeAll_wf _ _ h fun k hk => by
    rw [bytesOfWord_length] at hk
    rw [Nat.add_assoc]
    exact r.isRamOffset_base (by omega)

theorem Writes.memory {s u : State} (h : Writes s u) (hm : s.MemoryInv) : u.MemoryInv := by
  induction h with
  | polyResult s bs hl => exact State.writeRam_wf .pr hm hl
  | divisor s bs hl => exact State.writeRam_wf .pb hm hl
  | assemble s data hd =>
    obtain ⟨hl, hfit⟩ := assembleOperands_stream_length hd
    exact State.writeRam_wf .cw hm (hl ▸ hfit)
  | place s u _ hw =>
    obtain ⟨bs, -, rfl⟩ := matrixPlaceWork_ok_inv hw
    exact hm
  | andThen _ _ ih ih' => exact ih' (ih hm)
  | _ => exact hm

theorem memoryInv_contentInvariant : ContentInvariant State.MemoryInv where
  same hc h := by rwa [State.MemoryInv, hc.ram]
  window w hj h := State.writeWindow_memory w hj h
  reset _ := ⟨.nil, rfl⟩
  writes := Writes.memory

/-- Settles O22: every store of the host or a command goes to entries of one RAM. -/
theorem stepKeepsMemoryForm : Obligations.StepKeepsMemoryForm := fun _ _ => memoryInv_contentInvariant.step_keeps

/-! ### The codewords -/

/-- Every byte written in `s` is written in `t` too. -/
def KeepsWritten (s t : State) : Prop := ∀ a, (Memory.read s.ram a).isSome = true → (Memory.read t.ram a).isSome = true

theorem KeepsWritten.of_ram_eq {s t : State} (h : t.ram = s.ram) : KeepsWritten s t := fun a ha => by rwa [h]

/-- A store unwrites no byte. -/
theorem KeepsWritten.of_writeAll {s t : State} {a : Nat} {bs : List Byte} (h : t.ram = s.ram.writeAll a bs) : KeepsWritten s t := by
  intro x hx
  rw [h, Memory.read_writeAll]
  split
  · next hr => rw [List.getElem?_eq_getElem (by omega)]; rfl
  · exact hx

/-- The codeword invariant lasts while CW_VALID, CW_LEN and CW_CFG stay and no byte is unwritten. -/
theorem State.CodewordInv.of_keepsWritten {s t : State} (h : s.CodewordInv) (hr : KeepsWritten s t)
    (hv : t.status.cwValid = s.status.cwValid) (hl : t.engine.cwLen = s.engine.cwLen) (hc : t.engine.cwCfg = s.engine.cwCfg) :
    t.CodewordInv where
  invalid_zero := by rw [hv, hl, hc]; exact h.invalid_zero
  version_range := by rw [hv, hc]; exact h.version_range
  len_eq := by rw [hv, hl, hc]; exact h.len_eq
  written k hk := hr _ (h.written k (hl ▸ hk))

/-- Without a stream the codeword invariant holds. -/
theorem State.CodewordInv.of_invalid {s : State} (hv : s.status.cwValid = false) (hl : s.engine.cwLen = 0)
    (hc : s.engine.cwCfg = { version := 0, ecl := 0 }) : s.CodewordInv where
  invalid_zero _ := ⟨hl, hc⟩
  version_range h := by rw [hv] at h; cases h
  len_eq h := by rw [hv] at h; cases h
  written k hk := by rw [hl] at hk; cases hk

/-- No version has more than 3706 codewords, the C of version 40 (R51). -/
theorem totalCount_le_all : ((List.range 41).all fun v => [Level.l, .m, .q, .h].all fun e => decide (totalCount v e ≤ 3706)) = true := by
  decide +kernel

theorem totalCount_le {v : Nat} (h : v ≤ 40) (e : Level) : totalCount v e ≤ 3706 := by
  have hv := List.all_eq_true.mp totalCount_le_all v (List.mem_range.mpr (by omega))
  exact of_decide_eq_true (List.all_eq_true.mp hv e (by cases e <;> decide))

/-- ASSEMBLE writes as many bytes of CW as CW_LEN says (R149). -/
theorem assembleWrites_codewords {s : State} {data : List Byte} (h : assembleOperands s = .ok data) :
    (assembleWrites s.host.config data s).CodewordInv := by
  obtain ⟨h1, h2, -, -⟩ := assembleOperands_ok_inv h
  have hlen : (codewordStream s.host.config.version.toNat (levelOf s.host.config.ecl) data).length =
      totalCount s.host.config.version.toNat (levelOf s.host.config.ecl) := by
    rw [(assembleOperands_stream_length h).1, writtenCodewords, checkVersion_ok h1 h2]
  have hreg : (assembleWrites s.host.config data s).engine.cwLen.toNat =
      totalCount s.host.config.version.toNat (levelOf s.host.config.ecl) := by
    have := totalCount_le h2 (levelOf s.host.config.ecl)
    rw [assembleWrites_engine, BitVec.toNat_ofNat, Nat.mod_eq_of_lt (by omega)]
  refine ⟨nofun, fun _ => ⟨h1, h2⟩, fun _ => hreg, fun k hk => ?_⟩
  rw [hreg, ← hlen] at hk
  rw [assembleWrites_ram, Memory.read_writeAll, if_pos (by omega), List.getElem?_eq_getElem (by omega)]
  rfl

theorem Writes.codewords {s u : State} (h : Writes s u) (hc : s.CodewordInv) : u.CodewordInv := by
  induction h with
  | softReset s => exact .of_invalid rfl rfl rfl
  | polyResult s bs _ => exact hc.of_keepsWritten (.of_writeAll rfl) rfl rfl rfl
  | divisor s bs _ => exact hc.of_keepsWritten (.of_writeAll rfl) rfl rfl rfl
  | assemble s data hd => exact assembleWrites_codewords hd
  | place s u _ hw =>
    obtain ⟨bs, -, rfl⟩ := matrixPlaceWork_ok_inv hw
    exact hc.of_keepsWritten (.of_ram_eq rfl) rfl rfl rfl
  | andThen _ _ ih ih' => exact ih' (ih hc)
  | _ => exact hc.of_keepsWritten (.of_ram_eq rfl) rfl rfl rfl

theorem codewordInv_contentInvariant : ContentInvariant State.CodewordInv where
  same hs h := h.of_keepsWritten (.of_ram_eq hs.ram) hs.cwValid (by rw [hs.engine]) (by rw [hs.engine])
  window _ _ h := h.of_keepsWritten (.of_writeAll rfl) rfl rfl rfl
  reset _ := .of_invalid rfl rfl rfl
  writes := Writes.codewords

/-- Settles O23: only ASSEMBLE, ENCODE and a reset write CW_VALID, CW_LEN and CW_CFG, and only a hardware reset unwrites a byte. -/
theorem stepKeepsCodewords : Obligations.StepKeepsCodewords := fun _ _ => codewordInv_contentInvariant.step_keeps

end Sys2Proof.Machine

/-! ## Every step keeps the builder invariant -/

namespace Sys2Proof.Machine

/-! ### Folds that reach a property -/

/-- A property that one step of a fold establishes and every step keeps holds at its end. -/
theorem foldl_reaches {α β : Type} {P : β → Prop} {f : β → α → β} {xs : List α} {x : α} (hx : x ∈ xs) (hset : ∀ b, P (f b x))
    (hkeep : ∀ b y, P b → P (f b y)) (b : β) : P (xs.foldl f b) := by
  obtain ⟨before, rest, rfl⟩ := List.append_of_mem hx
  rw [List.foldl_append, List.foldl_cons]
  exact foldl_keeps (hset _) fun b y _ => hkeep b y

/-! ### Cells of the planes -/

theorem Planes.CellInv.place {p : Planes} {n r c : Nat} (h : p.CellInv n) (hr : r < n) (hc : c < n) (d : Bool) :
    (p.place r c d).CellInv n where
  unassigned_light r' c' ha := by
    rw [place_asgn, Plane.get_set] at ha
    rw [place_darkp, Plane.get_set]
    split at ha
    · cases ha
    · next hne => rw [if_neg hne]; exact h.unassigned_light r' c' ha
  outside_zero r' c' ho := by
    have hne : ¬ (r' = r ∧ c' = c ∧ r < 256 ∧ c < 256) := by omega
    simp only [place_darkp, place_asgn, place_func, Plane.get_set, if_neg hne]
    exact h.outside_zero r' c' ho

theorem Planes.CellInv.reserve {p : Planes} {n r c : Nat} (h : p.CellInv n) (hr : r < n) (hc : c < n) : (p.reserve r c).CellInv n where
  unassigned_light := h.unassigned_light
  outside_zero r' c' ho := by
    have hne : ¬ (r' = r ∧ c' = c ∧ r < 256 ∧ c < 256) := by omega
    simp only [reserve_darkp, reserve_asgn, reserve_func, Plane.get_set, if_neg hne]
    exact h.outside_zero r' c' ho

/-- Setting a function cell places its bit and reserves it. -/
theorem Planes.CellInv.setf {p : Planes} {n r c : Nat} (h : p.CellInv n) (hr : r < n) (hc : c < n) (d : Bool) :
    (p.setf r c d).CellInv n := (h.place hr hc d).reserve hr hc

/-- Without a set bit the plane invariants hold for every side. -/
theorem Planes.zero_cellInv (n : Nat) : Planes.zero.CellInv n where
  unassigned_light _ _ _ := Plane.get_zero _ _
  outside_zero _ _ _ := ⟨Plane.get_zero _ _, Plane.get_zero _ _, Plane.get_zero _ _⟩

/-- Cell (r, c) is assigned. -/
def Assigned (r c : Nat) (p : Planes) : Prop := p.asgn.get r c = true

theorem Planes.setf_assigns (p : Planes) {r c : Nat} (hr : r < 256) (hc : c < 256) (d : Bool) : Assigned r c (p.setf r c d) := by
  rw [Assigned, setf_asgn, Plane.get_set, if_pos ⟨rfl, rfl, hr, hc⟩]

/-- Setting a function cell unassigns none. -/
theorem Assigned.setf {r c : Nat} {p : Planes} (h : Assigned r c p) (r' c' : Nat) (d : Bool) : Assigned r c (p.setf r' c' d) := by
  rw [Assigned, Planes.setf_asgn, Plane.get_set]
  split
  · rfl
  · exact h

/-! ### The function patterns of MATRIX_INIT (R182 to R184) -/

/-- The planes before MATRIX_INIT reserves its cells: every function pattern placed (R181). -/
def patternPlanes (v : Nat) : Planes := placeTiming (side v) (placeAlignments v (placeFinders (side v) Planes.zero))

theorem initialPlanes_eq (v : Nat) :
    initialPlanes v = reserveCells (versionCells v (side v)) (reserveCells (formatCells (side v)) (patternPlanes v)) := rfl

theorem side_le {v : Nat} (h : v ≤ 40) : side v ≤ 177 := by unfold side; omega

theorem mem_intRange {lo hi x : Int} : x ∈ intRange lo hi ↔ lo ≤ x ∧ x ≤ hi := by
  simp only [intRange, List.mem_map, List.mem_range]
  constructor
  · rintro ⟨k, hk, rfl⟩
    omega
  · rintro ⟨h1, h2⟩
    exact ⟨(x - lo).toNat, by omega, by omega⟩

theorem mem_pairs {xs : List Int} {d : Int × Int} : d ∈ pairs xs ↔ d.1 ∈ xs ∧ d.2 ∈ xs := by
  obtain ⟨a, b⟩ := d
  simp [pairs]

/-- No alignment pattern reaches the edge of its matrix (R49, R183). -/
theorem alignPos_inside {v : Nat} (h : v ≤ 40) {a : Nat} (ha : a ∈ alignPos v) : a + 2 < side v := by
  have hall : ((List.range 41).all fun v => (alignPos v).all fun a => decide (a + 2 < side v)) = true := by decide +kernel
  exact of_decide_eq_true (List.all_eq_true.mp (List.all_eq_true.mp hall v (List.mem_range.mpr (by omega))) a ha)

/-- Set a function cell that is not yet assigned (R184). -/
def setIfFree (p : Planes) (r c : Nat) (d : Bool) : Planes := if p.asgn.get r c then p else p.setf r c d

theorem placeTimingCell_eq (p : Planes) (i : Nat) :
    placeTimingCell p i = setIfFree (setIfFree p 6 i (i % 2 == 0)) i 6 (i % 2 == 0) := rfl

theorem setIfFree_assigns (p : Planes) {r c : Nat} (hr : r < 256) (hc : c < 256) (d : Bool) : Assigned r c (setIfFree p r c d) := by
  unfold setIfFree
  split
  · next h => exact h
  · exact p.setf_assigns hr hc d

/-- Setting any cell of a matrix of side `n` as a function cell keeps `P`. -/
def KeptBySetf (n : Nat) (P : Planes → Prop) : Prop := ∀ q r c d, r < n → c < n → P q → P (q.setf r c d)

theorem cellInv_keptBySetf (n : Nat) : KeptBySetf n fun q => q.CellInv n := fun _ _ _ d hr hc h => h.setf hr hc d

theorem assigned_keptBySetf (n r c : Nat) : KeptBySetf n (Assigned r c) := fun _ r' c' d _ _ h => h.setf r' c' d

section PatternsKeep

/-! What setting any cell of the matrix as a function cell keeps, the function patterns keep. -/

variable {P : Planes → Prop} {n : Nat} (hs : KeptBySetf n P)
include hs

theorem placeFinderCell_keeps (r0 c0 : Nat) (d : Int × Int) {q : Planes} (h : P q) : P (placeFinderCell n r0 c0 q d) := by
  unfold placeFinderCell
  dsimp only
  split
  · exact hs _ _ _ _ (by omega) (by omega) h
  · exact h

theorem placeFinders_keeps {q : Planes} (h : P q) : P (placeFinders n q) :=
  foldl_keeps h fun _ o _ h => foldl_keeps h fun _ d _ h => placeFinderCell_keeps hs o.1 o.2 d h

theorem setIfFree_keeps {r c : Nat} (hr : r < n) (hc : c < n) (d : Bool) {q : Planes} (h : P q) : P (setIfFree q r c d) := by
  unfold setIfFree
  split
  · exact h
  · exact hs _ _ _ _ hr hc h

theorem placeTimingCell_keeps {i : Nat} (hi : i < n) (h6 : 6 < n) {q : Planes} (h : P q) : P (placeTimingCell q i) :=
  setIfFree_keeps hs hi h6 _ (setIfFree_keeps hs h6 hi _ h)

theorem placeTiming_keeps {q : Planes} (h : P q) : P (placeTiming n q) := by
  refine foldl_keeps h fun _ i hi h => ?_
  obtain ⟨k, hk, rfl⟩ := List.mem_map.mp hi
  have hk := List.mem_range.mp hk
  exact placeTimingCell_keeps hs (by omega) (by omega) h

theorem placeAlignment_keeps {o : Nat × Nat} (h1 : o.1 + 2 < n) (h2 : o.2 + 2 < n) {q : Planes} (h : P q) : P (placeAlignment q o) := by
  unfold placeAlignment
  split
  · exact h
  · refine foldl_keeps h fun _ d hd h => ?_
    obtain ⟨hd1, hd2⟩ := mem_pairs.mp hd
    have hd1 := mem_intRange.mp hd1
    have hd2 := mem_intRange.mp hd2
    exact hs _ _ _ _ (by omega) (by omega) h

end PatternsKeep

theorem placeAlignments_keeps {P : Planes → Prop} {v : Nat} (hv : v ≤ 40) (hs : KeptBySetf (side v) P) {q : Planes} (h : P q) :
    P (placeAlignments v q) := by
  refine foldl_keeps h fun _ o ho h => ?_
  obtain ⟨a, ha, ho⟩ := List.mem_flatMap.mp ho
  obtain ⟨b, hb, rfl⟩ := List.mem_map.mp ho
  exact placeAlignment_keeps hs (alignPos_inside hv ha) (alignPos_inside hv hb) h

theorem patternPlanes_keeps {P : Planes → Prop} {v : Nat} (hv : v ≤ 40) (hs : KeptBySetf (side v) P) (h : P Planes.zero) :
    P (patternPlanes v) :=
  placeTiming_keeps hs (placeAlignments_keeps hv hs (placeFinders_keeps hs h))

theorem patternPlanes_cells {v : Nat} (hv : v ≤ 40) : (patternPlanes v).CellInv (side v) :=
  patternPlanes_keeps hv (cellInv_keptBySetf _) (Planes.zero_cellInv _)

/-- The cells of the function patterns are assigned and are function cells. -/
theorem patternPlanes_func {v : Nat} (hv : v ≤ 40) : (patternPlanes v).func = (patternPlanes v).asgn :=
  patternPlanes_keeps (P := fun q => q.func = q.asgn) hv
    (fun _ r c _ _ _ h => congrArg (Plane.set · r c true) h) rfl

/-! ### The layout MATRIX_INIT leaves -/

theorem reserveCells_cells {cells : List (Nat × Nat)} {p : Planes} {n : Nat} (hc : ∀ x ∈ cells, x.1 < n ∧ x.2 < n) (h : p.CellInv n) :
    (reserveCells cells p).CellInv n :=
  foldl_keeps (P := fun q : Planes => q.CellInv n) h fun _ x hx h => h.reserve (hc x hx).1 (hc x hx).2

theorem initialPlanes_cells {v : Nat} (h1 : 1 ≤ v) (h2 : v ≤ 40) : (initialPlanes v).CellInv (side v) := by
  rw [initialPlanes_eq]
  exact reserveCells_cells (fun x hx => mem_reservedCells_lt h1 (List.mem_append_right _ hx))
    (reserveCells_cells (fun x hx => mem_reservedCells_lt h1 (List.mem_append_left _ hx)) (patternPlanes_cells h2))

/-- The function cells are those assigned by the patterns and the reserved ones (R185, R186). -/
theorem initialPlanes_func {v : Nat} (h1 : 1 ≤ v) (h2 : v ≤ 40) (r c : Nat) :
    (initialPlanes v).func.get r c = ((initialPlanes v).asgn.get r c || (reservedCells v (side v)).contains (r, c)) := by
  by_cases hm : (r, c) ∈ reservedCells v (side v)
  · rw [initialPlanes_func_reserved h1 h2 hm, List.contains_iff_mem.mpr hm, Bool.or_true]
  · obtain ⟨hf, hv⟩ := not_or.mp (mt List.mem_append.mpr hm)
    rw [initialPlanes_eq, reserveCells_func, reserveCells_func, reserveCells_asgn, reserveCells_asgn, patternPlanes_func h2]
    simp [hm, hf, hv]

/-- A cell of a finder pattern or its separator inside the matrix is assigned (R182). -/
theorem placeFinders_assigns {n r c : Nat} (hr : r < n) (hc : c < n) (hn : n ≤ 256) {o : Nat × Nat} (ho : o ∈ finderCorners n)
    (hr1 : o.1 ≤ r + 1) (hr2 : r ≤ o.1 + 7) (hc1 : o.2 ≤ c + 1) (hc2 : c ≤ o.2 + 7) (p : Planes) : Assigned r c (placeFinders n p) := by
  have hkeep (o : Nat × Nat) (q : Planes) (d : Int × Int) (h : Assigned r c q) : Assigned r c (placeFinderCell n o.1 o.2 q d) :=
    placeFinderCell_keeps (assigned_keptBySetf _ _ _) o.1 o.2 d h
  refine foldl_reaches (P := Assigned r c) ho (fun q => ?_) (fun q o h => foldl_keeps h fun q d _ => hkeep o q d) p
  refine foldl_reaches (P := Assigned r c) (x := ((r : Int) - o.1, (c : Int) - o.2))
    (mem_pairs.mpr ⟨mem_intRange.mpr (by omega), mem_intRange.mpr (by omega)⟩) (fun q => ?_) (hkeep o) q
  have hcell : ((o.1 : Int) + ((r : Int) - o.1)).toNat = r ∧ ((o.2 : Int) + ((c : Int) - o.2)).toNat = c := by omega
  unfold placeFinderCell
  dsimp only
  rw [if_pos (by omega), hcell.1, hcell.2]
  exact q.setf_assigns (by omega) (by omega) _

/-- The cells of the vertical timing pattern are assigned (R184). -/
theorem placeTiming_assigns {n r : Nat} (h1 : 8 ≤ r) (h2 : r + 8 < n) (hn : n ≤ 256) (p : Planes) : Assigned r 6 (placeTiming n p) := by
  have hx : r ∈ timingIndices n := List.mem_map.mpr ⟨r - 8, List.mem_range.mpr (by omega), by omega⟩
  have hkeep (q : Planes) (a b : Nat) (d : Bool) (h : Assigned r 6 q) : Assigned r 6 (setIfFree q a b d) :=
    setIfFree_keeps (n := max (a + 1) (b + 1)) (assigned_keptBySetf _ _ _) (by omega) (by omega) d h
  unfold placeTiming
  refine foldl_reaches hx (fun q => ?_) (fun q i h => ?_) p <;> rw [placeTimingCell_eq]
  · exact setIfFree_assigns _ (by omega) (by omega) _
  · exact hkeep _ _ _ _ (hkeep _ _ _ _ h)

/-- Column 6 has no data cell: its rows are in the two left finder patterns and on the timing pattern between them (R189). -/
theorem patternPlanes_column6 {v r : Nat} (hv : v ≤ 40) (hr : r < side v) : Assigned r 6 (patternPlanes v) := by
  have hside := side_le hv
  have h17 : 17 ≤ side v := by unfold side; omega
  have hfinder {o : Nat × Nat} (ho : o ∈ finderCorners (side v)) (h1 : o.1 ≤ r + 1) (h2 : r ≤ o.1 + 7) (h0 : o.2 = 0) :
      Assigned r 6 (patternPlanes v) := by
    have hkeep := assigned_keptBySetf (side v) r 6
    exact placeTiming_keeps hkeep (placeAlignments_keeps hv hkeep
      (placeFinders_assigns hr (by omega) (by omega) ho h1 h2 (by omega) (by omega) _))
  by_cases hlow : r ≤ 7
  · exact hfinder (o := (0, 0)) (by simp [finderCorners]) (by omega) (by omega) rfl
  · by_cases hhigh : side v ≤ r + 8
    · exact hfinder (o := (side v - 7, 0)) (by simp [finderCorners]) (by dsimp only; omega) (by dsimp only; omega) rfl
    · exact placeTiming_assigns (by omega) (by omega) (by omega) _

theorem initialPlanes_column6 {v r : Nat} (h1 : 1 ≤ v) (h2 : v ≤ 40) (hr : r < side v) : (initialPlanes v).func.get r 6 = true := by
  have h : (initialPlanes v).asgn.get r 6 = true := by
    rw [initialPlanes_eq, reserveCells_asgn, reserveCells_asgn]
    exact patternPlanes_column6 h2 hr
  rw [initialPlanes_func h1 h2, h, Bool.true_or]

end Sys2Proof.Machine

namespace Sys2Proof.Machine

/-! ### The placement order visits every data cell outside column 6 (R189) -/

/-- Of an even column pair start above column 6, or an odd one below it, every column up to it but column 6 is in a pair. -/
theorem exists_pairColumn {k col c : Nat} (hk : col ≤ 2 * k) (hcol : (6 ≤ col ∧ col % 2 = 0) ∨ (col < 6 ∧ col % 2 = 1)) (hc : c ≤ col)
    (h6 : c ≠ 6) : ∃ d ∈ pairColumns k col, c = d ∨ c = d - 1 := by
  induction k generalizing col with
  | zero => omega
  | succ k ih =>
    unfold pairColumns
    rw [if_neg (by omega)]
    dsimp only
    generalize hd : (if col = 6 then 5 else col) = d
    have hd : (col = 6 ∧ d = 5) ∨ (col ≠ 6 ∧ d = col) := by split at hd <;> omega
    by_cases hhere : c = d ∨ c = d - 1
    · exact ⟨d, List.mem_cons_self, hhere⟩
    · obtain ⟨e, he, hce⟩ := ih (col := d - 2) (by omega) (by omega) (by omega)
      exact ⟨e, List.mem_cons_of_mem _ he, hce⟩

theorem mem_sweepCells_of {n r c d : Nat} (up : Bool) (hr : r < n) (hc : c = d ∨ c = d - 1) : (r, c) ∈ sweepCells n up d := by
  refine List.mem_flatMap.mpr ⟨r, ?_, by simpa using hc⟩
  cases up <;> simpa [sweepRows] using hr

theorem mem_sweeps_of {n r c d : Nat} {cols : List Nat} (up : Bool) (hd : d ∈ cols) (hr : r < n) (hc : c = d ∨ c = d - 1) :
    (r, c) ∈ sweeps n up cols := by
  induction cols generalizing up with
  | nil => cases hd
  | cons col rest ih =>
    rcases List.mem_cons.mp hd with rfl | hd
    · exact List.mem_append_left _ (mem_sweepCells_of up hr hc)
    · exact List.mem_append_right _ (ih (!up) hd)

theorem mem_placementOrder_of {n r c : Nat} {func : Plane} (hodd : n % 2 = 1) (h7 : 7 ≤ n) (hr : r < n) (hc : c < n) (h6 : c ≠ 6)
    (hf : func.get r c = false) : (r, c) ∈ placementOrder n func := by
  obtain ⟨d, hd, hcd⟩ := exists_pairColumn (k := n) (col := n - 1) (by omega) (by omega) (by omega) h6
  exact List.mem_filter.mpr ⟨mem_sweeps_of true hd hr hcd, by simp [hf]⟩

/-- Under the layout of a version, the placement order holds exactly the data cells of the matrix. -/
theorem mem_placementOrder_layout {v r c : Nat} {func : Plane} (h1 : 1 ≤ v) (h2 : v ≤ 40)
    (hf : ∀ r c, func.get r c = (initialPlanes v).func.get r c) :
    (r, c) ∈ placementOrder (side v) func ↔ r < side v ∧ c < side v ∧ (initialPlanes v).func.get r c = false := by
  constructor
  · intro hm
    obtain ⟨hr, hc, hn⟩ := mem_placementOrder hm
    exact ⟨hr, hc, hf r c ▸ hn⟩
  · rintro ⟨hr, hc, hn⟩
    have h6 : c ≠ 6 := by
      rintro rfl
      rw [initialPlanes_column6 h1 h2 hr] at hn
      cases hn
    exact mem_placementOrder_of (by unfold side; omega) (by unfold side; omega) hr hc h6 (hf r c ▸ hn)

/-! ### What the builder's commands do to the cells -/

theorem placeBits_cells {cells : List (Nat × Nat)} {n : Nat} (hc : ∀ x ∈ cells, x.1 < n ∧ x.2 < n) (bits : List Bool) {p : Planes}
    (h : p.CellInv n) : (placeBits cells bits p).CellInv n := by
  induction cells generalizing bits p with
  | nil => exact h
  | cons x rest ih =>
    obtain ⟨⟨hr, hcol⟩, hrest⟩ := List.forall_mem_cons.mp hc
    cases bits <;> exact ih hrest _ (h.place hr hcol _)

/-- Writing a word's bits assigns both cells of every bit. -/
theorem writeBits_assigns {k i r c : Nat} {pos1 pos2 : Nat → Nat × Nat} (w : Nat) (hi : i < k) (hx : pos1 i = (r, c) ∨ pos2 i = (r, c))
    (hr : r < 256) (hc : c < 256) (p : Planes) : Assigned r c (writeBits k pos1 pos2 w p) := by
  unfold writeBits
  refine foldl_reaches (List.mem_range.mpr hi) (fun q => ?_) (fun q j h => (h.setf _ _ _).setf _ _ _) p
  dsimp only
  rcases hx with hx | hx <;> rw [hx]
  · exact (Planes.setf_assigns _ hr hc _).setf _ _ _
  · exact Planes.setf_assigns _ hr hc _

theorem writeBits_keeps_assigned {k r c : Nat} {pos1 pos2 : Nat → Nat × Nat} (w : Nat) {p : Planes} (h : Assigned r c p) :
    Assigned r c (writeBits k pos1 pos2 w p) :=
  writeBits_keeps w h (fun _ _ _ d h => h.setf _ _ d) fun _ _ _ d h => h.setf _ _ d

/-- WRITE_META assigns every reserved cell (R197 to R199). -/
theorem metaPlanes_assigns {s : State} {r c : Nat} (h : (r, c) ∈ reservedCells s.engine.mtxCfg.version.toNat s.matrixSide)
    (hr : r < 256) (hc : c < 256) : Assigned r c (metaPlanes s) := by
  unfold metaPlanes
  dsimp only
  rcases List.mem_append.mp h with hf | hv
  · have hformat : Assigned r c ((writeBits 15 (fpos1 s.matrixSide) (fpos2 s.matrixSide) (metaFormat s).toNat s.planes).setf
        (darkModule s.matrixSide).1 (darkModule s.matrixSide).2 true) := by
      simp only [formatCells, List.mem_append, List.mem_map, List.mem_range, List.mem_singleton] at hf
      rcases hf with (⟨i, hi, hx⟩ | ⟨i, hi, hx⟩) | hx
      · exact (writeBits_assigns _ hi (.inl hx) hr hc _).setf _ _ _
      · exact (writeBits_assigns _ hi (.inr hx) hr hc _).setf _ _ _
      · rw [← hx]
        exact Planes.setf_assigns _ hr hc _
    split
    · exact writeBits_keeps_assigned _ hformat
    · exact hformat
  · unfold versionCells at hv
    split at hv
    · next h7 =>
      rw [if_pos h7]
      simp only [List.mem_append, List.mem_map, List.mem_range] at hv
      rcases hv with ⟨i, hi, hx⟩ | ⟨i, hi, hx⟩
      · exact writeBits_assigns _ hi (.inl hx) hr hc _
      · exact writeBits_assigns _ hi (.inr hx) hr hc _
    · cases hv

/-! ### The builder invariant -/

/-- The builder invariant speaks of BSTATE, MTX_CFG, APPLIED_VALID and the planes only. -/
theorem State.BuilderInv.of_eq {s t : State} (h : s.BuilderInv) (hb : t.status.bstate = s.status.bstate)
    (hm : t.engine.mtxCfg = s.engine.mtxCfg) (ha : t.engine.mask.appliedValid = s.engine.mask.appliedValid) (hp : t.planes = s.planes) :
    t.BuilderInv where
  empty_zero := by rw [hb, hm, hp]; exact h.empty_zero
  version_range := by rw [hb, hm]; exact h.version_range
  side_eq := by rw [hb, hm]; exact h.side_eq
  cells := by rw [State.matrixSide, hm, hp]; exact h.cells
  func_layout := by rw [hb, hm, hp]; exact h.func_layout
  asgn_layout := by rw [hb, State.matrixSide, hm, hp]; exact h.asgn_layout
  applied_valid := by rw [ha, hb]; exact h.applied_valid

/-- In Empty the builder invariant says that there is no matrix (R221, R270). -/
theorem State.BuilderInv.of_empty {s : State} (hb : s.status.bstate = .empty)
    (hm : s.engine.mtxCfg = { version := 0, ecl := 0, side := 0 }) (ha : s.engine.mask.appliedValid = false) (hp : s.planes = Planes.zero) :
    s.BuilderInv where
  empty_zero _ := ⟨hm, hp⟩
  version_range h := absurd hb h
  side_eq h := absurd hb h
  cells := hp ▸ Planes.zero_cellInv _
  func_layout h := absurd hb h
  asgn_layout h := absurd hb h
  applied_valid := by rw [ha, hb]; rfl

/-- MATRIX_INIT establishes the builder invariant, whatever was there (R181). -/
theorem matrixInitWrites_builder (s : State) {cfg : VersionLevel} (h1 : 1 ≤ cfg.version.toNat) (h2 : cfg.version.toNat ≤ 40) :
    (matrixInitWrites cfg s).BuilderInv := by
  have hside : (matrixInitWrites cfg s).matrixSide = side cfg.version.toNat := by
    have := side_le h2
    rw [State.matrixSide, matrixInitWrites_engine, BitVec.toNat_ofNat, Nat.mod_eq_of_lt (by omega)]
  exact {
    empty_zero := nofun
    version_range := fun _ => ⟨h1, h2⟩
    side_eq := fun _ => hside
    cells := hside ▸ initialPlanes_cells h1 h2
    func_layout := fun _ _ _ => rfl
    asgn_layout := fun _ _ _ => rfl
    applied_valid := rfl }

/-- How a command on the matrix carries the builder invariant on: the matrix and its function cells stay, and the cells assigned are those of the
builder state it leaves. -/
theorem State.BuilderInv.advance {s t : State} (h : s.BuilderInv) (hb : s.status.bstate ≠ .empty) (hb' : t.status.bstate ≠ .empty)
    (hm : t.engine.mtxCfg = s.engine.mtxCfg) (hcells : t.planes.CellInv s.matrixSide)
    (hfunc : ∀ r c, t.planes.func.get r c = s.planes.func.get r c)
    (hasgn : ∀ r c, t.planes.asgn.get r c =
      t.status.bstate.assigned (initialPlanes s.engine.mtxCfg.version.toNat) s.matrixSide r c)
    (ha : t.engine.mask.appliedValid = t.status.bstate.hasMask) : t.BuilderInv where
  empty_zero he := absurd he hb'
  version_range _ := hm ▸ h.version_range hb
  side_eq _ := hm ▸ h.side_eq hb
  cells := by rw [State.matrixSide, hm]; exact hcells
  func_layout _ r c := by rw [hm, hfunc, h.func_layout hb]
  asgn_layout _ r c := by rw [State.matrixSide, hm]; exact hasgn r c
  applied_valid := ha

/-- MATRIX_PLACE assigns the data cells (R188, R189). -/
theorem matrixPlaceWork_builder {s u : State} (h : s.BuilderInv) (hb : s.status.bstate = .functionPatternsPlaced)
    (hw : matrixPlaceWork s = .ok u) : u.BuilderInv := by
  have hne : s.status.bstate ≠ .empty := by rw [hb]; decide
  obtain ⟨h1, h2⟩ := h.version_range hne
  have hside : s.matrixSide = side s.engine.mtxCfg.version.toNat := h.side_eq hne
  have hle := side_le h2
  obtain ⟨bs, -, rfl⟩ := matrixPlaceWork_ok_inv hw
  refine h.advance hne (by simp) rfl ?_ (fun r c => by rw [placeBits_func]) (fun r c => ?_) (by rw [h.applied_valid, hb]; rfl)
  · exact placeBits_cells (fun x hx => ⟨(mem_placementOrder hx).1, (mem_placementOrder hx).2.1⟩) _ h.cells
  · have hmem : (r, c) ∈ placementOrder s.engine.mtxCfg.side.toNat s.planes.func ↔
        r < s.matrixSide ∧ c < s.matrixSide ∧ (initialPlanes s.engine.mtxCfg.version.toNat).func.get r c = false := by
      rw [← State.matrixSide, hside]
      exact mem_placementOrder_layout h1 h2 (h.func_layout hne)
    rw [placeBits_asgn, h.asgn_layout hne, hb, BState.assigned, BState.assigned, Bool.eq_iff_iff]
    simp only [Bool.or_eq_true, Bool.and_eq_true, decide_eq_true_eq, Bool.not_eq_true', List.contains_iff_mem, hmem, and_assoc]
    exact or_congr Iff.rfl
      ⟨fun ⟨hr, hc, hf, _⟩ => ⟨hr, hc, hf⟩, fun ⟨hr, hc, hf⟩ => ⟨hr, hc, hf, by omega, by omega⟩⟩

/-- In DataPlaced every data cell is assigned. -/
theorem State.BuilderInv.assigned_dataCell {s : State} (h : s.BuilderInv) (hb : s.status.bstate = .dataPlaced) {r c : Nat}
    (hd : s.isDataCell r c = true) : s.planes.asgn.get r c = true := by
  have hne : s.status.bstate ≠ .empty := by rw [hb]; decide
  obtain ⟨hr, hc, hf⟩ := (s.isDataCell_iff r c).mp hd
  rw [h.func_layout hne] at hf
  rw [h.asgn_layout hne, hb, BState.assigned, decide_eq_true hr, decide_eq_true hc, hf]
  simp

/-- Masking changes DARKP of assigned data cells only (R174). -/
theorem applyMask_builder {s : State} (h : s.BuilderInv) (hb : s.status.bstate = .dataPlaced) (p : Nat) : (applyMask p s).BuilderInv := by
  have hne : s.status.bstate ≠ .empty := by rw [hb]; decide
  have hdark {r c : Nat} (hd : s.isDataCell r c = false) : (applyMask p s).planes.darkp.get r c = s.planes.darkp.get r c :=
    applyMask_cells p (id := .darkp) (by rw [writesCell, hd]; rfl)
  have hasgn : (applyMask p s).planes.asgn = s.planes.asgn := by rw [applyMask_planes]
  have hfunc : (applyMask p s).planes.func = s.planes.func := by rw [applyMask_planes]
  refine h.advance hne (by simp) rfl ⟨fun r c ha => ?_, fun r c ho => ?_⟩ (fun _ _ => by rw [hfunc]) (fun r c => ?_) rfl
  · rw [hasgn] at ha
    have hd : s.isDataCell r c = false := Bool.eq_false_iff.mpr fun hd => Bool.eq_false_iff.mp ha (h.assigned_dataCell hb hd)
    rw [hdark hd, h.cells.unassigned_light r c ha]
  · have hd : s.isDataCell r c = false := by
      rw [← Bool.not_eq_true, s.isDataCell_iff]
      omega
    rw [hdark hd, hasgn, hfunc]
    exact h.cells.outside_zero r c ho
  · rw [hasgn, h.asgn_layout hne, hb]
    rfl

/-- WRITE_META assigns the reserved cells, and with them every cell of the matrix (R196). -/
theorem writeMetaWrites_builder {s : State} (h : s.BuilderInv) (hb : s.status.bstate = .masked) : (writeMetaWrites s).BuilderInv := by
  have hne : s.status.bstate ≠ .empty := by rw [hb]; decide
  obtain ⟨h1, h2⟩ := h.version_range hne
  have hside : s.matrixSide = side s.engine.mtxCfg.version.toNat := h.side_eq hne
  have hle := side_le h2
  have hreserved {x : Nat × Nat} (hx : x ∈ reservedCells s.engine.mtxCfg.version.toNat s.matrixSide) :
      x.1 < s.matrixSide ∧ x.2 < s.matrixSide := hside ▸ mem_reservedCells_lt h1 (hside ▸ hx)
  refine h.advance hne (by simp) rfl ?_ (fun r c => ?_) (fun r c => ?_) (by rw [writeMetaWrites_engine, h.applied_valid, hb]; rfl)
  · exact metaPlanes_keeps (P := fun q => q.CellInv s.matrixSide) h.cells fun x hx q d hq => hq.setf (hreserved hx).1 (hreserved hx).2 d
  · exact metaPlanes_func (fun x hx => ((s.isReservedCell_iff x.1 x.2).mp (h.isReservedCell hne hx)).2.2.1) r c
  · rw [writeMetaWrites_planes, writeMetaWrites_status, BState.assigned]
    by_cases hm : (r, c) ∈ reservedCells s.engine.mtxCfg.version.toNat s.matrixSide
    · obtain ⟨hr, hc⟩ := hreserved hm
      rw [decide_eq_true hr, decide_eq_true hc]
      exact metaPlanes_assigns hm (by omega) (by omega)
    · have hfunc := initialPlanes_func h1 h2 r c
      rw [← hside, List.contains_eq_mem, decide_eq_false hm, Bool.or_false] at hfunc
      have hasgn : (metaPlanes s).asgn.get r c = s.planes.asgn.get r c := metaPlanes_outside hm .asgn
      rw [hasgn, h.asgn_layout hne, hb, BState.assigned, hfunc]
      by_cases hin : r < s.matrixSide ∧ c < s.matrixSide
      · simp [hin.1, hin.2]
      · have hout := ((initialPlanes_cells h1 h2).outside_zero r c (by omega)).2.1
        rw [hout]
        simp

theorem finalizeWrites_builder {s : State} (h : s.BuilderInv) (hb : s.status.bstate = .metadataWritten) : (finalizeWrites s).BuilderInv := by
  have hne : s.status.bstate ≠ .empty := by rw [hb]; decide
  exact h.advance hne (by simp) rfl h.cells (fun _ _ => rfl) (fun r c => (h.asgn_layout hne r c).trans (by rw [hb]; rfl))
    (h.applied_valid.trans (by rw [hb]; rfl))

theorem Writes.builder {s u : State} (h : Writes s u) (hi : s.BuilderInv) : u.BuilderInv := by
  induction h with
  | softReset s => exact .of_empty rfl rfl rfl rfl
  | init s cfg h1 h2 => exact matrixInitWrites_builder s h1 h2
  | place s u hb hw => exact matrixPlaceWork_builder hi hb hw
  | mask s p hb => exact applyMask_builder hi hb p
  | metadata s hb => exact writeMetaWrites_builder hi hb
  | finalize s hb => exact finalizeWrites_builder hi hb
  | andThen _ _ ih ih' => exact ih' (ih hi)
  | _ => exact hi.of_eq rfl rfl rfl rfl

theorem builderInv_contentInvariant : ContentInvariant State.BuilderInv where
  same hs h := h.of_eq hs.bstate (by rw [hs.engine]) (by rw [hs.engine]) hs.planes
  window _ _ h := h.of_eq rfl rfl rfl rfl
  reset _ := .of_empty rfl rfl rfl rfl
  writes := Writes.builder

/-- Settles O24: MATRIX_INIT establishes the layout, and each later command of the builder assigns the cells its state asks for. -/
theorem stepKeepsBuilder : Obligations.StepKeepsBuilder := fun _ _ => builderInv_contentInvariant.step_keeps

end Sys2Proof.Machine

/-! ## Reads and writes of registers -/

namespace Sys2Proof.Machine

/-! ### Words by their fields -/

theorem extractLsb'_one_eq (w : Word) (i : Nat) : w.extractLsb' i 1 = bit (w.getLsbD i) := by
  ext j hj
  obtain rfl : j = 0 := by omega
  simp [bit]

/-- A field in the low bits of a register holds those bits of the word written. -/
theorem extractLsb'_setWidth_eq_and {n : Nat} (w : Word) : (w.extractLsb' 0 n).setWidth 32 = w &&& BitVec.ofNat 32 (2 ^ n - 1) := by
  refine BitVec.eq_of_getLsbD_eq fun i hi => ?_
  rw [BitVec.getLsbD_setWidth, BitVec.getLsbD_extractLsb', BitVec.getLsbD_and, BitVec.getLsbD_ofNat, Nat.testBit_two_pow_sub_one,
    decide_eq_true hi, Nat.zero_add, Bool.true_and, Bool.true_and, Bool.and_comm]

/-- A word, cut at the fields of CONFIG (R25). -/
theorem word_configFields (w : Word) :
    w = (w.extractLsb' 10 22 ++ w.extractLsb' 8 2 ++ w.extractLsb' 6 2 ++ w.extractLsb' 0 6 : BitVec 32) := by
  iterate 3 rw [BitVec.extractLsb'_append_extractLsb'_eq_extractLsb' (by rfl)]
  exact BitVec.extractLsb'_eq_self.symm

/-- A word, cut at the fields of IRQ_EN (R27). -/
theorem word_irqEnFields (w : Word) :
    w = (w.extractLsb' 3 29 ++ bit (w.getLsbD 2) ++ bit (w.getLsbD 1) ++ bit (w.getLsbD 0) : BitVec 32) := by
  simp only [← extractLsb'_one_eq]
  iterate 3 rw [BitVec.extractLsb'_append_extractLsb'_eq_extractLsb' (by rfl)]
  exact BitVec.extractLsb'_eq_self.symm

/-- A word, cut at the fields of STATUS (R24). -/
theorem word_statusFields (w : Word) :
    w = (w.extractLsb' 24 8 ++ w.extractLsb' 16 8 ++ w.extractLsb' 12 4 ++ w.extractLsb' 11 1 ++ w.extractLsb' 8 3
      ++ w.extractLsb' 7 1 ++ w.extractLsb' 4 3 ++ bit (w.getLsbD 3) ++ bit (w.getLsbD 2) ++ bit (w.getLsbD 1)
      ++ bit (w.getLsbD 0) : BitVec 32) := by
  simp only [← extractLsb'_one_eq]
  iterate 10 rw [BitVec.extractLsb'_append_extractLsb'_eq_extractLsb' (by rfl)]
  exact BitVec.extractLsb'_eq_self.symm

theorem VersionLevel.word_written (w : Word) :
    VersionLevel.word { version := w.extractLsb' 0 6, ecl := w.extractLsb' 8 2 } = w &&& 0x33F#32 := by
  conv =>
    rhs
    rw [word_configFields w,
      show 0x33F#32 = (0#22 ++ BitVec.allOnes 2 ++ 0#2 ++ BitVec.allOnes 6 : BitVec 32) from rfl, BitVec.and_append]
  simp only [BitVec.and_append, BitVec.and_zero, BitVec.and_allOnes, word]

theorem IrqEnable.word_written (w : Word) :
    IrqEnable.word { doneIe := w.getLsbD 0, errIe := w.getLsbD 1, ovrIe := w.getLsbD 2 } = w &&& 0x7#32 := by
  conv =>
    rhs
    rw [word_irqEnFields w,
      show 0x7#32 = (0#29 ++ BitVec.allOnes 1 ++ BitVec.allOnes 1 ++ BitVec.allOnes 1 : BitVec 32) from rfl, BitVec.and_append]
  simp only [BitVec.and_append, BitVec.and_zero, BitVec.and_allOnes, word]

/-- The W1C bits of STATUS are DONE, ERR and OVR, bits 3:1 (R24). -/
theorem statusWord_cleared (t : Status) (w : Word) : statusWord (t.cleared w) = statusWord t &&& ~~~(w &&& 0x0000000E#32) := by
  have hmask : ~~~(w &&& 0x0000000E#32) = (BitVec.allOnes 8 ++ BitVec.allOnes 8 ++ BitVec.allOnes 4 ++ BitVec.allOnes 1
      ++ BitVec.allOnes 3 ++ BitVec.allOnes 1 ++ BitVec.allOnes 3 ++ bit (!w.getLsbD 3) ++ bit (!w.getLsbD 2) ++ bit (!w.getLsbD 1)
      ++ BitVec.allOnes 1 : BitVec 32) := by
    conv =>
      lhs
      rw [word_statusFields w,
        show 0x0000000E#32 = (0#8 ++ 0#8 ++ 0#4 ++ 0#1 ++ 0#3 ++ 0#1 ++ 0#3 ++ BitVec.allOnes 1 ++ BitVec.allOnes 1
          ++ BitVec.allOnes 1 ++ 0#1 : BitVec 32) from rfl, BitVec.and_append, BitVec.not_append]
    simp only [BitVec.and_append, BitVec.not_append, BitVec.and_zero, BitVec.and_allOnes, BitVec.not_zero, BitVec.not_ofBool]
  rw [hmask, statusWord_and]
  simp only [BitVec.and_allOnes, BitVec.ofBool_and_ofBool]
  rfl

/-! ### Accesses at a register's offset -/

theorem Reg.offset_aligned (r : Reg) : r.offset % 4 = 0 := by
  cases r with
  | pen m k => cases k <;> simp only [Reg.offset, PenKind.offset] <;> omega
  | _ => rfl

/-- An aligned access of size 4 is served (R62). -/
theorem served_of_aligned {o : Nat} (h : o % 4 = 0) (w : Word) : (readAt o).served = true ∧ (writeAt o w).served = true := by
  have ha : (BitVec.ofNat 16 o).extractLsb' 0 2 = 0 := by
    apply BitVec.eq_of_toNat_eq
    simp
    omega
  simp [Request.served, readAt, writeAt, ha]

/-- While idle a read at a register's offset answers the register's value. -/
theorem hostAccess_readReg {s : State} (hi : s.Idle) (r : Reg) :
    hostAccess (readAt r.offset) s = .next (s.respond (.read (s.readReg r) false)) := by
  have ho : (readAt r.offset).addr.toNat = r.offset := Nat.mod_eq_of_lt (Nat.lt_trans r.offset_lt (by decide))
  have hread : s.busRead r.offset = .ok (s.readReg r, s) := State.busRead_idle hi.1 (by rw [locate_offset]; rfl)
  rw [hostAccess, hi.2, (served_of_aligned r.offset_aligned 0).1, ho, hread]
  rfl

/-- While idle a write at a register's offset is the write of the register. -/
theorem hostAccess_writeReg {s : State} (hi : s.Idle) (r : Reg) (w : Word) :
    hostAccess (writeAt r.offset w) s = .next ((s.writeReg r w).respond (.write false)) := by
  have ho : (writeAt r.offset w).addr.toNat = r.offset := Nat.mod_eq_of_lt (Nat.lt_trans r.offset_lt (by decide))
  have hwrite : s.busWrite r.offset w = s.writeReg r w := by
    rw [State.busWrite, hi.1, locate_offset]
    rfl
  rw [hostAccess, hi.2, (served_of_aligned r.offset_aligned w).2, ho]
  exact congrArg (fun t : State => Host.Outcome.next (t.respond (.write false))) hwrite

/-! ### What a register reads after a write -/

/-- The registers the host writes whole (RW of R21). -/
def rwRegs : List Reg := [.config, .dataLen, .irqEn, .arg0, .arg1, .plenA, .plenB, .pshift]

/-- A RW register holds the bits of its fields. -/
theorem State.readReg_writeReg_same (s : State) {r : Reg} (hr : r ∈ rwRegs) (w : Word) :
    (s.writeReg r w).readReg r = w &&& r.fieldBits := by
  simp only [rwRegs, List.mem_cons, List.not_mem_nil, or_false] at hr
  rcases hr with rfl | rfl | rfl | rfl | rfl | rfl | rfl | rfl
  · exact VersionLevel.word_written w
  · exact extractLsb'_setWidth_eq_and w
  · exact IrqEnable.word_written w
  · exact BitVec.and_allOnes.symm
  · exact BitVec.and_allOnes.symm
  · exact extractLsb'_setWidth_eq_and w
  · exact extractLsb'_setWidth_eq_and w
  · exact extractLsb'_setWidth_eq_and w

/-- A write of a RW register changes host-written registers only. -/
theorem State.writeReg_rw (s : State) {r : Reg} (hr : r ∈ rwRegs) (w : Word) : s.writeReg r w = { s with host := (s.writeReg r w).host } := by
  simp only [rwRegs, List.mem_cons, List.not_mem_nil, or_false] at hr
  rcases hr with rfl | rfl | rfl | rfl | rfl | rfl | rfl | rfl <;> rfl

/-- A write of a RW register changes no other register. -/
theorem State.readReg_writeReg_other (s : State) {r r' : Reg} (hr : r ∈ rwRegs) (h : r' ≠ r) (w : Word) :
    (s.writeReg r w).readReg r' = s.readReg r' := by
  simp only [rwRegs, List.mem_cons, List.not_mem_nil, or_false] at hr
  rcases hr with rfl | rfl | rfl | rfl | rfl | rfl | rfl | rfl
  all_goals
    cases r' <;> simp only [State.readReg, State.writeReg]
    exact absurd rfl h

/-- Settles O14: an idle access at a register's offset is the read or the write of that register. -/
theorem registerAccess : Obligations.RegisterAccess := by
  refine ⟨fun r => ⟨r.offset, (mem_registerMap r _).mpr rfl⟩, fun s r o hi ho => ?_, fun s r o w hi ho hr => ?_, fun s w hi => ?_⟩
  · obtain rfl := (mem_registerMap r o).mp ho
    exact ⟨_, ⟨hostAccess_readReg hi r, rfl⟩, s.readReg_reserved r⟩
  · obtain rfl := (mem_registerMap r o).mp ho
    have hr : r ∈ rwRegs := List.contains_iff_mem.mp hr
    refine ⟨_, hostAccess_writeReg hi r w, ?_, s.readReg_writeReg_same hr w, fun r' h => s.readReg_writeReg_other hr h w⟩
    rw [s.writeReg_rw hr]
    rfl
  · exact ⟨_, hostAccess_writeReg hi .status w, rfl, statusWord_cleared s.status w⟩

end Sys2Proof.Machine

/-! ## TABLE_LOOKUP -/

namespace Sys2Proof.Machine

/-! ### Fields of a word as numbers -/

theorem toNat_append_eq {m n : Nat} (x : BitVec m) (y : BitVec n) : (x ++ y).toNat = 2 ^ n * x.toNat + y.toNat := by
  rw [BitVec.toNat_append, ← Nat.shiftLeft_add_eq_or_of_lt y.isLt, Nat.shiftLeft_eq, Nat.mul_comm]

/-- The level code is in bits 4:3 of the format datum, the mask id below it (R192). -/
theorem formatDatum_eq (ecl : BitVec 2) (p : BitVec 3) : formatDatum ecl p = 8 * ecl.toNat + p.toNat := by
  rw [formatDatum, ← Nat.shiftLeft_add_eq_or_of_lt p.isLt, Nat.shiftLeft_eq, Nat.mul_comm]

theorem toNat_zeroExtended {n : Nat} (hn : n ≤ 32) {k : Nat} (h : k < 2 ^ n) : ((BitVec.ofNat n k).setWidth 32).toNat = k := by
  have := Nat.pow_le_pow_right (by decide : 0 < 2) hn
  rw [BitVec.toNat_setWidth, BitVec.toNat_ofNat, Nat.mod_eq_of_lt h, Nat.mod_eq_of_lt (by omega)]

/-- The numbers of a block group fit the fields of its register (R36). -/
def BlockGroup.fits (g : BlockGroup) : Bool := decide (g.count < 256) && decide (g.total < 256) && decide (g.data < 256)

theorem BlockGroup.reg_word_toNat {g : BlockGroup} (h : g.fits = true) :
    g.reg.word.toNat = g.count + 2 ^ 8 * g.total + 2 ^ 16 * g.data := by
  simp only [fits, Bool.and_eq_true, decide_eq_true_eq] at h
  obtain ⟨⟨hc, ht⟩, hd⟩ := h
  rw [BlockGroupReg.word, reg]
  simp only [toNat_append_eq, BitVec.toNat_ofNat, Nat.mod_eq_of_lt, hc, ht, hd]
  omega

theorem BlockGroupReg.zero_word_toNat : BlockGroupReg.zero.word.toNat = 0 := rfl

theorem GeometryReg.word_toNat {n k b : Nat} (hn : n < 256) (hk : k < 16) (hb : b < 16) :
    (GeometryReg.word { side := BitVec.ofNat 8 n, nalign := BitVec.ofNat 4 k, rembits := BitVec.ofNat 4 b }).toNat =
      n + 2 ^ 8 * k + 2 ^ 16 * b := by
  rw [word]
  simp only [toNat_append_eq, BitVec.toNat_ofNat, Nat.mod_eq_of_lt, hn, hk, hb]
  omega

/-! ### The tables -/

/-- Every version and level has one or two block groups, whose numbers fit their registers (R47). -/
def groupsFit (gs : List BlockGroup) : Bool := !gs.isEmpty && decide (gs.length ≤ 2) && gs.all BlockGroup.fits

theorem rsBlocks_fit_all : ((List.range 40).all fun k => [Level.l, .m, .q, .h].all fun e => groupsFit (rsBlocks (k + 1) e)) = true := by
  decide +kernel

theorem rsBlocks_cases {v : Nat} (h1 : 1 ≤ v) (h2 : v ≤ 40) (e : Level) :
    ∃ g rest, rsBlocks v e = g :: rest ∧ rest.length ≤ 1 ∧ g.fits = true ∧ ∀ h ∈ rest, h.fits = true := by
  obtain ⟨k, rfl⟩ := Nat.exists_eq_add_of_le' h1
  have hk := List.all_eq_true.mp rsBlocks_fit_all k (List.mem_range.mpr (by omega))
  have he := List.all_eq_true.mp hk e (by cases e <;> decide)
  match hb : rsBlocks (k + 1) e with
  | [] => rw [hb] at he; cases he
  | g :: rest =>
    simp only [hb, groupsFit, Bool.and_eq_true, List.all_cons, decide_eq_true_eq, List.length_cons, List.all_eq_true] at he
    obtain ⟨⟨-, hl⟩, hg, hr⟩ := he
    exact ⟨g, rest, rfl, by omega, hg, hr⟩

/-- Every version has at most seven alignment positions (R49). -/
theorem alignPos_length {v : Nat} (h : v ≤ 40) : (alignPos v).length ≤ 7 := by
  have hall : ((List.range 41).all fun v => decide ((alignPos v).length ≤ 7)) = true := by decide +kernel
  exact of_decide_eq_true (List.all_eq_true.mp hall v (List.mem_range.mpr (by omega)))

theorem remBits_le (v : Nat) : remBits v ≤ 7 := by
  unfold remBits
  split
  · omega
  · split
    · omega
    · split <;> omega

/-! ### The command -/

/-- What TABLE_LOOKUP's registers read for a version and level (R36, R141). -/
theorem tableRegs_reads {v : Nat} (h1 : 1 ≤ v) (h2 : v ≤ 40) (e : Level) {t : State} (ht : t.engine.tbl = tableRegs v e) :
    ∃ g rest, rsBlocks v e = g :: rest ∧ rest.length ≤ 1 ∧
      (t.readReg .tblTotal).toNat = totalCount v e ∧ (t.readReg .tblData).toNat = dataCount v e ∧
      (t.readReg .tblEc).toNat = g.total - g.data ∧
      (t.readReg .tblG1).toNat = g.count + 2 ^ 8 * g.total + 2 ^ 16 * g.data ∧
      (t.readReg .tblG2).toNat = (rest.map fun h => h.count + 2 ^ 8 * h.total + 2 ^ 16 * h.data).headD 0 ∧
      (t.readReg .tblGeom).toNat = 17 + 4 * v + 2 ^ 8 * (alignPos v).length + 2 ^ 16 * remBits v := by
  obtain ⟨g, rest, hb, hl, hg, hr⟩ := rsBlocks_cases h1 h2 e
  have htotal := totalCount_le h2 e
  have hdata := (blockTotals h2 e).1
  have hec : ecCount v e = g.total - g.data := by rw [ecCount, hb]
  have hgt : g.total < 256 := by
    simp only [BlockGroup.fits, Bool.and_eq_true, decide_eq_true_eq] at hg
    exact hg.1.2
  refine ⟨g, rest, hb, hl, ?_, ?_, ?_, ?_, ?_, ?_⟩ <;> simp only [State.readReg, ht, tableRegs, hb]
  · exact toNat_zeroExtended (by decide) (by omega)
  · exact toNat_zeroExtended (by decide) (by omega)
  · rw [hec]
    exact toNat_zeroExtended (by decide) (by omega)
  · exact BlockGroup.reg_word_toNat hg
  · match rest, hr with
    | [], _ => exact BlockGroupReg.zero_word_toNat
    | h :: _, hr => exact BlockGroup.reg_word_toNat (hr h List.mem_cons_self)
  · have hside := side_le h2
    have halign := alignPos_length h2
    have hrem := remBits_le v
    exact GeometryReg.word_toNat (by omega) (by omega) (by omega)

/-- Settles O35: TABLE_LOOKUP writes the six registers from the tables, whose numbers all fit. -/
theorem tableLookupResult : Obligations.TableLookupResult := by
  refine ⟨rfl, ⟨rfl, rfl, rfl, rfl⟩, formatDatum_eq, fun s => ⟨fun h1 h2 => ?_, fun hv => ?_⟩⟩
  · obtain ⟨g, rest, hb, hl, hreads⟩ := tableRegs_reads h1 h2 (levelOf s.host.config.ecl) (t := State.complete { s with
      engine := { s.engine with tbl := tableRegs s.host.config.version.toNat (levelOf s.host.config.ecl) } }) rfl
    refine ⟨_, g, rest, ?_, rfl, hb, hl, hreads⟩
    rw [exec_eq_run]
    refine runCommand_ok ?_
    rw [bodyOf, tableLookupBody_eq, if_neg (by omega)]
  · rw [exec_eq_run]
    refine runCommand_err ?_
    rw [bodyOf, tableLookupBody_eq, if_pos (by omega)]

end Sys2Proof.Machine

/-! ## The host bus: windows, refused accesses and the busy rules -/

namespace Sys2Proof.Machine

/-! ### Aligned accesses by the offset -/

/-- A request is served exactly when it is of 4 bytes and aligned (R62). -/
theorem Request.served_iff (q : Request) : q.served = true ↔ q.size.toNat = 4 ∧ q.addr.toNat % 4 = 0 := by
  simp [Request.served, ← BitVec.toNat_inj]

theorem hostAccess_readAt {s u : State} {o : Nat} {v : Word} (hr : s.rst = false) (hlt : o < 65536) (ha : o % 4 = 0)
    (h : s.busRead o = .ok (v, u)) : hostAccess (readAt o) s = .next (u.respond (.read v false)) := by
  have ho : (readAt o).addr.toNat = o := Nat.mod_eq_of_lt hlt
  rw [hostAccess, hr, (served_of_aligned ha 0).1, ho, h]
  rfl

theorem hostAccess_writeAt {s : State} {o : Nat} (hr : s.rst = false) (hlt : o < 65536) (ha : o % 4 = 0) (w : Word) :
    hostAccess (writeAt o w) s = .next ((s.busWrite o w).respond (.write false)) := by
  have ho : (writeAt o w).addr.toNat = o := Nat.mod_eq_of_lt hlt
  rw [hostAccess, hr, (served_of_aligned ha w).2, ho]
  rfl

/-- While idle a read answers the location's current value (R72). -/
theorem hostAccess_readAt_idle {s : State} {o : Nat} {v : Word} (hi : s.Idle) (hlt : o < 65536) (ha : o % 4 = 0)
    (h : s.currentWord (locate o) = .ok v) : hostAccess (readAt o) s = .next (s.respond (.read v false)) :=
  hostAccess_readAt hi.2 hlt ha (State.busRead_idle hi.1 h)

/-- While idle a write takes effect at its location. -/
theorem hostAccess_writeAt_idle {s : State} {o : Nat} (hi : s.Idle) (hlt : o < 65536) (ha : o % 4 = 0) (w : Word) :
    hostAccess (writeAt o w) s = .next ((s.writeLocation (locate o) w).respond (.write false)) := by
  rw [hostAccess_writeAt hi.2 hlt ha, State.busWrite, hi.1]
  rfl

/-! ### Writes while a command runs -/

/-- Only STATUS and IRQ_EN take a write while BUSY = 1 (R70). -/
theorem locate_writableWhileBusy {o : Nat} (h : (locate o).writableWhileBusy = true) : o = 0x008 ∨ o = 0x014 := by
  cases hl : locate o with
  | reg r =>
    rw [hl, Location.writableWhileBusy, Bool.or_eq_true, beq_iff_eq, beq_iff_eq] at h
    rw [locate_reg_inv hl]
    rcases h with rfl | rfl
    · exact .inl rfl
    · exact .inr rfl
  | _ => rw [hl] at h; cases h

theorem State.busWrite_refused {s : State} (hb : s.status.busy = true) {o : Nat} (h8 : o ≠ 0x008) (h14 : o ≠ 0x014) (w : Word) :
    s.busWrite o w = { s with status := s.status.overrun } := by
  have hn : (locate o).writableWhileBusy = false := Bool.eq_false_iff.mpr fun h => (locate_writableWhileBusy h).elim h8 h14
  rw [State.busWrite, hb, hn]
  rfl

/-- A write of STATUS or IRQ_EN takes effect, BUSY or not (R70). -/
theorem State.busWrite_writableWhileBusy (s : State) {r : Reg} (hr : (Location.reg r).writableWhileBusy = true) (w : Word) :
    s.busWrite r.offset w = s.writeReg r w := by
  rw [State.busWrite, locate_offset, hr, Bool.not_true, Bool.and_false]
  rfl

/-- Settles O6, by the two registers that stay writable while BUSY = 1. -/
theorem busyWritesAreRefused : Obligations.BusyWritesAreRefused := by
  intro s o w hr hb hlt ha
  rw [hostAccess_writeAt hr hlt ha]
  refine ⟨fun h8 h14 => ?_, ?_, ?_⟩
  · rw [State.busWrite_refused hb h8 h14]
    rfl
  · rintro rfl
    rw [show s.busWrite 0x008 w = s.writeReg .status w from s.busWrite_writableWhileBusy (r := .status) rfl w]
    rfl
  · rintro rfl
    rw [show s.busWrite 0x014 w = s.writeReg .irqEn w from s.busWrite_writableWhileBusy (r := .irqEn) rfl w]
    rfl

/-! ### Refused accesses -/

theorem hostAccess_unserved {q : Request} {s : State} (hr : s.rst = false) (hq : q.served = false) :
    hostAccess q s = .next (s.respond (if q.write then .write true else .read 0 true)) := by
  rw [hostAccess, hr, hq]
  rfl

/-- Settles O7, by the forms of an access. -/
theorem refusedBusAccess : Obligations.RefusedBusAccess := by
  intro s q hr
  refine ⟨fun hq => hostAccess_unserved hr (Bool.eq_false_iff.mpr (mt q.served_iff.mp hq)), fun hq t ht => ?_⟩
  obtain ⟨-, ⟨hn, -⟩ | ⟨-, -, rfl⟩ | ⟨-, -, v, u, -, rfl⟩⟩ := hostAccess_next ht
  · rw [q.served_iff.mpr hq] at hn
    cases hn
  · exact .inl rfl
  · exact .inr ⟨v, rfl⟩

/-! ### Reads -/

@[simp] theorem State.currentWord_respond (s : State) (x : Response) (l : Location) :
    (s.respond x).currentWord l = s.currentWord l := by
  cases l <;> rfl

/-- Settles O8: a read leaves all but the response and the draw counter, so the second read of an idle block finds the same value. -/
theorem readsChangeNothing : Obligations.ReadsChangeNothing := by
  refine ⟨fun s t q hq ht => ?_, fun s o v hi hlt ha hv => ?_⟩
  · obtain ⟨-, ⟨-, rfl⟩ | ⟨-, hw, -⟩ | ⟨-, -, v, u, hu, rfl⟩⟩ := hostAccess_next ht
    · rfl
    · rw [hq] at hw
      cases hw
    · rw [State.busRead_state hu]
      rfl
  · have hi' : (s.respond (.read v false)).Idle := hi
    exact ⟨_, ⟨hostAccess_readAt_idle hi hlt ha hv, rfl⟩, rfl, _,
      hostAccess_readAt_idle hi' hlt ha ((s.currentWord_respond _ _).trans hv), rfl⟩

/-! ### Reads while a command runs -/

theorem getLsbD_mixBits (v d m : Word) (b : Nat) :
    (mixBits v d m).getLsbD b = if m.getLsbD b then d.getLsbD b else v.getLsbD b := by
  by_cases hb : b < 32
  · simp only [mixBits, BitVec.getLsbD_or, BitVec.getLsbD_and, BitVec.getLsbD_not, hb]
    cases m.getLsbD b <;> simp
  · simp [BitVec.getLsbD_of_ge _ b (Nat.le_of_not_lt hb)]

theorem State.unspecifiedBits_running {s : State} {w : Word} {i : Instr} (hb : s.status.busy = true) (hp : s.pending = some w)
    (hd : decode w = .ok i) (l : Location) : s.unspecifiedBits l = s.writeSetBits i l := by
  simp [State.unspecifiedBits, State.runningCommand, hb, hp, hd, Except.toOption]

/-- A read with the bits of the write set drawn, or with none to draw (log 4). -/
theorem State.busRead_ok {s : State} {o : Nat} {v : Word} (h : s.currentWord (locate o) = .ok v) :
    s.busRead o = if s.unspecifiedBits (locate o) = 0 then .ok (v, s)
      else .ok (mixBits v (Config.busyDraw s.draws) (s.unspecifiedBits (locate o)), { s with draws := s.draws + 1 }) := by
  rw [State.busRead, h]
  rfl

/-- Which cells a command that neither starts nor clears a matrix writes: function cells for WRITE_META, data cells for the others. -/
theorem writesCell_inside {i : Instr} {s : State} {p : PlaneId} {r c : Nat} (h : writesCell i s p r c = true) :
    [Instr.softReset, .matrixInit, .encode].contains i = true ∨
      (r < s.matrixSide ∧ c < s.matrixSide ∧ s.planes.func.get r c = decide (i = .writeMeta)) := by
  have hdata (hd : s.isDataCell r c = true) (hi : i ≠ .writeMeta) :
      r < s.matrixSide ∧ c < s.matrixSide ∧ s.planes.func.get r c = decide (i = .writeMeta) := by
    obtain ⟨hr, hc, hf⟩ := (s.isDataCell_iff r c).mp hd
    exact ⟨hr, hc, hf.trans (decide_eq_false hi).symm⟩
  cases i
  case softReset | matrixInit | encode => exact .inl rfl
  case matrixPlace | maskSelect | maskForce => exact .inr (hdata (Bool.and_eq_true_iff.mp h).2 (by decide))
  case writeMeta =>
    obtain ⟨hr, hc, hf, -⟩ := (s.isReservedCell_iff r c).mp (Bool.and_eq_true_iff.mp h).2
    exact .inr ⟨hr, hc, hf⟩
  all_goals cases h

/-- Settles O9: a read mixes the draw into the bits of the write set, of which STATUS has none. -/
theorem busyReadsOutsideTheWriteSetAreExact : Obligations.BusyReadsOutsideTheWriteSetAreExact := by
  refine ⟨fun s w i o v hr hb hp hd hlt ha hv => ?_, fun s i p r c h => writesCell_inside h⟩
  have hread := State.busRead_ok hv
  rw [State.unspecifiedBits_running hb hp hd] at hread
  have hstatus (ho : o = 0x008) : v = statusWord s.status ∧ s.writeSetBits i (locate o) = 0 := by
    subst ho
    exact ⟨(Except.ok.inj hv).symm, rfl⟩
  by_cases hm : s.writeSetBits i (locate o) = 0
  · rw [if_pos hm] at hread
    exact ⟨v, _, ⟨hostAccess_readAt hr hlt ha hread, rfl⟩, fun _ _ => rfl, fun b h => by simp [hm] at h, fun ho => (hstatus ho).1⟩
  · rw [if_neg hm] at hread
    exact ⟨_, _, ⟨hostAccess_readAt hr hlt ha hread, rfl⟩, fun b h => by simp [getLsbD_mixBits, h],
      fun b h => ⟨by simp [getLsbD_mixBits, h], rfl⟩, fun ho => absurd (hstatus ho).2 hm⟩

/-! ### Byte windows -/

theorem wordOfBytes_toNat (b0 b1 b2 b3 : Byte) :
    (wordOfBytes b0 b1 b2 b3).toNat = b0.toNat + 2 ^ 8 * b1.toNat + 2 ^ 16 * b2.toNat + 2 ^ 24 * b3.toNat := by
  simp only [wordOfBytes, toNat_append_eq]
  omega

/-- Byte i of a word is its bits 8·i + 7 to 8·i (R64). -/
theorem bytesOfWord_getElem? (w : Word) {i : Nat} (hi : i < 4) :
    (bytesOfWord w)[i]? = some (BitVec.ofNat 8 (w.toNat / 2 ^ (8 * i))) := by
  have hbyte (n : Nat) : w.extractLsb' n 8 = BitVec.ofNat 8 (w.toNat / 2 ^ n) := by
    rw [← Nat.shiftRight_eq_div_pow]
    rfl
  obtain rfl | rfl | rfl | rfl : i = 0 ∨ i = 1 ∨ i = 2 ∨ i = 3 := by omega
  all_goals exact congrArg some (hbyte _)

/-- The words of a RAM's window stand at aligned offsets of the map. -/
theorem Ram.word_offset (r : Ram) {j : Nat} (hj : 4 * j + 3 < r.size) : r.base + 4 * j < 65536 ∧ (r.base + 4 * j) % 4 = 0 := by
  cases r <;> simp only [Ram.base, Ram.size] at * <;> omega

theorem State.writeLocation_ram (s : State) {r : Ram} (hw : r.hostWritable = true) (j : Nat) (w : Word) :
    s.writeLocation (.ramWord r (4 * j)) w = s.writeWindow r j w := by
  rw [State.writeLocation, hw]
  rfl

theorem State.ramByte_writeWindow_same (s : State) (r : Ram) (j : Nat) (w : Word) {i : Nat} (hi : i < 4) :
    (s.writeWindow r j w).ramByte r (4 * j + i) = .ok (BitVec.ofNat 8 (w.toNat / 2 ^ (8 * i))) := by
  have hread : Memory.read (s.writeWindow r j w).ram (r.base + (4 * j + i)) = some (BitVec.ofNat 8 (w.toNat / 2 ^ (8 * i))) := by
    rw [State.writeWindow, Memory.read_writeAll, bytesOfWord_length, if_pos (by omega),
      show r.base + (4 * j + i) - (r.base + 4 * j) = i by omega, bytesOfWord_getElem? w hi]
  simp only [State.ramByte, hread]

theorem State.ramByte_writeWindow_other (s : State) {r r' : Ram} {j k : Nat} (w : Word) (hj : 4 * j + 3 < r.size) (hk : k < r'.size)
    (h : ¬ (r' = r ∧ 4 * j ≤ k ∧ k < 4 * j + 4)) : (s.writeWindow r j w).ramByte r' k = s.ramByte r' k := by
  refine State.ramByte_congr (Memory.read_writeAll_outside ?_) rfl rfl
  rw [bytesOfWord_length]
  by_cases he : r' = r
  · subst he
    have : ¬ (4 * j ≤ k ∧ k < 4 * j + 4) := fun hc => h ⟨rfl, hc⟩
    omega
  · refine Decidable.byContradiction fun hc => ?_
    exact Ram.base_ne he hk (k' := r'.base + k - r.base) (by omega) (by omega)

/-- Settles O11: the window's word is the four entries, and its write stores the word's four bytes there. -/
theorem byteWindowAccess : Obligations.ByteWindowAccess := by
  refine ⟨fun s r j b0 b1 b2 b3 hi hj h0 h1 h2 h3 => ?_, fun s r j w hi hj hr => ?_⟩ <;>
    obtain ⟨hlt, ha⟩ := r.word_offset hj <;>
    have hl : locate (r.base + 4 * j) = .ramWord r (4 * j) := locate_ram r (by omega)
  · have hv : s.currentWord (locate (r.base + 4 * j)) = .ok (wordOfBytes b0 b1 b2 b3) := by
      rw [hl, State.currentWord, h0, h1, h2, h3]
      rfl
    exact ⟨_, _, ⟨hostAccess_readAt_idle hi hlt ha hv, rfl⟩, wordOfBytes_toNat b0 b1 b2 b3⟩
  · have hw : r.hostWritable = true := by rcases hr with rfl | rfl | rfl <;> rfl
    refine ⟨_, hostAccess_writeAt_idle hi hlt ha w, ?_⟩
    rw [hl, s.writeLocation_ram hw]
    exact ⟨rfl, fun i h => s.ramByte_writeWindow_same r j w h, fun r' k hk h => s.ramByte_writeWindow_other w hj hk h⟩

/-! ### Plane windows -/

/-- The base offset of a plane's window (R63). -/
def PlaneId.base : PlaneId → Nat
  | .darkp => 0x4000
  | .asgn => 0x6000
  | .func => 0x8000

theorem planeAt_base (p : PlaneId) {d : Nat} (h : d < 0x2000) : planeAt (p.base + d) = some (p, d) := by
  cases p
  · show planeAt (0x4000 + d) = _
    rw [planeAt, if_pos (by omega), Nat.add_sub_cancel_left]
  · show planeAt (0x6000 + d) = _
    rw [planeAt, if_neg (by omega), if_pos (by omega), Nat.add_sub_cancel_left]
  · show planeAt (0x8000 + d) = _
    rw [planeAt, if_neg (by omega), if_neg (by omega), if_pos (by omega), Nat.add_sub_cancel_left]

/-- No RAM has a byte from 0x4000 on. -/
theorem ramAt_none {o : Nat} (h : 0x4000 ≤ o) : ramAt o = none := by
  cases hr : ramAt o with
  | none => rfl
  | some r =>
    obtain ⟨-, hlt⟩ := ramAt_some hr
    cases r <;> simp only [Ram.base, Ram.size] at hlt <;> omega

/-- Word w of row r of a plane stands at 32·r + 4·w in its window (R65). -/
theorem locate_plane (p : PlaneId) {r w : Nat} (hr : r < 256) (hw : w < 8) : locate (p.base + 32 * r + 4 * w) = .planeWord p r w := by
  have hb : 0x4000 ≤ p.base := by cases p <;> decide
  rw [Nat.add_assoc, locate, regAt_none (by omega), ramAt_none (by omega), planeAt_base p (by omega)]
  simp only [show (32 * r + 4 * w) / 32 = r by omega, show (32 * r + 4 * w) % 32 / 4 = w by omega]

/-- An offset that names a word of a plane lies in the planes' windows. -/
theorem locate_plane_inv {o r w : Nat} {p : PlaneId} (h : locate o = .planeWord p r w) : 0x4000 ≤ o ∧ o < 0xA000 := by
  unfold locate at h
  split at h
  · cases h
  · split at h
    · cases h
    · split at h
      · next q d hp =>
        unfold planeAt at hp
        split at hp
        · omega
        · split at hp
          · omega
          · split at hp
            · omega
            · cases hp
      · cases h

theorem getLsbD_planeWordOf (f : Nat → Bool) (w : Nat) {i : Nat} (hi : i < 32) : (planeWordOf f w).getLsbD i = f (32 * w + i) := by
  simp [planeWordOf, getLsbD_rowOf, hi]

/-- Cells outside the matrix are 0 in each plane (R41 (b)). -/
theorem Planes.CellInv.plane_outside {pl : Planes} {n : Nat} (h : pl.CellInv n) (p : PlaneId) {r c : Nat} (ho : n ≤ r ∨ n ≤ c) :
    (pl.plane p).get r c = false := by
  obtain ⟨hd, ha, hf⟩ := h.outside_zero r c ho
  cases p
  · exact hd
  · exact ha
  · exact hf

/-- While idle a read in a plane's window answers the plane's word. -/
theorem hostAccess_readAt_plane {s : State} (p : PlaneId) {r w : Nat} (hi : s.Idle) (hr : r < 256) (hw : w < 8) :
    hostAccess (readAt (p.base + 32 * r + 4 * w)) s = .next (s.respond (.read (planeWordOf ((s.planes.plane p).get r) w) false)) := by
  have hb : p.base ≤ 0x8000 ∧ p.base % 4 = 0 := by cases p <;> decide
  exact hostAccess_readAt_idle hi (by omega) (by omega) (by rw [locate_plane p hr hw]; rfl)

/-- Settles O12, by the place of each word in the planes' windows. -/
theorem planeWindowRead : Obligations.PlaneWindowRead := by
  intro s p r w hi hr hw base
  have hbase : base = p.base := by cases p <;> rfl
  rw [hbase]
  refine ⟨_, _, ⟨hostAccess_readAt_plane p hi hr hw, rfl⟩, fun i h => ?_⟩
  rw [getLsbD_planeWordOf _ _ h]
  exact ⟨rfl, fun hinv ho => hinv.plane_outside p ho⟩

/-! ### Unmapped and read-only offsets -/

/-- The unmapped and reserved offsets of R21 and R63. -/
def UnmappedOffset (o : Nat) : Prop :=
  o = 0x04C ∨ (0x068 ≤ o ∧ o < 0x100) ∨ (0x180 ≤ o ∧ o < 0x1000) ∨ (0x3100 ≤ o ∧ o < 0x3400) ∨
    (0x3500 ≤ o ∧ o < 0x3800) ∨ (0x3A00 ≤ o ∧ o < 0x4000) ∨ 0xA000 ≤ o

/-- The offsets of the read-only registers and windows of R21 and R63. -/
def ReadOnlyOffset (o : Nat) : Prop :=
  o = 0x000 ∨ o = 0x020 ∨ (0x030 ≤ o ∧ o ≤ 0x048) ∨ (0x050 ≤ o ∧ o ≤ 0x064) ∨ (0x100 ≤ o ∧ o < 0x180) ∨
    (0x2000 ≤ o ∧ o < 0x3000) ∨ (0x3800 ≤ o ∧ o < 0x3A00) ∨ (0x4000 ≤ o ∧ o < 0xA000)

/-- No register stands at an unmapped offset. -/
theorem Reg.offset_mapped (r : Reg) : ¬ UnmappedOffset r.offset := by
  unfold UnmappedOffset
  cases r with
  | pen m k => cases k <;> simp only [Reg.offset, PenKind.offset] <;> omega
  | _ => decide

theorem locate_unmapped {o : Nat} (h : UnmappedOffset o) : locate o = .unmapped := by
  cases hl : locate o with
  | reg r =>
    rw [locate_reg_inv hl] at h
    exact absurd h r.offset_mapped
  | ramWord r k =>
    obtain ⟨rfl, hk⟩ := locate_ram_inv hl
    unfold UnmappedOffset at h
    cases r <;> simp only [Ram.base, Ram.size] at h hk <;> omega
  | planeWord p r w =>
    have := locate_plane_inv hl
    unfold UnmappedOffset at h
    omega
  | unmapped => rfl

/-- A register at a read-only offset ignores a write (R66). -/
theorem State.writeReg_readOnly (s : State) {r : Reg} (h : ReadOnlyOffset r.offset) (w : Word) : s.writeReg r w = s := by
  unfold ReadOnlyOffset at h
  cases r
  case cmd | status | config | dataLen | irqEn | arg0 | arg1 | plenA | plenB | pshift => exact absurd h (by decide)
  all_goals rfl

/-- A write to a read-only register, to a read-only RAM window or to a plane is ignored (R66). -/
theorem State.writeLocation_readOnly (s : State) {o : Nat} (h : ReadOnlyOffset o) (w : Word) : s.writeLocation (locate o) w = s := by
  cases hl : locate o with
  | reg r =>
    rw [locate_reg_inv hl] at h
    exact s.writeReg_readOnly h w
  | ramWord r k =>
    obtain ⟨rfl, hk⟩ := locate_ram_inv hl
    unfold ReadOnlyOffset at h
    cases r
    case cw | pr => rfl
    all_goals simp only [Ram.base, Ram.size] at h hk; omega
  | planeWord p r w => rfl
  | unmapped => rfl

/-- Settles O13, by what the map names at the offsets of each range. -/
theorem unmappedAndReadOnlyOffsets : Obligations.UnmappedAndReadOnlyOffsets := by
  intro s o w hi hlt ha unmapped readOnly
  refine ⟨fun h => hostAccess_readAt_idle hi hlt ha ?_, fun h => ?_⟩
  · rw [locate_unmapped h]
    rfl
  · have hkeep : s.writeLocation (locate o) w = s := by
      rcases h with h | h
      · rw [locate_unmapped h]
        rfl
      · exact s.writeLocation_readOnly h w
    rw [hostAccess_writeAt_idle hi hlt ha, hkeep]
    rfl

end Sys2Proof.Machine

/-! ## The encoding of command words -/

namespace Sys2Proof.Machine

/-! ### The fields of a word (R90) -/

/-- RSV is what is left of a word above its low byte. -/
theorem rsvField_eq_zero_iff (w : Word) : rsvField w = 0 ↔ w.toNat / 256 = 0 := by
  have := w.isLt
  rw [← BitVec.toNat_inj, rsvField, BitVec.extractLsb'_toNat, Nat.shiftRight_eq_div_pow, BitVec.ofNat_eq_ofNat, BitVec.toNat_zero]
  omega

theorem opcField_toNat (w : Word) : (opcField w).toNat = w.toNat % 256 := by
  rw [opcField, BitVec.extractLsb'_toNat, Nat.shiftRight_zero]

/-- A word is its two fields, so no bit of it is outside them. -/
theorem rsvField_append_opcField (w : Word) : rsvField w ++ opcField w = w :=
  (BitVec.extractLsb'_append_extractLsb'_eq_extractLsb' rfl).trans BitVec.extractLsb'_eq_self

theorem eq_encode {w : Word} {i : Instr} (hr : rsvField w = 0) (ho : opcField w = opcode i) : w = encode i := by
  rw [← rsvField_append_opcField w, hr, ho]
  rfl

/-! ### The opcode map (R94) -/

/-- The reserved values of OPC, range by range. -/
def ReservedOpcode (opc : Nat) : Prop :=
  (0x02 ≤ opc ∧ opc ≤ 0x0F) ∨ (0x14 ≤ opc ∧ opc ≤ 0x17) ∨ (0x1B ≤ opc ∧ opc ≤ 0x1F) ∨ (0x22 ≤ opc ∧ opc ≤ 0x2F) ∨
    (0x32 ≤ opc ∧ opc ≤ 0x3F) ∨ (0x47 ≤ opc ∧ opc ≤ 0x4F) ∨ (0x51 ≤ opc ∧ opc ≤ 0xFF)

/-- The opcode map gives a command to that command's opcode alone. -/
theorem eq_opcode_of_ofOpcode {o : BitVec 8} {i : Instr} (h : ofOpcode o = some i) : o = opcode i := by
  apply BitVec.eq_of_toNat_eq
  unfold ofOpcode at h
  split at h <;> cases h <;> assumption

theorem opcode_not_reserved (i : Instr) : ¬ ReservedOpcode (opcode i).toNat := by
  unfold ReservedOpcode
  cases i <;> decide

/-- An opcode that is none of the 21 lies in a reserved range. -/
theorem reserved_of_ofOpcode_eq_none {o : BitVec 8} (h : ofOpcode o = none) : ReservedOpcode o.toNat := by
  have := o.isLt
  unfold ofOpcode at h
  split at h
  case h_22 =>
    simp only [imp_false] at *
    unfold ReservedOpcode
    omega
  all_goals cases h

/-- The reserved ranges are exactly the opcodes the map gives no command. -/
theorem ofOpcode_eq_none_iff (o : BitVec 8) : ofOpcode o = none ↔ ReservedOpcode o.toNat := by
  refine ⟨reserved_of_ofOpcode_eq_none, fun hr => ?_⟩
  cases h : ofOpcode o with
  | none => rfl
  | some i => exact absurd (eq_opcode_of_ofOpcode h ▸ hr) (opcode_not_reserved i)

/-! ### The decoder (R91, R95) -/

/-- What the decoder can answer, and when. -/
theorem decode_cases (w : Word) :
    (rsvField w ≠ 0 ∧ decode w = .error .reservedBitsSet) ∨
    (rsvField w = 0 ∧ ofOpcode (opcField w) = none ∧ decode w = .error .reservedOpcode) ∨
    (∃ i, rsvField w = 0 ∧ ofOpcode (opcField w) = some i ∧ decode w = .ok i) := by
  by_cases hr : rsvField w = 0
  · cases ho : ofOpcode (opcField w) with
    | none => exact .inr (.inl ⟨hr, rfl, by simp [decode, hr, ho]⟩)
    | some i => exact .inr (.inr ⟨i, hr, rfl, by simp [decode, hr, ho]⟩)
  · exact .inl ⟨hr, if_pos hr⟩

theorem decode_eq_ok {w : Word} {i : Instr} (h : decode w = .ok i) : rsvField w = 0 ∧ ofOpcode (opcField w) = some i := by
  obtain ⟨-, hd⟩ | ⟨-, -, hd⟩ | ⟨j, hr, ho, hd⟩ := decode_cases w <;> cases h.symm.trans hd
  exact ⟨hr, ho⟩

theorem decode_eq_error_iff (w : Word) : (∃ e, decode w = .error e) ↔ rsvField w ≠ 0 ∨ ofOpcode (opcField w) = none := by
  obtain ⟨hr, hd⟩ | ⟨-, ho, hd⟩ | ⟨i, hr, ho, hd⟩ := decode_cases w
  · exact iff_of_true ⟨_, hd⟩ (.inl hr)
  · exact iff_of_true ⟨_, hd⟩ (.inr ho)
  · simp [hd, hr, ho]

/-- The completion of an ILLEGAL word records IllegalCommand (R244). -/
theorem completion_illegal {w : Word} {e : Illegal} (h : decode w = .error e) (s : State) :
    completion w s = .next (s.raise .illegalCommand) := by
  simp [completion, h, execIllegal]

/-! ### The statements -/

/-- Settles O2: a word that decodes has RSV = 0 and the opcode of its command, and these two fields are the whole word. -/
theorem decodeExactlyTheEncodings : Obligations.DecodeExactlyTheEncodings := by
  intro w i
  constructor
  · intro h
    obtain ⟨hr, ho⟩ := decode_eq_ok h
    exact eq_encode hr (eq_opcode_of_ofOpcode ho)
  · rintro rfl
    exact decode_encode i

/-- Settles O3: the two fields of an ILLEGAL word as numbers, and its completion. -/
theorem illegalWordsChangeNothing : Obligations.IllegalWordsChangeNothing := by
  refine ⟨fun w => ?_, fun w e s h => completion_illegal h s⟩
  rw [decode_eq_error_iff, ne_eq, rsvField_eq_zero_iff, ofOpcode_eq_none_iff, opcField_toNat]
  rfl

/-- Settles O1: the 21 words are the encodings, and the ILLEGAL words evaluate. -/
theorem commandWordsDecode : Obligations.CommandWordsDecode := by
  refine ⟨?control, ?matrix, ?illegal⟩
  case control =>
    exact ⟨decode_encode .nop, decode_encode .softReset, decode_encode .gfExp, decode_encode .gfLog, decode_encode .gfMul,
      decode_encode .gfInv, decode_encode .polyMul, decode_encode .polyMod, decode_encode .rsGenpoly, decode_encode .tableLookup,
      decode_encode .assemble⟩
  case matrix =>
    exact ⟨decode_encode .bchFormat, decode_encode .bchVersion, decode_encode .matrixInit, decode_encode .matrixPlace,
      decode_encode .maskScore, decode_encode .maskSelect, decode_encode .maskForce, decode_encode .writeMeta,
      decode_encode .finalize, decode_encode .encode⟩
  case illegal => exact ⟨rfl, rfl, rfl, rfl, rfl, rfl, rfl⟩

end Sys2Proof.Machine

/-! ## The field GF(256) and its scalar commands -/

namespace Sys2Proof.Machine

/-! ### Multiplication by powers of α -/

/-- Doubling with reduction is linear over ⊕. -/
theorem doubleStep_xor (a b : Byte) : doubleStep (a ^^^ b) = doubleStep a ^^^ doubleStep b := by
  have hcancel (x y : Byte) : (x ^^^ 0x1D) ^^^ (y ^^^ 0x1D) = x ^^^ y := by
    rw [BitVec.xor_assoc, BitVec.xor_comm y, ← BitVec.xor_assoc 0x1D, BitVec.xor_self, BitVec.zero_xor]
  unfold doubleStep
  rw [BitVec.getLsbD_xor, BitVec.shiftLeft_xor_distrib]
  cases a.getLsbD 7 <;> cases b.getLsbD 7 <;> simp only [Bool.xor_self, Bool.xor_false, Bool.false_xor, if_true, Bool.false_eq_true, if_false]
  case true.true => exact (hcancel ..).symm
  all_goals ac_rfl

theorem timesAlpha_xor (k : Nat) (a b : Byte) : timesAlpha k (a ^^^ b) = timesAlpha k a ^^^ timesAlpha k b := by
  induction k with
  | zero => rfl
  | succ k ih => rw [timesAlpha, ih, doubleStep_xor]; rfl

theorem timesAlpha_zero (k : Nat) : timesAlpha k 0 = 0 := by
  induction k with
  | zero => rfl
  | succ k ih => rw [timesAlpha, ih]; rfl

theorem timesAlpha_timesAlpha (m n : Nat) (b : Byte) : timesAlpha m (timesAlpha n b) = timesAlpha (m + n) b := by
  induction m with
  | zero => rw [Nat.zero_add]; rfl
  | succ m ih => rw [timesAlpha, ih, Nat.succ_add]; rfl

theorem timesAlpha_alphaPow (m n : Nat) : timesAlpha m (alphaPow n) = alphaPow (m + n) := timesAlpha_timesAlpha m n 1

/-- The order of α divides 255. -/
theorem alphaPow_255 : alphaPow 255 = 1 := by decide +kernel

theorem alphaPow_add_255_mul (r q : Nat) : alphaPow (r + 255 * q) = alphaPow r := by
  induction q with
  | zero => rfl
  | succ q ih => rw [Nat.mul_succ, ← Nat.add_assoc, ← timesAlpha_alphaPow, alphaPow_255, ← ih]; rfl

theorem alphaPow_mod (i : Nat) : alphaPow (i % 255) = alphaPow i := by
  conv => rhs; rw [← Nat.mod_add_div i 255, alphaPow_add_255_mul]

theorem alphaPow_ne_zero (i : Nat) : alphaPow i ≠ 0 := by
  intro h
  have h1 : alphaPow (i % 255 + 255 * 1) = 0 := by rw [alphaPow_add_255_mul, alphaPow_mod, h]
  have h0 : alphaPow 255 = 0 := by
    have := timesAlpha_alphaPow (255 - i % 255) (i % 255)
    rwa [alphaPow_mod, h, timesAlpha_zero, Nat.sub_add_cancel (by omega), eq_comm] at this
  rw [alphaPow_255] at h0
  cases h0

/-! ### The tables (R44, R110, R111) -/

theorem doublings_length (n : Nat) (v : Byte) : (doublings n v).length = n := by
  induction n generalizing v with
  | zero => rfl
  | succ n ih => rw [doublings, List.length_cons, ih]

theorem doublings_getD {n k : Nat} (h : k < n) (v : Byte) : (doublings n v).getD k 0 = timesAlpha k v := by
  induction n generalizing k v with
  | zero => omega
  | succ n ih =>
    cases k with
    | zero => rfl
    | succ k => rw [doublings, List.getD_cons_succ, ih (by omega)]; exact timesAlpha_timesAlpha k 1 v

/-- A term in range of a list of bytes. -/
theorem getD_eq_of_lt {p : List Byte} {k : Nat} (h : k < p.length) : p.getD k 0 = p[k] := by
  rw [List.getD_eq_getElem?_getD, List.getElem?_eq_getElem h, Option.getD_some]

/-- EXP holds the powers of α. -/
theorem gexp_eq_alphaPow (i : Nat) : gexp i = alphaPow i := by
  rw [gexp, expTable, doublings_getD (Nat.mod_lt i (by decide)), ← alphaPow_mod, alphaPow]

/-- α generates the field: every byte but 0 stands in EXP (R45). -/
theorem mem_expTable : ∀ x : Byte, x ≠ 0 → x ∈ expTable := by decide +kernel

theorem glog_lt {x : Byte} (h : x ≠ 0) : glog x < 255 := by
  have := List.idxOf_lt_length_iff.mpr (mem_expTable x h)
  rwa [expTable, doublings_length] at this

theorem alphaPow_glog {x : Byte} (h : x ≠ 0) : alphaPow (glog x) = x := by
  have hlt := glog_lt h
  have hm := List.idxOf_lt_length_iff.mpr (mem_expTable x h)
  calc alphaPow (glog x) = expTable.getD (glog x) 0 := (doublings_getD hlt 1).symm
    _ = expTable[expTable.idxOf x] := getD_eq_of_lt hm
    _ = x := List.getElem_idxOf hm

/-- Every byte but 0 is a power of α. -/
theorem exists_alphaPow {x : Byte} (h : x ≠ 0) : ∃ i, x = alphaPow i := ⟨glog x, (alphaPow_glog h).symm⟩

/-! ### The field laws (R114) -/

theorem zero_gmul (b : Byte) : gmul 0 b = 0 := if_pos (.inl rfl)

theorem gmul_zero (a : Byte) : gmul a 0 = 0 := if_pos (.inr rfl)

theorem gmul_comm (a b : Byte) : gmul a b = gmul b a := by
  simp only [gmul, or_comm, Nat.add_comm]

/-- A product by a ≠ 0 is log a doublings. -/
theorem gmul_eq_timesAlpha {a : Byte} (ha : a ≠ 0) (b : Byte) : gmul a b = timesAlpha (glog a) b := by
  by_cases hb : b = 0
  · rw [hb, gmul_zero, timesAlpha_zero]
  · rw [gmul, if_neg (not_or.mpr ⟨ha, hb⟩), gexp_eq_alphaPow, alphaPow_mod, ← timesAlpha_alphaPow, alphaPow_glog hb]

theorem gmul_xor (a b c : Byte) : gmul a (b ^^^ c) = gmul a b ^^^ gmul a c := by
  by_cases ha : a = 0
  · rw [ha, zero_gmul, zero_gmul, zero_gmul]; rfl
  · simp only [gmul_eq_timesAlpha ha, timesAlpha_xor]

theorem xor_gmul (a b c : Byte) : gmul (a ^^^ b) c = gmul a c ^^^ gmul b c := by
  rw [gmul_comm, gmul_xor, gmul_comm c, gmul_comm c]

/-- A product by α^k is k doublings, whichever logarithm the table gives α^k. -/
theorem gmul_alphaPow (k : Nat) (b : Byte) : gmul (alphaPow k) b = timesAlpha k b := by
  by_cases hb : b = 0
  · rw [hb, gmul_zero, timesAlpha_zero]
  · obtain ⟨j, rfl⟩ := exists_alphaPow hb
    rw [gmul_eq_timesAlpha (alphaPow_ne_zero k), timesAlpha_alphaPow, Nat.add_comm, ← timesAlpha_alphaPow,
      alphaPow_glog (alphaPow_ne_zero k), timesAlpha_alphaPow, timesAlpha_alphaPow, Nat.add_comm]

theorem gmul_assoc (a b c : Byte) : gmul (gmul a b) c = gmul a (gmul b c) := by
  by_cases ha : a = 0
  · rw [ha, zero_gmul, zero_gmul, zero_gmul]
  by_cases hb : b = 0
  · rw [hb, gmul_zero, zero_gmul, gmul_zero]
  obtain ⟨i, rfl⟩ := exists_alphaPow ha
  obtain ⟨j, rfl⟩ := exists_alphaPow hb
  rw [gmul_alphaPow i, timesAlpha_alphaPow, gmul_alphaPow, gmul_alphaPow, gmul_alphaPow, timesAlpha_timesAlpha]

theorem one_gmul (a : Byte) : gmul 1 a = a := gmul_alphaPow 0 a

theorem gmul_one (a : Byte) : gmul a 1 = a := by rw [gmul_comm, one_gmul]

theorem gmul_ginv {a : Byte} (h : a ≠ 0) : gmul a (ginv a) = 1 := by
  have hlt := glog_lt h
  rw [ginv, gexp_eq_alphaPow, alphaPow_mod, gmul_eq_timesAlpha h, timesAlpha_alphaPow, Nat.add_sub_cancel' (by omega), alphaPow_255]

theorem ginv_ne_zero (a : Byte) : ginv a ≠ 0 := by
  rw [ginv, gexp_eq_alphaPow]
  exact alphaPow_ne_zero _

/-- The inverse of the inverse: a = a·(b·b⁻¹) = b⁻¹ for b = a⁻¹. -/
theorem ginv_ginv {a : Byte} (h : a ≠ 0) : ginv (ginv a) = a := by
  calc ginv (ginv a) = gmul (gmul a (ginv a)) (ginv (ginv a)) := by rw [gmul_ginv h, one_gmul]
    _ = a := by rw [gmul_assoc, gmul_ginv (ginv_ne_zero a), gmul_one]

/-! ### The product of polynomials over GF(2) -/

/-- The eight low powers of α are the bits of a byte. -/
theorem fieldProduct_one : ∀ a : Byte, fieldProduct a 1 = a := by decide +kernel

/-- A product by a sum of powers of α is the sum of the products. -/
theorem foldl_timesAlpha (p : Nat → Bool) (b : Byte) (ks : List Nat) (acc : Byte) :
    ks.foldl (fun acc k => if p k then acc ^^^ timesAlpha k b else acc) (gmul acc b) =
      gmul (ks.foldl (fun acc k => if p k then acc ^^^ timesAlpha k 1 else acc) acc) b := by
  induction ks generalizing acc with
  | nil => rfl
  | cons k ks ih =>
    rw [List.foldl_cons, List.foldl_cons, ← ih]
    congr 1
    split
    · rw [xor_gmul]; exact congrArg _ (gmul_alphaPow k b).symm
    · rfl

theorem gmul_eq_fieldProduct (a b : Byte) : gmul a b = fieldProduct a b := by
  have h := foldl_timesAlpha a.getLsbD b (List.range 8) 0
  rw [zero_gmul] at h
  exact (congrArg (gmul · b) (fieldProduct_one a).symm).trans h.symm

/-- Settles O29: products by powers of α are doublings, and every byte but 0 is a power of α. -/
theorem galoisFieldLaws : Obligations.GaloisFieldLaws :=
  ⟨gmul_eq_fieldProduct, gmul_comm, gmul_assoc, one_gmul, gmul_xor, fun _ => gmul_ginv⟩

/-! ### The scalar commands (R115 to R118) -/

/-- Settles O25: EXP holds the powers of α, and α^255 = 1. -/
theorem gfExpResult : Obligations.GfExpResult := by
  refine ⟨rfl, fun s => ⟨?_, alphaPow_mod _⟩⟩
  rw [← alphaPow_mod, ← gexp_eq_alphaPow]
  exact runCommand_ok (body := gfExpBody) rfl

theorem setWidth_toNat_byte {w : Word} (h : w.toNat ≤ 255) : (w.setWidth 8).toNat = w.toNat := by
  rw [BitVec.toNat_setWidth, Nat.mod_eq_of_lt (by omega)]

theorem setWidth_byte_ne_zero {w : Word} (h1 : 1 ≤ w.toNat) (h2 : w.toNat ≤ 255) : w.setWidth 8 ≠ 0 := by
  intro h
  have := setWidth_toNat_byte h2
  rw [h] at this
  simp at this
  omega

/-- Settles O26: the logarithm of an operand in range is an exponent below 255 with that power. -/
theorem gfLogResult : Obligations.GfLogResult := by
  refine ⟨rfl, fun s => ⟨fun h1 h2 => ?_, fun h => ?_⟩⟩
  · have hne := setWidth_byte_ne_zero h1 h2
    refine ⟨glog (s.host.arg0.setWidth 8), glog_lt hne, ?_, runCommand_ok (body := gfLogBody) ?_⟩
    · rw [alphaPow_glog hne, setWidth_toNat_byte h2]
    · rw [gfLogBody_eq, if_neg (by omega)]; rfl
  · exact runCommand_err (body := gfLogBody) (by rw [gfLogBody_eq, if_pos h])

/-- Settles O27: the product by logarithms is the product of polynomials over GF(2). -/
theorem gfMulResult : Obligations.GfMulResult := by
  refine ⟨rfl, fun s => ⟨fun h1 h2 => ?_, fun h => ?_⟩⟩
  · refine runCommand_ok (body := gfMulBody) ?_
    rw [gfMulBody_eq, if_neg (by omega), gmul_eq_fieldProduct]; rfl
  · exact runCommand_err (body := gfMulBody) (by rw [gfMulBody_eq, if_pos h])

/-- Settles O28: the inverse by logarithms is one for the product of polynomials over GF(2), and its own inverse is the operand. -/
theorem gfInvResult : Obligations.GfInvResult := by
  refine ⟨rfl, fun s => ⟨fun h1 h2 => ?_, fun h => ?_⟩⟩
  · have hne := setWidth_byte_ne_zero h1 h2
    refine ⟨ginv (s.host.arg0.setWidth 8), ?_, ginv_ginv hne, runCommand_ok (body := gfInvBody) ?_⟩
    · rw [← gmul_eq_fieldProduct, gmul_ginv hne]
    · rw [gfInvBody_eq, if_neg (by omega)]; rfl
  · exact runCommand_err (body := gfInvBody) (by rw [gfInvBody_eq, if_pos h])

end Sys2Proof.Machine

/-! ## Polynomials over GF(256) -/

namespace Sys2Proof.Machine

/-! ### Coefficients -/

/-- `BitVec.zero_xor` at the literal 0 of a coefficient list, a spelling `rw` does not see through. -/
theorem zero_xor_byte (a : Byte) : 0 ^^^ a = a := BitVec.zero_xor

theorem xor_zero_byte (a : Byte) : a ^^^ 0 = a := BitVec.xor_zero

theorem xor_self_byte (a : Byte) : a ^^^ a = 0 := BitVec.xor_self

theorem getD_xorInto {p r : List Byte} (h : p.length ≤ r.length) (k : Nat) : (xorInto p r).getD k 0 = p.getD k 0 ^^^ r.getD k 0 := by
  induction p generalizing r k with
  | nil => exact (zero_xor_byte _).symm
  | cons a p ih =>
    cases r with
    | nil => simp at h
    | cons c r =>
      cases k with
      | zero => rfl
      | succ k => exact ih (by simpa using h) k

theorem getD_scale (f : Byte) (p : List Byte) (k : Nat) : (scale f p).getD k 0 = gmul f (p.getD k 0) := by
  rw [scale, List.getD_eq_getElem?_getD, List.getD_eq_getElem?_getD, List.getElem?_map]
  cases p[k]? with
  | none => exact (gmul_zero f).symm
  | some c => rfl

theorem getD_replicate_zero (n k : Nat) : (List.replicate n (0 : Byte)).getD k 0 = 0 := by
  rw [List.getD_eq_getElem?_getD, List.getElem?_replicate]
  split <;> rfl

/-- A sum may start from any term. -/
theorem foldl_xor_start (f : Nat → Byte) (ks : List Nat) (acc : Byte) :
    ks.foldl (fun acc i => acc ^^^ f i) acc = acc ^^^ ks.foldl (fun acc i => acc ^^^ f i) 0 := by
  induction ks generalizing acc with
  | nil => exact (xor_zero_byte _).symm
  | cons k ks ih => rw [List.foldl_cons, List.foldl_cons, ih, ih (0 ^^^ f k), zero_xor_byte, BitVec.xor_assoc]

theorem convolution_nil (b : List Byte) (k : Nat) : convolution [] b k = 0 := by
  unfold convolution
  generalize List.range (k + 1) = ks
  induction ks with
  | nil => rfl
  | cons i ks ih => rwa [List.foldl_cons, List.getD_nil, zero_gmul, xor_zero_byte]

theorem convolution_cons_zero (x : Byte) (a b : List Byte) : convolution (x :: a) b 0 = gmul x (b.getD 0 0) := zero_xor_byte _

/-- The leading term of the first factor meets b[k]; the other terms make the coefficient before it. -/
theorem convolution_cons_succ (x : Byte) (a b : List Byte) (k : Nat) :
    convolution (x :: a) b (k + 1) = gmul x (b.getD (k + 1) 0) ^^^ convolution a b k := by
  have hrange : List.range (k + 1 + 1) = 0 :: (List.range (k + 1)).map Nat.succ := List.range_succ_eq_map
  simp only [convolution, hrange, List.foldl_cons, List.foldl_map, List.getD_cons_zero, List.getD_cons_succ, Nat.succ_eq_add_one,
    Nat.add_sub_add_right, Nat.sub_zero]
  rw [foldl_xor_start, zero_xor_byte]

/-! ### Products -/

theorem polyMul_length_eq (a : List Byte) {b : List Byte} (hb : b ≠ []) : (polyMul a b).length = a.length + (b.length - 1) := by
  have := List.length_pos_iff.mpr hb
  cases a with
  | nil => rw [polyMul, List.length_replicate, List.length_nil, Nat.zero_add]
  | cons x a => rw [polyMul_length (List.cons_ne_nil x a) hb]; omega

theorem getD_polyMul (a : List Byte) {b : List Byte} (hb : b ≠ []) (k : Nat) : (polyMul a b).getD k 0 = convolution a b k := by
  induction a generalizing k with
  | nil => rw [polyMul, getD_replicate_zero, convolution_nil]
  | cons x a ih =>
    have hlen : (scale x b).length ≤ (0 :: polyMul a b).length := by
      rw [scale_length, List.length_cons, polyMul_length_eq a hb]; omega
    rw [polyMul, getD_xorInto hlen, getD_scale]
    cases k with
    | zero => rw [convolution_cons_zero]; exact xor_zero_byte _
    | succ k => rw [convolution_cons_succ, List.getD_cons_succ, ih]

theorem polyMul_eq_map_convolution {a b : List Byte} (ha : a ≠ []) (hb : b ≠ []) :
    polyMul a b = (List.range (a.length + b.length - 1)).map (convolution a b) := by
  refine List.ext_getElem (by rw [polyMul_length ha hb, List.length_map, List.length_range]) fun k h1 h2 => ?_
  rw [← getD_eq_of_lt h1, getD_polyMul a hb, List.getElem_map, List.getElem_range]

/-! ### Long division, the divisor given as its leading coefficient and the rest -/

theorem eliminate_cons (inv c x : Byte) (b r : List Byte) (n : Nat) :
    eliminate inv (c :: b) (n + 1) (x :: r) = eliminate inv (c :: b) n (xorInto (scale (gmul x inv) b) r) := rfl

/-- The factor of an elimination step takes the divisor's lead to the term it eliminates. -/
theorem gmul_gmul_ginv {c : Byte} (hc : c ≠ 0) (x : Byte) : gmul (gmul x (ginv c)) c = x := by
  rw [gmul_assoc, gmul_comm _ c, gmul_ginv hc, gmul_one]

theorem eliminate_length {inv c : Byte} {b r : List Byte} {n : Nat} (h : r.length = n + b.length) :
    (eliminate inv (c :: b) n r).length = b.length := by
  induction n generalizing r with
  | zero => rw [eliminate, h, Nat.zero_add]
  | succ n ih =>
    cases r with
    | nil => rw [List.length_nil] at h; omega
    | cons x r =>
      have h : r.length = n + b.length := by rw [List.length_cons] at h; omega
      rw [eliminate_cons, ih]
      rw [xorInto_length (by rw [scale_length]; omega), h]

/-- n steps of long division give the n terms of a quotient, and what they leave is the remainder. -/
theorem eliminate_quotient {c : Byte} (hc : c ≠ 0) {b r : List Byte} {n : Nat} (h : r.length = n + b.length) :
    ∃ q : List Byte, q.length = n ∧ ∀ k, r.getD k 0 =
      convolution q (c :: b) k ^^^ (if k < n then 0 else (eliminate (ginv c) (c :: b) n r).getD (k - n) 0) := by
  induction n generalizing r with
  | zero => exact ⟨[], rfl, fun k => by rw [convolution_nil, if_neg (Nat.not_lt_zero k)]; exact (zero_xor_byte _).symm⟩
  | succ n ih =>
    cases r with
    | nil => rw [List.length_nil] at h; omega
    | cons x r =>
      have h : r.length = n + b.length := by rw [List.length_cons] at h; omega
      have hle : (scale (gmul x (ginv c)) b).length ≤ r.length := by rw [scale_length]; omega
      obtain ⟨q, hq, hr⟩ := ih (r := xorInto (scale (gmul x (ginv c)) b) r) (by rw [xorInto_length hle, h])
      refine ⟨gmul x (ginv c) :: q, by rw [List.length_cons, hq], fun k => ?_⟩
      cases k with
      | zero =>
        rw [convolution_cons_zero, List.getD_cons_zero, List.getD_cons_zero, gmul_gmul_ginv hc, if_pos (Nat.succ_pos n)]
        exact (xor_zero_byte _).symm
      | succ k =>
        have hk := hr k
        rw [getD_xorInto hle, getD_scale] at hk
        simp only [convolution_cons_succ, List.getD_cons_succ, eliminate_cons, Nat.add_lt_add_iff_right, Nat.add_sub_add_right]
        rw [BitVec.xor_assoc, ← hk, ← BitVec.xor_assoc, xor_self_byte, zero_xor_byte]

theorem rightAlign_self {n : Nat} {r : List Byte} (h : r.length = n) : rightAlign n r = r := by
  rw [rightAlign, h, Nat.sub_self]; rfl

/-- A dividend shorter than the divisor is its own remainder, left-padded. -/
theorem polyRem_of_lt {a b : List Byte} (h : a.length < b.length) :
    polyRem a b = List.replicate (b.length - 1 - a.length) 0 ++ a := by
  rw [polyRem, show a.length + 1 - b.length = 0 by omega, eliminate, rightAlign, show a.length - (b.length - 1) = 0 by omega]
  rfl

theorem polyRem_eq_eliminate {c : Byte} {a b : List Byte} (h : b.length ≤ a.length) :
    polyRem a (c :: b) = eliminate (ginv c) (c :: b) (a.length - b.length) a := by
  rw [polyRem, List.length_cons, Nat.add_sub_cancel, Nat.add_sub_add_right, List.headD_cons]
  exact rightAlign_self (eliminate_length (Nat.sub_add_cancel h).symm)

/-! ### Long division is linear -/

theorem polySum_cons (x y : Byte) (r s : List Byte) : polySum (x :: r) (y :: s) = (x ^^^ y) :: polySum r s := rfl

theorem scale_xor (f g : Byte) (p : List Byte) : scale (f ^^^ g) p = polySum (scale f p) (scale g p) := by
  induction p with
  | nil => rfl
  | cons a p ih => rw [scale, List.map_cons, xor_gmul]; exact congrArg _ ih

theorem xorInto_polySum {p q r s : List Byte} (hp : p.length = q.length) (hr : r.length = s.length) :
    xorInto (polySum p q) (polySum r s) = polySum (xorInto p r) (xorInto q s) := by
  induction p generalizing q r s with
  | nil => rw [List.length_eq_zero_iff.mp hp.symm]; rfl
  | cons a p ih =>
    cases q with
    | nil => cases hp
    | cons b q =>
      cases r with
      | nil => rw [List.length_eq_zero_iff.mp hr.symm]; rfl
      | cons x r =>
        cases s with
        | nil => cases hr
        | cons y s =>
          simp only [polySum_cons, xorInto, ih (Nat.succ.inj hp) (Nat.succ.inj hr)]
          congr 1
          ac_rfl

theorem eliminate_polySum (inv c : Byte) (b : List Byte) (n : Nat) {r s : List Byte} (h : r.length = s.length)
    (hn : n + b.length ≤ r.length) :
    eliminate inv (c :: b) n (polySum r s) = polySum (eliminate inv (c :: b) n r) (eliminate inv (c :: b) n s) := by
  induction n generalizing r s with
  | zero => rfl
  | succ n ih =>
    match r, s, h with
    | [], [], _ => simp at hn
    | x :: r, y :: s, h =>
      have h : r.length = s.length := Nat.succ.inj h
      have hn : n + b.length ≤ r.length := by rw [List.length_cons] at hn; omega
      have hr (f : Byte) : (xorInto (scale f b) r).length = r.length := xorInto_length (by rw [scale_length]; omega)
      have hs (f : Byte) : (xorInto (scale f b) s).length = s.length := xorInto_length (by rw [scale_length]; omega)
      rw [polySum_cons, eliminate_cons, eliminate_cons, eliminate_cons, xor_gmul, scale_xor,
        xorInto_polySum (by rw [scale_length, scale_length]) h, ih (by rw [hr, hs, h]) (by rw [hr]; exact hn)]

theorem scale_zero_left (p : List Byte) : scale 0 p = List.replicate p.length 0 := by
  induction p with
  | nil => rfl
  | cons a p ih => rw [scale, List.map_cons, zero_gmul]; exact congrArg _ ih

theorem xorInto_zeros {n : Nat} {r : List Byte} (h : n ≤ r.length) : xorInto (List.replicate n 0) r = r := by
  induction n generalizing r with
  | zero => rfl
  | succ n ih =>
    cases r with
    | nil => simp at h
    | cons x r =>
      rw [List.replicate_succ, xorInto, ih (by simpa using h)]
      exact congrArg (· :: r) (zero_xor_byte _)

/-- Leading zeros divide to nothing. -/
theorem eliminate_zeros (inv c : Byte) {b e : List Byte} (h : b.length ≤ e.length) (n : Nat) :
    eliminate inv (c :: b) n (List.replicate n 0 ++ e) = e := by
  induction n with
  | zero => rfl
  | succ n ih =>
    rw [List.replicate_succ, List.cons_append, eliminate_cons, zero_gmul, scale_zero_left, xorInto_zeros, ih]
    rw [List.length_append]; omega

theorem polySum_self (e : List Byte) : polySum e e = List.replicate e.length 0 := by
  induction e with
  | nil => rfl
  | cons x e ih => rw [polySum_cons, xor_self_byte, ih]; rfl

theorem append_eq_polySum (d e : List Byte) :
    d ++ e = polySum (d ++ List.replicate e.length 0) (List.replicate d.length 0 ++ e) := by
  induction d with
  | nil =>
    induction e with
    | nil => rfl
    | cons y e ih =>
      show y :: e = (0 ^^^ y) :: polySum (List.replicate e.length 0) e
      rw [zero_xor_byte]
      exact congrArg _ ih
  | cons x d ih =>
    show x :: (d ++ e) = (x ^^^ 0) :: polySum (d ++ List.replicate e.length 0) (List.replicate d.length 0 ++ e)
    rw [xor_zero_byte, ← ih]

/-- A block followed by its own remainder leaves the remainder 0: the division is linear, and the remainder divides to itself. -/
theorem polyRem_append_polyRem {c : Byte} {b : List Byte} (d : List Byte) :
    polyRem (d ++ polyRem (shiftPoly d b.length) (c :: b)) (c :: b) = List.replicate b.length 0 := by
  have hlen := polyRem_length (shiftPoly d b.length) (c :: b)
  have hdiv : polyRem (shiftPoly d b.length) (c :: b) = eliminate (ginv c) (c :: b) d.length (shiftPoly d b.length) := by
    rw [polyRem_eq_eliminate (by rw [shiftPoly_length]; omega), shiftPoly_length, Nat.add_sub_cancel]
  generalize polyRem (shiftPoly d b.length) (c :: b) = e at hlen hdiv
  have hlen : e.length = b.length := hlen
  rw [polyRem_eq_eliminate (by rw [List.length_append]; omega), List.length_append, hlen, Nat.add_sub_cancel, append_eq_polySum, hlen,
    eliminate_polySum, ← shiftPoly, ← hdiv, eliminate_zeros _ _ (by omega), polySum_self, hlen]
  · simp only [List.length_append, List.length_replicate, hlen]
  · exact Nat.le_of_eq (by rw [List.length_append, List.length_replicate])

/-! ### The value of a polynomial -/

/-- Horner's scheme started from the value `u`: the value at `x` of u·x^|p| + p. -/
def horner (x u : Byte) (p : List Byte) : Byte := p.foldl (fun acc c => gmul acc x ^^^ c) u

theorem polyEval_eq_horner (p : List Byte) (x : Byte) : polyEval p x = horner x 0 p := rfl

theorem horner_cons (x u c : Byte) (p : List Byte) : horner x u (c :: p) = horner x (gmul u x ^^^ c) p := rfl

theorem polyEval_cons (x c : Byte) (p : List Byte) : polyEval (c :: p) x = horner x c p := by
  rw [polyEval_eq_horner, horner_cons, zero_gmul, zero_xor_byte]

theorem polyEval_append (x : Byte) (p q : List Byte) : polyEval (p ++ q) x = horner x (polyEval p x) q := List.foldl_append

theorem horner_xor (x u v : Byte) (p : List Byte) :
    horner x (u ^^^ v) p = horner x u (List.replicate p.length 0) ^^^ horner x v p := by
  induction p generalizing u v with
  | nil => rfl
  | cons c p ih =>
    rw [horner_cons, xor_gmul, BitVec.xor_assoc, ih, List.length_cons, List.replicate_succ, horner_cons, horner_cons, xor_zero_byte]

theorem horner_xorInto (x : Byte) {p r : List Byte} (h : p.length ≤ r.length) (u v : Byte) :
    horner x (u ^^^ v) (xorInto p r) = horner x (horner x u p) (List.replicate (r.length - p.length) 0) ^^^ horner x v r := by
  induction p generalizing r u v with
  | nil => exact horner_xor x u v r
  | cons a p ih =>
    cases r with
    | nil => simp at h
    | cons c r =>
      have hsum : gmul (u ^^^ v) x ^^^ (a ^^^ c) = (gmul u x ^^^ a) ^^^ (gmul v x ^^^ c) := by rw [xor_gmul]; ac_rfl
      rw [xorInto, horner_cons, hsum, ih (by simpa using h), List.length_cons, List.length_cons, Nat.add_sub_add_right]
      rfl

theorem horner_scale (x f u : Byte) (p : List Byte) : horner x (gmul f u) (scale f p) = gmul f (horner x u p) := by
  induction p generalizing u with
  | nil => rfl
  | cons c p ih => rw [scale, List.map_cons, horner_cons, gmul_assoc, ← gmul_xor]; exact ih _

theorem polyEval_scale (x f : Byte) (p : List Byte) : polyEval (scale f p) x = gmul f (polyEval p x) := by
  have h := horner_scale x f 0 p
  rwa [gmul_zero] at h

theorem scale_zeros (f : Byte) (n : Nat) : scale f (List.replicate n 0) = List.replicate n 0 := by
  rw [scale, List.map_replicate, gmul_zero]

theorem horner_gmul_zeros (x f u : Byte) (n : Nat) :
    horner x (gmul f u) (List.replicate n 0) = gmul f (horner x u (List.replicate n 0)) := by
  rw [← horner_scale, scale_zeros]

theorem horner_zero_zeros (x : Byte) (n : Nat) : horner x 0 (List.replicate n 0) = 0 := by
  have h := horner_gmul_zeros x 0 0 n
  rwa [zero_gmul, zero_gmul] at h

/-- The value of a product is the product of the values. -/
theorem polyEval_polyMul (x : Byte) (a : List Byte) {b : List Byte} (hb : b ≠ []) :
    polyEval (polyMul a b) x = gmul (polyEval a x) (polyEval b x) := by
  induction a with
  | nil => rw [polyMul, polyEval_eq_horner, horner_zero_zeros]; exact (zero_gmul _).symm
  | cons y a ih =>
    have hpos := List.length_pos_iff.mpr hb
    have hlen : (0 :: polyMul a b).length - b.length = a.length := by rw [List.length_cons, polyMul_length_eq a hb]; omega
    have hle : (scale y b).length ≤ (0 :: polyMul a b).length := by
      rw [scale_length, List.length_cons, polyMul_length_eq a hb]; omega
    have hprod := horner_xorInto x hle 0 0
    rw [scale_length, hlen, ← polyEval_eq_horner, polyEval_scale, gmul_comm y, horner_gmul_zeros, ← polyEval_eq_horner (0 :: _),
      polyEval_cons, ← polyEval_eq_horner, ih, xor_zero_byte] at hprod
    have hsum := horner_xor x y 0 a
    rw [xor_zero_byte] at hsum
    rw [polyEval_cons, hsum, xor_gmul, gmul_comm (horner _ _ _)]
    exact hprod

/-- At a root of the divisor the division keeps the value. -/
theorem polyEval_eliminate {x c : Byte} (hc : c ≠ 0) {b : List Byte} (hroot : polyEval (c :: b) x = 0) {n : Nat} {r : List Byte}
    (h : n + b.length ≤ r.length) : polyEval (eliminate (ginv c) (c :: b) n r) x = polyEval r x := by
  induction n generalizing r with
  | zero => rfl
  | succ n ih =>
    cases r with
    | nil => simp at h
    | cons y r =>
      have h : n + b.length ≤ r.length := by rw [List.length_cons] at h; omega
      have hle : (scale (gmul y (ginv c)) b).length ≤ r.length := by rw [scale_length]; omega
      have hzero : horner x y (scale (gmul y (ginv c)) b) = 0 := by
        have h0 := horner_scale x (gmul y (ginv c)) c b
        rwa [gmul_gmul_ginv hc, ← polyEval_cons x c b, hroot, gmul_zero] at h0
      have hstep := horner_xorInto x hle y y
      rw [hzero, horner_zero_zeros, zero_xor_byte, xor_self_byte] at hstep
      rw [eliminate_cons, ih (by rw [xorInto_length hle]; exact h), polyEval_cons]
      exact hstep

/-! ### The generator polynomial (R122) -/

/-- The generator polynomial is monic of degree n. -/
theorem genPoly_monic (n : Nat) : ∃ g, genPoly n = 1 :: g ∧ g.length = n := by
  suffices h : ∃ g, genPoly n = 1 :: g by
    obtain ⟨g, hg⟩ := h
    exact ⟨g, hg, by have := genPoly_length n; rw [hg] at this; simpa using this⟩
  induction n with
  | zero => exact ⟨[], rfl⟩
  | succ n ih =>
    obtain ⟨g, hg⟩ := ih
    exact ⟨_, by rw [genPoly, hg]; rfl⟩

theorem genPoly_ne_nil (n : Nat) : genPoly n ≠ [] := by
  obtain ⟨g, hg, -⟩ := genPoly_monic n
  rw [hg]
  exact List.cons_ne_nil _ _

theorem genPoly_root {i n : Nat} (h : i < n) : polyEval (genPoly n) (alphaPow i) = 0 := by
  induction n with
  | zero => omega
  | succ n ih =>
    rw [genPoly, polyEval_polyMul _ _ (List.cons_ne_nil _ _)]
    rcases Nat.lt_succ_iff_lt_or_eq.mp h with h | rfl
    · rw [ih h, zero_gmul]
    · have hfactor : polyEval [1, gexp i] (alphaPow i) = 0 := by
        rw [polyEval_cons, horner_cons, one_gmul, gexp_eq_alphaPow, xor_self_byte]; rfl
      rw [hfactor, gmul_zero]

/-! ### Reed-Solomon codewords (R123) -/

/-- Settles O33: a block followed by its remainder divides to 0; and at the generator's roots the remainder has the value of the shifted
block, so the codeword's value there is a sum of two equal values. -/
theorem reedSolomonCodewords : Obligations.ReedSolomonCodewords := by
  intro d n _ _ _ _
  obtain ⟨g, hg, rfl⟩ := genPoly_monic n
  have hecc : ecc d g.length = polyRem (shiftPoly d g.length) (1 :: g) := by rw [ecc, hg]
  refine ⟨ecc_length d _, ?_, fun i hi => ?_⟩
  · rw [hecc, hg, polyRem_append_polyRem]
  · have hroot : polyEval (1 :: g) (gexp i) = 0 := by rw [← hg, gexp_eq_alphaPow, genPoly_root hi]
    have heval : polyEval (ecc d g.length) (gexp i) = horner (gexp i) (polyEval d (gexp i)) (List.replicate g.length 0) := by
      rw [hecc, polyRem_eq_eliminate (by rw [shiftPoly_length]; omega),
        polyEval_eliminate (by decide) hroot (by rw [shiftPoly_length]; omega), shiftPoly, polyEval_append]
    have hsum := horner_xor (gexp i) (polyEval d (gexp i)) 0 (ecc d g.length)
    rw [xor_zero_byte, ecc_length, ← heval, ← polyEval_eq_horner, xor_self_byte] at hsum
    rw [polyEval_append, hsum]

end Sys2Proof.Machine

/-! ## The polynomial commands, and the frames of the commands that write registers or bytes -/

namespace Sys2Proof.Machine

/-! ### The bodies of POLY_MUL and POLY_MOD on operands that can be read -/

theorem polyA_ok {s : State} {a : List Byte} (h : s.ramBytes .pa 0 (polyLengths s).la = .ok a) :
    polyA s = .ok (shiftPoly a (polyLengths s).s) := by
  simp only [polyA, liftFault_ok.mpr h]

theorem polyB_ok {s : State} {b : List Byte} (h : s.ramBytes .pb 0 (polyLengths s).lb = .ok b) : polyB s = .ok b := liftFault_ok.mpr h

/-- The length checks raise InvalidArgument only. -/
theorem checkPolyLengths_error {n : PolyLengths} {e : Stop} (h : checkPolyLengths n = .error e) : e = .err .invalidArgument := by
  by_cases hn : n.la = 0 ∨ n.lb = 0 ∨ n.la > 256 ∨ n.lb > 256 ∨ n.la + n.s > 512
  · exact (Except.error.inj ((checkPolyLengths_err hn).symm.trans h)).symm
  · cases (checkPolyLengths_ok (n := n) (by omega) (by omega) (by omega) (by omega) (by omega)).symm.trans h

theorem State.setPolyResult_of_length (s : State) {r : List Byte} {n : Nat} (h : r.length = n) :
    s.setPolyResult r = { s.writeRam .pr r with engine := { s.engine with plenR := BitVec.ofNat 10 n } } := by
  subst h
  rfl

theorem polyMulBody_ok {s : State} {a b : List Byte} (hc : checkPolyLengths (polyLengths s) = .ok ()) (hp : (polyLengths s).product ≤ 512)
    (ha : s.ramBytes .pa 0 (polyLengths s).la = .ok a) (hb : s.ramBytes .pb 0 (polyLengths s).lb = .ok b) :
    polyMulBody s = .ok (s.setPolyResult (polyMul (shiftPoly a (polyLengths s).s) b)) := by
  simp only [polyMulBody, bind, Except.bind, hc, if_neg (Nat.not_lt.mpr hp), polyA_ok ha, polyB_ok hb]

theorem polyMulBody_err {s : State} (h : (polyLengths s).la = 0 ∨ (polyLengths s).lb = 0 ∨ (polyLengths s).la > 256 ∨
      (polyLengths s).lb > 256 ∨ (polyLengths s).la + (polyLengths s).s > 512 ∨ (polyLengths s).product > 512) :
    polyMulBody s = .error (.err .invalidArgument) := by
  by_cases hp : (polyLengths s).product > 512
  · cases hc : checkPolyLengths (polyLengths s) with
    | ok u => simp only [polyMulBody, bind, Except.bind, hc, if_pos hp]
    | error e => simp only [polyMulBody, bind, Except.bind, hc, checkPolyLengths_error hc]
  · simp only [polyMulBody, bind, Except.bind, checkPolyLengths_err (n := polyLengths s) (by omega)]

theorem polyModBody_ok {s : State} {lead : Byte} {a b : List Byte} (hc : checkPolyLengths (polyLengths s) = .ok ())
    (hl : s.ramByte .pb 0 = .ok lead) (hn : lead ≠ 0)
    (ha : s.ramBytes .pa 0 (polyLengths s).la = .ok a) (hb : s.ramBytes .pb 0 (polyLengths s).lb = .ok b) :
    polyModBody s = .ok (s.setPolyResult (polyRem (shiftPoly a (polyLengths s).s) b)) := by
  simp only [polyModBody, bind, Except.bind, hc, liftFault_ok.mpr hl, if_neg hn, polyA_ok ha, polyB_ok hb]

theorem polyModBody_lead_zero {s : State} (hc : checkPolyLengths (polyLengths s) = .ok ()) (hl : s.ramByte .pb 0 = .ok 0) :
    polyModBody s = .error (.err .domainError) := by
  simp only [polyModBody, bind, Except.bind, hc, liftFault_ok.mpr hl, if_true]

theorem ramBytes_cons {s : State} {r : Ram} {n : Nat} {c : Byte} {b : List Byte} (h : s.ramBytes r 0 n = .ok (c :: b)) :
    s.ramByte r 0 = .ok c := (State.ramBytes_ok h).2 0 (Nat.succ_pos _)

/-! ### POLY_MUL, POLY_MOD, RS_GENPOLY (R120 to R122) -/

/-- Settles O30: a product has LR terms, each of them its convolution. -/
theorem polyMulResult : Obligations.PolyMulResult := by
  refine ⟨rfl, fun s => ⟨fun a b h1 h2 h3 h4 h5 ha hb => ?_, fun h => runCommand_err (body := polyMulBody) (polyMulBody_err h)⟩⟩
  have hla : (shiftPoly a s.host.pshift.toNat).length = s.host.plenA.toNat + s.host.pshift.toNat := by
    rw [shiftPoly_length, (State.ramBytes_ok ha).1]
  have hlb := (State.ramBytes_ok hb).1
  have hprod := polyMul_eq_map_convolution (a := shiftPoly a s.host.pshift.toNat) (b := b) (List.ne_nil_of_length_pos (by omega))
    (List.ne_nil_of_length_pos (by omega))
  rw [hla, hlb] at hprod
  have hbody := polyMulBody_ok (s := s) (checkPolyLengths_ok h1 h2 h3 h4 (by simp only [polyLengths]; omega)) h5 ha hb
  refine runCommand_ok (body := polyMulBody) (hbody.trans ?_)
  rw [← s.setPolyResult_of_length (by rw [List.length_map, List.length_range])]
  exact congrArg (fun r => Except.ok (s.setPolyResult r)) hprod

/-- Settles O31: the n steps of long division give a quotient of n terms, and what they leave is the remainder. -/
theorem polyModResult : Obligations.PolyModResult := by
  refine ⟨rfl, fun s => ⟨fun a b h1 h2 h3 h4 h5 ha hb hn => ?_, fun h => ?_, fun h1 h2 h3 h4 h5 hl => ?_⟩⟩
  · obtain ⟨hbl, -⟩ := State.ramBytes_ok hb
    cases b with
    | nil => exact absurd rfl hn
    | cons c b =>
      have hla : (shiftPoly a s.host.pshift.toNat).length = s.host.plenA.toNat + s.host.pshift.toNat := by
        rw [shiftPoly_length, (State.ramBytes_ok ha).1]
      have hbl : s.host.plenB.toNat = b.length + 1 := hbl.symm
      have hbody := polyModBody_ok (s := s) (checkPolyLengths_ok h1 h2 h3 h4 h5) (ramBytes_cons hb) hn ha hb
      have hlen : (polyRem (shiftPoly a s.host.pshift.toNat) (c :: b)).length = s.host.plenB.toNat - 1 := by
        rw [polyRem_length, hbl]; rfl
      refine ⟨_, hlen, ?_, fun hlt => ?_, fun hle => ?_⟩
      · exact runCommand_ok (body := polyModBody) (hbody.trans (congrArg _ (s.setPolyResult_of_length hlen)))
      · rw [polyRem_of_lt (by rw [hla, List.length_cons, ← hbl]; exact hlt), hla, List.length_cons, ← hbl]; rfl
      · have hsteps : s.host.plenA.toNat + s.host.pshift.toNat - b.length = s.host.plenA.toNat + s.host.pshift.toNat - s.host.plenB.toNat + 1 := by
          omega
        obtain ⟨q, hq, hdiv⟩ := eliminate_quotient (c := c) (b := b) (r := shiftPoly a s.host.pshift.toNat) hn
          (n := s.host.plenA.toNat + s.host.pshift.toNat - b.length) (by omega)
        rw [← hla, ← polyRem_eq_eliminate (by omega), hla] at hdiv
        refine ⟨q, hq.trans hsteps, fun k _ => ?_⟩
        rw [hbl, Nat.add_sub_cancel]
        exact hdiv k
  · have hlengths : checkPolyLengths (polyLengths s) = .error (.err .invalidArgument) := checkPolyLengths_err h
    exact runCommand_err (body := polyModBody) (by simp only [polyModBody, bind, Except.bind, hlengths])
  · exact runCommand_err (body := polyModBody) (polyModBody_lead_zero (checkPolyLengths_ok h1 h2 h3 h4 h5) hl)

/-- Settles O32: the generator polynomial is monic of degree n, and each of its factors has its root. -/
theorem rsGenpolyResult : Obligations.RsGenpolyResult := by
  refine ⟨rfl, fun s => ⟨fun h => ?_, fun h => ?_⟩⟩
  · refine ⟨genPoly s.host.arg0.toNat, runCommand_ok (body := rsGenpolyBody) ?_, genPoly_length _, ?_, fun i hi => genPoly_root hi⟩
    · rw [rsGenpolyBody_eq, if_neg (by omega), State.setDivisor, genPoly_length]
    · obtain ⟨g, hg, -⟩ := genPoly_monic s.host.arg0.toNat
      rw [hg, List.getD_cons_zero]
  · exact runCommand_err (body := rsGenpolyBody) (by rw [rsGenpolyBody_eq, if_pos h])

/-! ### EC codewords by commands (R124) -/

/-- A run of bytes depends on the RAM contents, the parameter and the epoch only. -/
theorem ramBytes_congr {s t : State} (hm : t.ram = s.ram) (hp : t.params = s.params) (he : t.ramEpoch = s.ramEpoch) (r : Ram) (k n : Nat) :
    t.ramBytes r k n = s.ramBytes r k n := by
  induction n generalizing k with
  | zero => rfl
  | succ n ih => rw [State.ramBytes, State.ramBytes, ih, State.ramByte_congr (by rw [hm]) hp he]

/-- Entries of a RAM that no write reached. -/
theorem ramBytes_writeRam_other (s : State) {r r' : Ram} (h : r' ≠ r) {bs ds : List Byte} (hb : bs.length ≤ r.size)
    (hd : ds.length ≤ r'.size) (hs : s.ramBytes r' 0 ds.length = .ok ds) : (s.writeRam r bs).ramBytes r' 0 ds.length = .ok ds := by
  refine State.ramBytes_of_bytes fun j hj => ?_
  have hj' := (State.ramBytes_ok hs).2 j hj
  rw [Nat.zero_add] at hj' ⊢
  rw [State.ramByte_writeRam s r r' bs hb (by omega), dif_neg fun hc => h hc.1, hj']

/-- The state in which POLY_MOD runs when it is issued after an RS_GENPOLY of degree n: PB holds the generator polynomial and PLEN_B its length. -/
def afterGenpoly (s : State) (n : Nat) : State :=
  ((s.accept (encode .rsGenpoly)).setDivisor (genPoly n)).complete.accept (encode .polyMod)

theorem issueAll_genpoly_mod {s : State} (h : s.host.arg0.toNat ≤ 255) {u : State}
    (hu : polyModBody (afterGenpoly s s.host.arg0.toNat) = .ok u) : issueAll [.rsGenpoly, .polyMod] s = .next u.complete := by
  have hgen : issue .rsGenpoly s = .next ((s.accept (encode .rsGenpoly)).setDivisor (genPoly s.host.arg0.toNat)).complete :=
    runCommand_ok (body := rsGenpolyBody) (by rw [rsGenpolyBody_eq]; exact if_neg (Nat.not_lt.mpr h))
  have hmod : issue .polyMod ((s.accept (encode .rsGenpoly)).setDivisor (genPoly s.host.arg0.toNat)).complete = .next u.complete :=
    runCommand_ok (body := polyModBody) hu
  simp only [issueAll, hgen, hmod]

theorem afterGenpoly_ramBytes (s : State) (n : Nat) (r : Ram) (k : Nat) :
    (afterGenpoly s n).ramBytes r 0 k = (s.writeRam .pb (genPoly n)).ramBytes r 0 k :=
  ramBytes_congr (s := s.writeRam .pb (genPoly n)) (t := afterGenpoly s n) rfl rfl rfl r 0 k

theorem afterGenpoly_lengths {s : State} {n : Nat} (h : n ≤ 255) :
    polyLengths (afterGenpoly s n) = { la := s.host.plenA.toNat, lb := n + 1, s := s.host.pshift.toNat } := by
  have hlb : (BitVec.ofNat 9 (genPoly n).length).toNat = n + 1 := by
    rw [genPoly_length, BitVec.toNat_ofNat, Nat.mod_eq_of_lt (by omega)]
  simp only [polyLengths, ← hlb]
  rfl

/-- Settles O34: RS_GENPOLY leaves PA as it is, so POLY_MOD divides the shifted block by the generator polynomial in PB. -/
theorem ecCodewordsByCommands : Obligations.EcCodewordsByCommands := by
  rintro s d n h1 h2 h3 h4 rfl hla hsh hd
  have hfit : (genPoly s.host.arg0.toNat).length ≤ Ram.pb.size := by rw [genPoly_length]; simp only [Ram.size]; omega
  have hlens := afterGenpoly_lengths (s := s) h3
  rw [hla, hsh] at hlens
  have hcheck : checkPolyLengths (polyLengths (afterGenpoly s s.host.arg0.toNat)) = .ok () := by
    rw [hlens]
    refine checkPolyLengths_ok ?_ ?_ ?_ ?_ ?_ <;> dsimp only <;> omega
  have hpa : (afterGenpoly s s.host.arg0.toNat).ramBytes .pa 0 d.length = .ok d := by
    rw [afterGenpoly_ramBytes]
    exact ramBytes_writeRam_other s (by decide) hfit h2 hd
  have hpb : (afterGenpoly s s.host.arg0.toNat).ramBytes .pb 0 (s.host.arg0.toNat + 1) = .ok (genPoly s.host.arg0.toNat) := by
    have hself := State.ramBytes_writeRam_self s .pb hfit (Nat.le_refl _)
    rwa [List.take_length, genPoly_length, ← afterGenpoly_ramBytes] at hself
  obtain ⟨g, hg, -⟩ := genPoly_monic s.host.arg0.toNat
  have hbody := polyModBody_ok hcheck (ramBytes_cons (hg ▸ hpb)) (by decide) (by rw [hlens]; exact hpa) (by rw [hlens]; exact hpb)
  rw [hlens] at hbody
  have hlen := ecc_length d s.host.arg0.toNat
  refine ⟨_, issueAll_genpoly_mod h3 hbody, rfl, ?_, ?_⟩
  · show (BitVec.ofNat 10 (ecc d s.host.arg0.toNat).length).toNat = _
    rw [hlen, BitVec.toNat_ofNat, Nat.mod_eq_of_lt (by omega)]
  · have hself := State.ramBytes_writeRam_self (afterGenpoly s s.host.arg0.toNat) .pr (bs := ecc d s.host.arg0.toNat)
      (by rw [hlen]; simp only [Ram.size]; omega) (Nat.le_refl _)
    rw [List.take_length, hlen] at hself
    refine (ramBytes_congr ?_ ?_ ?_ .pr 0 _).trans hself <;> rfl

/-! ### The frame of the commands that write one register or none -/

/-- What command `i`, one that writes a register or none, leaves unchanged of the contents and of the host-written registers. -/
structure RegisterFrame (i : Instr) (s t : State) : Prop where
  host : t.host = s.host
  planes : t.planes = s.planes
  ram : t.ram = s.ram
  engine : t.engine = { s.engine with result := t.engine.result, tbl := t.engine.tbl }
  result : [Instr.nop, .tableLookup, .finalize].contains i = true → t.engine.result = s.engine.result
  tbl : i ≠ .tableLookup → t.engine.tbl = s.engine.tbl
  cwValid : t.status.cwValid = s.status.cwValid
  bstate : i ≠ .finalize → t.status.bstate = s.status.bstate

/-- An error, or no write at all, is in every frame. -/
theorem RegisterFrame.of_same {i : Instr} {s t : State} (h : SameContents s t) (hh : t.host = s.host) : RegisterFrame i s t where
  host := hh
  planes := h.planes
  ram := h.ram
  engine := by rw [h.engine]
  result _ := by rw [h.engine]
  tbl _ := by rw [h.engine]
  cwValid := h.cwValid
  bstate _ := h.bstate

theorem RegisterFrame.setResult {i : Instr} (hi : [Instr.nop, .tableLookup, .finalize].contains i = false) (s : State) (v : Word) :
    RegisterFrame i s (s.setResult v) where
  host := rfl
  planes := rfl
  ram := rfl
  engine := rfl
  result h := nomatch h.symm.trans hi
  tbl _ := rfl
  cwValid := rfl
  bstate _ := rfl

theorem bodyOf_registerFrame {i : Instr} {s u : State}
    (hi : [Instr.nop, .gfExp, .gfLog, .gfMul, .gfInv, .tableLookup, .bchFormat, .bchVersion, .finalize].contains i = true)
    (h : bodyOf i s = .ok u) : RegisterFrame i s u := by
  cases i <;> simp only [bodyOf] at h
  case nop => cases h; exact .of_same ⟨rfl, rfl, rfl, rfl, rfl⟩ rfl
  case gfExp => cases h; exact .setResult rfl s _
  case gfLog => rw [gfLogBody_eq] at h; split at h <;> cases h; exact .setResult rfl s _
  case gfMul => rw [gfMulBody_eq] at h; split at h <;> cases h; exact .setResult rfl s _
  case gfInv => rw [gfInvBody_eq] at h; split at h <;> cases h; exact .setResult rfl s _
  case bchFormat => rw [bchFormatBody_eq] at h; split at h <;> cases h; exact .setResult rfl s _
  case bchVersion => rw [bchVersionBody_eq] at h; split at h <;> cases h; exact .setResult rfl s _
  case tableLookup =>
    rw [tableLookupBody_eq] at h
    split at h <;> cases h
    exact ⟨rfl, rfl, rfl, rfl, fun _ => rfl, fun hn => absurd rfl hn, rfl, fun _ => rfl⟩
  case finalize =>
    rw [finalizeBody_eq] at h
    split at h
    · cases h
    · split at h <;> cases h
      exact ⟨rfl, rfl, rfl, rfl, fun _ => rfl, fun _ => rfl, rfl, fun hn => absurd rfl hn⟩
  all_goals cases hi

theorem exec_registerFrame {i : Instr} {s t : State}
    (hi : [Instr.nop, .gfExp, .gfLog, .gfMul, .gfInv, .tableLookup, .bchFormat, .bchVersion, .finalize].contains i = true)
    (h : exec i s = .next t) : RegisterFrame i s t := by
  rw [exec_eq_run] at h
  obtain ⟨u, hu, rfl⟩ | ⟨e, -, rfl⟩ := runCommand_next h
  · obtain ⟨hhost, hplanes, hram, hengine, hresult, htbl, hcw, hb⟩ := bodyOf_registerFrame hi hu
    exact ⟨hhost, hplanes, hram, hengine, hresult, htbl, hcw, hb⟩
  · exact .of_same (s.raise_contents e) rfl

/-- Settles O57: each of these commands completes with one of the frame's writes, or raises an error. -/
theorem registerCommandFrame : Obligations.RegisterCommandFrame := by
  intro i s t hi h
  obtain ⟨hhost, hplanes, hram, hengine, hresult, htbl, hcw, hb⟩ := exec_registerFrame hi h
  obtain ⟨hrst, hparams, hinbox, -, hepoch, -, -, hovr, hlastop, -, -⟩ := exec_keeps_platform h
  exact ⟨hhost, hplanes, fun r k => State.ramByte_congr (by rw [hram]) hparams hepoch, hengine, hresult, htbl, hovr, hcw, hlastop, hb,
    hparams, hrst, hinbox⟩

/-! ### The frame of the commands that store bytes -/

/-- What POLY_MUL and POLY_MOD can end with: a result of the length their rule gives, or an error. -/
theorem exec_poly_next {i : Instr} {s t : State} (hi : i = .polyMul ∨ i = .polyMod) (h : exec i s = .next t) :
    (∃ bs, bs.length = (if i = .polyMul then (polyLengths s).product else (polyLengths s).lb - 1) ∧ t = (s.setPolyResult bs).complete) ∨
      ∃ e, t = s.raise e := by
  rw [exec_eq_run] at h
  obtain ⟨u, hu, rfl⟩ | ⟨e, -, rfl⟩ := runCommand_next h
  · obtain rfl | rfl := hi
    · obtain ⟨a, b, hla, hlb, -, ha, hb, rfl⟩ := polyMulBody_ok_inv hu
      refine .inl ⟨_, ?_, rfl⟩
      have hbl := (State.ramBytes_ok hb).1
      rw [if_pos rfl, polyMul_length_eq _ (List.ne_nil_of_length_pos (by omega)), shiftPoly_length, (State.ramBytes_ok ha).1, hbl,
        PolyLengths.product]
      omega
    · obtain ⟨a, b, -, -, -, -, -, hb, -, rfl⟩ := polyModBody_ok_inv hu
      exact .inl ⟨_, by rw [if_neg (by decide), polyRem_length, (State.ramBytes_ok hb).1], rfl⟩
  · exact .inr ⟨e, rfl⟩

theorem exec_rsGenpoly_next {s t : State} (h : exec .rsGenpoly s = .next t) :
    (∃ g, g.length = s.host.arg0.toNat + 1 ∧ t = (s.setDivisor g).complete) ∨ ∃ e, t = s.raise e := by
  obtain ⟨u, hu, rfl⟩ | ⟨e, -, rfl⟩ := runCommand_next (body := rsGenpolyBody) h
  · rw [rsGenpolyBody_eq] at hu
    split at hu <;> cases hu
    exact .inl ⟨_, genPoly_length _, rfl⟩
  · exact .inr ⟨e, rfl⟩

/-- The stream of the operands ASSEMBLE and ENCODE accept has C(v) bytes. -/
theorem codewordStream_totalCount {s : State} {data : List Byte} (h : assembleOperands s = .ok data) :
    (codewordStream s.host.config.version.toNat (levelOf s.host.config.ecl) data).length =
      totalCount s.host.config.version.toNat (levelOf s.host.config.ecl) := by
  obtain ⟨-, h2, h3, h4⟩ := assembleOperands_ok_inv h
  rw [codewordStream_length (by rw [(State.ramBytes_ok h4).1]; exact h3), (blockTotals h2 _).1]

theorem exec_assemble_next {s t : State} (h : exec .assemble s = .next t) :
    (∃ data, assembleOperands s = .ok data ∧ t = (assembleWrites s.host.config data s).complete) ∨ ∃ e, t = s.raise e := by
  obtain ⟨u, hu, rfl⟩ | ⟨e, -, rfl⟩ := runCommand_next (body := assembleBody) h
  · rw [assembleBody_eq] at hu
    split at hu <;> cases hu
    exact .inl ⟨_, ‹_›, rfl⟩
  · exact .inr ⟨e, rfl⟩

/-- Of the RAMs ASSEMBLE and ENCODE write the stream to CW, or nothing. -/
theorem exec_stream_ram {i : Instr} {s t : State} (hi : i = .assemble ∨ i = .encode) (h : exec i s = .next t) :
    (∃ bs, bs.length = totalCount s.host.config.version.toNat (levelOf s.host.config.ecl) ∧ t.ram = s.ram.writeAll Ram.cw.base bs) ∨
      t.ram = s.ram := by
  obtain rfl | rfl := hi
  · obtain ⟨data, hd, rfl⟩ | ⟨e, rfl⟩ := exec_assemble_next h
    · exact .inl ⟨_, codewordStream_totalCount hd, rfl⟩
    · exact .inr rfl
  · obtain ⟨u, hu, rfl⟩ | ⟨e, -, rfl⟩ := runCommand_next (body := encodeBody) h
    · obtain ⟨data, p, hd, hp, rfl⟩ := encodeBody_ok_inv hu
      obtain ⟨bs, -, rfl⟩ := matrixPlaceWork_ok_inv hp
      exact .inl ⟨_, codewordStream_totalCount hd, rfl⟩
    · exact .inr rfl

/-- Settles O58: each of these commands stores its bytes and writes its registers, or raises an error. -/
theorem storingCommandFrame : Obligations.StoringCommandFrame := by
  intro i s t h
  refine ⟨?polyMul, ?polyMod, ?rsGenpoly, ?stream, ?polyRegs, ?divisorRegs, ?assembleRegs, ?rest⟩
  case polyMul =>
    rintro rfl a ha
    obtain ⟨bs, hlen, rfl⟩ | ⟨e, rfl⟩ := exec_poly_next (.inl rfl) h
    · exact Memory.read_writeAll_outside (by rw [hlen]; exact ha)
    · rfl
  case polyMod =>
    rintro rfl a ha
    obtain ⟨bs, hlen, rfl⟩ | ⟨e, rfl⟩ := exec_poly_next (.inr rfl) h
    · exact Memory.read_writeAll_outside (by rw [hlen]; exact ha)
    · rfl
  case rsGenpoly =>
    rintro rfl a ha
    obtain ⟨g, hlen, rfl⟩ | ⟨e, rfl⟩ := exec_rsGenpoly_next h
    · exact Memory.read_writeAll_outside (by rw [hlen]; exact ha)
    · rfl
  case stream =>
    intro hi a ha
    obtain ⟨bs, hlen, hram⟩ | hram := exec_stream_ram hi h
    · rw [hram]
      exact Memory.read_writeAll_outside (by rw [hlen]; exact ha)
    · rw [hram]
  case polyRegs =>
    intro hi
    obtain ⟨bs, -, rfl⟩ | ⟨e, rfl⟩ := exec_poly_next hi h <;> exact ⟨rfl, rfl⟩
  case divisorRegs =>
    rintro rfl
    obtain ⟨g, -, rfl⟩ | ⟨e, rfl⟩ := exec_rsGenpoly_next h <;> exact ⟨rfl, rfl⟩
  case assembleRegs =>
    rintro rfl
    obtain ⟨data, -, rfl⟩ | ⟨e, rfl⟩ := exec_assemble_next h <;> exact ⟨rfl, rfl⟩
  case rest =>
    intro hi
    obtain ⟨-, -, -, -, -, -, -, hovr, hlastop, -, -⟩ := exec_keeps_platform h
    suffices hs : t.planes = s.planes ∧ t.status.bstate = s.status.bstate ∧ (i ≠ .assemble → t.status.cwValid = s.status.cwValid) by
      exact ⟨hs.1, hs.2.1, hovr, hlastop, hs.2.2⟩
    simp only [List.contains_iff_mem, List.mem_cons, List.not_mem_nil, or_false] at hi
    obtain hi | hi | rfl | rfl := hi
    · obtain ⟨bs, -, rfl⟩ | ⟨e, rfl⟩ := exec_poly_next (.inl hi) h <;> exact ⟨rfl, rfl, fun _ => rfl⟩
    · obtain ⟨bs, -, rfl⟩ | ⟨e, rfl⟩ := exec_poly_next (.inr hi) h <;> exact ⟨rfl, rfl, fun _ => rfl⟩
    · obtain ⟨g, -, rfl⟩ | ⟨e, rfl⟩ := exec_rsGenpoly_next h <;> exact ⟨rfl, rfl, fun _ => rfl⟩
    · obtain ⟨data, -, rfl⟩ | ⟨e, rfl⟩ := exec_assemble_next h <;> exact ⟨rfl, rfl, fun hn => absurd rfl hn⟩

end Sys2Proof.Machine

/-! ## The block table and ASSEMBLE -/

namespace Sys2Proof.Machine

/-! ### The block table (R47, R140) -/

/-- One version and level of the table: the version's C is that of level L, and each block has n = t − d, with at least 9 data codewords and 25 in all. -/
def blocksAgree (v : Nat) (e : Level) : Bool :=
  totalCount v e == totalCount v .l &&
    (blockList v e).all fun g => g.total == g.data + ecCount v e && decide (9 ≤ g.data) && decide (25 ≤ g.total)

theorem blocksAgree_all : ((List.range 41).all fun v => [Level.l, .m, .q, .h].all (blocksAgree v)) = true := by decide +kernel

/-- Settles O36: the totals are those of `blockTotals`; the rest is read off the 160 entries, a finite check. -/
theorem blockTableTotals : Obligations.BlockTableTotals := by
  intro v _ h2 e
  have hv := List.all_eq_true.mp blocksAgree_all v (List.mem_range.mpr (by omega))
  have he := List.all_eq_true.mp hv e (by cases e <;> decide)
  simp only [blocksAgree, Bool.and_eq_true, beq_iff_eq, List.all_eq_true, decide_eq_true_eq] at he
  obtain ⟨htotal, hblocks⟩ := he
  refine ⟨(blockTotals h2 e).1, htotal, fun g hg => ?_⟩
  obtain ⟨⟨hn, hd⟩, ht⟩ := hblocks g hg
  exact ⟨hn, hd, ht⟩

/-! ### Padding and splitting, byte by byte (R144, R145) -/

/-- The pad bytes are 0xEC at even places and 0x11 at odd ones. -/
theorem padBytes_eq_map (n : Nat) : padBytes n = (List.range n).map fun k => if k % 2 = 0 then 0xEC else 0x11 := by
  induction n using padBytes.induct with
  | case1 => rfl
  | case2 => rfl
  | case3 n ih =>
    have hparity (k : Nat) : (k + 1 + 1) % 2 = k % 2 := Nat.add_mod_right k 2
    simp [padBytes, ih, List.range_succ_eq_map, Function.comp_def, hparity]

theorem paddedByte_data {data : List Byte} {k : Nat} (h : k < data.length) : paddedByte data k = data[k] := by
  rw [paddedByte, if_pos h, getD_eq_of_lt h]

theorem paddedByte_pad (data : List Byte) (k : Nat) :
    paddedByte data (data.length + k) = if k % 2 = 0 then 0xEC else 0x11 := by
  rw [paddedByte, if_neg (Nat.not_lt.mpr (Nat.le_add_right _ _)), Nat.add_sub_cancel_left]

/-- The padded sequence, byte by byte. -/
theorem padData_eq_map {data : List Byte} {d : Nat} (h : data.length ≤ d) :
    padData data d = (List.range d).map (paddedByte data) := by
  obtain ⟨n, rfl⟩ := Nat.exists_eq_add_of_le h
  have hdata : (List.range data.length).map (paddedByte data) = data := by
    refine List.ext_getElem (by rw [List.length_map, List.length_range]) fun k _ hk => ?_
    rw [List.getElem_map, List.getElem_range, paddedByte_data hk]
  rw [List.range_add, List.map_append, hdata, padData, Nat.add_sub_cancel_left, padBytes_eq_map, List.map_map]
  exact congrArg (data ++ ·) (List.map_congr_left fun k _ => (paddedByte_pad data k).symm)

/-- The blocks of a sequence given by its bytes: block j starts where the blocks before it end. -/
theorem splitBlocks_map {f : Nat → Byte} {n : Nat} {ds : List Nat} (h : ds.sum ≤ n) :
    splitBlocks ((List.range n).map f) ds =
      (List.range ds.length).map fun j => (List.range (ds.getD j 0)).map fun i => f ((ds.take j).sum + i) := by
  induction ds generalizing f n with
  | nil => rfl
  | cons d ds ih =>
    rw [List.sum_cons] at h
    obtain ⟨m, rfl⟩ := Nat.exists_eq_add_of_le (Nat.le_of_add_right_le h)
    have hcut : (List.range (d + m)).map f = (List.range d).map f ++ (List.range m).map fun i => f (d + i) := by
      simp [List.range_add, Function.comp_def]
    rw [splitBlocks, hcut, List.take_left' (by simp), List.drop_left' (by simp), ih (by omega)]
    simp [List.range_succ_eq_map, Function.comp_def, Nat.add_assoc]

/-- The data blocks are those of R145. -/
theorem dataBlocks_eq_map {v : Nat} {e : Level} {data : List Byte} (h : data.length ≤ dataCount v e) :
    dataBlocks v e data = (List.range (blockList v e).length).map (blockData v e data) := by
  rw [dataBlocks, padData_eq_map h, splitBlocks_map (n := dataCount v e) (Nat.le_refl _), List.length_map]
  rfl

/-! ### Interleaving (R148) -/

/-- A column that skips short blocks is a concatenation of columns of at most one byte. -/
theorem filterMap_map_eq_flatMap (f : Nat → List Byte) (i : Nat) (js : List Nat) :
    ((js.map f).filterMap fun b => b[i]?) = js.flatMap fun j => (f j)[i]?.toList := by
  induction js with
  | nil => rfl
  | cons j js ih =>
    rw [List.map_cons, List.filterMap_cons, List.flatMap_cons, ← ih]
    cases (f j)[i]? with
    | none => rfl
    | some b => rfl

theorem columns_map (f : Nat → List Byte) (m w : Nat) :
    columns ((List.range m).map f) w = (List.range w).flatMap fun i => (List.range m).flatMap fun j => (f j)[i]?.toList := by
  simp only [columns, filterMap_map_eq_flatMap]

theorem blockData_getElem? (v : Nat) (e : Level) (data : List Byte) (j i : Nat) :
    (blockData v e data j)[i]?.toList = if i < (blockDataCounts v e).getD j 0 then [blockByte v e data j i] else [] := by
  split <;> rename_i h
  · simp only [blockData, List.getElem?_map, List.getElem?_range h, Option.map_some, Option.toList_some]
  · rw [List.getElem?_eq_none (by simpa [blockData] using h), Option.toList_none]

theorem ecc_getElem? {d : List Byte} {n i : Nat} (h : i < n) : (ecc d n)[i]?.toList = [(ecc d n).getD i 0] := by
  have hi : i < (ecc d n).length := by rwa [ecc_length]
  rw [getD_eq_of_lt hi, List.getElem?_eq_getElem hi, Option.toList_some]

/-- The longest data block is as long as the largest count of the table. -/
theorem maxLength_dataBlocks {v : Nat} {e : Level} {data : List Byte} (h : data.length ≤ dataCount v e) :
    maxLength (dataBlocks v e data) = (blockDataCounts v e).foldr max 0 := by
  rw [maxLength, dataBlocks, splitBlocks_lengths (Nat.le_of_eq (padData_length h).symm), blockDataCounts]

/-- ASSEMBLE's stream is the one of the two double loops. -/
theorem codewordStream_eq_streamByLoops {v : Nat} {e : Level} {data : List Byte} (h : data.length ≤ dataCount v e) :
    codewordStream v e data = streamByLoops v e data := by
  simp only [codewordStream, interleave, streamByLoops]
  rw [maxLength_dataBlocks h, dataBlocks_eq_map h, List.map_map, columns_map, columns_map]
  congr 1
  · simp only [blockData_getElem?]
  · rw [List.flatMap_def, List.flatMap_def]
    refine congrArg List.flatten (List.map_congr_left fun i hi => ?_)
    simp only [Function.comp_apply, ecc_getElem? (List.mem_range.mp hi), List.map_eq_flatMap]

/-! ### The command -/

/-- The capacity check precedes the reads. -/
theorem assembleOperands_overflow {s : State} (h1 : 1 ≤ s.host.config.version.toNat) (h2 : s.host.config.version.toNat ≤ 40)
    (h : s.host.dataLen.toNat > dataCount s.host.config.version.toNat (levelOf s.host.config.ecl)) :
    assembleOperands s = .error (.err .dataOverflow) := by
  simp only [assembleOperands, checkVersion_ok h1 h2, checkCapacity_err h, bind, Except.bind]

/-- The version check comes first. -/
theorem assembleOperands_version {s : State} (h : s.host.config.version.toNat = 0 ∨ s.host.config.version.toNat > 40) :
    assembleOperands s = .error (.err .invalidVersion) := by
  simp only [assembleOperands, checkVersion_err h, bind, Except.bind]

/-- Settles O38: the checks in order, then the stream, which is that of the loops and as long as C(v). -/
theorem assembleResult : Obligations.AssembleResult := by
  refine ⟨rfl, fun s => ⟨fun data h1 h2 h3 hdata => ?_, fun h => ?_, fun h1 h2 h => ?_⟩⟩
  · have hops := assembleOperands_ok h1 h2 h3 hdata
    have hstream := codewordStream_eq_streamByLoops (by rwa [(State.ramBytes_ok hdata).1])
    have hbody : assembleBody s = .ok (assembleWrites s.host.config data s) := by rw [assembleBody_eq, hops]
    refine ⟨?_, ?_, totalCount_le h2 _⟩
    · rw [← hstream]
      exact runCommand_ok hbody
    · rw [← hstream, codewordStream_totalCount hops]
  · exact runCommand_err (body := assembleBody) (by rw [assembleBody_eq, assembleOperands_version h])
  · exact runCommand_err (body := assembleBody) (by rw [assembleBody_eq, assembleOperands_overflow h1 h2 h])

end Sys2Proof.Machine

/-! ## The masks: the penalty rules, the selection, the mask commands and the frame of the commands on the matrix -/

namespace Sys2Proof.Machine

/-! ### Sums and counts over the array -/

theorem sumTo_succ (n : Nat) (f : Nat → Nat) : sumTo (n + 1) f = sumTo n f + f n := by
  simp [sumTo, List.range_succ]

theorem sumTo_const_zero (n : Nat) : (sumTo n fun _ => 0) = 0 := by
  induction n with
  | zero => rfl
  | succ n ih => rw [sumTo_succ, ih]

theorem sumTo_add (n : Nat) (f g : Nat → Nat) : (sumTo n fun i => f i + g i) = sumTo n f + sumTo n g := by
  induction n with
  | zero => rfl
  | succ n ih =>
    simp only [sumTo_succ, ih]
    omega

theorem sumTo_comm (a b : Nat) (f : Nat → Nat → Nat) :
    (sumTo a fun r => sumTo b fun c => f r c) = sumTo b fun c => sumTo a fun r => f r c := by
  induction a with
  | zero => exact (sumTo_const_zero b).symm
  | succ a ih => simp only [sumTo_succ, sumTo_add, ih]

theorem sumTo_le {n N k : Nat} {f : Nat → Nat} (hn : n ≤ N) (h : ∀ i, f i ≤ k) : sumTo n f ≤ N * k := by
  refine Nat.le_trans ?_ (Nat.mul_le_mul_right k hn)
  induction n with
  | zero => exact Nat.zero_le _
  | succ n ih =>
    rw [sumTo_succ, Nat.succ_mul]
    exact Nat.add_le_add (ih (Nat.le_of_succ_le hn)) (h n)

theorem sumTo_grid (a b : Nat) (f : Nat → Nat → Nat) :
    (sumTo a fun r => sumTo b fun c => f r c) = ((grid a b).map fun x => f x.1 x.2).sum := by
  unfold sumTo grid
  induction List.range a with
  | nil => rfl
  | cons r rs ih => rw [List.map_cons, List.sum_cons, ih, List.flatMap_cons, List.map_append, List.sum_append_nat, List.map_map]; rfl

/-- A sum of ks over the cells with a property is k times their number. -/
theorem sumTo_ite (a b k : Nat) (p : Nat → Nat → Bool) :
    (sumTo a fun r => sumTo b fun c => if p r c then k else 0) = k * (grid a b).countP fun x => p x.1 x.2 := by
  rw [sumTo_grid]
  induction grid a b with
  | nil => rfl
  | cons x xs ih =>
    rw [List.map_cons, List.sum_cons, ih, List.countP_cons]
    split
    · rw [Nat.mul_succ, Nat.add_comm]
    · rw [Nat.add_zero, Nat.zero_add]

theorem mem_grid {a b : Nat} {x : Nat × Nat} : x ∈ grid a b ↔ x.1 < a ∧ x.2 < b := by
  obtain ⟨r, c⟩ := x
  simp [grid]

theorem grid_nodup (a b : Nat) : (grid a b).Nodup := by
  refine List.pairwise_flatMap.mpr ⟨fun r _ => List.pairwise_map.mpr (List.nodup_range.imp fun h hc => h (congrArg Prod.snd hc)),
    List.nodup_range.imp fun hne x hx y hy h => hne ?_⟩
  obtain ⟨c, -, rfl⟩ := List.mem_map.mp hx
  obtain ⟨d, -, rfl⟩ := List.mem_map.mp hy
  exact congrArg Prod.fst h

/-! ### Rule 1: the two ways to count a cell's neighbours (R164) -/

theorem mem_neighbourOffsets {d : Int × Int} :
    d ∈ neighbourOffsets ↔ -1 ≤ d.1 ∧ d.1 ≤ 1 ∧ -1 ≤ d.2 ∧ d.2 ≤ 1 ∧ ¬ (d.1 = 0 ∧ d.2 = 0) := by
  simp only [neighbourOffsets, List.mem_cons, List.not_mem_nil, or_false, Prod.ext_iff]
  omega

/-- Whether the cell at offset `d` of (r, c) lies inside the n × n array. -/
def offsetInside (n r c : Nat) (d : Int × Int) : Bool :=
  decide (0 ≤ (r : Int) + d.1) && decide ((r : Int) + d.1 < n) && decide (0 ≤ (c : Int) + d.2) && decide ((c : Int) + d.2 < n)

/-- The cell at offset `d` of (r, c). -/
def offsetCell (r c : Nat) (d : Int × Int) : Nat × Nat := (((r : Int) + d.1).toNat, ((c : Int) + d.2).toNat)

theorem sameAt_eq (m : Nat → Nat → Bool) (n r c : Nat) (d : Int × Int) :
    sameAt m n r c d = (offsetInside n r c d && m (offsetCell r c d).1 (offsetCell r c d).2 == m r c) := rfl

/-- The cells at the eight offsets that lie inside are the cells of the array at distance 1. -/
theorem offsetCells_perm (n r c : Nat) :
    ((neighbourOffsets.filter (offsetInside n r c)).map (offsetCell r c)).Perm ((grid n n).filter fun x => ringOf x.1 x.2 r c == 1) := by
  have hinj : ∀ d ∈ neighbourOffsets.filter (offsetInside n r c), ∀ e ∈ neighbourOffsets.filter (offsetInside n r c),
      offsetCell r c d = offsetCell r c e → d = e := by
    intro d hd e he h
    simp only [List.mem_filter, offsetInside, offsetCell, Bool.and_eq_true, decide_eq_true_eq, Prod.ext_iff] at hd he h ⊢
    omega
  have hnodup : ((neighbourOffsets.filter (offsetInside n r c)).map (offsetCell r c)).Nodup :=
    List.pairwise_map.mpr ((List.Pairwise.filter _ (by decide : neighbourOffsets.Nodup)).imp_of_mem
      fun hd he hne h => hne (hinj _ hd _ he h))
  refine (List.perm_ext_iff_of_nodup hnodup ((grid_nodup n n).filter _)).mpr fun x => ?_
  obtain ⟨a, b⟩ := x
  simp only [List.mem_map, List.mem_filter, mem_neighbourOffsets, mem_grid, offsetInside, offsetCell, Bool.and_eq_true, decide_eq_true_eq,
    beq_iff_eq, Prod.ext_iff, ringOf, natDist]
  constructor
  · rintro ⟨d, hd, h⟩
    omega
  · intro h
    exact ⟨((a : Int) - r, (b : Int) - c), by omega, by omega⟩

/-- `same` counts offsets, `neighbourCount` cells; one is a rearrangement of the other. -/
theorem same_eq_neighbourCount (m : Nat → Nat → Bool) (n r c : Nat) : same m n r c = neighbourCount m n r c := by
  calc same m n r c
      = ((neighbourOffsets.filter (offsetInside n r c)).map (offsetCell r c)).countP fun x => m x.1 x.2 == m r c := by
        rw [List.countP_map, List.countP_filter]
        exact List.countP_congr fun d _ => by rw [sameAt_eq, Bool.and_comm]; rfl
    _ = ((grid n n).filter fun x => ringOf x.1 x.2 r c == 1).countP fun x => m x.1 x.2 == m r c :=
        (offsetCells_perm n r c).countP_eq _
    _ = neighbourCount m n r c := by
        rw [List.countP_filter]
        exact List.countP_congr fun x _ => by rw [Bool.and_comm]

theorem isFinderRun_eq_runAt (f : Nat → Bool) : isFinderRun f = runAt f := by
  simp [isFinderRun, finderRun, runAt, List.range_succ, Bool.and_assoc]

theorem penalty3_eq (m : Nat → Nat → Bool) (n : Nat) :
    penalty3 m n = 40 * ((grid n (n - 6)).countP (fun x => runAt fun k => m x.1 (x.2 + k)) +
      (grid (n - 6) n).countP (fun x => runAt fun k => m (x.1 + k) x.2)) := by
  simp only [penalty3, isFinderRun_eq_runAt]
  rw [sumTo_comm n (n - 6) fun c r => if runAt fun k => m (r + k) c then 1 else 0, sumTo_ite n (n - 6) 1 fun r c => runAt fun k => m r (c + k),
    sumTo_ite (n - 6) n 1 fun r c => runAt fun k => m (r + k) c, Nat.one_mul, Nat.one_mul]

/-! ### Rule 4 and the scaled score (R167, R169) -/

theorem ratAbs_of_neg {x : Rat} (h : x < 0) : ratAbs x = -x := if_pos h

theorem ratAbs_of_nonneg {x : Rat} (h : 0 ≤ x) : ratAbs x = x := if_neg (Rat.not_lt.mpr h)

theorem ratAbs_div (x : Rat) {t : Rat} (h : 0 < t) : ratAbs (x / t) = ratAbs x / t := by
  have hsign : x / t < 0 ↔ x < 0 := by rw [Rat.div_lt_iff h, Rat.zero_mul]
  unfold ratAbs
  simp only [hsign]
  split
  · rw [Rat.div_def, Rat.div_def, Rat.neg_mul]
  · rfl

/-- Rule 4 over the common denominator. -/
theorem penalty4_eq {total : Nat} (dark : Nat) (h : 0 < total) :
    penalty4 dark total = 2 * ratAbs (100 * (dark : Rat) - 50 * (total : Rat)) / (total : Rat) := by
  have ht : (0 : Rat) < total := Rat.natCast_pos.mpr h
  have hq : 100 * (dark : Rat) / total - 50 = (100 * dark - 50 * total) / total := by grind
  rw [penalty4, hq, ratAbs_div _ ht]
  grind

/-- The distance of two natural numbers is the same integer and rational. -/
theorem natCast_natAbs_sub (a b : Nat) : ((((a : Int) - (b : Int)).natAbs : Nat) : Rat) = ratAbs ((a : Rat) - (b : Rat)) := by
  obtain h | h := Nat.le_total b a
  · obtain ⟨k, rfl⟩ := Nat.exists_eq_add_of_le h
    have hk : ((b + k : Nat) : Rat) - b = k := by rw [Rat.natCast_add]; grind
    rw [show (((b + k : Nat) : Int) - b).natAbs = k by omega, hk, ratAbs_of_nonneg (Rat.natCast_nonneg)]
  · obtain ⟨k, rfl⟩ := Nat.exists_eq_add_of_le h
    have hk : (a : Rat) - ((a + k : Nat) : Rat) = -k := by rw [Rat.natCast_add]; grind
    rw [show ((a : Int) - ((a + k : Nat) : Int)).natAbs = k by omega, hk]
    obtain rfl | hpos := Nat.eq_zero_or_pos k
    · rfl
    · have hneg : (0 : Rat) < k := Rat.natCast_pos.mpr hpos
      rw [ratAbs_of_neg (by grind), Rat.neg_neg]

theorem Score.scaled_eq (x : Score) {n : Nat} (h : 0 < n) : ((x.scaled n : Nat) : Rat) = ((n * n : Nat) : Rat) * x.total n := by
  have hT : 0 < n * n := Nat.mul_pos h h
  have hn : (0 : Rat) < ((n * n : Nat) : Rat) := Rat.natCast_pos.mpr hT
  have hcast (d t : Nat) : (((100 * (d : Int) - 50 * (t : Int)).natAbs : Nat) : Rat) = ratAbs (100 * (d : Rat) - 50 * (t : Rat)) := by
    simpa using natCast_natAbs_sub (100 * d) (50 * t)
  rw [Score.total, penalty4_eq _ hT, Score.scaled, Rat.natCast_add, Rat.natCast_mul, Rat.natCast_mul 2, hcast]
  grind

/-- Settles O45: each rule sums over the array what the statement counts in it. -/
theorem penaltyRules : Obligations.PenaltyRules := by
  refine ⟨fun m n => ⟨?rule1, sumTo_ite (n - 1) (n - 1) 3 (uniformBlock m), penalty3_eq m n, ?dark⟩,
    fun dark total h => penalty4_eq dark h, fun x n h => x.scaled_eq h⟩
  case rule1 =>
    rw [penalty1, sumTo_grid]
    simp only [same_eq_neighbourCount, densityPenalty]
  case dark => rw [darkCount, sumTo_ite n n 1 m, Nat.one_mul]

/-! ### The best mask (R170) -/

/-- The least index below `n` at which `f` is least. -/
def IsFirstLeastBelow (f : Nat → Nat) (n b : Nat) : Prop := b < n ∧ ∀ p, p < n → f b ≤ f p ∧ (p < b → f b < f p)

theorem IsFirstLeastBelow.keep {f : Nat → Nat} {n b : Nat} (h : IsFirstLeastBelow f n b) (hn : f b ≤ f n) :
    IsFirstLeastBelow f (n + 1) b := by
  obtain ⟨hb, hp⟩ := h
  refine ⟨by omega, fun p hpn => ?_⟩
  obtain hlt | rfl : p < n ∨ p = n := by omega
  · exact hp p hlt
  · exact ⟨hn, by omega⟩

theorem IsFirstLeastBelow.replace {f : Nat → Nat} {n b : Nat} (h : IsFirstLeastBelow f n b) (hn : f n < f b) :
    IsFirstLeastBelow f (n + 1) n := by
  obtain ⟨-, hp⟩ := h
  refine ⟨by omega, fun p hpn => ?_⟩
  obtain hlt | rfl : p < n ∨ p = n := by omega
  · have hb := (hp p hlt).1
    omega
  · omega

theorem isFirstLeastBelow_one (f : Nat → Nat) : IsFirstLeastBelow f 1 0 := by
  refine ⟨Nat.one_pos, fun p hp => ?_⟩
  obtain rfl : p = 0 := by omega
  omega

/-- The scan keeps the first least index of the part it has seen. -/
theorem scanBest_isFirstLeast (f : Nat → Nat) (k : Nat) {i b : Nat} (h : IsFirstLeastBelow f i b) :
    IsFirstLeastBelow f (i + k) (scanBest i b (f b) ((List.range' i k).map f)) := by
  induction k generalizing i b with
  | zero => exact h
  | succ k ih =>
    rw [List.range'_succ, List.map_cons, scanBest, show i + (k + 1) = i + 1 + k by omega]
    split
    · exact ih (h.replace ‹_›)
    · exact ih (h.keep (by omega))

theorem bestOf_isFirstLeast (f : Nat → Nat) : IsFirstLeast f (bestOf ((List.range 8).map f)) :=
  scanBest_isFirstLeast f 7 (isFirstLeastBelow_one f)

theorem State.bestMask_isFirstLeast (s : State) : IsFirstLeast s.maskScaled s.bestMask := bestOf_isFirstLeast s.maskScaled

/-! ### MASK_SCORE (R171) -/

theorem same_le (m : Nat → Nat → Bool) (n r c : Nat) : same m n r c ≤ 8 := List.countP_le_length

theorem penalty1_le (m : Nat → Nat → Bool) {n : Nat} (h : n ≤ 177) : penalty1 m n ≤ 177 * (177 * 6) := by
  refine sumTo_le h fun r => sumTo_le h fun c => ?_
  have hs := same_le m n r c
  unfold densityPenalty
  split <;> omega

theorem penalty2_le (m : Nat → Nat → Bool) {n : Nat} (h : n ≤ 177) : penalty2 m n ≤ 177 * (177 * 3) :=
  sumTo_le (by omega) fun r => sumTo_le (by omega) fun c => by split <;> omega

theorem penalty3_le (m : Nat → Nat → Bool) {n : Nat} (h : n ≤ 177) : penalty3 m n ≤ 40 * (177 * (171 * 1) + 177 * (171 * 1)) :=
  Nat.mul_le_mul_left 40 (Nat.add_le_add (sumTo_le h fun r => sumTo_le (by omega) fun c => by split <;> omega)
    (sumTo_le h fun r => sumTo_le (by omega) fun c => by split <;> omega))

theorem darkCount_le (m : Nat → Nat → Bool) {n : Nat} (h : n ≤ 177) : darkCount m n ≤ 177 * (177 * 1) :=
  sumTo_le h fun r => sumTo_le h fun c => by split <;> omega

theorem exec_maskScore {s : State} (h : s.status.bstate = .dataPlaced) : exec .maskScore s = .next (scoreWrites s).complete :=
  runCommand_ok (body := maskScoreBody) (by rw [maskScoreBody_eq, if_pos h])

theorem penOf_scores (s : State) (p : Fin 8) :
    (penOf s.scores)[p] = (scoreOf (candidate s.params.maskAxes s.planes p.val) s.matrixSide).regs := by
  simp [penOf, State.scores, candidateScores]

/-- Settles O46: the four counts of a matrix of side at most 177 fit their registers, and the scan finds the first least score. -/
theorem maskScoreResult : Obligations.MaskScoreResult := by
  refine ⟨rfl, fun s => ⟨fun h hside => ⟨_, s.bestMask, exec_maskScore h, s.bestMask_isFirstLeast, rfl, fun p => ?_⟩, fun h => ?_⟩⟩
  · simp only [State.complete_engine, scoreWrites_engine, penOf_scores]
    have h1 := penalty1_le (candidate s.params.maskAxes s.planes p.val) hside
    have h2 := penalty2_le (candidate s.params.maskAxes s.planes p.val) hside
    have h3 := penalty3_le (candidate s.params.maskAxes s.planes p.val) hside
    have hd := darkCount_le (candidate s.params.maskAxes s.planes p.val) hside
    simp only [Score.regs, scoreOf, BitVec.toNat_ofNat]
    omega
  · exact runCommand_err (body := maskScoreBody) (by rw [maskScoreBody_eq, if_neg h])

/-! ### MASK_SELECT and scoring again (R172) -/

theorem exec_maskSelect {s : State} (h : s.status.bstate = .dataPlaced) : exec .maskSelect s = .next (maskSelectWrites s).complete :=
  runCommand_ok (body := maskSelectBody) (by rw [maskSelectBody_eq, if_pos h])

/-- The masked plane is the candidate inside the matrix. -/
theorem maskedPlane_get_candidate (axes : MaskAxes) (pl : Planes) (p r c : Nat) {n : Nat} (hn : n ≤ 256) :
    (maskedPlane axes pl n p).get r c = if r < n ∧ c < n then candidate axes pl p r c else pl.darkp.get r c := by
  rw [maskedPlane_get _ _ _ _ _ _ hn]
  split
  · next h => simp [candidate, h.1, h.2]
  · next h =>
    have ho : (decide (r < n) && decide (c < n)) = false := by simpa using h
    rw [ho, Bool.false_and, Bool.false_and, Bool.xor_false]

theorem State.matrixSide_le (s : State) : s.matrixSide ≤ 256 := Nat.le_of_lt s.engine.mtxCfg.side.isLt

/-- Settles O47: a completed MASK_SCORE leaves the planes, MTX_CFG and BSTATE, so that what follows scores the same matrix. -/
theorem rescoringChangesNothing : Obligations.RescoringChangesNothing := by
  intro s h
  have hscore : issue .maskScore s = .next (scoreWrites (s.accept (encode .maskScore))).complete := exec_maskScore h
  refine ⟨⟨_, hscore, exec_maskScore h⟩, _, exec_maskSelect h, ?_⟩
  have hselect : issue .maskSelect (scoreWrites (s.accept (encode .maskScore))).complete =
      .next (maskSelectWrites (s.accept (encode .maskSelect))).complete := exec_maskSelect h
  simp only [issueAll, hscore, hselect]

/-- Settles O48: MASK_SELECT writes what MASK_SCORE does, then the masked plane of the best mask. -/
theorem maskSelectResult : Obligations.MaskSelectResult := by
  refine ⟨rfl, fun s => ⟨fun h => ?_, fun h => ?_⟩⟩
  · exact ⟨_, s.bestMask, maskedPlane s.params.maskAxes s.planes s.matrixSide s.bestMask, exec_maskScore h, s.bestMask_isFirstLeast,
      exec_maskSelect h, fun r c => maskedPlane_get_candidate _ _ _ _ _ s.matrixSide_le⟩
  · exact runCommand_err (body := maskSelectBody) (by rw [maskSelectBody_eq, if_neg h])

/-! ### MASK_FORCE (R161, R162, R173) -/

theorem maskBit_eq (axes : MaskAxes) (p r c : Nat) :
    maskBit axes p r c = maskFormula p (if axes = .doc then c else r) (if axes = .doc then r else c) := by
  cases axes <;> rfl

/-- Masks 0, 3, 5, 6 and 7 are symmetric in x and y. -/
theorem maskFormula_comm {p : Nat} (h : p ∈ [0, 3, 5, 6, 7]) (x y : Nat) : maskFormula p x y = maskFormula p y x := by
  simp only [List.mem_cons, List.not_mem_nil, or_false] at h
  obtain rfl | rfl | rfl | rfl | rfl := h <;> simp only [maskFormula, Nat.add_comm x, Nat.mul_comm x]

/-- Cell (0, 1) tells mask 1's two bindings apart, cell (0, 2) those of masks 2 and 4. -/
theorem maskBit_axes_differ {p : Nat} (h : p ∈ [1, 2, 4]) : ∃ r c, maskBit .doc p r c ≠ maskBit .iso p r c := by
  simp only [List.mem_cons, List.not_mem_nil, or_false] at h
  obtain rfl | rfl | rfl := h
  · exact ⟨0, 1, by decide⟩
  · exact ⟨0, 2, by decide⟩
  · exact ⟨0, 2, by decide⟩

/-- Settles O49: the formulas are the model's with the axes bound, and DARKP becomes the masked plane of ARG0. -/
theorem maskForceResult : Obligations.MaskForceResult := by
  refine ⟨rfl, rfl, fun axes r c => ?_, fun p hp r c => maskFormula_comm hp c r, fun p hp => maskBit_axes_differ hp,
    fun s => ⟨fun h h7 => ?_, fun h => ?_, fun h h7 => ?_⟩⟩
  · simp only [maskBit_eq]
    exact ⟨rfl, rfl, rfl, rfl, rfl, rfl, rfl, rfl⟩
  · refine ⟨maskedPlane s.params.maskAxes s.planes s.matrixSide s.host.arg0.toNat,
      runCommand_ok (body := maskForceBody) ?_, fun r c => maskedPlane_get_candidate _ _ _ _ _ s.matrixSide_le⟩
    rw [maskForceBody_eq, if_neg (Decidable.not_not.mpr h), if_neg (Nat.not_lt.mpr h7)]
    rfl
  · exact runCommand_err (body := maskForceBody) (by rw [maskForceBody_eq, if_pos h])
  · exact runCommand_err (body := maskForceBody) (by rw [maskForceBody_eq, if_neg (Decidable.not_not.mpr h), if_pos h7])

/-! ### The frame of the commands on the matrix -/

/-- What command `i`, one on the matrix, leaves unchanged of the contents and of the host-written registers. -/
structure MatrixFrame (i : Instr) (s t : State) : Prop where
  host : t.host = s.host
  ram : t.ram = s.ram
  engine : i ≠ .softReset → t.engine = { s.engine with
    mtxCfg := t.engine.mtxCfg, mask := t.engine.mask, pen := t.engine.pen
    formatInfo := t.engine.formatInfo, versionInfo := t.engine.versionInfo }
  cwValid : i ≠ .softReset → t.status.cwValid = s.status.cwValid
  mtxCfg : i ≠ .softReset → i ≠ .matrixInit → t.engine.mtxCfg = s.engine.mtxCfg
  masking : i = .maskScore ∨ i = .maskSelect ∨ i = .maskForce → t.engine.formatInfo = s.engine.formatInfo ∧
    t.engine.versionInfo = s.engine.versionInfo ∧ t.planes.asgn = s.planes.asgn ∧ t.planes.func = s.planes.func
  scoring : i = .maskScore → t.planes = s.planes ∧ t.engine.mask.applied = s.engine.mask.applied ∧
    t.engine.mask.appliedValid = s.engine.mask.appliedValid
  forcing : i = .maskForce → t.engine.pen = s.engine.pen ∧ t.engine.mask.best = s.engine.mask.best ∧
    t.engine.mask.scored = s.engine.mask.scored
  afterMask : i = .matrixPlace ∨ i = .writeMeta → t.engine.mask = s.engine.mask ∧ t.engine.pen = s.engine.pen
  placing : i = .matrixPlace → t.engine = s.engine ∧ t.planes.func = s.planes.func

/-- A state with the same contents and host-written registers, as an error leaves, is in every frame. -/
theorem MatrixFrame.of_same (i : Instr) {s t : State} (h : SameContents s t) (hh : t.host = s.host) : MatrixFrame i s t := by
  obtain ⟨hengine, hram, hplanes, hcw, -⟩ := h
  constructor <;> simp [hengine, hram, hplanes, hcw, hh]

theorem MatrixFrame.complete {i : Instr} {s u : State} (h : MatrixFrame i s u) : MatrixFrame i s u.complete := by
  obtain ⟨hhost, hram, hengine, hcw, hmtx, hmasking, hscoring, hforcing, hafter, hplacing⟩ := h
  exact ⟨hhost, hram, hengine, hcw, hmtx, hmasking, hscoring, hforcing, hafter, hplacing⟩

theorem bodyOf_matrixFrame {i : Instr} {s u : State}
    (hi : [Instr.matrixInit, .matrixPlace, .maskScore, .maskSelect, .maskForce, .writeMeta, .softReset].contains i = true)
    (h : bodyOf i s = .ok u) : MatrixFrame i s u := by
  cases i <;> simp only [bodyOf] at h
  case matrixInit => rw [matrixInitBody_eq] at h; split at h <;> cases h; constructor <;> simp
  case matrixPlace =>
    obtain ⟨bs, -, rfl⟩ := matrixPlaceWork_ok_inv (matrixPlaceBody_ok_inv h).2
    constructor <;> simp
  case maskScore => rw [maskScoreBody_eq] at h; split at h <;> cases h; constructor <;> simp
  case maskSelect => rw [maskSelectBody_eq] at h; split at h <;> cases h; constructor <;> simp [maskSelectWrites]
  case maskForce =>
    rw [maskForceBody_eq] at h
    split at h
    · cases h
    · split at h <;> cases h
      constructor <;> simp
  case writeMeta => rw [writeMetaBody_eq] at h; split at h <;> cases h; constructor <;> simp
  case softReset => cases h; constructor <;> simp
  all_goals cases hi

/-- Settles O59: each of these commands completes with one of the frame's writes, or raises an error. -/
theorem matrixCommandFrame : Obligations.MatrixCommandFrame := by
  intro i s t hi h
  obtain ⟨hrst, hparams, hinbox, -, hepoch, -, -, hovr, hlastop, -, -⟩ := exec_keeps_platform h
  have hframe : MatrixFrame i s t := by
    rw [exec_eq_run] at h
    obtain ⟨u, hu, rfl⟩ | ⟨e, -, rfl⟩ := runCommand_next h
    · exact (bodyOf_matrixFrame hi hu).complete
    · exact .of_same i (s.raise_contents e) rfl
  obtain ⟨hhost, hram, hengine, hcw, hmtx, hmasking, hscoring, hforcing, hafter, hplacing⟩ := hframe
  exact ⟨hhost, fun r k => State.ramByte_congr (by rw [hram]) hparams hepoch, hovr, hlastop, hparams, hrst, hinbox,
    fun hn => ⟨hengine hn, hcw hn⟩, hmtx, hmasking, hscoring, hforcing, hafter, hplacing⟩

end Sys2Proof.Machine

/-! ## The BCH unit -/

namespace Sys2Proof.Machine

/-! ### The remainder over GF(2) (R191) -/

theorem bitlen_le_iff (x k : Nat) : bitlen x ≤ k ↔ x < 2 ^ k := by
  unfold bitlen
  split
  · next h => exact iff_of_true (Nat.zero_le k) (h ▸ Nat.two_pow_pos k)
  · next h => rw [Nat.add_one_le_iff, Nat.log2_lt h]

/-- Two numbers with the same highest 1 have a sum over GF(2) below it. -/
theorem xor_lt_of_bitlen_eq {a b k : Nat} (ha : bitlen a = k + 1) (hb : bitlen b = k + 1) : a ^^^ b < 2 ^ k := by
  have htop {x : Nat} (h : bitlen x = k + 1) : x / 2 ^ k = 1 := by
    have hlt := (bitlen_le_iff x (k + 1)).mp (by omega)
    have hle := mt (bitlen_le_iff x k).mpr (by omega)
    rw [Nat.pow_succ] at hlt
    exact Nat.div_eq_of_lt_le (by omega) (by omega)
  have hdiv : (a ^^^ b) / 2 ^ k = 0 := by
    rw [Nat.xor_div_two_pow, htop ha, htop hb]
    rfl
  exact (Nat.div_eq_zero_iff_lt (Nat.two_pow_pos k)).mp hdiv

theorem bitlen_shiftLeft {g : Nat} (hg : g ≠ 0) (k : Nat) : bitlen (g <<< k) = bitlen g + k := by
  induction k with
  | zero => rfl
  | succ k ih =>
    have h : g <<< k ≠ 0 := by
      rw [Nat.shiftLeft_eq]
      exact Nat.mul_ne_zero hg (Nat.ne_of_gt (Nat.two_pow_pos k))
    rw [← Nat.add_assoc, ← ih, Nat.shiftLeft_succ, bitlen, bitlen, if_neg h, if_neg (by omega), Nat.log2_two_mul h]

/-- A step of the loop of R191 shortens `d`. -/
theorem bitlen_bchStep {g d k : Nat} (hg : g ≠ 0) (hd : bitlen d = k + 1) (h : bitlen g ≤ bitlen d) :
    bitlen (d ^^^ (g <<< (bitlen d - bitlen g))) ≤ k := by
  refine (bitlen_le_iff _ _).mpr (xor_lt_of_bitlen_eq hd ?_)
  rw [bitlen_shiftLeft hg]
  omega

/-- The product over GF(2) is linear in its first factor. -/
theorem carrylessProduct_xor (p q g : Nat) : carrylessProduct (p ^^^ q) g = carrylessProduct p g ^^^ carrylessProduct q g := by
  have hfold (ks : List Nat) (a b : Nat) : ks.foldl (fun acc k => if (p ^^^ q).testBit k then acc ^^^ (g <<< k) else acc) (a ^^^ b) =
      ks.foldl (fun acc k => if p.testBit k then acc ^^^ (g <<< k) else acc) a ^^^
        ks.foldl (fun acc k => if q.testBit k then acc ^^^ (g <<< k) else acc) b := by
    induction ks generalizing a b with
    | nil => rfl
    | cons k ks ih =>
      rw [List.foldl_cons, List.foldl_cons, List.foldl_cons, ← ih, Nat.testBit_xor]
      congr 1
      cases p.testBit k <;> cases q.testBit k
      case false.false => rfl
      case false.true => exact Nat.xor_assoc a b _
      case true.false => exact (Nat.xor_assoc a b _).trans (by rw [Nat.xor_comm b, ← Nat.xor_assoc]; rfl)
      case true.true =>
        have hself : a ^^^ g <<< k ^^^ (b ^^^ g <<< k) = a ^^^ b := by
          rw [Nat.xor_comm b, ← Nat.xor_assoc, Nat.xor_assoc a, Nat.xor_self, Nat.xor_zero]
        exact hself.symm
  exact hfold _ 0 0

theorem carrylessProduct_two_pow {k : Nat} (hk : k < 6) (g : Nat) : carrylessProduct (2 ^ k) g = g <<< k := by
  have hrange : List.range 6 = [0, 1, 2, 3, 4, 5] := rfl
  have hk : k = 0 ∨ k = 1 ∨ k = 2 ∨ k = 3 ∨ k = 4 ∨ k = 5 := by omega
  simp only [carrylessProduct, hrange, List.foldl_cons, List.foldl_nil, Nat.testBit_two_pow, decide_eq_true_eq]
  obtain rfl | rfl | rfl | rfl | rfl | rfl := hk <;> exact Nat.zero_xor _

/-- What `n` steps of the loop leave: `d` less a multiple of `g`, shorter than `g` when the steps were enough. -/
theorem bchReduce_spec {g n d m : Nat} (hg : g ≠ 0) (hn : bitlen d ≤ n) (hd : bitlen d ≤ bitlen g + m) (hm : m < 6) :
    ∃ q, q < 2 ^ (m + 1) ∧ bchReduce g n d = d ^^^ carrylessProduct q g ∧ bitlen (bchReduce g n d) < bitlen g := by
  have hglen : bitlen g ≠ 0 := by rw [bitlen, if_neg hg]; omega
  have hstop {r : Nat} (h : bitlen r < bitlen g) : ∃ q, q < 2 ^ (m + 1) ∧ r = r ^^^ carrylessProduct q g ∧ bitlen r < bitlen g :=
    ⟨0, Nat.two_pow_pos _, (Nat.xor_zero r).symm, h⟩
  induction n generalizing d with
  | zero => exact hstop (by rw [bchReduce]; omega)
  | succ n ih =>
    rw [bchReduce]
    split
    · next h => exact hstop h
    · next h =>
      obtain ⟨k, hk⟩ : ∃ k, bitlen d = k + 1 := ⟨bitlen d - 1, by omega⟩
      have hshort := bitlen_bchStep hg hk (Nat.le_of_not_lt h)
      obtain ⟨q, hq, hr, hlen⟩ := ih (d := d ^^^ (g <<< (bitlen d - bitlen g))) (by omega) (by omega)
      have hs : bitlen d - bitlen g ≤ m := by omega
      refine ⟨q ^^^ 2 ^ (bitlen d - bitlen g), Nat.xor_lt_two_pow hq (Nat.pow_lt_pow_right (by omega) (by omega)), ?_, hlen⟩
      rw [hr, carrylessProduct_xor, carrylessProduct_two_pow (by omega), Nat.xor_assoc, Nat.xor_comm (g <<< _)]

/-- The systematic word of a datum: the datum above the remainder is a multiple of the generator. -/
theorem systematicWord {g k m x : Nat} (hg : bitlen g = k + 1) (hm : m < 6) (hx : x < 2 ^ (m + 1)) :
    ∃ q, q < 2 ^ (m + 1) ∧ x <<< k ||| bchRem (x <<< k) g = carrylessProduct q g ∧ (x <<< k ||| bchRem (x <<< k) g) / 2 ^ k = x := by
  have hg0 : g ≠ 0 := by rintro rfl; cases hg
  have hlen : bitlen (x <<< k) ≤ bitlen g + m := by
    rw [bitlen_le_iff, hg, Nat.shiftLeft_eq, show k + 1 + m = m + 1 + k by omega, Nat.pow_add]
    exact (Nat.mul_lt_mul_right (Nat.two_pow_pos k)).mpr hx
  obtain ⟨q, hq, hr, hrem⟩ := bchReduce_spec hg0 (Nat.le_refl _) hlen hm
  have hlt : bchRem (x <<< k) g < 2 ^ k := (bitlen_le_iff _ _).mp (by rw [bchRem]; omega)
  have hdisjoint : x <<< k ||| bchRem (x <<< k) g = x <<< k ^^^ bchRem (x <<< k) g := by
    refine Nat.eq_of_testBit_eq fun i => ?_
    rw [Nat.testBit_or, Nat.testBit_xor, Nat.testBit_shiftLeft]
    by_cases hi : k ≤ i
    · rw [Nat.testBit_lt_two_pow (Nat.lt_of_lt_of_le hlt (Nat.pow_le_pow_right (by omega) hi)), Bool.or_false, Bool.xor_false]
    · rw [decide_eq_false hi, Bool.false_and, Bool.false_or, Bool.false_xor]
  refine ⟨q, hq, ?_, ?_⟩
  · rw [hdisjoint, bchRem, hr, ← Nat.xor_assoc, Nat.xor_self, Nat.zero_xor]
  · rw [hdisjoint, Nat.xor_div_two_pow, Nat.div_eq_of_lt hlt, Nat.xor_zero, Nat.shiftLeft_eq, Nat.mul_div_cancel _ (Nat.two_pow_pos k)]

/-! ### BCH_FORMAT and BCH_VERSION (R193, R195) -/

theorem exec_bchFormat {s : State} (h : s.host.arg0.toNat ≤ 31) :
    exec .bchFormat s = .next (s.setResult ((formatWord s.host.arg0.toNat).setWidth 32)).complete :=
  runCommand_ok (body := bchFormatBody) (by rw [bchFormatBody_eq, if_neg (by omega)])

theorem exec_bchVersion {s : State} (h : s.host.arg0.toNat ≤ 63) :
    exec .bchVersion s = .next (s.setResult ((versionWord s.host.arg0.toNat).setWidth 32)).complete :=
  runCommand_ok (body := bchVersionBody) (by rw [bchVersionBody_eq, if_neg (by omega)])

/-- A number that fits in `n` bits, as a word. -/
theorem setWidth_ofNat {n w : Nat} (hn : n ≤ 32) (hw : w < 2 ^ n) : (BitVec.ofNat n w).setWidth 32 = BitVec.ofNat 32 w := by
  refine BitVec.eq_of_toNat_eq ?_
  rw [toNat_zeroExtended hn hw, BitVec.toNat_ofNat, Nat.mod_eq_of_lt (Nat.lt_of_lt_of_le hw (Nat.pow_le_pow_right (by omega) hn))]

/-- Settles O39: both words are systematic, and those of data in range fit in 15 and 18 bits. -/
theorem bchWords : Obligations.BchWords := by
  refine ⟨rfl, rfl, fun s => ⟨fun h => ?_, fun h => ?_, fun h => ?_, fun h => ?_⟩⟩
  · obtain ⟨q, hq, hmul, hdatum⟩ := systematicWord (g := g15) (k := 10) (m := 4) (x := s.host.arg0.toNat) (by decide) (by decide) (by omega)
    generalize hw : s.host.arg0.toNat <<< 10 ||| bchRem (s.host.arg0.toNat <<< 10) g15 = w at hmul hdatum
    have hlt : w ^^^ g15Mask < 2 ^ 15 := Nat.xor_lt_two_pow (by omega) (by decide)
    have hmask : w ^^^ g15Mask ^^^ 0x5412 = w := by rw [Nat.xor_assoc, show g15Mask ^^^ 0x5412 = 0 from rfl, Nat.xor_zero]
    refine ⟨w ^^^ g15Mask, q, ?_, hlt, by rw [hmask, hdatum], hq, by rw [hmask, hmul]; rfl⟩
    rw [exec_bchFormat h, formatWord, hw, setWidth_ofNat (by decide) hlt]
    rfl
  · exact runCommand_err (body := bchFormatBody) (by rw [bchFormatBody_eq, if_pos h])
  · obtain ⟨q, hq, hmul, hdatum⟩ := systematicWord (g := g18) (k := 12) (m := 5) (x := s.host.arg0.toNat) (by decide) (by decide) (by omega)
    generalize hw : s.host.arg0.toNat <<< 12 ||| bchRem (s.host.arg0.toNat <<< 12) g18 = w at hmul hdatum
    have hlt : w < 2 ^ 18 := by omega
    refine ⟨w, q, ?_, hlt, hdatum, hq, hmul⟩
    rw [exec_bchVersion h, versionWord, hw, setWidth_ofNat (by decide) hlt]
    rfl
  · exact runCommand_err (body := bchVersionBody) (by rw [bchVersionBody_eq, if_pos h])

end Sys2Proof.Machine

/-! ## The layout MATRIX_INIT leaves -/

namespace Sys2Proof.Machine

/-! ### Rings around centres -/

theorem ringOf_le_iff {r c a b k : Nat} : ringOf r c a b ≤ k ↔ a ≤ r + k ∧ r ≤ a + k ∧ b ≤ c + k ∧ c ≤ b + k := by
  unfold ringOf natDist
  omega

/-- Two centres a cell lies near are near each other. -/
theorem ringOf_triangle {r c k : Nat} {o o' : Nat × Nat} (h : ringOf r c o.1 o.2 ≤ k) (h' : ringOf r c o'.1 o'.2 ≤ k) :
    ringOf o.1 o.2 o'.1 o'.2 ≤ 2 * k := by
  rw [ringOf_le_iff] at *
  omega

/-- The ring of the first of the centres `os` that a cell is at most `k` rings from. -/
def ringAmong (os : List (Nat × Nat)) (k r c : Nat) : Option Nat := (os.map fun o => ringOf r c o.1 o.2).find? fun d => d ≤ k

theorem ringAmong_isSome_iff {os : List (Nat × Nat)} {k r c : Nat} :
    (ringAmong os k r c).isSome = true ↔ ∃ o ∈ os, ringOf r c o.1 o.2 ≤ k := by
  simp [ringAmong, List.find?_isSome]

/-- Where the centres lie more than 2·k rings apart, a cell lies near one of them only. -/
theorem ringAmong_eq {os : List (Nat × Nat)} {k r c : Nat} (hfar : ∀ o ∈ os, ∀ o' ∈ os, o ≠ o' → 2 * k < ringOf o.1 o.2 o'.1 o'.2)
    {o : Nat × Nat} (ho : o ∈ os) (h : ringOf r c o.1 o.2 ≤ k) : ringAmong os k r c = some (ringOf r c o.1 o.2) := by
  obtain ⟨d, hd⟩ := Option.isSome_iff_exists.mp (ringAmong_isSome_iff.mpr ⟨o, ho, h⟩)
  obtain ⟨o', ho', rfl⟩ := List.mem_map.mp (List.mem_of_find?_eq_some hd)
  have hle : ringOf r c o'.1 o'.2 ≤ k := by simpa using List.find?_some hd
  by_cases he : o = o'
  · rw [hd, he]
  · have := hfar o ho o' ho' he
    have := ringOf_triangle h hle
    omega

/-! ### Painting cells -/

/-- From `p` to `q` the cells of `S` became assigned function cells, dark where `d` says so, and no other cell changed. -/
structure Paints (p q : Planes) (S : Nat → Nat → Prop) (d : Nat → Nat → Bool) : Prop where
  inside : ∀ r c, S r c → q.darkp.get r c = d r c ∧ q.asgn.get r c = true ∧ q.func.get r c = true
  outside : ∀ r c, ¬ S r c →
    q.darkp.get r c = p.darkp.get r c ∧ q.asgn.get r c = p.asgn.get r c ∧ q.func.get r c = p.func.get r c

section Painting

variable {p q t : Planes} {S T : Nat → Nat → Prop} {d : Nat → Nat → Bool}

theorem Paints.nothing (p : Planes) (hS : ∀ r c, ¬ S r c) : Paints p p S d := ⟨fun r c h => absurd h (hS r c), fun _ _ _ => ⟨rfl, rfl, rfl⟩⟩

theorem Paints.of_iff (h : Paints p q S d) (hST : ∀ r c, S r c ↔ T r c) : Paints p q T d :=
  ⟨fun r c hT => h.inside r c ((hST r c).mpr hT), fun r c hT => h.outside r c (mt (hST r c).mp hT)⟩

theorem Paints.of_dark {d' : Nat → Nat → Bool} (h : Paints p q S d) (hd : ∀ r c, S r c → d r c = d' r c) : Paints p q S d' :=
  ⟨fun r c hS => (hd r c hS) ▸ h.inside r c hS, h.outside⟩

theorem Paints.trans (h : Paints p q S d) (h' : Paints q t T d) : Paints p t (fun r c => S r c ∨ T r c) d where
  inside r c hST := by
    by_cases hT : T r c
    · exact h'.inside r c hT
    · obtain ⟨hd, ha, hf⟩ := h'.outside r c hT
      rw [hd, ha, hf]
      exact h.inside r c (hST.resolve_right hT)
  outside r c hST := by
    obtain ⟨hS, hT⟩ := not_or.mp hST
    obtain ⟨hd, ha, hf⟩ := h'.outside r c hT
    rw [hd, ha, hf]
    exact h.outside r c hS

/-- A cell is assigned after painting when it was painted or was assigned before. -/
theorem Paints.asgn_iff (h : Paints p q S d) {r c : Nat} : q.asgn.get r c = true ↔ S r c ∨ p.asgn.get r c = true := by
  by_cases hS : S r c
  · simp [hS, (h.inside r c hS).2.1]
  · simp [hS, (h.outside r c hS).2.1]

theorem Paints.setf (p : Planes) {r c : Nat} (hr : r < 256) (hc : c < 256) {b : Bool} (hb : d r c = b) :
    Paints p (p.setf r c b) (fun r' c' => r' = r ∧ c' = c) d where
  inside := by
    rintro _ _ ⟨rfl, rfl⟩
    simp [Plane.get_set, hr, hc, hb]
  outside r' c' hne := by
    have hne : ¬ (r' = r ∧ c' = c ∧ r < 256 ∧ c < 256) := fun h => hne ⟨h.1, h.2.1⟩
    simp only [Planes.setf_darkp, Planes.setf_asgn, Planes.setf_func, Plane.get_set, if_neg hne]
    exact ⟨trivial, trivial, trivial⟩

/-- Steps that each paint their own cells paint all of them. -/
theorem Paints.foldl {α : Type} {f : Planes → α → Planes} {xs : List α} {S : α → Nat → Nat → Prop}
    (h : ∀ x ∈ xs, ∀ q, Paints q (f q x) (S x) d) (p : Planes) : Paints p (xs.foldl f p) (fun r c => ∃ x ∈ xs, S x r c) d := by
  induction xs generalizing p with
  | nil => exact .nothing p (by simp)
  | cons x xs ih =>
    exact ((h x (by simp) p).trans (ih (fun y hy => h y (by simp [hy])) (f p x))).of_iff (by simp)

end Painting

/-! ### The finder patterns (R182) -/

/-- A ring of a finder pattern is dark when it is ring 0, 1 or 3. -/
theorem finderDark_eq {r c r0 c0 : Nat} {x : Int × Int} (hx : x ∈ pairs (intRange (-1) 7)) (hr : (r : Int) = r0 + x.1)
    (hc : (c : Int) = c0 + x.2) : finderDark x.1 x.2 =
      (ringOf r c (r0 + 3) (c0 + 3) == 0 || ringOf r c (r0 + 3) (c0 + 3) == 1 || ringOf r c (r0 + 3) (c0 + 3) == 3) := by
  have hring : ringOf r c (r0 + 3) (c0 + 3) = max (x.1 - 3).natAbs (x.2 - 3).natAbs := by unfold ringOf natDist; omega
  have hall : ∀ x ∈ pairs (intRange (-1) 7), finderDark x.1 x.2 = (max (x.1 - 3).natAbs (x.2 - 3).natAbs == 0 ||
      max (x.1 - 3).natAbs (x.2 - 3).natAbs == 1 || max (x.1 - 3).natAbs (x.2 - 3).natAbs == 3) := by decide
  rw [hring, hall x hx]

/-- The cells of the finder pattern, with its separator, at corner `o`. -/
def finderArea (n : Nat) (o : Nat × Nat) (r c : Nat) : Prop := r < n ∧ c < n ∧ ringOf r c (o.1 + 3) (o.2 + 3) ≤ 4

theorem placeFinder_paints {n : Nat} (hn : n ≤ 256) {o : Nat × Nat} {d : Nat → Nat → Bool}
    (hd : ∀ r c, finderArea n o r c → d r c =
      (ringOf r c (o.1 + 3) (o.2 + 3) == 0 || ringOf r c (o.1 + 3) (o.2 + 3) == 1 || ringOf r c (o.1 + 3) (o.2 + 3) == 3)) (p : Planes) :
    Paints p ((pairs (intRange (-1) 7)).foldl (placeFinderCell n o.1 o.2) p) (finderArea n o) d := by
  have hcell (x : Int × Int) (hx : x ∈ pairs (intRange (-1) 7)) (q : Planes) : Paints q (placeFinderCell n o.1 o.2 q x)
      (fun r c => r < n ∧ c < n ∧ (r : Int) = o.1 + x.1 ∧ (c : Int) = o.2 + x.2) d := by
    obtain ⟨h1, h2⟩ := mem_pairs.mp hx
    rw [mem_intRange] at h1 h2
    unfold placeFinderCell
    dsimp only
    split
    · next hin =>
      have hr : ((((o.1 : Int) + x.1).toNat : Nat) : Int) = o.1 + x.1 := by omega
      have hc : ((((o.2 : Int) + x.2).toNat : Nat) : Int) = o.2 + x.2 := by omega
      have hring : ringOf ((o.1 : Int) + x.1).toNat ((o.2 : Int) + x.2).toNat (o.1 + 3) (o.2 + 3) ≤ 4 := by rw [ringOf_le_iff]; omega
      refine (Paints.setf q (by omega) (by omega) ((hd _ _ ⟨by omega, by omega, hring⟩).trans (finderDark_eq hx hr hc).symm)).of_iff
        fun r c => ?_
      omega
    · exact .nothing q (by omega)
  refine (Paints.foldl hcell p).of_iff fun r c => ?_
  rw [finderArea, ringOf_le_iff]
  constructor
  · rintro ⟨x, hx, hr, hc, hxr, hxc⟩
    obtain ⟨h1, h2⟩ := mem_pairs.mp hx
    rw [mem_intRange] at h1 h2
    omega
  · rintro ⟨hr, hc, hring⟩
    exact ⟨((r : Int) - o.1, (c : Int) - o.2), mem_pairs.mpr (by rw [mem_intRange, mem_intRange]; dsimp only; omega), hr, hc,
      by dsimp only; omega, by dsimp only; omega⟩

/-- The centres of the three finder patterns. -/
def finderCentres (n : Nat) : List (Nat × Nat) := [(3, 3), (n - 4, 3), (3, n - 4)]

theorem finderRing_eq (n r c : Nat) : finderRing n r c = ringAmong (finderCentres n) 4 r c := rfl

theorem finderCentres_far {n : Nat} (hn : 21 ≤ n) :
    ∀ o ∈ finderCentres n, ∀ o' ∈ finderCentres n, o ≠ o' → 2 * 4 < ringOf o.1 o.2 o'.1 o'.2 := by
  intro o ho o' ho' hne
  simp only [finderCentres, List.mem_cons, List.not_mem_nil, or_false] at ho ho'
  unfold ringOf natDist
  obtain rfl | rfl | rfl := ho <;> obtain rfl | rfl | rfl := ho' <;> simp only [ne_eq, not_true_eq_false] at hne ⊢ <;> omega

theorem finderRing_isSome_iff {n r c : Nat} (hn : 21 ≤ n) : (finderRing n r c).isSome = true ↔
    (r ≤ 7 ∧ c ≤ 7) ∨ (n ≤ r + 8 ∧ r ≤ n ∧ c ≤ 7) ∨ (r ≤ 7 ∧ n ≤ c + 8 ∧ c ≤ n) := by
  rw [finderRing_eq, ringAmong_isSome_iff]
  simp only [finderCentres, List.mem_cons, List.not_mem_nil, or_false, or_and_right, exists_or, exists_eq_left, ringOf_le_iff]
  omega

theorem mem_finderCentres {n : Nat} (hn : 21 ≤ n) {x : Nat × Nat} :
    x ∈ finderCentres n ↔ ∃ o ∈ finderCorners n, x = (o.1 + 3, o.2 + 3) := by
  have h : n - 7 + 3 = n - 4 := by omega
  simp [finderCentres, finderCorners, h]

theorem placeFinders_paints {v : Nat} (h1 : 1 ≤ v) (h2 : v ≤ 40) (p : Planes) :
    Paints p (placeFinders (side v) p) (fun r c => r < side v ∧ c < side v ∧ (finderRing (side v) r c).isSome = true) (isDarkPattern v) := by
  have hn : 21 ≤ side v := by unfold side; omega
  have hside := side_le h2
  refine (Paints.foldl (S := finderArea (side v)) (fun o ho q => placeFinder_paints (by omega) (fun r c h => ?_) q) p).of_iff fun r c => ?_
  · have hc := (mem_finderCentres hn).mpr ⟨o, ho, rfl⟩
    rw [isDarkPattern, finderRing_eq, ringAmong_eq (finderCentres_far hn) hc h.2.2]
  · simp only [finderRing_eq, ringAmong_isSome_iff, mem_finderCentres hn, finderArea]
    constructor
    · rintro ⟨o, ho, hr, hc, h⟩
      exact ⟨hr, hc, _, ⟨o, ho, rfl⟩, h⟩
    · rintro ⟨hr, hc, _, ⟨o, ho, rfl⟩, h⟩
      exact ⟨o, ho, hr, hc, h⟩

/-! ### The alignment patterns (R183) -/

/-- An alignment position is one of the two that finder patterns share, or lies well between them (R49). -/
theorem alignPos_cases {v : Nat} (h : v ≤ 40) {a : Nat} (ha : a ∈ alignPos v) : a = 6 ∨ a + 7 = side v ∨ (16 ≤ a ∧ a + 16 ≤ side v) := by
  have hall : ((List.range 41).all fun v => (alignPos v).all fun a => decide (a = 6 ∨ a + 7 = side v ∨ (16 ≤ a ∧ a + 16 ≤ side v))) = true := by
    decide +kernel
  exact of_decide_eq_true (List.all_eq_true.mp (List.all_eq_true.mp hall v (List.mem_range.mpr (by omega))) a ha)

/-- The alignment positions rise by more than the width of a pattern. -/
theorem alignPos_spaced {v : Nat} (h : v ≤ 40) : (alignPos v).Pairwise fun a b => a + 4 < b := by
  have hall : ((List.range 41).all fun v => decide ((alignPos v).Pairwise fun a b => a + 4 < b)) = true := by decide +kernel
  exact of_decide_eq_true (List.all_eq_true.mp hall v (List.mem_range.mpr (by omega)))

theorem mem_alignCentres {v : Nat} {o : Nat × Nat} : o ∈ alignCentres v ↔ o.1 ∈ alignPos v ∧ o.2 ∈ alignPos v := by
  obtain ⟨a, b⟩ := o
  simp [alignCentres]

/-- No two alignment patterns of a version meet. -/
theorem alignCentres_far {v : Nat} (h : v ≤ 40) :
    ∀ o ∈ alignCentres v, ∀ o' ∈ alignCentres v, o ≠ o' → 2 * 2 < ringOf o.1 o.2 o'.1 o'.2 := by
  have hpos : ∀ a ∈ alignPos v, ∀ b ∈ alignPos v, a ≠ b → a + 4 < b ∨ b + 4 < a := by
    intro a ha b hb hne
    obtain ⟨i, hi, rfl⟩ := List.getElem_of_mem ha
    obtain ⟨j, hj, rfl⟩ := List.getElem_of_mem hb
    have hspaced := List.pairwise_iff_getElem.mp (alignPos_spaced h)
    rcases Nat.lt_trichotomy i j with hij | rfl | hij
    · exact .inl (hspaced i j hi hj hij)
    · exact absurd rfl hne
    · exact .inr (hspaced j i hj hi hij)
  intro o ho o' ho' hne
  obtain ⟨hr, hc⟩ := mem_alignCentres.mp ho
  obtain ⟨hr', hc'⟩ := mem_alignCentres.mp ho'
  rw [← Nat.not_le, ringOf_le_iff]
  by_cases he : o.1 = o'.1
  · have := hpos _ hc _ hc' fun h => hne (Prod.ext he h)
    omega
  · have := hpos _ hr _ hr' he
    omega

/-- The pairs of two lists without repeats are without repeats. -/
theorem nodup_flatMap_pairs {xs ys : List Nat} (hx : xs.Nodup) (hy : ys.Nodup) : (xs.flatMap fun r => ys.map fun c => (r, c)).Nodup := by
  refine List.pairwise_flatMap.mpr ⟨fun r _ => List.pairwise_map.mpr (hy.imp fun h hc => h (congrArg Prod.snd hc)),
    hx.imp fun hne x hx y hy h => hne ?_⟩
  obtain ⟨c, -, rfl⟩ := List.mem_map.mp hx
  obtain ⟨d, -, rfl⟩ := List.mem_map.mp hy
  exact congrArg Prod.fst h

theorem alignCentres_nodup {v : Nat} (h : v ≤ 40) : (alignCentres v).Nodup := by
  have hnd : (alignPos v).Nodup := (alignPos_spaced h).imp fun h => by omega
  exact nodup_flatMap_pairs hnd hnd

/-- A ring of an alignment pattern is dark when it is ring 0 or 2. -/
theorem alignDark_eq {r c a b : Nat} {x : Int × Int} (hr : (r : Int) = a + x.1) (hc : (c : Int) = b + x.2) (h : ringOf r c a b ≤ 2) :
    alignDark x.1 x.2 = (ringOf r c a b == 0 || ringOf r c a b == 2) := by
  rw [Bool.eq_iff_iff]
  simp only [alignDark, Bool.or_eq_true, Bool.and_eq_true, beq_iff_eq]
  unfold ringOf natDist at *
  omega

theorem placeAlignCells_paints {o : Nat × Nat} (h1 : 2 ≤ o.1 ∧ o.1 + 2 < 256) (h2 : 2 ≤ o.2 ∧ o.2 + 2 < 256) {d : Nat → Nat → Bool}
    (hd : ∀ r c, ringOf r c o.1 o.2 ≤ 2 → d r c = (ringOf r c o.1 o.2 == 0 || ringOf r c o.1 o.2 == 2)) (p : Planes) :
    Paints p ((pairs (intRange (-2) 2)).foldl (placeAlignCell o.1 o.2) p) (fun r c => ringOf r c o.1 o.2 ≤ 2) d := by
  have hcell (x : Int × Int) (hx : x ∈ pairs (intRange (-2) 2)) (q : Planes) : Paints q (placeAlignCell o.1 o.2 q x)
      (fun r c => (r : Int) = o.1 + x.1 ∧ (c : Int) = o.2 + x.2) d := by
    obtain ⟨hx1, hx2⟩ := mem_pairs.mp hx
    rw [mem_intRange] at hx1 hx2
    have hr : ((((o.1 : Int) + x.1).toNat : Nat) : Int) = o.1 + x.1 := by omega
    have hc : ((((o.2 : Int) + x.2).toNat : Nat) : Int) = o.2 + x.2 := by omega
    have hring : ringOf ((o.1 : Int) + x.1).toNat ((o.2 : Int) + x.2).toNat o.1 o.2 ≤ 2 := by rw [ringOf_le_iff]; omega
    exact (Paints.setf q (by omega) (by omega) ((hd _ _ hring).trans (alignDark_eq hr hc hring).symm)).of_iff (by omega)
  refine (Paints.foldl hcell p).of_iff fun r c => ?_
  rw [ringOf_le_iff]
  constructor
  · rintro ⟨x, hx, hr, hc⟩
    obtain ⟨hx1, hx2⟩ := mem_pairs.mp hx
    rw [mem_intRange] at hx1 hx2
    omega
  · intro hring
    exact ⟨((r : Int) - o.1, (c : Int) - o.2), mem_pairs.mpr (by rw [mem_intRange, mem_intRange]; dsimp only; omega),
      by dsimp only; omega, by dsimp only; omega⟩

/-- Of centres whose patterns do not meet, the patterns are placed whose centre was unassigned at the start: those of `ks`. -/
theorem foldl_placeAlignment_paints {os ks : List (Nat × Nat)} (hfar : os.Pairwise fun o o' => 2 < ringOf o'.1 o'.2 o.1 o.2)
    {d : Nat → Nat → Bool} (h : ∀ o ∈ os, o ∈ ks → ∀ q, Paints q ((pairs (intRange (-2) 2)).foldl (placeAlignCell o.1 o.2) q)
      (fun r c => ringOf r c o.1 o.2 ≤ 2) d) {p : Planes} (hp : ∀ o ∈ os, p.asgn.get o.1 o.2 = false ↔ o ∈ ks) :
    Paints p (os.foldl placeAlignment p) (fun r c => ∃ o ∈ os, o ∈ ks ∧ ringOf r c o.1 o.2 ≤ 2) d := by
  induction os generalizing p with
  | nil => exact .nothing p (by simp)
  | cons o os ih =>
    obtain ⟨ho, hfar⟩ := List.pairwise_cons.mp hfar
    obtain ⟨hpo, hp⟩ := List.forall_mem_cons.mp hp
    obtain ⟨hpaint, h⟩ := List.forall_mem_cons.mp h
    rw [List.foldl_cons, placeAlignment]
    by_cases hk : o ∈ ks
    · rw [if_neg (by rw [hpo.mpr hk]; decide)]
      have hsame : ∀ o' ∈ os, ((pairs (intRange (-2) 2)).foldl (placeAlignCell o.1 o.2) p).asgn.get o'.1 o'.2 = false ↔ o' ∈ ks := by
        intro o' ho'
        rw [((hpaint hk p).outside _ _ (Nat.not_le.mpr (ho o' ho'))).2.1]
        exact hp o' ho'
      exact ((hpaint hk p).trans (ih hfar h hsame)).of_iff (by simp [hk])
    · rw [if_pos (by simpa [← hpo] using hk)]
      exact (ih hfar h hp).of_iff (by simp [hk])

/-- The centres of the alignment patterns of a version: those that lie in no finder pattern. -/
def keptCentres (v : Nat) : List (Nat × Nat) :=
  (alignCentres v).filter fun o => !([(6, 6), (6, side v - 7), (side v - 7, 6)].contains o)

theorem alignRing_eq (v r c : Nat) : alignRing v r c = ringAmong (keptCentres v) 2 r c := rfl

theorem keptCentres_far {v : Nat} (h : v ≤ 40) :
    ∀ o ∈ keptCentres v, ∀ o' ∈ keptCentres v, o ≠ o' → 2 * 2 < ringOf o.1 o.2 o'.1 o'.2 := fun o ho o' ho' =>
  alignCentres_far h o (List.mem_filter.mp ho).1 o' (List.mem_filter.mp ho').1

theorem mem_keptCentres {v : Nat} {o : Nat × Nat} : o ∈ keptCentres v ↔ o ∈ alignCentres v ∧
    ¬ ((o.1 = 6 ∧ o.2 = 6) ∨ (o.1 = 6 ∧ o.2 + 7 = side v) ∨ (o.1 + 7 = side v ∧ o.2 = 6)) := by
  have hn : 17 ≤ side v := by unfold side; omega
  rw [keptCentres, List.mem_filter]
  refine and_congr_right fun _ => ?_
  simp only [List.contains_eq_mem, List.mem_cons, List.not_mem_nil, or_false, Bool.not_eq_true', decide_eq_false_iff_not, Prod.ext_iff]
  omega

theorem alignCentres_cases {v : Nat} (h : v ≤ 40) {o : Nat × Nat} (ho : o ∈ alignCentres v) :
    (o.1 = 6 ∨ o.1 + 7 = side v ∨ (16 ≤ o.1 ∧ o.1 + 16 ≤ side v)) ∧ (o.2 = 6 ∨ o.2 + 7 = side v ∨ (16 ≤ o.2 ∧ o.2 + 16 ≤ side v)) := by
  obtain ⟨hr, hc⟩ := mem_alignCentres.mp ho
  exact ⟨alignPos_cases h hr, alignPos_cases h hc⟩

/-- The centre of an alignment pattern lies in a finder pattern exactly when it is not kept. -/
theorem finderRing_alignCentre {v : Nat} (h1 : 1 ≤ v) (h2 : v ≤ 40) {o : Nat × Nat} (ho : o ∈ alignCentres v) :
    (finderRing (side v) o.1 o.2).isSome = true ↔ o ∉ keptCentres v := by
  have hn : 21 ≤ side v := by unfold side; omega
  have hcases := alignCentres_cases h2 ho
  rw [finderRing_isSome_iff hn, mem_keptCentres, not_and, Decidable.not_not, forall_prop_of_true ho]
  omega

/-- No alignment pattern meets a finder pattern. -/
theorem finderRing_of_alignRing {v r c : Nat} (h1 : 1 ≤ v) (h2 : v ≤ 40) {o : Nat × Nat} (ho : o ∈ keptCentres v)
    (h : ringOf r c o.1 o.2 ≤ 2) : finderRing (side v) r c = none := by
  have hn : 21 ≤ side v := by unfold side; omega
  obtain ⟨ho, hkept⟩ := mem_keptCentres.mp ho
  have hcases := alignCentres_cases h2 ho
  rw [ringOf_le_iff] at h
  rw [← Option.not_isSome_iff_eq_none, finderRing_isSome_iff hn]
  omega

/-- An alignment pattern is dark in its rings 0 and 2. -/
theorem isDarkPattern_align {v r c : Nat} (h1 : 1 ≤ v) (h2 : v ≤ 40) {o : Nat × Nat} (ho : o ∈ keptCentres v)
    (h : ringOf r c o.1 o.2 ≤ 2) : isDarkPattern v r c = (ringOf r c o.1 o.2 == 0 || ringOf r c o.1 o.2 == 2) := by
  rw [isDarkPattern, finderRing_of_alignRing h1 h2 ho h, alignRing_eq, ringAmong_eq (keptCentres_far h2) ho h]

/-- After the finder patterns, the alignment patterns of the kept centres are placed. -/
theorem placeAlignments_paints {v : Nat} (h1 : 1 ≤ v) (h2 : v ≤ 40) {p : Planes}
    (hp : ∀ r c, r < side v → c < side v → p.asgn.get r c = (finderRing (side v) r c).isSome) :
    Paints p (placeAlignments v p) (fun r c => (alignRing v r c).isSome = true) (isDarkPattern v) := by
  have hside := side_le h2
  have hkept (o : Nat × Nat) (ho : o ∈ alignCentres v) : p.asgn.get o.1 o.2 = false ↔ o ∈ keptCentres v := by
    obtain ⟨hr, hc⟩ := mem_alignCentres.mp ho
    have := alignPos_inside h2 hr
    have := alignPos_inside h2 hc
    rw [hp _ _ (by omega) (by omega), ← Bool.not_eq_true, finderRing_alignCentre h1 h2 ho, Decidable.not_not]
  have hfar : (alignCentres v).Pairwise fun o o' => 2 < ringOf o'.1 o'.2 o.1 o.2 :=
    (alignCentres_nodup h2).imp_of_mem fun ho ho' hne => Nat.lt_of_le_of_lt (by decide) (alignCentres_far h2 _ ho' _ ho hne.symm)
  refine (foldl_placeAlignment_paints hfar (fun o ho hk q => ?_) hkept).of_iff fun r c => ?_
  · have hn : 21 ≤ side v := by unfold side; omega
    have hcases := alignCentres_cases h2 ho
    exact placeAlignCells_paints (by omega) (by omega) (fun r c => isDarkPattern_align h1 h2 hk) q
  · rw [alignRing_eq, ringAmong_isSome_iff]
    exact ⟨fun ⟨o, _, hk, h⟩ => ⟨o, hk, h⟩, fun ⟨o, hk, h⟩ => ⟨o, (mem_keptCentres.mp hk).1, hk, h⟩⟩

/-! ### The timing patterns (R184) -/

/-- From `p` to `q` the unassigned cells of `S` were painted. -/
def Fills (p q : Planes) (S : Nat → Nat → Prop) (d : Nat → Nat → Bool) : Prop := Paints p q (fun r c => S r c ∧ p.asgn.get r c = false) d

theorem Fills.trans {p q t : Planes} {S T : Nat → Nat → Prop} {d : Nat → Nat → Bool} (h : Fills p q S d) (h' : Fills q t T d) :
    Fills p t (fun r c => S r c ∨ T r c) d := by
  refine (Paints.trans h h').of_iff fun r c => ?_
  have hq := h.asgn_iff (r := r) (c := c)
  constructor
  · rintro (⟨hS, ha⟩ | ⟨hT, hfree⟩)
    · exact ⟨.inl hS, ha⟩
    · exact ⟨.inr hT, Bool.eq_false_iff.mpr fun ha => Bool.eq_false_iff.mp hfree (hq.mpr (.inr ha))⟩
  · rintro ⟨hST, ha⟩
    by_cases hS : S r c
    · exact .inl ⟨hS, ha⟩
    · refine .inr ⟨hST.resolve_left hS, Bool.eq_false_iff.mpr fun hset => ?_⟩
      exact (hq.mp hset).elim (fun h => hS h.1) (Bool.eq_false_iff.mp ha)

theorem Fills.foldl {α : Type} {f : Planes → α → Planes} {xs : List α} {S : α → Nat → Nat → Prop} {d : Nat → Nat → Bool}
    (h : ∀ x ∈ xs, ∀ q, Fills q (f q x) (S x) d) (p : Planes) : Fills p (xs.foldl f p) (fun r c => ∃ x ∈ xs, S x r c) d := by
  induction xs generalizing p with
  | nil => exact .nothing p (by simp)
  | cons x xs ih =>
    exact Paints.of_iff ((h x (by simp) p).trans (ih (fun y hy => h y (by simp [hy])) (f p x))) (by simp)

theorem setIfFree_fills (p : Planes) {r c : Nat} (hr : r < 256) (hc : c < 256) {d : Nat → Nat → Bool} {b : Bool} (hb : d r c = b) :
    Fills p (setIfFree p r c b) (fun r' c' => r' = r ∧ c' = c) d := by
  unfold setIfFree
  split
  · next ha => exact .nothing p (by rintro _ _ ⟨⟨rfl, rfl⟩, hf⟩; rw [ha] at hf; cases hf)
  · next ha =>
    exact (Paints.setf p hr hc hb).of_iff fun r' c' => ⟨by rintro ⟨rfl, rfl⟩; exact ⟨⟨rfl, rfl⟩, by simpa using ha⟩, And.left⟩

theorem onTiming_iff {n r c : Nat} : onTiming n r c = true ↔ (r = 6 ∧ 8 ≤ c ∧ c + 9 ≤ n) ∨ (c = 6 ∧ 8 ≤ r ∧ r + 9 ≤ n) := by
  simp [onTiming, and_assoc]

theorem placeTiming_fills {n : Nat} (hn : n ≤ 256) (p : Planes) :
    Fills p (placeTiming n p) (fun r c => onTiming n r c = true) fun r c => (r + c) % 2 == 0 := by
  have hcell (i : Nat) (hi : i ∈ timingIndices n) (q : Planes) :
      Fills q (placeTimingCell q i) (fun r c => (r = 6 ∧ c = i) ∨ (r = i ∧ c = 6)) fun r c => (r + c) % 2 == 0 := by
    obtain ⟨k, hk, rfl⟩ := List.mem_map.mp hi
    have hk := List.mem_range.mp hk
    rw [placeTimingCell_eq]
    exact (setIfFree_fills q (by omega) (by omega) (by rw [Bool.eq_iff_iff, beq_iff_eq, beq_iff_eq]; omega)).trans
      (setIfFree_fills _ (by omega) (by omega) (by rw [Bool.eq_iff_iff, beq_iff_eq, beq_iff_eq]; omega))
  refine Paints.of_iff (Fills.foldl hcell p) fun r c => and_congr_left fun _ => ?_
  dsimp only
  rw [onTiming_iff]
  constructor
  · rintro ⟨i, hi, h⟩
    obtain ⟨k, hk, rfl⟩ := List.mem_map.mp hi
    have hk := List.mem_range.mp hk
    omega
  · rintro (⟨h6, h8, hc⟩ | ⟨h6, h8, hr⟩)
    · exact ⟨c, List.mem_map.mpr ⟨c - 8, List.mem_range.mpr (by omega), by omega⟩, .inl ⟨h6, rfl⟩⟩
    · exact ⟨r, List.mem_map.mpr ⟨r - 8, List.mem_range.mpr (by omega), by omega⟩, .inr ⟨rfl, h6⟩⟩

/-! ### The patterns together -/

theorem isPatternCell_iff {v r c : Nat} : isPatternCell v r c = true ↔ r < side v ∧ c < side v ∧
    ((finderRing (side v) r c).isSome = true ∨ (alignRing v r c).isSome = true ∨ onTiming (side v) r c = true) := by
  simp [isPatternCell, and_assoc, or_assoc]

theorem alignRing_inside {v r c : Nat} (h : v ≤ 40) (ha : (alignRing v r c).isSome = true) : r < side v ∧ c < side v := by
  rw [alignRing_eq, ringAmong_isSome_iff] at ha
  obtain ⟨o, ho, hr⟩ := ha
  obtain ⟨h1, h2⟩ := mem_alignCentres.mp (mem_keptCentres.mp ho).1
  have := alignPos_inside h h1
  have := alignPos_inside h h2
  rw [ringOf_le_iff] at hr
  omega

/-- The function patterns are the pattern cells of the closed formulas (R182 to R184). -/
theorem patternPlanes_paints {v : Nat} (h1 : 1 ≤ v) (h2 : v ≤ 40) :
    Paints Planes.zero (patternPlanes v) (fun r c => isPatternCell v r c = true) (isDarkPattern v) := by
  have hside := side_le h2
  have hfinders := placeFinders_paints h1 h2 Planes.zero
  have hf : ∀ r c, (placeFinders (side v) Planes.zero).asgn.get r c = true ↔
      r < side v ∧ c < side v ∧ (finderRing (side v) r c).isSome = true := fun r c => by rw [hfinders.asgn_iff]; simp
  have haligned := hfinders.trans (placeAlignments_paints h1 h2 (p := placeFinders (side v) Planes.zero) fun r c hr hc => by
    rw [Bool.eq_iff_iff, hf]; simp [hr, hc])
  have ha : ∀ r c, (placeAlignments v (placeFinders (side v) Planes.zero)).asgn.get r c = true ↔
      (r < side v ∧ c < side v ∧ (finderRing (side v) r c).isSome = true) ∨ (alignRing v r c).isSome = true :=
    fun r c => by rw [haligned.asgn_iff]; simp
  have htiming := (placeTiming_fills (n := side v) (by omega) (placeAlignments v (placeFinders (side v) Planes.zero))).of_dark
    (d' := isDarkPattern v) fun r c ⟨ht, hfree⟩ => ?_
  · refine (haligned.trans htiming).of_iff fun r c => ?_
    have hin := alignRing_inside (r := r) (c := c) h2
    have htin : onTiming (side v) r c = true → r < side v ∧ c < side v := by rw [onTiming_iff]; omega
    rw [← Bool.not_eq_true, ha, isPatternCell_iff]
    constructor
    · rintro ((⟨hr, hc, hf⟩ | hg) | ⟨ht, -⟩)
      · exact ⟨hr, hc, .inl hf⟩
      · exact ⟨(hin hg).1, (hin hg).2, .inr (.inl hg)⟩
      · exact ⟨(htin ht).1, (htin ht).2, .inr (.inr ht)⟩
    · rintro ⟨hr, hc, hf | hg | ht⟩
      · exact .inl (.inl ⟨hr, hc, hf⟩)
      · exact .inl (.inr hg)
      · exact (Decidable.em _).imp_right fun hn => ⟨ht, hn⟩
  · rw [← Bool.not_eq_true, ha, not_or] at hfree
    obtain ⟨hfinder, halign⟩ := hfree
    have ht := onTiming_iff.mp ht
    have hfinder : finderRing (side v) r c = none := by
      rw [← Option.not_isSome_iff_eq_none]
      exact fun h => hfinder ⟨by omega, by omega, h⟩
    rw [isDarkPattern, hfinder, Option.not_isSome_iff_eq_none.mp halign]

/-! ### The reserved cells (R185, R186) -/

theorem fpos1_eq_iff {n i r c : Nat} (hn : 21 ≤ n) (hi : i < 15) : fpos1 n i = (r, c) ↔
    c = 8 ∧ ((i ≤ 5 ∧ r = i) ∨ (6 ≤ i ∧ i ≤ 7 ∧ r = i + 1) ∨ (8 ≤ i ∧ r + 15 = n + i)) := by
  unfold fpos1
  split
  · rw [Prod.mk.injEq]; omega
  · split <;> rw [Prod.mk.injEq] <;> omega

theorem fpos2_eq_iff {n i r c : Nat} (hn : 21 ≤ n) (hi : i < 15) : fpos2 n i = (r, c) ↔
    r = 8 ∧ ((i ≤ 7 ∧ c + 1 + i = n) ∨ (i = 8 ∧ c = 7) ∨ (9 ≤ i ∧ c + i = 14)) := by
  unfold fpos2
  split
  · rw [Prod.mk.injEq]; omega
  · split <;> rw [Prod.mk.injEq] <;> omega

theorem darkModule_eq_iff {n r c : Nat} (hn : 21 ≤ n) : darkModule n = (r, c) ↔ c = 8 ∧ r + 8 = n := by
  rw [darkModule, Prod.mk.injEq]
  omega

theorem vpos1_eq_iff {n i r c : Nat} (hn : 21 ≤ n) : vpos1 n i = (r, c) ↔ r = i / 3 ∧ c + 11 = n + i % 3 := by
  rw [vpos1, Prod.mk.injEq]
  omega

theorem vpos2_eq_iff {n i r c : Nat} (hn : 21 ≤ n) : vpos2 n i = (r, c) ↔ c = i / 3 ∧ r + 11 = n + i % 3 := by
  rw [vpos2, Prod.mk.injEq]
  omega

theorem inFormatArea_iff {n r c : Nat} : inFormatArea n r c = true ↔
    (c = 8 ∧ (r ≤ 5 ∨ r = 7 ∨ r = 8 ∨ n ≤ r + 8)) ∨ (r = 8 ∧ (c ≤ 5 ∨ c = 7 ∨ n ≤ c + 8)) := by
  simp [inFormatArea, or_assoc]

theorem inVersionArea_iff {n r c : Nat} : inVersionArea n r c = true ↔
    (r ≤ 5 ∧ n ≤ c + 11 ∧ c + 9 ≤ n) ∨ (c ≤ 5 ∧ n ≤ r + 11 ∧ r + 9 ≤ n) := by
  simp [inVersionArea, and_assoc]

theorem exists_fpos1_iff {n r c : Nat} (hn : 21 ≤ n) : (∃ i, i < 15 ∧ fpos1 n i = (r, c)) ↔
    c = 8 ∧ (r ≤ 5 ∨ r = 7 ∨ r = 8 ∨ (n ≤ r + 7 ∧ r < n)) := by
  constructor
  · rintro ⟨i, hi, h⟩
    rw [fpos1_eq_iff hn hi] at h
    omega
  · rintro ⟨rfl, h | rfl | rfl | h⟩
    · exact ⟨r, by omega, (fpos1_eq_iff hn (by omega)).mpr (by omega)⟩
    · exact ⟨6, by omega, (fpos1_eq_iff hn (by omega)).mpr (by omega)⟩
    · exact ⟨7, by omega, (fpos1_eq_iff hn (by omega)).mpr (by omega)⟩
    · exact ⟨r + 15 - n, by omega, (fpos1_eq_iff hn (by omega)).mpr (by omega)⟩

theorem exists_fpos2_iff {n r c : Nat} (hn : 21 ≤ n) : (∃ i, i < 15 ∧ fpos2 n i = (r, c)) ↔
    r = 8 ∧ (c ≤ 5 ∨ c = 7 ∨ (n ≤ c + 8 ∧ c < n)) := by
  constructor
  · rintro ⟨i, hi, h⟩
    rw [fpos2_eq_iff hn hi] at h
    omega
  · rintro ⟨rfl, h | rfl | h⟩
    · exact ⟨14 - c, by omega, (fpos2_eq_iff hn (by omega)).mpr (by omega)⟩
    · exact ⟨8, by omega, (fpos2_eq_iff hn (by omega)).mpr (by omega)⟩
    · exact ⟨n - 1 - c, by omega, (fpos2_eq_iff hn (by omega)).mpr (by omega)⟩

theorem mem_formatCells {n r c : Nat} (hn : 21 ≤ n) : (r, c) ∈ formatCells n ↔ r < n ∧ c < n ∧ inFormatArea n r c = true := by
  have hmem : (r, c) ∈ formatCells n ↔
      (∃ i, i < 15 ∧ fpos1 n i = (r, c)) ∨ (∃ i, i < 15 ∧ fpos2 n i = (r, c)) ∨ darkModule n = (r, c) := by
    simp [formatCells, eq_comm (b := darkModule n)]
  rw [hmem, exists_fpos1_iff hn, exists_fpos2_iff hn, darkModule_eq_iff hn, inFormatArea_iff]
  omega

theorem mem_versionCells {v n r c : Nat} (hn : 21 ≤ n) : (r, c) ∈ versionCells v n ↔ 7 ≤ v ∧ inVersionArea n r c = true := by
  by_cases hv : 7 ≤ v
  · have hmem : (r, c) ∈ versionCells v n ↔ (∃ i, i < 18 ∧ vpos1 n i = (r, c)) ∨ ∃ i, i < 18 ∧ vpos2 n i = (r, c) := by
      simp [versionCells, hv]
    simp only [hmem, inVersionArea_iff, hv, true_and, vpos1_eq_iff hn, vpos2_eq_iff hn]
    constructor
    · rintro (⟨i, hi, h⟩ | ⟨i, hi, h⟩) <;> omega
    · rintro (h | h)
      · exact .inl ⟨3 * r + (c + 11 - n), by omega, by omega⟩
      · exact .inr ⟨3 * c + (r + 11 - n), by omega, by omega⟩
  · simp [versionCells, hv]

/-- The reserved cells are those of the closed formulas. -/
theorem mem_reservedCells {v r c : Nat} (h : 1 ≤ v) : (r, c) ∈ reservedCells v (side v) ↔ isReservedArea v r c = true := by
  have hn : 21 ≤ side v := by unfold side; omega
  rw [reservedCells, List.mem_append, mem_formatCells hn, mem_versionCells hn]
  have hin : inVersionArea (side v) r c = true → r < side v ∧ c < side v := by rw [inVersionArea_iff]; omega
  simp only [isReservedArea, Bool.and_eq_true, Bool.or_eq_true, decide_eq_true_eq]
  constructor
  · rintro (⟨hr, hc, hf⟩ | ⟨hv, hver⟩)
    · exact ⟨⟨hr, hc⟩, .inl hf⟩
    · exact ⟨hin hver, .inr ⟨hv, hver⟩⟩
  · rintro ⟨⟨hr, hc⟩, hf | hver⟩
    · exact .inl ⟨hr, hc, hf⟩
    · exact .inr hver

/-- No pattern covers a reserved cell (R185, R186). -/
theorem not_pattern_and_reserved {v r c : Nat} (h1 : 1 ≤ v) (h2 : v ≤ 40) : (isPatternCell v r c && isReservedArea v r c) = false := by
  have hn : 21 ≤ side v := by unfold side; omega
  have hreserved : isReservedArea v r c = true → inFormatArea (side v) r c = true ∨ inVersionArea (side v) r c = true := by
    simp only [isReservedArea, Bool.and_eq_true, Bool.or_eq_true]
    exact fun h => h.2.imp_right And.right
  rw [Bool.eq_false_iff, ne_eq, Bool.and_eq_true, isPatternCell_iff, finderRing_isSome_iff hn, onTiming_iff, alignRing_eq,
    ringAmong_isSome_iff]
  rintro ⟨⟨hr, hc, hpattern⟩, h⟩
  have h := hreserved h
  rw [inFormatArea_iff, inVersionArea_iff] at h
  obtain hfinder | ⟨o, ho, hring⟩ | htiming := hpattern
  · omega
  · obtain ⟨ho, hkept⟩ := mem_keptCentres.mp ho
    have hcases := alignCentres_cases h2 ho
    rw [ringOf_le_iff] at hring
    omega
  · omega

/-! ### The command (R181) -/

theorem initialPlanes_asgn_eq {v : Nat} (h1 : 1 ≤ v) (h2 : v ≤ 40) (r c : Nat) :
    (initialPlanes v).asgn.get r c = isPatternCell v r c := by
  rw [initialPlanes_eq, reserveCells_asgn, reserveCells_asgn, Bool.eq_iff_iff, (patternPlanes_paints h1 h2).asgn_iff]
  simp

theorem initialPlanes_func_eq {v : Nat} (h1 : 1 ≤ v) (h2 : v ≤ 40) (r c : Nat) :
    (initialPlanes v).func.get r c = (isPatternCell v r c || isReservedArea v r c) := by
  rw [initialPlanes_func h1 h2, initialPlanes_asgn_eq h1 h2, Bool.eq_iff_iff, Bool.or_eq_true, Bool.or_eq_true, List.contains_iff_mem,
    mem_reservedCells h1]

theorem initialPlanes_darkp_eq {v : Nat} (h1 : 1 ≤ v) (h2 : v ≤ 40) (r c : Nat) :
    (initialPlanes v).darkp.get r c = (isPatternCell v r c && isDarkPattern v r c) := by
  rw [initialPlanes_eq, reserveCells_darkp, reserveCells_darkp]
  by_cases hp : isPatternCell v r c = true
  · rw [((patternPlanes_paints h1 h2).inside r c hp).1, hp, Bool.true_and]
  · rw [((patternPlanes_paints h1 h2).outside r c hp).1, Bool.eq_false_iff.mpr hp]
    simp

theorem exec_matrixInit {s : State} (h1 : 1 ≤ s.host.config.version.toNat) (h2 : s.host.config.version.toNat ≤ 40) :
    exec .matrixInit s = .next (matrixInitWrites s.host.config s).complete :=
  runCommand_ok (body := matrixInitBody) (by rw [matrixInitBody_eq, if_neg (by omega)])

/-- Settles O40: the patterns are painted in the order of the closed formulas' precedence, and the reserved cells are apart from them. -/
theorem matrixInitLayout : Obligations.MatrixInitLayout := by
  refine ⟨rfl, fun s => ⟨fun h1 h2 => ?_, fun h => ?_⟩⟩
  · exact ⟨initialPlanes s.host.config.version.toNat, exec_matrixInit h1 h2, fun r c =>
      ⟨initialPlanes_asgn_eq h1 h2 r c, initialPlanes_func_eq h1 h2 r c, initialPlanes_darkp_eq h1 h2 r c, not_pattern_and_reserved h1 h2⟩⟩
  · exact runCommand_err (body := matrixInitBody) (by rw [matrixInitBody_eq, if_pos (by omega)])

end Sys2Proof.Machine

/-! ## The number of data cells -/

namespace Sys2Proof.Machine

/-! ### Lists -/

theorem length_filter_add_filter_not {α : Type} (p : α → Bool) (xs : List α) :
    (xs.filter p).length + (xs.filter fun x => !p x).length = xs.length := by
  rw [← List.countP_eq_length_filter, ← List.countP_eq_length_filter, List.length_eq_countP_add_countP p (l := xs)]
  congr 2
  funext x
  cases p x <;> rfl

/-! ### The cells of the patterns, as lists without repeats -/

/-- The cells of the rectangle of `h` rows from row `r` and `w` columns from column `c`. -/
def box (r h c w : Nat) : List (Nat × Nat) := (List.range' r h).flatMap fun a => (List.range' c w).map fun b => (a, b)

theorem mem_box {r h c w : Nat} {x : Nat × Nat} : x ∈ box r h c w ↔ (r ≤ x.1 ∧ x.1 < r + h) ∧ c ≤ x.2 ∧ x.2 < c + w := by
  obtain ⟨a, b⟩ := x
  simp only [box, List.mem_flatMap, List.mem_map, List.mem_range'_1, Prod.mk.injEq]
  exact ⟨fun ⟨_, ha, _, hb, h1, h2⟩ => h1 ▸ h2 ▸ ⟨ha, hb⟩, fun ⟨ha, hb⟩ => ⟨a, ha, b, hb, rfl, rfl⟩⟩

theorem box_nodup (r h c w : Nat) : (box r h c w).Nodup := nodup_flatMap_pairs List.nodup_range' List.nodup_range'

theorem length_flatMap_const {α β : Type} {f : α → List β} {k : Nat} {xs : List α} (h : ∀ x ∈ xs, (f x).length = k) :
    (xs.flatMap f).length = xs.length * k := by
  induction xs with
  | nil => exact (Nat.zero_mul k).symm
  | cons x xs ih =>
    obtain ⟨hx, h⟩ := List.forall_mem_cons.mp h
    rw [List.flatMap_cons, List.length_append, hx, ih h, List.length_cons, Nat.succ_mul, Nat.add_comm]

theorem length_box (r h c w : Nat) : (box r h c w).length = h * w := by
  rw [box, length_flatMap_const (k := w) fun a _ => by rw [List.length_map, List.length_range'], List.length_range']

/-- The cells of the finder patterns and their separators (R182). -/
def finderCells (n : Nat) : List (Nat × Nat) := box 0 8 0 8 ++ (box (n - 8) 8 0 8 ++ box 0 8 (n - 8) 8)

theorem mem_finderCells {n : Nat} (hn : 21 ≤ n) {x : Nat × Nat} :
    x ∈ finderCells n ↔ x.1 < n ∧ x.2 < n ∧ (finderRing n x.1 x.2).isSome = true := by
  rw [finderCells, List.mem_append, List.mem_append, mem_box, mem_box, mem_box, finderRing_isSome_iff hn]
  omega

theorem finderCells_nodup {n : Nat} (hn : 21 ≤ n) : (finderCells n).Nodup := by
  refine List.nodup_append.mpr ⟨box_nodup _ _ _ _, List.nodup_append.mpr ⟨box_nodup _ _ _ _, box_nodup _ _ _ _, ?_⟩, ?_⟩
  · rintro x hx y hy rfl
    rw [mem_box] at hx hy
    omega
  · rintro x hx y hy rfl
    rw [List.mem_append, mem_box, mem_box] at hy
    rw [mem_box] at hx
    omega

theorem length_finderCells (n : Nat) : (finderCells n).length = 192 := by
  rw [finderCells, List.length_append, List.length_append, length_box, length_box, length_box]

/-- Cells taken from each alignment pattern are without repeats when those of one pattern are. -/
theorem flatMap_keptCentres_nodup {v : Nat} (h : v ≤ 40) {g : Nat × Nat → List (Nat × Nat)} (hnd : ∀ o, (g o).Nodup)
    (hg : ∀ o ∈ keptCentres v, ∀ x ∈ g o, ringOf x.1 x.2 o.1 o.2 ≤ 2) : ((keptCentres v).flatMap g).Nodup := by
  have hkept : (keptCentres v).Nodup := (alignCentres_nodup h).filter _
  refine List.pairwise_flatMap.mpr ⟨fun o _ => hnd o, hkept.imp_of_mem fun {o o'} ho ho' hne => ?_⟩
  rintro x hx y hy rfl
  exact Nat.not_lt.mpr (ringOf_triangle (hg o ho x hx) (hg o' ho' x hy)) (keptCentres_far h o ho o' ho' hne)

/-- The cells of the alignment pattern centred at `o`. -/
def alignBox (o : Nat × Nat) : List (Nat × Nat) := box (o.1 - 2) 5 (o.2 - 2) 5

theorem mem_alignBox {v : Nat} (h1 : 1 ≤ v) (h2 : v ≤ 40) {o x : Nat × Nat} (ho : o ∈ keptCentres v) :
    x ∈ alignBox o ↔ ringOf x.1 x.2 o.1 o.2 ≤ 2 := by
  have hn : 21 ≤ side v := by unfold side; omega
  have hcases := alignCentres_cases h2 (mem_keptCentres.mp ho).1
  rw [alignBox, mem_box, ringOf_le_iff]
  omega

/-- The cells of the alignment patterns (R183). -/
def alignCells (v : Nat) : List (Nat × Nat) := (keptCentres v).flatMap alignBox

theorem mem_alignCells {v : Nat} (h1 : 1 ≤ v) (h2 : v ≤ 40) {x : Nat × Nat} :
    x ∈ alignCells v ↔ (alignRing v x.1 x.2).isSome = true := by
  rw [alignCells, List.mem_flatMap, alignRing_eq, ringAmong_isSome_iff]
  exact exists_congr fun o => and_congr_right fun ho => mem_alignBox h1 h2 ho

theorem alignCells_nodup {v : Nat} (h1 : 1 ≤ v) (h2 : v ≤ 40) : (alignCells v).Nodup :=
  flatMap_keptCentres_nodup h2 (fun _ => box_nodup _ _ _ _) fun _ ho _ hx => (mem_alignBox h1 h2 ho).mp hx

theorem length_alignCells (v : Nat) : (alignCells v).length = (keptCentres v).length * 25 :=
  length_flatMap_const fun _ _ => length_box _ _ _ _

/-- The cells of the timing patterns (R184). -/
def timingCells (n : Nat) : List (Nat × Nat) := box 6 1 8 (n - 16) ++ box 8 (n - 16) 6 1

theorem mem_timingCells {n : Nat} {x : Nat × Nat} : x ∈ timingCells n ↔ onTiming n x.1 x.2 = true := by
  rw [timingCells, List.mem_append, mem_box, mem_box, onTiming_iff]
  omega

theorem timingCells_nodup (n : Nat) : (timingCells n).Nodup := by
  refine List.nodup_append.mpr ⟨box_nodup _ _ _ _, box_nodup _ _ _ _, ?_⟩
  rintro x hx y hy rfl
  rw [mem_box] at hx hy
  omega

theorem length_timingCells (n : Nat) : (timingCells n).length = 2 * (n - 16) := by
  rw [timingCells, List.length_append, length_box, length_box]
  omega

/-- The timing cells that the alignment pattern centred at `o` covers: five, when its centre is on a timing pattern. -/
def coveredTiming (o : Nat × Nat) : List (Nat × Nat) :=
  if o.1 = 6 then box 6 1 (o.2 - 2) 5 else if o.2 = 6 then box (o.1 - 2) 5 6 1 else []

theorem coveredTiming_nodup (o : Nat × Nat) : (coveredTiming o).Nodup := by
  unfold coveredTiming
  split
  · exact box_nodup _ _ _ _
  · split
    · exact box_nodup _ _ _ _
    · exact List.nodup_nil

theorem mem_coveredTiming {v : Nat} (h1 : 1 ≤ v) (h2 : v ≤ 40) {o x : Nat × Nat} (ho : o ∈ keptCentres v) :
    x ∈ coveredTiming o ↔ ringOf x.1 x.2 o.1 o.2 ≤ 2 ∧ onTiming (side v) x.1 x.2 = true := by
  have hn : 21 ≤ side v := by unfold side; omega
  obtain ⟨hm, hkept⟩ := mem_keptCentres.mp ho
  have hcases := alignCentres_cases h2 hm
  rw [ringOf_le_iff, onTiming_iff, coveredTiming]
  split
  · rw [mem_box]; omega
  · split
    · rw [mem_box]; omega
    · rw [List.mem_nil_iff, false_iff]; omega

/-- The timing cells that no alignment pattern covers. -/
def freeTiming (v : Nat) : List (Nat × Nat) := (timingCells (side v)).filter fun x => !(alignRing v x.1 x.2).isSome

theorem mem_freeTiming {v : Nat} {x : Nat × Nat} :
    x ∈ freeTiming v ↔ onTiming (side v) x.1 x.2 = true ∧ ¬ (alignRing v x.1 x.2).isSome = true := by
  rw [freeTiming, List.mem_filter, mem_timingCells, Bool.not_eq_true', Bool.not_eq_true]

/-- Of the timing cells, the covered ones are found pattern by pattern. -/
theorem length_freeTiming {v : Nat} (h1 : 1 ≤ v) (h2 : v ≤ 40) :
    ((keptCentres v).flatMap coveredTiming).length + (freeTiming v).length = 2 * (side v - 16) := by
  have hcovered : ((timingCells (side v)).filter fun x => (alignRing v x.1 x.2).isSome).Perm ((keptCentres v).flatMap coveredTiming) := by
    refine (List.perm_ext_iff_of_nodup ((timingCells_nodup _).filter _) (flatMap_keptCentres_nodup h2 coveredTiming_nodup
      fun o ho x hx => ((mem_coveredTiming h1 h2 ho).mp hx).1)).mpr fun x => ?_
    rw [List.mem_filter, mem_timingCells, alignRing_eq, ringAmong_isSome_iff, List.mem_flatMap]
    constructor
    · rintro ⟨ht, o, ho, hring⟩
      exact ⟨o, ho, (mem_coveredTiming h1 h2 ho).mpr ⟨hring, ht⟩⟩
    · rintro ⟨o, ho, hx⟩
      obtain ⟨hring, ht⟩ := (mem_coveredTiming h1 h2 ho).mp hx
      exact ⟨ht, o, ho, hring⟩
  rw [← hcovered.length_eq, ← length_timingCells, freeTiming, length_filter_add_filter_not]

theorem nodup_map_range {k : Nat} {f : Nat → Nat × Nat} (hf : ∀ i j, i < k → j < k → f i = f j → i = j) : ((List.range k).map f).Nodup :=
  List.pairwise_map.mpr (List.nodup_range.imp_of_mem fun hi hj hne h => hne (hf _ _ (List.mem_range.mp hi) (List.mem_range.mp hj) h))

theorem formatCells_nodup {n : Nat} (hn : 21 ≤ n) : (formatCells n).Nodup := by
  refine List.nodup_append.mpr ⟨List.nodup_append.mpr ⟨nodup_map_range fun i j hi hj h => ?_, nodup_map_range fun i j hi hj h => ?_, ?_⟩,
    List.pairwise_singleton _ _, ?_⟩
  · have h := (fpos1_eq_iff hn hi).mp h
    have := (fpos1_eq_iff hn hj).mp rfl
    omega
  · have h := (fpos2_eq_iff hn hi).mp h
    have := (fpos2_eq_iff hn hj).mp rfl
    omega
  · rintro x hx y hy rfl
    obtain ⟨i, hi, rfl⟩ := List.mem_map.mp hx
    obtain ⟨j, hj, h⟩ := List.mem_map.mp hy
    have h := (fpos2_eq_iff hn (List.mem_range.mp hj)).mp h
    have := (fpos1_eq_iff hn (List.mem_range.mp hi)).mp rfl
    omega
  · rintro x hx y hy rfl
    have hd := (darkModule_eq_iff hn).mp (List.mem_singleton.mp hy).symm
    obtain hx | hx := List.mem_append.mp hx
    · obtain ⟨i, hi, h⟩ := List.mem_map.mp hx
      have := (fpos1_eq_iff hn (List.mem_range.mp hi)).mp h
      have := List.mem_range.mp hi
      omega
    · obtain ⟨i, hi, h⟩ := List.mem_map.mp hx
      have := (fpos2_eq_iff hn (List.mem_range.mp hi)).mp h
      omega

theorem versionCells_nodup {v n : Nat} (hn : 21 ≤ n) : (versionCells v n).Nodup := by
  unfold versionCells
  split
  · refine List.nodup_append.mpr ⟨nodup_map_range fun i j hi hj h => ?_, nodup_map_range fun i j hi hj h => ?_, ?_⟩
    · have h := (vpos1_eq_iff hn).mp h
      have := (vpos1_eq_iff (i := j) hn).mp rfl
      omega
    · have h := (vpos2_eq_iff hn).mp h
      have := (vpos2_eq_iff (i := j) hn).mp rfl
      omega
    · rintro x hx y hy rfl
      obtain ⟨i, hi, rfl⟩ := List.mem_map.mp hx
      obtain ⟨j, hj, h⟩ := List.mem_map.mp hy
      have h := (vpos2_eq_iff hn).mp h
      have := (vpos1_eq_iff (i := i) hn).mp rfl
      have := List.mem_range.mp hi
      have := List.mem_range.mp hj
      omega
  · exact List.nodup_nil

/-- The reserved cells of a version are 31, and 67 from version 7 on. -/
theorem length_reservedCells (v n : Nat) : (reservedCells v n).length = if 7 ≤ v then 67 else 31 := by
  rw [reservedCells, List.length_append, formatCells, List.length_append, List.length_append, List.length_map, List.length_map,
    List.length_range, List.length_singleton, versionCells]
  split
  · rw [List.length_append, List.length_map, List.length_map, List.length_range]
  · rfl

theorem reservedCells_nodup (v : Nat) {n : Nat} (hn : 21 ≤ n) : (reservedCells v n).Nodup := by
  refine List.nodup_append.mpr ⟨formatCells_nodup hn, versionCells_nodup hn, ?_⟩
  rintro x hx y hy rfl
  have hf := inFormatArea_iff.mp ((mem_formatCells hn).mp hx).2.2
  have hv := inVersionArea_iff.mp ((mem_versionCells hn).mp hy).2
  omega

/-! ### The function cells of a version -/

/-- The cells of the function patterns of a version. -/
def patternCells (v : Nat) : List (Nat × Nat) := finderCells (side v) ++ (alignCells v ++ freeTiming v)

theorem mem_patternCells {v : Nat} (h1 : 1 ≤ v) (h2 : v ≤ 40) {x : Nat × Nat} :
    x ∈ patternCells v ↔ isPatternCell v x.1 x.2 = true := by
  have hn : 21 ≤ side v := by unfold side; omega
  rw [patternCells, List.mem_append, List.mem_append, mem_finderCells hn, mem_alignCells h1 h2, mem_freeTiming, isPatternCell_iff]
  constructor
  · rintro (⟨hr, hc, hf⟩ | ha | ⟨ht, -⟩)
    · exact ⟨hr, hc, .inl hf⟩
    · exact ⟨(alignRing_inside h2 ha).1, (alignRing_inside h2 ha).2, .inr (.inl ha)⟩
    · have htiming := onTiming_iff.mp ht
      exact ⟨by omega, by omega, .inr (.inr ht)⟩
  · rintro ⟨hr, hc, hf | ha | ht⟩
    · exact .inl ⟨hr, hc, hf⟩
    · exact .inr (.inl ha)
    · exact .inr ((Decidable.em _).imp_right fun ha => ⟨ht, ha⟩)

theorem patternCells_nodup {v : Nat} (h1 : 1 ≤ v) (h2 : v ≤ 40) : (patternCells v).Nodup := by
  have hn : 21 ≤ side v := by unfold side; omega
  refine List.nodup_append.mpr ⟨finderCells_nodup hn, List.nodup_append.mpr ⟨alignCells_nodup h1 h2, (timingCells_nodup _).filter _, ?_⟩, ?_⟩
  · rintro x hx y hy rfl
    exact (mem_freeTiming.mp hy).2 ((mem_alignCells h1 h2).mp hx)
  · rintro x hx y hy rfl
    obtain ⟨-, -, hfinder⟩ := (mem_finderCells hn).mp hx
    rcases List.mem_append.mp hy with ha | ht
    · rw [mem_alignCells h1 h2, alignRing_eq, ringAmong_isSome_iff] at ha
      obtain ⟨o, ho, hring⟩ := ha
      rw [finderRing_of_alignRing h1 h2 ho hring] at hfinder
      cases hfinder
    · have htiming := onTiming_iff.mp (mem_freeTiming.mp ht).1
      rw [finderRing_isSome_iff hn] at hfinder
      omega

/-- The function cells of a version: its patterns and its reserved cells. -/
def functionCells (v : Nat) : List (Nat × Nat) := patternCells v ++ reservedCells v (side v)

theorem mem_functionCells {v : Nat} (h1 : 1 ≤ v) (h2 : v ≤ 40) {x : Nat × Nat} :
    x ∈ functionCells v ↔ (initialPlanes v).func.get x.1 x.2 = true := by
  rw [functionCells, List.mem_append, mem_patternCells h1 h2, mem_reservedCells h1, initialPlanes_func_eq h1 h2, Bool.or_eq_true]

theorem functionCells_nodup {v : Nat} (h1 : 1 ≤ v) (h2 : v ≤ 40) : (functionCells v).Nodup := by
  have hn : 21 ≤ side v := by unfold side; omega
  refine List.nodup_append.mpr ⟨patternCells_nodup h1 h2, reservedCells_nodup v hn, ?_⟩
  rintro x hx y hy rfl
  have hapart := not_pattern_and_reserved (r := x.1) (c := x.2) h1 h2
  rw [(mem_patternCells h1 h2).mp hx, (mem_reservedCells h1).mp hy] at hapart
  cases hapart

theorem length_functionCells {v : Nat} (h1 : 1 ≤ v) (h2 : v ≤ 40) :
    (functionCells v).length + ((keptCentres v).flatMap coveredTiming).length =
      192 + (keptCentres v).length * 25 + 2 * (side v - 16) + if 7 ≤ v then 67 else 31 := by
  have hfree := length_freeTiming h1 h2
  rw [functionCells, patternCells, List.length_append, List.length_append, List.length_append, length_finderCells, length_alignCells,
    length_reservedCells]
  omega

/-! ### Counting the data cells (R187) -/

/-- Of the cells of a square, those of a list of cells of it and the others. -/
theorem countP_grid_compl {n : Nat} {p : Nat × Nat → Bool} {t : List (Nat × Nat)} (hnd : t.Nodup) (ht : ∀ x, x ∈ t ↔ p x = true)
    (hin : ∀ x ∈ t, x.1 < n ∧ x.2 < n) : ((grid n n).countP fun x => !p x) + t.length = n * n := by
  have hperm : ((grid n n).filter p).Perm t := by
    refine (List.perm_ext_iff_of_nodup ((grid_nodup n n).filter _) hnd).mpr fun x => ?_
    rw [List.mem_filter, mem_grid, ht]
    exact ⟨And.right, fun h => ⟨hin x ((ht x).mpr h), h⟩⟩
  have hlen : (grid n n).length = n * n := by
    rw [grid, length_flatMap_const (k := n) fun r _ => by rw [List.length_map, List.length_range], List.length_range]
  rw [← hperm.length_eq, List.countP_eq_length_filter, Nat.add_comm, length_filter_add_filter_not, hlen]

/-- Whether the size of a version's matrix is what its function cells, its codewords and its remainder bits add up to. -/
def sideFits (v : Nat) (e : Level) : Bool :=
  side v * side v + ((keptCentres v).flatMap coveredTiming).length ==
    8 * totalCount v e + remBits v + (192 + (keptCentres v).length * 25 + 2 * (side v - 16) + if 7 ≤ v then 67 else 31)

/-- The tables of R47, R49 and R51 agree on the size: a finite check. -/
theorem sideFits_all : ((List.range 40).all fun k => [Level.l, .m, .q, .h].all (sideFits (k + 1))) = true := by decide +kernel

theorem sideFits_of_version {v : Nat} (h1 : 1 ≤ v) (h2 : v ≤ 40) (e : Level) :
    side v * side v + ((keptCentres v).flatMap coveredTiming).length =
      8 * totalCount v e + remBits v + (192 + (keptCentres v).length * 25 + 2 * (side v - 16) + if 7 ≤ v then 67 else 31) := by
  obtain ⟨k, rfl⟩ : ∃ k, v = k + 1 := ⟨v - 1, by omega⟩
  exact beq_iff_eq.mp (List.all_eq_true.mp (List.all_eq_true.mp sideFits_all k (List.mem_range.mpr (by omega))) e (by cases e <;> decide))

theorem dataCells_layout {v : Nat} (h1 : 1 ≤ v) (h2 : v ≤ 40) (e : Level) :
    ((grid (side v) (side v)).countP fun x => !(initialPlanes v).func.get x.1 x.2) = 8 * totalCount v e + remBits v := by
  have hin (x : Nat × Nat) (hx : x ∈ functionCells v) : x.1 < side v ∧ x.2 < side v := by
    have hf := (mem_functionCells h1 h2).mp hx
    refine Decidable.not_not.mp fun hout => ?_
    rw [((initialPlanes_cells h1 h2).outside_zero x.1 x.2 (by omega)).2.2] at hf
    cases hf
  have hcount := countP_grid_compl (functionCells_nodup h1 h2) (fun x => mem_functionCells h1 h2) hin
  have hlength := length_functionCells h1 h2
  have hside := sideFits_of_version h1 h2 e
  omega

/-- Settles O37: the function cells are counted pattern by pattern, and every other cell of the square is a data cell. -/
theorem dataCellCount : Obligations.DataCellCount := by
  intro s v h1 h2
  have hside : (matrixInitWrites s.host.config s).complete.matrixSide = side v := by
    have := side_le (v := s.host.config.version.toNat) h2
    rw [State.matrixSide, State.complete_engine, matrixInitWrites_engine, BitVec.toNat_ofNat, Nat.mod_eq_of_lt (by omega)]
  refine ⟨_, exec_matrixInit h1 h2, rfl, hside, ?_⟩
  dsimp only
  rw [hside]
  exact ⟨dataCells_layout h1 h2, fun hv => (dataCells_layout h1 h2 .l).trans (by rw [hv]; decide +kernel)⟩

end Sys2Proof.Machine

/-! ## Placing the codewords -/

namespace Sys2Proof.Machine

/-! ### The placement order is that of the loop (R189) -/

/-- The row and the direction a sweep of the loop starts with. -/
def sweepStart (n : Nat) (up : Bool) : Int × Int := if up then ((n : Int) - 1, -1) else (0, 1)

/-- The data cells of one row of the column pair `col`. -/
def pairCells (func : Plane) (col r : Nat) : List (Nat × Nat) := [(r, col), (r, col - 1)].filter fun x => !func.get x.1 x.2

theorem filter_sweepCells (n : Nat) (func : Plane) (up : Bool) (col : Nat) :
    ((sweepCells n up col).filter fun x => !func.get x.1 x.2) = (sweepRows n up).flatMap (pairCells func col) := List.filter_flatMap

/-- A sweep upward from row `k` visits rows k, …, 0 and turns at the top. -/
theorem zigzagColumn_up {n : Nat} (func : Plane) (col : Nat) {k : Nat} (hk : k < n) :
    zigzagColumn n func col (k + 1) k (-1) = ((List.range (k + 1)).reverse.flatMap (pairCells func col), sweepStart n false) := by
  induction k with
  | zero => simp [zigzagColumn, pairCells, sweepStart]
  | succ k ih =>
    have hrow : ((k + 1 : Nat) : Int) + -1 = k := by omega
    have hrange : (List.range (k + 1 + 1)).reverse = (k + 1) :: (List.range (k + 1)).reverse := by
      rw [List.range_succ, List.reverse_append, List.reverse_singleton, List.singleton_append]
    rw [zigzagColumn]
    dsimp only
    rw [hrow, if_neg (by omega), ih (by omega), hrange, List.flatMap_cons]
    rfl

/-- A sweep downward from row `a` visits rows a, …, n − 1 and turns at the bottom. -/
theorem zigzagColumn_down {n : Nat} (func : Plane) (col : Nat) {k a : Nat} (hk : a + (k + 1) = n) :
    zigzagColumn n func col (k + 1) a 1 = ((List.range' a (k + 1)).flatMap (pairCells func col), sweepStart n true) := by
  induction k generalizing a with
  | zero =>
    have hn : (n : Int) = a + 1 := by omega
    simp [zigzagColumn, pairCells, sweepStart, hn]
  | succ k ih =>
    have hrow : (a : Int) + 1 = (a + 1 : Nat) := by omega
    rw [zigzagColumn]
    dsimp only
    rw [hrow, if_neg (by omega), ih (by omega), List.range'_succ, List.flatMap_cons]
    rfl

/-- The inner loop of R189 is one sweep, after which it stands where the next one starts. -/
theorem zigzagColumn_eq {n : Nat} (hn : 0 < n) (func : Plane) (up : Bool) (col : Nat) :
    zigzagColumn n func col n (sweepStart n up).1 (sweepStart n up).2 =
      ((sweepCells n up col).filter fun x => !func.get x.1 x.2, sweepStart n (!up)) := by
  obtain ⟨k, rfl⟩ : ∃ k, n = k + 1 := ⟨n - 1, by omega⟩
  rw [filter_sweepCells]
  cases up with
  | true =>
    have := zigzagColumn_up func col (Nat.lt_succ_self k)
    simpa [sweepStart, sweepRows] using this
  | false =>
    have := zigzagColumn_down func col (Nat.zero_add (k + 1))
    simpa [sweepStart, sweepRows, List.range_eq_range'] using this

theorem zigzagLoop_eq {n : Nat} (hn : 0 < n) (func : Plane) (k : Nat) (up : Bool) (col : Nat) :
    zigzagLoop n func k (sweepStart n up).1 (sweepStart n up).2 col =
      (sweeps n up (pairColumns k col)).filter fun x => !func.get x.1 x.2 := by
  induction k generalizing up col with
  | zero => rfl
  | succ k ih =>
    rw [zigzagLoop, pairColumns]
    split
    · rfl
    · dsimp only
      rw [sweeps, List.filter_append, ← ih, zigzagColumn_eq hn]

/-! ### The placement order has no repeats -/

theorem sweepCells_nodup (n : Nat) (up : Bool) {col : Nat} (h : 0 < col) : (sweepCells n up col).Nodup := by
  have hrows : (sweepRows n up).Nodup := by
    cases up with
    | true => exact List.pairwise_reverse.mpr (List.nodup_range.imp Ne.symm)
    | false => exact List.nodup_range
  have hpair (r : Nat) : (r, col) ≠ (r, col - 1) := fun h => by have := congrArg Prod.snd h; dsimp only at this; omega
  refine List.pairwise_flatMap.mpr ⟨fun r _ => List.pairwise_pair.mpr (hpair r), hrows.imp fun hne x hx y hy h => hne ?_⟩
  simp only [List.mem_cons, List.not_mem_nil, or_false] at hx hy
  obtain rfl | rfl := hx <;> obtain rfl | rfl := hy <;> exact congrArg Prod.fst h

theorem sweeps_nodup (n : Nat) (up : Bool) (k col : Nat) : (sweeps n up (pairColumns k col)).Nodup := by
  induction k generalizing up col with
  | zero => exact List.nodup_nil
  | succ k ih =>
    rw [pairColumns]
    split
    · exact List.nodup_nil
    · next h0 =>
      dsimp only
      have hpos : 0 < if col = 6 then 5 else col := by split <;> omega
      generalize (if col = 6 then 5 else col) = c at hpos
      refine List.nodup_append.mpr ⟨sweepCells_nodup n up hpos, ih _ _, fun x hx y hy hxy => ?_⟩
      subst hxy
      obtain ⟨d, hd, hxd⟩ := (mem_sweeps hy).2
      have hd := mem_pairColumns hd
      obtain ⟨r, -, hx⟩ := List.mem_flatMap.mp hx
      simp only [List.mem_cons, List.not_mem_nil, or_false] at hx
      obtain rfl | rfl := hx <;> dsimp only at hxd <;> omega

theorem placementOrder_nodup (n : Nat) (func : Plane) : (placementOrder n func).Nodup := (sweeps_nodup n true n (n - 1)).filter _

/-- No column pair of an odd side holds column 6. -/
theorem pairColumns_ne_six {k col d : Nat} (hcol : (6 ≤ col ∧ col % 2 = 0) ∨ (col < 6 ∧ col % 2 = 1) ∨ col = 0) (hd : d ∈ pairColumns k col) :
    d ≠ 6 ∧ d ≠ 7 := by
  induction k generalizing col with
  | zero => cases hd
  | succ k ih =>
    rw [pairColumns] at hd
    split at hd
    · cases hd
    · dsimp only at hd
      generalize hc : (if col = 6 then 5 else col) = c at hd
      have hc : (col = 6 ∧ c = 5) ∨ (col ≠ 6 ∧ c = col) := by split at hc <;> omega
      obtain rfl | hd := List.mem_cons.mp hd
      · omega
      · exact ih (by omega) hd

theorem mem_sweeps_pair {n : Nat} {up : Bool} {cols : List Nat} {x : Nat × Nat} (h : x ∈ sweeps n up cols) :
    ∃ d ∈ cols, x.2 = d ∨ x.2 = d - 1 := by
  induction cols generalizing up with
  | nil => cases h
  | cons col rest ih =>
    rcases List.mem_append.mp h with h | h
    · obtain ⟨r, -, hx⟩ := List.mem_flatMap.mp h
      simp only [List.mem_cons, List.not_mem_nil, or_false] at hx
      exact ⟨col, List.mem_cons_self, hx.imp (congrArg Prod.snd) (congrArg Prod.snd)⟩
    · obtain ⟨d, hd, hx⟩ := ih h
      exact ⟨d, List.mem_cons_of_mem _ hd, hx⟩

theorem mem_placementOrder_ne_six {n r c : Nat} {func : Plane} (hodd : n % 2 = 1) (h7 : 7 < n) (h : (r, c) ∈ placementOrder n func) :
    c ≠ 6 := by
  obtain ⟨d, hd, hc⟩ := mem_sweeps_pair (List.mem_filter.mp h).1
  have hd := pairColumns_ne_six (by omega) hd
  dsimp only at hc
  omega

/-- Settles O41: each sweep is one run of the inner loop, and the column pairs hold each column but 6 once. -/
theorem placementOrder_correct : Obligations.PlacementOrder := by
  refine ⟨fun n func hodd h7 => ⟨?_, placementOrder_nodup n func, fun r c => ⟨fun h => ?_, fun ⟨hr, hc, h6, hf⟩ => ?_⟩⟩,
    fun v h1 h2 r => initialPlanes_column6 h1 h2⟩
  · exact (zigzagLoop_eq (by omega) func n true (n - 1)).symm
  · obtain ⟨hr, hc, hf⟩ := mem_placementOrder h
    exact ⟨hr, hc, mem_placementOrder_ne_six hodd h7 h, hf⟩
  · exact mem_placementOrder_of hodd (by omega) hr hc h6 hf

/-! ### Placing the stream (R188, R190) -/

/-- Cell `k` of a list without repeats gets bit `k`, or 0 past the last bit. -/
theorem placeBits_darkp {cells : List (Nat × Nat)} (hnd : cells.Nodup) {k : Nat} {x : Nat × Nat} (hx : cells[k]? = some x)
    (hr : x.1 < 256) (hc : x.2 < 256) (bits : List Bool) (p : Planes) :
    (placeBits cells bits p).darkp.get x.1 x.2 = bits.getD k false := by
  induction cells generalizing k bits p with
  | nil => cases hx
  | cons y rest ih =>
    obtain ⟨hy, hnd⟩ := List.nodup_cons.mp hnd
    cases k with
    | zero =>
      obtain rfl : y = x := by simpa using hx
      have hlast (bits : List Bool) (d : Bool) : (placeBits rest bits (p.place y.1 y.2 d)).darkp.get y.1 y.2 = d := by
        have := placeBits_outside (r := y.1) (c := y.2) hy bits (p.place y.1 y.2 d) .darkp
        refine this.trans ?_
        rw [Planes.plane, Planes.place_darkp, Plane.get_set, if_pos ⟨rfl, rfl, hr, hc⟩]
      cases bits <;> exact hlast _ _
    | succ k => cases bits <;> exact ih hnd hx _ _

/-- Bit `k` of the codewords laid out bit by bit is bit 7 − (k mod 8) of codeword ⌊k/8⌋. -/
theorem codewordBits_getD (bs : List Byte) (k : Nat) : (codewordBits bs).getD k false = streamBit bs k := by
  induction bs generalizing k with
  | nil => simp [codewordBits, streamBit]
  | cons b bs ih =>
    have hlen : (byteBits b).length = 8 := rfl
    rw [codewordBits, List.flatMap_cons, ← codewordBits]
    by_cases hk : k < 8
    · rw [List.getD_eq_getElem?_getD, List.getElem?_append_left (by omega), streamBit, Nat.div_eq_of_lt hk, Nat.mod_eq_of_lt hk, byteBits,
        List.getElem?_map, List.getElem?_range hk]
      rfl
    · obtain ⟨j, rfl⟩ : ∃ j, k = j + 8 := ⟨k - 8, by omega⟩
      rw [List.getD_eq_getElem?_getD, List.getElem?_append_right (by omega), ← List.getD_eq_getElem?_getD, hlen, Nat.add_sub_cancel, ih,
        streamBit, streamBit, Nat.add_div_right _ (by decide), Nat.add_mod_right]
      rfl

/-- The first entries of a run that can be read are read as its first bytes. -/
theorem State.ramBytes_take {s : State} {r : Ram} {k n m : Nat} {bs : List Byte} (h : s.ramBytes r k n = .ok bs) (hm : m ≤ n) :
    s.ramBytes r k m = .ok (bs.take m) := by
  obtain ⟨hlen, hget⟩ := State.ramBytes_ok h
  have htake : (bs.take m).length = m := by simp; omega
  have := State.ramBytes_of_bytes (s := s) (r := r) (k := k) (bs := bs.take m) fun j hj => by
    rw [hget j (by omega), List.getElem_take]
  rwa [htake] at this

/-- The bits of the cells placed are in the codewords MATRIX_PLACE reads (log 14). -/
theorem streamBit_take_placed (bs : List Byte) {k n : Nat} (hk : k < n) :
    streamBit (bs.take (placedCodewords bs.length n)) k = streamBit bs k := by
  have hbyte : (bs.take (placedCodewords bs.length n)).getD (k / 8) 0 = bs.getD (k / 8) 0 := by
    simp only [List.getD_eq_getElem?_getD, List.getElem?_take, placedCodewords]
    split
    · rfl
    · rw [List.getElem?_eq_none (by omega)]
  rw [streamBit, hbyte, streamBit]

/-- MATRIX_PLACE where its checks pass and the codewords can be read. -/
theorem matrixPlaceBody_ok {s : State} {bs : List Byte} (hb : s.status.bstate = .functionPatternsPlaced) (hcw : s.status.cwValid = true)
    (hv : s.engine.cwCfg.version = s.engine.mtxCfg.version) (he : s.engine.cwCfg.ecl = s.engine.mtxCfg.ecl)
    (hbs : s.ramBytes .cw 0 (placedCodewords s.engine.cwLen.toNat (placementOrder s.matrixSide s.planes.func).length) = .ok bs) :
    matrixPlaceBody s = .ok { s with
      planes := placeBits (placementOrder s.matrixSide s.planes.func) (codewordBits bs) s.planes
      status := { s.status with bstate := .dataPlaced } } := by
  have hc : matrixPlaceCheck s = .ok () := by rw [matrixPlaceCheck_eq, if_pos ⟨hb, hcw, hv, he⟩]
  have hl := liftFault_ok.mpr hbs
  rw [State.matrixSide] at hl
  simp [matrixPlaceBody, matrixPlaceWork, hc, hl, bind, Except.bind, State.matrixSide]

/-- Settles O42: the codewords read hold the bit of every cell of the order, which has no repeats. -/
theorem matrixPlaceResult : Obligations.MatrixPlaceResult := by
  refine ⟨rfl, fun s => ⟨fun bs hb hcw hv he hbs => ?_, fun h => ?_⟩⟩
  · have hread := State.ramBytes_take hbs (Nat.min_le_left _ (((placementOrder s.matrixSide s.planes.func).length + 7) / 8))
    refine ⟨_, runCommand_ok (body := matrixPlaceBody) (matrixPlaceBody_ok hb hcw hv he hread), placeBits_func _ _ _,
      fun k x hx => ?_, fun r c h => ⟨placeBits_outside h _ _ .darkp, placeBits_outside h _ _ .asgn⟩⟩
    have hmem := List.mem_of_getElem? hx
    obtain ⟨hr, hc, -⟩ := mem_placementOrder hmem
    have hside := s.matrixSide_le
    constructor
    · rw [placeBits_darkp (placementOrder_nodup _ _) hx (by omega) (by omega), codewordBits_getD, ← (State.ramBytes_ok hbs).1]
      exact streamBit_take_placed bs (List.getElem?_eq_some_iff.mp hx).1
    · rw [placeBits_asgn, List.contains_iff_mem.mpr hmem, decide_eq_true (show x.1 < 256 by omega), decide_eq_true (show x.2 < 256 by omega)]
      simp
  · refine runCommand_err (body := matrixPlaceBody) ?_
    have hc : matrixPlaceCheck s = .error (.err .sequenceError) := by
      rw [matrixPlaceCheck_eq, if_neg]
      rintro ⟨hb, hcw, hv, he⟩
      simp [hb, hcw, hv, he] at h
    simp [matrixPlaceBody, hc, bind, Except.bind]

end Sys2Proof.Machine

/-! ## The metadata -/

namespace Sys2Proof.Machine

/-! ### WRITE_META (R196 to R199) -/

/-- Whether a cell is one of bit i of `w`, for an i below `k`, and that bit is 1. -/
def bitCell (k : Nat) (pos1 pos2 : Nat → Nat × Nat) (w r c : Nat) : Bool :=
  (List.range k).any fun i => decide (pos1 i = (r, c) ∨ pos2 i = (r, c)) && w.testBit i

/-- A cell of one bit only is dark when that bit is 1. -/
theorem bitCell_eq {k i r c : Nat} {pos1 pos2 : Nat → Nat × Nat} (w : Nat) (hi : i < k) (hx : pos1 i = (r, c) ∨ pos2 i = (r, c))
    (honly : ∀ j, j < k → pos1 j = (r, c) ∨ pos2 j = (r, c) → j = i) : bitCell k pos1 pos2 w r c = w.testBit i := by
  rw [Bool.eq_iff_iff]
  simp only [bitCell, List.any_eq_true, List.mem_range, Bool.and_eq_true, decide_eq_true_eq]
  exact ⟨fun ⟨j, hj, hxj, hb⟩ => honly j hj hxj ▸ hb, fun hb => ⟨i, hi, hx, hb⟩⟩

theorem bitCell_none {k r c : Nat} {pos1 pos2 : Nat → Nat × Nat} (w : Nat) (hnone : ∀ j, j < k → ¬ (pos1 j = (r, c) ∨ pos2 j = (r, c))) :
    bitCell k pos1 pos2 w r c = false := by
  rw [bitCell, List.any_eq_false]
  intro j hj
  simp [hnone j (List.mem_range.mp hj)]

/-- Writing a word's bits paints their cells, where `d` gives each cell its bit. -/
theorem writeBits_paints {k : Nat} {pos1 pos2 : Nat → Nat × Nat} {w : Nat} {d : Nat → Nat → Bool}
    (h : ∀ i r c, i < k → pos1 i = (r, c) ∨ pos2 i = (r, c) → r < 256 ∧ c < 256 ∧ d r c = w.testBit i) (p : Planes) :
    Paints p (writeBits k pos1 pos2 w p) (fun r c => ∃ i, i < k ∧ (pos1 i = (r, c) ∨ pos2 i = (r, c))) d := by
  have hbit (i : Nat) (hi : i ∈ List.range k) (q : Planes) :
      Paints q ((q.setf (pos1 i).1 (pos1 i).2 (w.testBit i)).setf (pos2 i).1 (pos2 i).2 (w.testBit i))
        (fun r c => pos1 i = (r, c) ∨ pos2 i = (r, c)) d := by
    obtain ⟨hr1, hc1, hd1⟩ := h i _ _ (List.mem_range.mp hi) (.inl rfl)
    obtain ⟨hr2, hc2, hd2⟩ := h i _ _ (List.mem_range.mp hi) (.inr rfl)
    refine ((Paints.setf q hr1 hc1 hd1).trans (Paints.setf _ hr2 hc2 hd2)).of_iff fun r c => ?_
    simp only [Prod.ext_iff, eq_comm]
  exact (Paints.foldl hbit p).of_iff (by simp)

/-- Which reserved cells WRITE_META makes dark, for the format word `f` and the version word `w`. -/
def metaDark (v n f w r c : Nat) : Bool :=
  bitCell 15 (fpos1 n) (fpos2 n) f r c || decide (darkModule n = (r, c)) || (decide (7 ≤ v) && bitCell 18 (vpos1 n) (vpos2 n) w r c)

theorem metaDark_format {v n f w i r c : Nat} (hn : 21 ≤ n) (hi : i < 15) (hx : fpos1 n i = (r, c) ∨ fpos2 n i = (r, c)) :
    metaDark v n f w r c = f.testBit i := by
  rw [fpos1_eq_iff hn hi, fpos2_eq_iff hn hi] at hx
  have hdark : ¬ darkModule n = (r, c) := by rw [darkModule_eq_iff hn]; omega
  rw [metaDark, bitCell_eq f hi (by rwa [fpos1_eq_iff hn hi, fpos2_eq_iff hn hi]) fun j hj hxj => ?_,
    bitCell_none w fun j hj hxj => ?_, decide_eq_false hdark, Bool.and_false, Bool.or_false, Bool.or_false]
  · rw [vpos1_eq_iff hn, vpos2_eq_iff hn] at hxj
    omega
  · rw [fpos1_eq_iff hn hj, fpos2_eq_iff hn hj] at hxj
    omega

theorem metaDark_version {v n f w i r c : Nat} (hn : 21 ≤ n) (hv : 7 ≤ v) (hi : i < 18) (hx : vpos1 n i = (r, c) ∨ vpos2 n i = (r, c)) :
    metaDark v n f w r c = w.testBit i := by
  rw [vpos1_eq_iff hn, vpos2_eq_iff hn] at hx
  have hdark : ¬ darkModule n = (r, c) := by rw [darkModule_eq_iff hn]; omega
  rw [metaDark, bitCell_none f fun j hj hxj => ?_, bitCell_eq w hi (by rwa [vpos1_eq_iff hn, vpos2_eq_iff hn]) fun j hj hxj => ?_,
    decide_eq_false hdark, decide_eq_true hv, Bool.true_and, Bool.false_or, Bool.false_or]
  · rw [vpos1_eq_iff hn, vpos2_eq_iff hn] at hxj
    omega
  · rw [fpos1_eq_iff hn hj, fpos2_eq_iff hn hj] at hxj
    omega

theorem metaDark_darkModule (v n f w : Nat) : metaDark v n f w (darkModule n).1 (darkModule n).2 = true := by simp [metaDark]

/-- A reserved cell, by what is written there. -/
theorem mem_reservedCells_cases {v n : Nat} {x : Nat × Nat} : x ∈ reservedCells v n ↔
    ((∃ i, i < 15 ∧ (fpos1 n i = x ∨ fpos2 n i = x)) ∨ x = darkModule n) ∨ (7 ≤ v ∧ ∃ i, i < 18 ∧ (vpos1 n i = x ∨ vpos2 n i = x)) := by
  by_cases hv : 7 ≤ v <;>
    simp [reservedCells, formatCells, versionCells, hv, and_or_left, exists_or, or_assoc]

/-- WRITE_META paints the reserved cells. -/
theorem metaPlanes_paints {s : State} (h1 : 1 ≤ s.engine.mtxCfg.version.toNat) (h2 : s.engine.mtxCfg.version.toNat ≤ 40)
    (hside : s.matrixSide = side s.engine.mtxCfg.version.toNat) :
    Paints s.planes (metaPlanes s) (fun r c => (r, c) ∈ reservedCells s.engine.mtxCfg.version.toNat s.matrixSide)
      (metaDark s.engine.mtxCfg.version.toNat s.matrixSide (metaFormat s).toNat (metaVersion s).toNat) := by
  have hn : 21 ≤ s.matrixSide := by rw [hside]; unfold side; omega
  have hbound {x : Nat × Nat} (hx : x ∈ reservedCells s.engine.mtxCfg.version.toNat s.matrixSide) : x.1 < 256 ∧ x.2 < 256 := by
    have := mem_reservedCells_lt h1 (hside ▸ hx)
    have := side_le h2
    omega
  have hformat (p : Planes) := writeBits_paints (k := 15) (pos1 := fpos1 s.matrixSide) (pos2 := fpos2 s.matrixSide)
    (w := (metaFormat s).toNat) (fun i r c hi hx =>
      have hin := hbound (mem_reservedCells_cases.mpr (.inl (.inl ⟨i, hi, hx⟩)))
      ⟨hin.1, hin.2, metaDark_format (v := s.engine.mtxCfg.version.toNat) (w := (metaVersion s).toNat) hn hi hx⟩) p
  have hdark (p : Planes) := Paints.setf p (hbound (darkModule_mem_reservedCells _ _)).1 (hbound (darkModule_mem_reservedCells _ _)).2
    (metaDark_darkModule s.engine.mtxCfg.version.toNat s.matrixSide (metaFormat s).toNat (metaVersion s).toNat)
  unfold metaPlanes
  dsimp only
  split
  · next hv =>
    have hversion (p : Planes) := writeBits_paints (k := 18) (pos1 := vpos1 s.matrixSide) (pos2 := vpos2 s.matrixSide)
      (w := (metaVersion s).toNat) (fun i r c hi hx =>
        have hin := hbound (mem_reservedCells_cases.mpr (.inr ⟨hv, i, hi, hx⟩))
        ⟨hin.1, hin.2, metaDark_version (f := (metaFormat s).toNat) hn hv hi hx⟩) p
    refine (((hformat _).trans (hdark _)).trans (hversion _)).of_iff fun r c => ?_
    simp only [mem_reservedCells_cases, Prod.ext_iff, hv, true_and]
  · next hv =>
    refine ((hformat _).trans (hdark _)).of_iff fun r c => ?_
    simp only [mem_reservedCells_cases, Prod.ext_iff, hv, false_and, or_false]

/-- Settles O43: every reserved cell is of one bit only or is the dark module, and no other cell is painted. -/
theorem writeMetaResult : Obligations.WriteMetaResult := by
  refine ⟨rfl, fun s => ⟨fun hb h1 h2 hside => ?_, fun hb => ?_⟩⟩
  · have hn : 21 ≤ s.matrixSide := by rw [hside]; unfold side; omega
    have hpaint := metaPlanes_paints h1 h2 hside
    have hmem (r c : Nat) : (r, c) ∈ reservedCells s.engine.mtxCfg.version.toNat s.matrixSide ↔
        isReservedArea s.engine.mtxCfg.version.toNat r c = true := by rw [hside, mem_reservedCells h1]
    have hdark {x : Nat × Nat} (hx : x ∈ reservedCells s.engine.mtxCfg.version.toNat s.matrixSide) := (hpaint.inside x.1 x.2 hx).1
    refine ⟨metaPlanes s, runCommand_ok (body := writeMetaBody) (t := writeMetaWrites s) (by rw [writeMetaBody_eq, if_pos hb]),
      fun i hi => ⟨?_, ?_⟩, ?_, fun hv i hi => ⟨?_, ?_⟩, fun r c => ⟨fun hr => ?_, fun hr => ?_⟩⟩
    · exact (hdark (fpos1_mem_reservedCells _ _ hi)).trans (metaDark_format hn hi (.inl rfl))
    · exact (hdark (fpos2_mem_reservedCells _ _ hi)).trans (metaDark_format hn hi (.inr rfl))
    · exact (hdark (darkModule_mem_reservedCells _ _)).trans (metaDark_darkModule _ _ _ _)
    · exact (hdark (vpos1_mem_reservedCells _ hv hi)).trans (metaDark_version hn hv hi (.inl rfl))
    · exact (hdark (vpos2_mem_reservedCells _ hv hi)).trans (metaDark_version hn hv hi (.inr rfl))
    · exact (hpaint.inside r c ((hmem r c).mpr hr)).2
    · exact hpaint.outside r c (mt (hmem r c).mp (Bool.eq_false_iff.mp hr))
  · exact runCommand_err (body := writeMetaBody) (by rw [writeMetaBody_eq, if_neg hb])

end Sys2Proof.Machine

/-! ## The states of the builder, and the sealed matrix -/

namespace Sys2Proof.Machine

/-! ### The builder states (R180) -/

/-- In a state its row of R180 does not allow, a command's body stops at its check of BSTATE. -/
theorem bodyOf_wrongState {i : Instr} {s : State} (h : builderNext i s.status.bstate = none) :
    bodyOf i s = .error (.err .sequenceError) := by
  cases i <;> simp only [builderNext, reduceCtorEq, ite_eq_right_iff, imp_false] at h <;> simp only [bodyOf]
  case matrixPlace => simp [matrixPlaceBody, matrixPlaceCheck, checkBState_err h, bind, Except.bind]
  case maskScore => rw [maskScoreBody_eq, if_neg h]
  case maskSelect => rw [maskSelectBody_eq, if_neg h]
  case maskForce => rw [maskForceBody_eq, if_pos h]
  case writeMeta => rw [writeMetaBody_eq, if_neg h]
  case finalize => rw [finalizeBody_eq, if_pos h]

theorem exec_wrongState {i : Instr} {s : State} (h : builderNext i s.status.bstate = none) :
    exec i s = .next (s.raise .sequenceError) := by
  rw [exec_eq_run]
  exact runCommand_err (bodyOf_wrongState h)

/-- Two states with the same matrix: its planes, MTX_CFG, MASK, FORMAT_INFO and VERSION_INFO, and the builder state. -/
structure SameMatrix (s t : State) : Prop where
  planes : t.planes = s.planes
  mtxCfg : t.engine.mtxCfg = s.engine.mtxCfg
  mask : t.engine.mask = s.engine.mask
  formatInfo : t.engine.formatInfo = s.engine.formatInfo
  versionInfo : t.engine.versionInfo = s.engine.versionInfo
  bstate : t.status.bstate = s.status.bstate

theorem SameMatrix.refl (s : State) : SameMatrix s s := ⟨rfl, rfl, rfl, rfl, rfl, rfl⟩

theorem SameMatrix.trans {s t u : State} (h : SameMatrix s t) (h' : SameMatrix t u) : SameMatrix s u :=
  ⟨h'.planes.trans h.planes, h'.mtxCfg.trans h.mtxCfg, h'.mask.trans h.mask, h'.formatInfo.trans h.formatInfo,
    h'.versionInfo.trans h.versionInfo, h'.bstate.trans h.bstate⟩

theorem SameMatrix.of_contents {s t : State} (h : SameContents s t) : SameMatrix s t := by
  obtain ⟨hengine, -, hplanes, -, hbstate⟩ := h
  constructor <;> simp only [hengine, hplanes, hbstate]

/-- A command that is no row of R180's table leaves the matrix. -/
theorem bodyOf_sameMatrix {i : Instr} {s u : State} (hi : ∀ b, builderNext i b = some b) (h : bodyOf i s = .ok u) : SameMatrix s u := by
  cases i <;> simp only [bodyOf] at h
  case nop => cases h; exact .refl s
  case gfExp => cases h; constructor <;> rfl
  case gfLog => rw [gfLogBody_eq] at h; split at h <;> cases h; constructor <;> rfl
  case gfMul => rw [gfMulBody_eq] at h; split at h <;> cases h; constructor <;> rfl
  case gfInv => rw [gfInvBody_eq] at h; split at h <;> cases h; constructor <;> rfl
  case polyMul => obtain ⟨a, b, -, -, -, -, -, rfl⟩ := polyMulBody_ok_inv h; constructor <;> rfl
  case polyMod => obtain ⟨a, b, -, -, -, -, -, -, -, rfl⟩ := polyModBody_ok_inv h; constructor <;> rfl
  case rsGenpoly => rw [rsGenpolyBody_eq] at h; split at h <;> cases h; constructor <;> rfl
  case tableLookup => rw [tableLookupBody_eq] at h; split at h <;> cases h; constructor <;> rfl
  case assemble => rw [assembleBody_eq] at h; split at h <;> cases h; constructor <;> rfl
  case bchFormat => rw [bchFormatBody_eq] at h; split at h <;> cases h; constructor <;> rfl
  case bchVersion => rw [bchVersionBody_eq] at h; split at h <;> cases h; constructor <;> rfl
  case softReset => cases hi .final
  all_goals cases hi .empty

/-- A command's body, when it ends well, leaves the builder state of R180's table. -/
theorem bodyOf_builderNext {i : Instr} {s u : State} (h : bodyOf i s = .ok u) :
    builderNext i s.status.bstate = some u.status.bstate := by
  by_cases hi : ∀ b, builderNext i b = some b
  · rw [hi, (bodyOf_sameMatrix hi h).bstate]
  cases i <;> simp only [bodyOf] at h
  case softReset => cases h; rfl
  case matrixInit => rw [matrixInitBody_eq] at h; split at h <;> cases h; rfl
  case matrixPlace =>
    obtain ⟨hc, hw⟩ := matrixPlaceBody_ok_inv h
    rw [matrixPlaceCheck_eq] at hc
    split at hc <;> cases hc
    next hb =>
      obtain ⟨bs, -, rfl⟩ := matrixPlaceWork_ok_inv hw
      exact if_pos hb.1
  case maskScore =>
    rw [maskScoreBody_eq] at h
    split at h <;> cases h
    next hb => exact (if_pos hb).trans (congrArg some hb.symm)
  case maskSelect => rw [maskSelectBody_eq] at h; split at h <;> cases h; exact if_pos ‹_›
  case maskForce =>
    rw [maskForceBody_eq] at h
    split at h
    · cases h
    · next hb =>
      split at h <;> cases h
      exact if_pos (Decidable.not_not.mp hb)
  case writeMeta => rw [writeMetaBody_eq] at h; split at h <;> cases h; exact if_pos ‹_›
  case finalize =>
    rw [finalizeBody_eq] at h
    split at h
    · cases h
    · next hb =>
      split at h <;> cases h
      exact if_pos (Decidable.not_not.mp hb)
  case encode => obtain ⟨data, p, -, -, rfl⟩ := encodeBody_ok_inv h; rfl
  all_goals exact absurd (fun _ => rfl) hi

/-- Settles O53: a body that ends well leaves the table's state, and an error leaves BSTATE as it was. -/
theorem builderTransitions : Obligations.BuilderTransitions := by
  refine fun i s => ⟨exec_wrongState, fun b t hb h => ?_⟩
  rw [exec_eq_run] at h
  obtain ⟨u, hu, rfl⟩ | ⟨e, -, rfl⟩ := runCommand_next h
  · exact .inl ⟨Option.some.inj ((bodyOf_builderNext hu).symm.trans hb), rfl, (bodyOf_samePlatform hu).err⟩
  · exact .inr ⟨rfl, rfl, Err.code_ne_zero e, rfl⟩

/-! ### FINALIZE (R200) -/

theorem allAssigned_iff (n : Nat) (p : Plane) : allAssigned n p = true ↔ ∀ r c, r < n → c < n → p.get r c = true := by
  simp only [allAssigned, List.all_eq_true, List.mem_range]
  exact ⟨fun h r c hr hc => h r hr c hc, fun h r hr c hc => h r c hr hc⟩

/-- Settles O44: the check of every cell decides between the seal and IncompleteMatrix, and after WRITE_META the builder invariant assigns
every cell. -/
theorem finalizeResult : Obligations.FinalizeResult := by
  refine ⟨rfl, fun s => ⟨fun hb hall => ?_, fun hb hall => ?_, fun hb => ?_, fun hb hinv r c hr hc => ?_⟩⟩
  · refine runCommand_ok (body := finalizeBody) (t := finalizeWrites s) ?_
    rw [finalizeBody_eq, if_neg (Decidable.not_not.mpr hb), if_pos ((allAssigned_iff s.engine.mtxCfg.side.toNat _).mpr hall)]
  · refine runCommand_err (body := finalizeBody) ?_
    rw [finalizeBody_eq, if_neg (Decidable.not_not.mpr hb), if_neg (mt (allAssigned_iff s.engine.mtxCfg.side.toNat _).mp hall)]
  · exact exec_wrongState (i := .finalize) (by simp [builderNext, hb])
  · rw [hinv.asgn_layout (by rw [hb]; decide), hb, BState.assigned, decide_eq_true hr, decide_eq_true hc]
    rfl

/-! ### A sealed matrix (R201) -/

/-- The commands that start a new matrix or clear it (R201). -/
def startsMatrix (i : Instr) : Bool := [Instr.matrixInit, .encode, .softReset].contains i

/-- In Final a command other than the three ends well only if it leaves the matrix. -/
theorem bodyOf_final {i : Instr} {s u : State} (hb : s.status.bstate = .final) (hi : startsMatrix i = false) (h : bodyOf i s = .ok u) :
    SameMatrix s u := by
  have hallowed : builderNext i .final = some u.status.bstate := hb ▸ bodyOf_builderNext h
  refine bodyOf_sameMatrix ?_ h
  cases i
  case matrixInit | encode | softReset => cases hi
  case matrixPlace | maskScore | maskSelect | maskForce | writeMeta | finalize => cases hallowed
  all_goals exact fun _ => rfl

/-- In Final the engine's turn leaves the matrix or completes one of the three commands. -/
theorem engineTurn_final {s t : State} (hb : s.status.bstate = .final) (h : engineTurn s = .next t) :
    SameMatrix s t ∨ (s.rst = false ∧ ∃ w i, s.pending = some w ∧ decode w = .ok i ∧ startsMatrix i = true ∧ exec i s = .next t) := by
  obtain ⟨rfl, -⟩ | ⟨hr, w, hw, hc⟩ := engineTurn_next h
  · exact .inl (.refl _)
  · obtain ⟨i, hi, he⟩ | ⟨-, -, rfl⟩ := completion_next hc
    · by_cases hs : startsMatrix i = true
      · exact .inr ⟨hr, w, i, hw, hi, hs, he⟩
      · rw [exec_eq_run] at he
        obtain ⟨u, hu, rfl⟩ | ⟨e, -, rfl⟩ := runCommand_next he
        · exact .inl ((bodyOf_final hb (Bool.eq_false_iff.mpr hs) hu).trans (.of_contents u.complete_contents))
        · exact .inl (.of_contents (s.raise_contents e))
    · exact .inl (.of_contents (s.raise_contents _))

/-- No host access changes the matrix. -/
theorem hostAccess_sameMatrix {q : Request} {s t : State} (h : hostAccess q s = .next t) : SameMatrix s t := by
  obtain ⟨-, ⟨-, rfl⟩ | ⟨hq, -, rfl⟩ | ⟨-, -, v, u, hu, rfl⟩⟩ := hostAccess_next h
  · exact .of_contents (s.respond_contents _)
  · obtain hsame | ⟨r, j, -, hw⟩ := s.busWrite_contents (Request.served_aligned hq) q.wdata
    · exact (SameMatrix.of_contents hsame).trans (.of_contents (State.respond_contents _ _))
    · rw [hw]
      exact ⟨rfl, rfl, rfl, rfl, rfl, rfl⟩
  · rw [State.busRead_state hu]
    exact ⟨rfl, rfl, rfl, rfl, rfl, rfl⟩

/-- The reset input leaves the matrix until it falls. -/
theorem rstInput_sameMatrix (level : Bool) (s : State) : (level = false ∧ s.rst = true) ∨ SameMatrix s (rstInput level s) := by
  cases level with
  | true => exact .inr ⟨rfl, rfl, rfl, rfl, rfl, rfl⟩
  | false =>
    by_cases hr : s.rst = true
    · exact .inl ⟨rfl, hr⟩
    · rw [show rstInput false s = s from if_neg hr]
      exact .inr (.refl s)

/-- Settles O56: of the steps only the completion of one of the three commands and the end of a hardware reset reach the matrix. -/
theorem finalIsImmutable : Obligations.FinalIsImmutable := by
  refine fun s hb => ⟨fun i hi => exec_wrongState ?_, fun t ht => ?_⟩
  · rw [hb]
    cases i
    case matrixPlace | maskScore | maskSelect | maskForce | writeMeta | finalize => rfl
    all_goals cases hi
  have hsame {t : State} (h : SameMatrix s t) : t.planes = s.planes ∧ t.engine.mtxCfg = s.engine.mtxCfg ∧ t.engine.mask = s.engine.mask ∧
      t.engine.formatInfo = s.engine.formatInfo ∧ t.engine.versionInfo = s.engine.versionInfo ∧ t.status.bstate = .final :=
    ⟨h.planes, h.mtxCfg, h.mask, h.formatInfo, h.versionInfo, h.bstate.trans hb⟩
  have hrest (rest : List Event) : SameMatrix s { s with inbox := rest } := ⟨rfl, rfl, rfl, rfl, rfl, rfl⟩
  have hinbox := step_inbox ht
  obtain ⟨hn, he⟩ | ⟨e, rest, hs, ⟨rfl, he⟩ | ⟨q, -, he⟩ | ⟨level, rfl, rfl⟩⟩ := step_next ht
  · obtain hm | ⟨hr, w, i, hw, hi, hstarts, hx⟩ := engineTurn_final hb he
    · exact .inl (hsame hm)
    · exact .inr (.inl ⟨hr, by simp [hn], w, i, _, hw, hi, hstarts, rfl, by rw [hinbox, hn, List.tail_nil, ← hn]; exact hx⟩)
  · obtain hm | ⟨hr, w, i, hw, hi, hstarts, hx⟩ := engineTurn_final (s := { s with inbox := rest }) hb he
    · exact .inl (hsame ((hrest rest).trans hm))
    · exact .inr (.inl ⟨hr, by simp [hs], w, i, _, hw, hi, hstarts, rfl, by rw [hinbox, hs]; exact hx⟩)
  · exact .inl (hsame ((hrest rest).trans (hostAccess_sameMatrix he)))
  · obtain ⟨rfl, hr⟩ | hm := rstInput_sameMatrix level { s with inbox := rest }
    · exact .inr (.inr ⟨hr, rest, hs, if_pos hr⟩)
    · exact .inl (hsame ((hrest rest).trans hm))

end Sys2Proof.Machine

/-! ## The control commands -/

namespace Sys2Proof.Machine

/-! ### NOP and SOFT_RESET (R220, R221) -/

/-- With the engine's registers at their reset values, each register that is none of ID, CMD, STATUS and the host's reads 0. -/
theorem State.readReg_engineZero {t : State} (he : t.engine = EngineRegs.zero) {r : Reg}
    (hr : [Reg.id, .cmd, .status, .config, .dataLen, .irqEn, .arg0, .arg1, .plenA, .plenB, .pshift].contains r = false) :
    t.readReg r = 0 := by
  cases r
  case id | cmd | status | config | dataLen | irqEn | arg0 | arg1 | plenA | plenB | pshift => cases hr
  case pen m k =>
    have hpen : t.engine.pen[m] = { p1 := 0, p2 := 0, p3 := 0, dark := 0 } := by
      rw [he]
      exact Vector.getElem_replicate _
    rw [State.readReg, hpen]
    cases k <;> rfl
  all_goals rw [State.readReg, he]; rfl

/-- Settles O50: both commands complete whatever the state; after SOFT_RESET the engine's registers and the planes are the zero ones. -/
theorem nopAndSoftReset : Obligations.NopAndSoftReset := by
  refine ⟨rfl, rfl, fun s => rfl, fun s => ⟨(softResetWrites s).complete, rfl, rfl, fun r hr => ?_, fun p r c => ?_⟩⟩
  · exact State.readReg_engineZero rfl hr
  · cases p <;> exact Plane.get_zero r c

/-! ### What acceptance leaves to a command's work -/

/-- Reads of RAM bytes depend on the contents, the parameters and the epoch only. -/
theorem State.ramBytes_congr {s t : State} (hr : s.ram = t.ram) (hp : s.params = t.params) (he : s.ramEpoch = t.ramEpoch) (r : Ram)
    (k n : Nat) : s.ramBytes r k n = t.ramBytes r k n := by
  induction n generalizing k with
  | zero => rfl
  | succ n ih => simp only [State.ramBytes, State.ramByte_congr (congrArg (Memory.read · (r.base + k)) hr) hp he, ih]

@[simp] theorem State.accept_ramBytes (s : State) (w : Word) (r : Ram) (k n : Nat) : (s.accept w).ramBytes r k n = s.ramBytes r k n :=
  State.ramBytes_congr (s := s.accept w) (t := s) rfl rfl rfl r k n

@[simp] theorem assembleOperands_accept (s : State) (w : Word) : assembleOperands (s.accept w) = assembleOperands s := by
  simp [assembleOperands, dataBytes]

theorem matrixPlaceWork_accept {s p : State} (w : Word) (h : matrixPlaceWork s = .ok p) :
    matrixPlaceWork (s.accept w) = .ok (p.accept w) := by
  obtain ⟨bs, hbs, rfl⟩ := matrixPlaceWork_ok_inv h
  simp only [matrixPlaceWork, State.accept_engine, State.accept_planes, State.accept_ramBytes, liftFault_ok.mpr hbs, bind, Except.bind]
  rfl

/-- MATRIX_PLACE is its checks, then its work. -/
theorem matrixPlaceBody_of_work {s p : State} (hc : matrixPlaceCheck s = .ok ()) (hw : matrixPlaceWork s = .ok p) :
    matrixPlaceBody s = .ok p := by
  simp only [matrixPlaceBody, hc, hw, bind, Except.bind]

/-! ### ENCODE's work in its steps (R222) -/

/-- What ENCODE does before it places the stream: the writes of ASSEMBLE and MATRIX_INIT (R222). -/
def symbolStart (data : List Byte) (s : State) : State := matrixInitWrites s.host.config (assembleWrites s.host.config data s)

/-- What ENCODE does after it placed the stream: the writes of MASK_SELECT, WRITE_META and FINALIZE (R222). -/
def symbolEnd (p : State) : State := finalizeWrites (writeMetaWrites (maskSelectWrites p))

theorem encodeBody_ok {s p : State} {data : List Byte} (hops : assembleOperands s = .ok data)
    (hw : matrixPlaceWork (symbolStart data s) = .ok p) : encodeBody s = .ok (symbolEnd p) := by
  rw [symbolStart] at hw
  rw [encodeBody_eq, hops]
  simp only [hw]
  rfl

theorem exec_encode_error {s : State} {e : Err} (h : assembleOperands s = .error (.err e)) : exec .encode s = .next (s.raise e) :=
  runCommand_err (body := encodeBody) (by rw [encodeBody_eq, h])

/-- The six commands ENCODE does the work of, in order (R222, R223). -/
def symbolCommands : List Instr := [.assemble, .matrixInit, .matrixPlace, .maskSelect, .writeMeta, .finalize]

/-- The accepted word and the STATUS bits of acceptance go through the work of ENCODE and of each of the six commands. -/
theorem bodyOf_accept {i : Instr} {s u : State} (hi : i ∈ .encode :: symbolCommands) (w : Word) (h : bodyOf i s = .ok u) :
    bodyOf i (s.accept w) = .ok (u.accept w) := by
  cases i <;> simp only [bodyOf] at h ⊢
  case encode =>
    obtain ⟨data, p, hops, hw, rfl⟩ := encodeBody_ok_inv h
    exact encodeBody_ok ((assembleOperands_accept s w).trans hops) (matrixPlaceWork_accept w hw)
  case assemble =>
    rw [assembleBody_eq] at h ⊢
    rw [assembleOperands_accept]
    split at h <;> cases h
    rfl
  case matrixInit => rw [matrixInitBody_eq] at h ⊢; split at h <;> cases h; exact if_neg ‹_›
  case matrixPlace =>
    obtain ⟨hc, hw⟩ := matrixPlaceBody_ok_inv h
    rw [matrixPlaceCheck_eq] at hc
    exact matrixPlaceBody_of_work ((matrixPlaceCheck_eq _).trans hc) (matrixPlaceWork_accept w hw)
  case maskSelect => rw [maskSelectBody_eq] at h ⊢; split at h <;> cases h; exact if_pos ‹_›
  case writeMeta => rw [writeMetaBody_eq] at h ⊢; split at h <;> cases h; exact if_pos ‹_›
  case finalize =>
    rw [finalizeBody_eq] at h ⊢
    split at h
    · cases h
    · next hb =>
      split at h <;> cases h
      exact (if_neg hb).trans (if_pos ‹_›)
  all_goals exact absurd hi (by decide)

/-- Issued, ENCODE or one of the six commands whose work ends well completes with that work. -/
theorem issue_of_bodyOf {i : Instr} {s u : State} (hi : i ∈ .encode :: symbolCommands) (h : bodyOf i s = .ok u) :
    issue i s = .next (u.accept (encode i)).complete := by
  rw [issue, exec_eq_run]
  exact runCommand_ok (bodyOf_accept hi _ h)

/-- The next acceptance leaves no trace of the acceptance and completion before it. -/
theorem issue_accept_complete (i : Instr) (s : State) (w : Word) : issue i (s.accept w).complete = issue i s := rfl

/-! ### The stream in place (R188) -/

/-- The stream ASSEMBLE and ENCODE make of the host's data for its configuration (R142). -/
def configuredStream (s : State) (data : List Byte) : List Byte :=
  codewordStream s.host.config.version.toNat (levelOf s.host.config.ecl) data

/-- The state in which ENCODE has placed the stream, by its planes. -/
def placedSymbol (data : List Byte) (s : State) (pl : Planes) : State :=
  { symbolStart data s with planes := pl, status := { (symbolStart data s).status with bstate := .dataPlaced } }

theorem symbolStart_side {s : State} (data : List Byte) (h2 : s.host.config.version.toNat ≤ 40) :
    (symbolStart data s).matrixSide = side s.host.config.version.toNat := by
  have := side_le h2
  simp only [symbolStart, State.matrixSide, matrixInitWrites_engine, BitVec.toNat_ofNat]
  omega

/-- The stream can be read back where ENCODE places it. -/
theorem symbolStart_stream {s : State} {data : List Byte} (hops : assembleOperands s = .ok data) :
    (symbolStart data s).ramBytes .cw 0 (symbolStart data s).engine.cwLen.toNat = .ok (configuredStream s data) := by
  obtain ⟨-, h2, -, -⟩ := assembleOperands_ok_inv hops
  have hlen : (configuredStream s data).length = (symbolStart data s).engine.cwLen.toNat :=
    (codewordStream_totalCount hops).trans ((assembleWrites_codewords hops).len_eq rfl).symm
  have hfit : (configuredStream s data).length ≤ Ram.cw.size := (codewordStream_totalCount hops).trans_le (blockTotals h2 _).2
  rw [State.ramBytes_congr (s := symbolStart data s) (t := s.writeRam .cw (configuredStream s data)) rfl rfl rfl, ← hlen,
    State.ramBytes_writeRam_self _ _ hfit (Nat.le_refl _), List.take_length]

/-- MATRIX_PLACE's work as `matrixPlaceResult` has it, by the planes it leaves. -/
theorem matrixPlaceBody_stream {s : State} {bs : List Byte} (hb : s.status.bstate = .functionPatternsPlaced) (hcw : s.status.cwValid = true)
    (hv : s.engine.cwCfg.version = s.engine.mtxCfg.version) (he : s.engine.cwCfg.ecl = s.engine.mtxCfg.ecl)
    (hbs : s.ramBytes .cw 0 s.engine.cwLen.toNat = .ok bs) :
    ∃ pl : Planes, matrixPlaceBody s = .ok { s with planes := pl, status := { s.status with bstate := .dataPlaced } } ∧
      (∀ k x, (placementOrder s.matrixSide s.planes.func)[k]? = some x → pl.darkp.get x.1 x.2 = streamBit bs k) ∧
      ∀ r c, (r, c) ∉ placementOrder s.matrixSide s.planes.func → pl.darkp.get r c = s.planes.darkp.get r c := by
  have hbody := matrixPlaceBody_ok hb hcw hv he (State.ramBytes_take hbs (Nat.min_le_left _ _))
  obtain ⟨pl, hexec, -, hdata, hrest⟩ := (matrixPlaceResult.2 s).1 bs hb hcw hv he hbs
  have hpl := congrArg State.planes (Host.Outcome.next.inj ((runCommand_ok (body := matrixPlaceBody) hbody).symm.trans hexec))
  simp only [State.complete_planes] at hpl
  rw [hpl] at hbody
  exact ⟨pl, hbody, fun k x hx => (hdata k x hx).1, fun r c hr => (hrest r c hr).1⟩

theorem symbolStart_builder {s : State} {data : List Byte} (hops : assembleOperands s = .ok data) : (symbolStart data s).BuilderInv := by
  obtain ⟨h1, h2, -, -⟩ := assembleOperands_ok_inv hops
  exact matrixInitWrites_builder _ h1 h2

/-- In state `p` the stream `bs` is placed in the layout of version `v` (R188, R190): bit k in data cell k, and every other cell as MATRIX_INIT
left it. -/
structure PlacedStream (v : Nat) (bs : List Byte) (p : State) : Prop where
  builder : p.BuilderInv
  bstate : p.status.bstate = .dataPlaced
  version : p.engine.mtxCfg.version.toNat = v
  data : ∀ k x, (placementOrder (side v) (initialPlanes v).func)[k]? = some x → p.planes.darkp.get x.1 x.2 = streamBit bs k
  rest : ∀ r c, (r, c) ∉ placementOrder (side v) (initialPlanes v).func → p.planes.darkp.get r c = (initialPlanes v).darkp.get r c

/-- ENCODE's placement passes the checks of MATRIX_PLACE and places the stream it assembled. -/
theorem exists_placedStream {s : State} {data : List Byte} (hops : assembleOperands s = .ok data) :
    ∃ pl, matrixPlaceBody (symbolStart data s) = .ok (placedSymbol data s pl) ∧
      PlacedStream s.host.config.version.toNat (configuredStream s data) (placedSymbol data s pl) := by
  obtain ⟨-, h2, -, -⟩ := assembleOperands_ok_inv hops
  obtain ⟨pl, hbody, hdata, hrest⟩ := matrixPlaceBody_stream rfl rfl rfl rfl (symbolStart_stream hops)
  rw [symbolStart_side data h2] at hdata hrest
  exact ⟨pl, hbody, matrixPlaceWork_builder (symbolStart_builder hops) rfl (matrixPlaceBody_ok_inv hbody).2, rfl, rfl, hdata, hrest⟩

/-- A plane is its cells. -/
theorem Plane.ext_get {p q : Plane} (h : ∀ r c, p.get r c = q.get r c) : p = q := by
  refine Vector.ext fun r hr => BitVec.eq_of_getLsbD_eq fun c _ => ?_
  simpa only [Plane.get, dif_pos hr] using h r c

section Placed

variable {v : Nat} {bs : List Byte} {p : State}

theorem PlacedStream.version_range (h : PlacedStream v bs p) : 1 ≤ v ∧ v ≤ 40 :=
  h.version ▸ h.builder.version_range (by rw [h.bstate]; decide)

theorem PlacedStream.matrixSide (h : PlacedStream v bs p) : p.matrixSide = side v :=
  h.version ▸ h.builder.side_eq (by rw [h.bstate]; decide)

theorem PlacedStream.func (h : PlacedStream v bs p) : p.planes.func = (initialPlanes v).func :=
  Plane.ext_get (h.version ▸ h.builder.func_layout (by rw [h.bstate]; decide))

/-- MASK_SELECT and WRITE_META carry the builder invariant on. -/
theorem PlacedStream.meta_builder (h : PlacedStream v bs p) : (writeMetaWrites (maskSelectWrites p)).BuilderInv :=
  writeMetaWrites_builder ((Writes.maskSelect h.bstate).builder h.builder) rfl

theorem PlacedStream.symbolEnd_builder (h : PlacedStream v bs p) : (symbolEnd p).BuilderInv :=
  finalizeWrites_builder h.meta_builder rfl

/-- The checks of the last three commands pass; FINALIZE's is the builder invariant's (R41, R200). -/
theorem PlacedStream.bodyOf_symbolEnd (h : PlacedStream v bs p) :
    bodyOf .maskSelect p = .ok (maskSelectWrites p) ∧
      bodyOf .writeMeta (maskSelectWrites p) = .ok (writeMetaWrites (maskSelectWrites p)) ∧
      bodyOf .finalize (writeMetaWrites (maskSelectWrites p)) = .ok (symbolEnd p) := by
  obtain ⟨-, -, -, hcomplete⟩ := finalizeResult.2 (writeMetaWrites (maskSelectWrites p))
  have hall := (allAssigned_iff _ _).mpr (hcomplete rfl h.meta_builder)
  exact ⟨(maskSelectBody_eq p).trans (if_pos h.bstate), (writeMetaBody_eq _).trans (if_pos rfl),
    (finalizeBody_eq _).trans ((if_neg (not_not_intro rfl)).trans (if_pos hall))⟩

end Placed

/-! ### ENCODE and the six commands (R223) -/

/-- The six commands, issued one after another, do ENCODE's work in its steps. -/
theorem issueAll_symbolCommands {s : State} {data : List Byte} {pl : Planes} (hops : assembleOperands s = .ok data)
    (hplace : matrixPlaceBody (symbolStart data s) = .ok (placedSymbol data s pl))
    (h : PlacedStream s.host.config.version.toNat (configuredStream s data) (placedSymbol data s pl)) :
    issueAll symbolCommands s = .next ((symbolEnd (placedSymbol data s pl)).accept (encode .finalize)).complete := by
  obtain ⟨h1, h2⟩ := h.version_range
  have hassemble : bodyOf .assemble s = .ok (assembleWrites s.host.config data s) := by rw [bodyOf, assembleBody_eq, hops]
  have hinit : bodyOf .matrixInit (assembleWrites s.host.config data s) = .ok (symbolStart data s) :=
    (matrixInitBody_eq _).trans (if_neg (by rw [assembleWrites_host]; omega))
  obtain ⟨hselect, hmeta, hfinalize⟩ := h.bodyOf_symbolEnd
  simp only [symbolCommands, issueAll, issue_accept_complete, issue_of_bodyOf (i := .assemble) (by decide) hassemble,
    issue_of_bodyOf (i := .matrixInit) (by decide) hinit, issue_of_bodyOf (i := .matrixPlace) (by decide) hplace,
    issue_of_bodyOf (i := .maskSelect) (by decide) hselect, issue_of_bodyOf (i := .writeMeta) (by decide) hmeta,
    issue_of_bodyOf (i := .finalize) (by decide) hfinalize]

/-- Settles O52: both are the same work in the same steps, which the acceptances between them do not reach; and ENCODE and ASSEMBLE begin with
the same checks. -/
theorem encodeEqualsSixCommands : Obligations.EncodeEqualsSixCommands := by
  refine fun s => ⟨fun h1 h2 h3 ⟨data, hdata⟩ => ?_, fun t ht herr => ?_⟩
  · have hops := assembleOperands_ok h1 h2 h3 hdata
    obtain ⟨pl, hplace, hplaced⟩ := exists_placedStream hops
    have hencode : issue .encode s = .next ((symbolEnd (placedSymbol data s pl)).accept (encode .encode)).complete :=
      issue_of_bodyOf (by decide) (encodeBody_ok hops (matrixPlaceBody_ok_inv hplace).2)
    exact ⟨_, issueAll_symbolCommands hops hplace hplaced, rfl, rfl, rfl, hencode⟩
  · obtain ⟨u, hu, rfl⟩ | ⟨e, he, rfl⟩ := runCommand_next (body := assembleBody) ht
    · have hclear : u.status.err = false := (bodyOf_samePlatform (i := .assemble) hu).err
      exact absurd (hclear.symm.trans herr) (by decide)
    · rw [assembleBody_eq, assembleOperands_accept] at he
      split at he <;> cases he
      next hops => exact exec_encode_error ((assembleOperands_accept s _).trans hops)

/-! ### The finished symbol (R222) -/

/-- A mask id is held by its three bits. -/
theorem State.toNat_bestMask (s : State) : (BitVec.ofNat 3 s.bestMask).toNat = s.bestMask := by
  have := s.bestMask_isFirstLeast.1
  rw [BitVec.toNat_ofNat, Nat.mod_eq_of_lt (by omega)]

/-- PEN_* hold the scores without loss (R38). -/
theorem scoreWrites_pen {s : State} (hb : s.status.bstate = .dataPlaced) (hside : s.matrixSide ≤ 177) (m : Fin 8) {x : Score}
    (hx : scoreOf (candidate s.params.maskAxes s.planes m.val) s.matrixSide = x) :
    (scoreWrites s).engine.pen[m].p1.toNat = x.p1 ∧ (scoreWrites s).engine.pen[m].p2.toNat = x.p2 ∧
      (scoreWrites s).engine.pen[m].p3.toNat = x.p3 ∧ (scoreWrites s).engine.pen[m].dark.toNat = x.dark := by
  subst hx
  obtain ⟨t, b, hexec, -, -, hpen⟩ := (maskScoreResult.2 s).1 hb hside
  obtain rfl := Host.Outcome.next.inj ((exec_maskScore hb).symm.trans hexec)
  obtain ⟨h1, h2, h3, hd, -⟩ := hpen m
  exact ⟨h1, h2, h3, hd⟩

theorem maskSelectWrites_functionCell {s : State} {r c : Nat} (h : s.planes.func.get r c = true) :
    (maskSelectWrites s).planes.darkp.get r c = s.planes.darkp.get r c := by
  refine (maskedPlane_get_candidate _ _ _ r c s.matrixSide_le).trans ?_
  split
  · change candidate _ s.planes _ r c = _
    simp [candidate, h]
  · rfl

theorem maskSelectWrites_dataCell {s : State} {r c : Nat} (h : s.isDataCell r c = true) :
    (maskSelectWrites s).planes.darkp.get r c = (s.planes.darkp.get r c).xor (maskBit s.params.maskAxes s.bestMask r c) := by
  obtain ⟨hr, hc, hf⟩ := (s.isDataCell_iff r c).mp h
  refine (maskedPlane_get_candidate _ _ _ r c s.matrixSide_le).trans ((if_pos ⟨hr, hc⟩).trans ?_)
  change candidate _ s.planes _ r c = _
  simp [candidate, hf]

section Placed

variable {v : Nat} {bs : List Byte} {p : State}

theorem PlacedStream.symbolEnd_func (h : PlacedStream v bs p) : (symbolEnd p).planes.func = (initialPlanes v).func :=
  Plane.ext_get (h.version ▸ h.symbolEnd_builder.func_layout nofun)

theorem PlacedStream.symbolEnd_asgn (h : PlacedStream v bs p) (r c : Nat) :
    (symbolEnd p).planes.asgn.get r c = (decide (r < side v) && decide (c < side v)) :=
  h.matrixSide ▸ h.symbolEnd_builder.asgn_layout nofun r c

theorem PlacedStream.symbolEnd_outside (h : PlacedStream v bs p) {r c : Nat} (ho : side v ≤ r ∨ side v ≤ c) :
    (symbolEnd p).planes.darkp.get r c = false :=
  (h.symbolEnd_builder.cells.outside_zero r c (h.matrixSide ▸ ho)).1

/-- The cells of the metadata, and every other cell as the mask left it. -/
theorem PlacedStream.symbolEnd_metadata (h : PlacedStream v bs p) :
    let q := (symbolEnd p).planes.darkp
    let e := (symbolEnd p).engine
    (∀ i, i < 15 → q.get (fpos1 (side v) i).1 (fpos1 (side v) i).2 = e.formatInfo.getLsbD i ∧
      q.get (fpos2 (side v) i).1 (fpos2 (side v) i).2 = e.formatInfo.getLsbD i) ∧
    q.get (side v - 8) 8 = true ∧
    (7 ≤ v → ∀ i, i < 18 → q.get (vpos1 (side v) i).1 (vpos1 (side v) i).2 = e.versionInfo.getLsbD i ∧
      q.get (vpos2 (side v) i).1 (vpos2 (side v) i).2 = e.versionInfo.getLsbD i) ∧
    ∀ r c, isReservedArea v r c = false → q.get r c = (maskSelectWrites p).planes.darkp.get r c := by
  obtain ⟨h1, h2⟩ := h.version_range
  have hside : (maskSelectWrites p).matrixSide = side v := h.matrixSide
  obtain rfl := h.version
  obtain ⟨pl, hexec, hformat, hdark, hversion, hrest⟩ := (writeMetaResult.2 (maskSelectWrites p)).1 rfl h1 h2 hside
  have hbody : writeMetaBody (maskSelectWrites p) = .ok (writeMetaWrites (maskSelectWrites p)) := (writeMetaBody_eq _).trans (if_pos rfl)
  obtain rfl : metaPlanes (maskSelectWrites p) = pl :=
    congrArg State.planes (Host.Outcome.next.inj ((runCommand_ok hbody).symm.trans hexec))
  rw [hside] at hformat hdark hversion
  exact ⟨hformat, hdark, hversion, fun r c hr => ((hrest r c).2 hr).1⟩

/-- MASK_SELECT and the metadata leave the patterns (R163, R196). -/
theorem PlacedStream.symbolEnd_pattern (h : PlacedStream v bs p) {r c : Nat} (hp : isPatternCell v r c = true) :
    (symbolEnd p).planes.darkp.get r c = isDarkPattern v r c := by
  obtain ⟨h1, h2⟩ := h.version_range
  have hreserved : isReservedArea v r c = false := by simpa [hp] using not_pattern_and_reserved (r := r) (c := c) h1 h2
  have hfunc : (initialPlanes v).func.get r c = true := by rw [initialPlanes_func_eq h1 h2, hp, Bool.true_or]
  obtain ⟨-, -, -, hrest⟩ := h.symbolEnd_metadata
  have hmem : (r, c) ∉ placementOrder (side v) (initialPlanes v).func := by
    intro hmem
    obtain ⟨-, -, hf⟩ := mem_placementOrder hmem
    exact absurd (hf.symm.trans hfunc) (by decide)
  rw [hrest r c hreserved, maskSelectWrites_functionCell (by rw [h.func, hfunc]), h.rest r c hmem, initialPlanes_darkp_eq h1 h2, hp,
    Bool.true_and]

/-- Data cell k holds bit k of the stream, masked (R174). -/
theorem PlacedStream.symbolEnd_data (h : PlacedStream v bs p) {k : Nat} {x : Nat × Nat}
    (hx : (placementOrder (side v) (initialPlanes v).func)[k]? = some x) :
    (symbolEnd p).planes.darkp.get x.1 x.2 = (streamBit bs k).xor (maskBit p.params.maskAxes p.bestMask x.1 x.2) := by
  obtain ⟨h1, h2⟩ := h.version_range
  have hcell := mem_placementOrder (List.mem_of_getElem? hx)
  have hreserved : isReservedArea v x.1 x.2 = false := (Bool.or_eq_false_iff.mp ((initialPlanes_func_eq h1 h2 _ _).symm.trans hcell.2.2)).2
  have hdata : p.isDataCell x.1 x.2 = true := (p.isDataCell_iff _ _).mpr (by rw [h.matrixSide, h.func]; exact hcell)
  obtain ⟨-, -, -, hrest⟩ := h.symbolEnd_metadata
  rw [hrest _ _ hreserved, maskSelectWrites_dataCell hdata, h.data k x hx]

/-- The scores MASK_SELECT keeps are those of the data before the mask under the finished symbol's function cells: no later step changes
FUNC. -/
theorem PlacedStream.score_eq (h : PlacedStream v bs p) (m : Nat) :
    scoreOf (candidate p.params.maskAxes p.planes m) p.matrixSide =
      scoreOf (candidate p.params.maskAxes { (symbolEnd p).planes with darkp := p.planes.darkp } m) (side v) := by
  have hcandidate : candidate p.params.maskAxes { (symbolEnd p).planes with darkp := p.planes.darkp } m =
      candidate p.params.maskAxes p.planes m := by
    funext r c
    simp only [candidate, h.symbolEnd_func, h.func]
  rw [hcandidate, h.matrixSide]

theorem PlacedStream.isFirstLeast_bestMask (h : PlacedStream v bs p) :
    IsFirstLeast (fun m => (scoreOf (candidate p.params.maskAxes { (symbolEnd p).planes with darkp := p.planes.darkp } m) (side v)).scaled
      (side v)) p.bestMask := by
  have hbest := p.bestMask_isFirstLeast
  rwa [show p.maskScaled = _ from funext fun m => by rw [State.maskScaled, h.score_eq m, h.matrixSide]] at hbest

end Placed

/-- Settles O51: the cells of the finished symbol are the layout's, the masked stream's and the metadata's; the registers are those the six steps
write. -/
theorem encodeBuildsTheSymbol : Obligations.EncodeBuildsTheSymbol := by
  refine ⟨rfl, fun s => ⟨fun data h1 h2 h3 hdata => ?_, fun h => exec_encode_error (assembleOperands_version h),
    fun h1 h2 h => exec_encode_error (assembleOperands_overflow h1 h2 h)⟩⟩
  have hops := assembleOperands_ok h1 h2 h3 hdata
  have hstream : configuredStream s data = streamByLoops s.host.config.version.toNat (levelOf s.host.config.ecl) data :=
    codewordStream_eq_streamByLoops (by rwa [(State.ramBytes_ok hdata).1])
  obtain ⟨pl, hplace, h⟩ := exists_placedStream hops
  have hexec : exec .encode s = .next (symbolEnd (placedSymbol data s pl)).complete :=
    runCommand_ok (body := encodeBody) (encodeBody_ok hops (matrixPlaceBody_ok_inv hplace).2)
  obtain ⟨hformat, hdark, hversion, -⟩ := h.symbolEnd_metadata
  have hfunc : (symbolEnd (placedSymbol data s pl)).complete.planes.func = (initialPlanes s.host.config.version.toNat).func :=
    h.symbolEnd_func
  have happlied : (symbolEnd (placedSymbol data s pl)).complete.engine.mask.applied.toNat = (placedSymbol data s pl).bestMask :=
    State.toNat_bestMask _
  have hbest : (symbolEnd (placedSymbol data s pl)).complete.engine.mask.best.toNat = (placedSymbol data s pl).bestMask :=
    State.toNat_bestMask _
  refine ⟨_, hexec, ?_, (assembleWrites_codewords hops).len_eq rfl, rfl, rfl, rfl, rfl, rfl, rfl, rfl, rfl, rfl, rfl, fun r c => ?_,
    fun k x hx => ?_, hformat, hversion, hdark, pl.darkp, fun k x hx => ?_, fun r c hx => ?_, ?_, fun m => ?_⟩
  · rw [← hstream]
    rfl
  · exact ⟨by rw [hfunc, initialPlanes_func_eq h1 h2], h.symbolEnd_asgn r c, h.symbolEnd_outside, h.symbolEnd_pattern⟩
  · rw [hfunc] at hx
    rw [happlied, ← hstream]
    exact h.symbolEnd_data hx
  · rw [hfunc] at hx
    rw [← hstream]
    exact h.data k x hx
  · rw [hfunc] at hx
    rw [← initialPlanes_darkp_eq h1 h2]
    exact h.rest r c hx
  · rw [hbest]
    exact h.isFirstLeast_bestMask
  · exact scoreWrites_pen h.bstate (h.matrixSide ▸ side_le h2) m (h.score_eq m)

end Sys2Proof.Machine

/-! ## The life cycle by events: acceptance, completion, errors and the interrupt output -/

namespace Sys2Proof.Machine

/-! ### What each event does (R18, R61, R246, R273) -/

theorem step_inbox_nil {s : State} (h : s.inbox = []) : step s = engineTurn s := by
  simp only [step, h]

theorem step_engine {s : State} {rest : List Event} (h : s.inbox = .engine :: rest) : step s = engineTurn { s with inbox := rest } := by
  simp only [step, h, eventStep]

theorem step_rst {s : State} {level : Bool} {rest : List Event} (h : s.inbox = .rst level :: rest) :
    step s = .next (rstInput level { s with inbox := rest }) := by
  simp only [step, h, eventStep]

theorem engineTurn_pending {s : State} {w : Word} (hr : s.rst = false) (hp : s.pending = some w) : engineTurn s = completion w s := by
  simp [engineTurn, hr, hp]

theorem engineTurn_nothing_pending {s : State} (hp : s.pending = none) : engineTurn s = .next s := by
  simp [engineTurn, hp]

theorem completion_command {w : Word} {i : Instr} (h : decode w = .ok i) (s : State) : completion w s = exec i s := by
  simp only [completion, h]

/-- Settles O4, by the kind of the next event, or of the engine's turn when no event is left. -/
theorem stepRunsThePendingCommand : Obligations.StepRunsThePendingCommand := by
  refine ⟨fun s w i hp hr hd => ⟨fun hn => ?_, fun rest he => ?_⟩, fun s w e hp hr hd => ⟨fun hn => ?_, fun rest he => ?_⟩,
    fun s q rest he => step_host he, fun s level rest he => ?_, fun s hp => ⟨fun hn => ?_, fun rest he => ?_⟩⟩
  · rw [step_inbox_nil hn, engineTurn_pending hr hp, completion_command hd]
  · rw [step_engine he, engineTurn_pending (s := { s with inbox := rest }) hr hp, completion_command hd]
  · rw [step_inbox_nil hn, engineTurn_pending hr hp, completion_illegal hd]
    rfl
  · rw [step_engine he, engineTurn_pending (s := { s with inbox := rest }) hr hp, completion_illegal hd]
    rfl
  · rw [step_rst he]
    refine ⟨?_, ?_, ?_⟩
    · rintro rfl
      rfl
    · rintro rfl hr
      simp only [rstInput, hr, Bool.false_eq_true, if_false, if_true]
    · rintro rfl hr
      simp only [rstInput, hr, Bool.false_eq_true, if_false]
  · rw [step_inbox_nil hn, engineTurn_nothing_pending hp]
  · rw [step_engine he, engineTurn_nothing_pending (s := { s with inbox := rest }) hp]

/-! ### Acceptance (R245) -/

/-- LASTOP is the word's low byte. -/
theorem opcField_eq_ofNat (w : Word) : opcField w = BitVec.ofNat 8 (w.toNat % 256) := by
  refine BitVec.eq_of_toNat_eq ?_
  rw [opcField_toNat, BitVec.toNat_ofNat, Nat.mod_mod]

/-- Settles O5: while idle the write of CMD is an acceptance, and while a command runs it is one of the refused writes. -/
theorem commandAcceptance : Obligations.CommandAcceptance := by
  refine fun s w hr => ⟨fun hb => ?_, fun hb => (busyWritesAreRefused s 0x004 w hr hb (by decide) rfl).1 (by decide) (by decide)⟩
  rw [← opcField_eq_ofNat]
  exact hostAccess_writeReg (r := .cmd) ⟨hb, hr⟩ w

/-! ### Completion and errors (R240, R241, R246) -/

/-- The codes an error can have: 1 and 3 to 9 (R240). -/
theorem Err.code_legal (e : Err) : e.code ≠ 0 ∧ e.code ≠ 2 ∧ e.code.toNat ≤ 9 := by cases e <;> decide

/-- Settles O54, by the two ways a command's run ends with a next state. -/
theorem errorsArePrecise : Obligations.ErrorsArePrecise := by
  intro i s t hd he hc h
  rw [exec_eq_run] at h
  obtain ⟨u, hu, rfl⟩ | ⟨e, -, rfl⟩ := runCommand_next h
  · have hp := bodyOf_samePlatform hu
    exact .inr ⟨rfl, hp.err.trans he, hp.errcode.trans hc, rfl, rfl, hp.ovr, hp.lastop⟩
  · exact .inl ⟨e, rfl, e.code_legal⟩

/-! ### The interrupt output (R250) -/

/-- DONE, ERR and OVR are bits 1, 2 and 3 of STATUS (R24). -/
theorem statusWord_flags (t : Status) :
    (statusWord t).getLsbD 1 = t.done ∧ (statusWord t).getLsbD 2 = t.err ∧ (statusWord t).getLsbD 3 = t.ovr := by
  simp only [statusWord, BitVec.getLsbD_append]
  simp

/-- DONE_IE, ERR_IE and OVR_IE are bits 0, 1 and 2 of IRQ_EN (R27). -/
theorem IrqEnable.word_bits (e : IrqEnable) :
    e.word.getLsbD 0 = e.doneIe ∧ e.word.getLsbD 1 = e.errIe ∧ e.word.getLsbD 2 = e.ovrIe := by
  simp only [word, BitVec.getLsbD_append]
  simp

/-- The bits of STATUS and IRQ_EN as the host reads them. -/
theorem State.irq_readBits (s : State) :
    ((s.readReg .status).getLsbD 1 = s.status.done ∧ (s.readReg .status).getLsbD 2 = s.status.err ∧
      (s.readReg .status).getLsbD 3 = s.status.ovr) ∧
    (s.readReg .irqEn).getLsbD 0 = s.host.irqEn.doneIe ∧ (s.readReg .irqEn).getLsbD 1 = s.host.irqEn.errIe ∧
      (s.readReg .irqEn).getLsbD 2 = s.host.irqEn.ovrIe :=
  ⟨statusWord_flags s.status, s.host.irqEn.word_bits⟩

/-- A write of STATUS is served as its acknowledgement, BUSY or not (R70, R251). -/
theorem hostAccess_statusWrite {s : State} (hr : s.rst = false) (w : Word) :
    hostAccess (writeAt 0x008 w) s = .next ((s.acknowledge w).respond (.write false)) := by
  rw [hostAccess_writeAt hr (by decide) rfl, show s.busWrite 0x008 w = s.writeReg .status w from
    s.busWrite_writableWhileBusy (r := .status) rfl w]
  rfl

/-- Settles O15: the level read off the register bits, then after the two writes that end a source. -/
theorem interruptLevel : Obligations.InterruptLevel := by
  refine ⟨fun s => ?_, fun s w hr => ⟨_, hostAccess_statusWrite hr w, ?_⟩, fun s t w hi ht => ?_, rfl⟩
  · simp only [s.irq_readBits]
    rfl
  · simp only [s.irq_readBits]
    rfl
  · cases (hostAccess_writeReg hi .cmd w).symm.trans ht
    simp [State.irq, State.writeReg, Status.accepted]

/-! ### A pending command completes (R248) -/

/-- With UNWRITTEN_READ = DRAW every completion answers a next state. -/
theorem completion_draw {s : State} (h : s.params.unwrittenRead = .draw) (w : Word) : ∃ t, completion w s = .next t := by
  obtain ⟨i, hi⟩ | ⟨e, he⟩ : (∃ i, decode w = .ok i) ∨ ∃ e, decode w = .error e := by cases decode w <;> simp
  · rw [completion_command hi]
    exact exec_draw h i
  · exact ⟨_, completion_illegal he s⟩

/-- A completion leaves nothing pending and sets exactly one of DONE and ERR. -/
theorem completion_ends {s t : State} {w : Word} (hinv : s.LifeCycleInv) (hp : s.pending = some w) (h : completion w s = .next t) :
    t.pending = none ∧ t.status.busy = false ∧ t.status.done = !t.status.err := by
  obtain ⟨hdone, herr, -⟩ := hinv.busy_clear (hinv.busy_of_pending hp)
  have hraise (e : Err) : (s.raise e).status.done = !(s.raise e).status.err := by simp [Status.failed, hdone]
  obtain ⟨i, -, hi⟩ | ⟨-, -, rfl⟩ := completion_next h
  · rw [exec_eq_run] at hi
    obtain ⟨u, hu, rfl⟩ | ⟨e, -, rfl⟩ := runCommand_next hi
    · refine ⟨rfl, rfl, ?_⟩
      simp [Status.completed, (bodyOf_samePlatform hu).err, herr]
    · exact ⟨rfl, rfl, hraise e⟩
  · exact ⟨rfl, rfl, hraise .illegalCommand⟩

/-- With UNWRITTEN_READ = DRAW every bus access is answered. -/
theorem hostAccess_draw {s : State} (hr : s.rst = false) (h : s.params.unwrittenRead = .draw) (q : Request) :
    ∃ t, hostAccess q s = .next t := by
  obtain ⟨v, hv⟩ := State.currentWord_draw h (locate q.addr.toNat)
  simp only [hostAccess, hr, Bool.false_eq_true, if_false]
  split
  · split
    · exact ⟨_, rfl⟩
    · split
      · exact ⟨_, rfl⟩
      · next f hf => cases (State.busRead_fault hf).symm.trans hv
  · exact ⟨_, rfl⟩

/-- While a command runs, a bus access leaves it pending (R70). -/
theorem hostAccess_keeps_pending {q : Request} {s t : State} (hb : s.status.busy = true) (h : hostAccess q s = .next t) :
    t.pending = s.pending ∧ t.rst = s.rst ∧ t.params = s.params := by
  obtain ⟨-, ⟨-, rfl⟩ | ⟨-, -, rfl⟩ | ⟨-, -, v, u, hu, rfl⟩⟩ := hostAccess_next h
  · exact ⟨rfl, rfl, rfl⟩
  · obtain ⟨_, _, _, _, hw⟩ := State.busWrite_state s q.addr.toNat q.wdata
    refine ⟨(State.busWrite_busy hb _ _).1, ?_, ?_⟩ <;> simp only [State.respond_rst, State.respond_params, hw]
  · rw [State.busRead_state hu]
    exact ⟨rfl, rfl, rfl⟩

theorem core_run_succ {M : Host.Core} {k : Nat} {s u : M.State} (h : M.step s = .next u) : M.run (k + 1) s = M.run k u := by
  simp only [Host.Core.run, h]

/-- The steps of a run are those of the host's machine. -/
theorem ReachedIn.core_run {k : Nat} {s t : State} (h : ReachedIn k s t) : Host.Core.run Sys2Proof.core k s = .next t := by
  induction k generalizing s with
  | zero => exact congrArg Host.Outcome.next (show s = t from h.symm)
  | succ k ih =>
    obtain ⟨u, hu, h⟩ := h
    exact (core_run_succ (M := Sys2Proof.core) hu).trans (ih h)

/-- The engine's turn completes a pending command in one step. -/
theorem engineTurn_completes {s : State} {w : Word} (hinv : s.LifeCycleInv) (hp : s.pending = some w) (hr : s.rst = false)
    (hd : s.params.unwrittenRead = .draw) :
    ∃ t, engineTurn s = .next t ∧ t.pending = none ∧ t.status.busy = false ∧ t.status.done = !t.status.err := by
  obtain ⟨t, ht⟩ := completion_draw hd w
  exact ⟨t, (engineTurn_pending hr hp).trans ht, completion_ends hinv hp ht⟩

/-- Settles O19, by induction on the events to come: a host access leaves the command pending, and the engine's turn, at the latest when no event
is left, completes it. -/
theorem pendingCommandCompletes : Obligations.PendingCommandCompletes := by
  intro s w hinv hp hr hd hn
  suffices h : ∃ k, k ≤ s.inbox.length + 1 ∧ ∃ t, ReachedIn k s t ∧
      t.pending = none ∧ t.status.busy = false ∧ t.status.done = !t.status.err by
    obtain ⟨k, hk, t, ht, hend⟩ := h
    exact ⟨k, hk, t, ht.core_run, hend⟩
  generalize hin : s.inbox = events at hn ⊢
  induction events generalizing s with
  | nil =>
    obtain ⟨t, ht, hend⟩ := engineTurn_completes hinv hp hr hd
    exact ⟨1, Nat.le_refl 1, t, ⟨t, (step_inbox_nil hin).trans ht, rfl⟩, hend⟩
  | cons e rest ih =>
    have hrest : State.LifeCycleInv { s with inbox := rest } := hinv.of_eq rfl rfl
    cases e with
    | engine =>
      obtain ⟨t, ht, hend⟩ := engineTurn_completes hrest hp hr hd
      exact ⟨1, Nat.le_add_left 1 _, t, ⟨t, (step_engine hin).trans ht, rfl⟩, hend⟩
    | host q =>
      obtain ⟨u, hu⟩ := hostAccess_draw (s := { s with inbox := rest }) hr hd q
      obtain ⟨hpending, hrst, hparams⟩ := hostAccess_keeps_pending (hrest.busy_of_pending hp) hu
      obtain ⟨k, hk, t, ht, hend⟩ := ih u (hostAccess_lifeCycle hrest hu) (hpending.trans hp) (hrst.trans hr) (by rw [hparams]; exact hd)
        (hostAccess_inbox hu) (fun level hl => hn level (List.mem_cons_of_mem _ hl))
      exact ⟨k + 1, Nat.succ_le_succ hk, t, ⟨u, (step_host hin).trans hu, ht⟩, hend⟩
    | rst level => exact absurd List.mem_cons_self (hn level)

end Sys2Proof.Machine

/-! ## Hardware reset, and the only way a command stops the model -/

namespace Sys2Proof.Machine

/-! ### A command stops only on an unwritten byte (R272, U2) -/

/-- The contract violation a command can stop on (U2): a byte of DATA, CW, PA or PB that was not written since reset, with UNWRITTEN_READ =
FAULT. -/
def StopsOnUnwrittenByte (s : State) (f : Fault) : Prop :=
  s.params.unwrittenRead = .fault ∧ ∃ (r : Ram) (k : Nat), r ≠ .pr ∧ k < r.size ∧ f = .unwrittenRead (r.base + k) ∧
    Memory.read s.ram (r.base + k) = none

theorem State.ramByte_fault {s : State} {r : Ram} {k : Nat} {f : Fault} (h : s.ramByte r k = .error f) :
    s.params.unwrittenRead = .fault ∧ f = .unwrittenRead (r.base + k) ∧ Memory.read s.ram (r.base + k) = none := by
  unfold State.ramByte at h
  split at h
  · cases h
  · next hread =>
    split at h <;> cases h
    next hfault => exact ⟨hfault, rfl, hread⟩

/-- A run of bytes faults on one of its bytes. -/
theorem State.ramBytes_fault {s : State} {r : Ram} {k n : Nat} {f : Fault} (h : s.ramBytes r k n = .error f) :
    ∃ j, j < k + n ∧ s.ramByte r j = .error f := by
  induction n generalizing k with
  | zero => cases h
  | succ n ih =>
    simp only [State.ramBytes] at h
    split at h
    · next hb =>
      cases h
      exact ⟨k, by omega, hb⟩
    · split at h <;> cases h
      next hbs =>
        obtain ⟨j, hj, hf⟩ := ih hbs
        exact ⟨j, by omega, hf⟩

theorem stopsOnUnwrittenByte_of_ramByte {s : State} {r : Ram} {k : Nat} {f : Fault} (hr : r ≠ .pr) (hk : k < r.size)
    (h : liftFault (s.ramByte r k) = .error (.fault f)) : StopsOnUnwrittenByte s f := by
  obtain ⟨hfault, hf, hread⟩ := State.ramByte_fault (liftFault_fault.mp h)
  exact ⟨hfault, r, k, hr, hk, hf, hread⟩

theorem stopsOnUnwrittenByte_of_ramBytes {s : State} {r : Ram} {n : Nat} {f : Fault} (hr : r ≠ .pr) (hn : n ≤ r.size)
    (h : liftFault (s.ramBytes r 0 n) = .error (.fault f)) : StopsOnUnwrittenByte s f := by
  obtain ⟨j, hj, hf⟩ := State.ramBytes_fault (liftFault_fault.mp h)
  exact stopsOnUnwrittenByte_of_ramByte hr (by omega) (liftFault_fault.mpr hf)

/-- Written bytes can be read whatever UNWRITTEN_READ is. -/
theorem State.readable_of_written {s : State} {r : Ram} {n : Nat}
    (h : ∀ k, k < n → (Memory.read s.ram (r.base + k)).isSome = true) : s.Readable r n := by
  match hbs : s.ramBytes r 0 n with
  | .ok bs => exact ⟨bs, hbs⟩
  | .error f =>
    obtain ⟨j, hj, hf⟩ := State.ramBytes_fault hbs
    have hj := h j (by omega)
    rw [(State.ramByte_fault hf).2.2] at hj
    cases hj

/-- The first part of a sequence that stops on a fault, or the rest of it, stops on that fault. -/
theorem bind_fault {α β : Type} {x : Except Stop α} {g : α → Except Stop β} {f : Fault} (h : x >>= g = .error (.fault f)) :
    x = .error (.fault f) ∨ ∃ a, x = .ok a ∧ g a = .error (.fault f) := by
  cases x with
  | error e => exact .inl (congrArg Except.error (Except.error.inj h))
  | ok a => exact .inr ⟨a, rfl, h⟩

/-! ### The commands that read a RAM -/

theorem polyA_fault {s : State} {f : Fault} (hn : (polyLengths s).la ≤ 256) (h : polyA s = .error (.fault f)) :
    StopsOnUnwrittenByte s f := by
  unfold polyA at h
  split at h <;> cases h
  next he => exact stopsOnUnwrittenByte_of_ramBytes (r := .pa) nofun hn he

theorem polyB_fault {s : State} {f : Fault} (hn : (polyLengths s).lb ≤ 256) (h : polyB s = .error (.fault f)) :
    StopsOnUnwrittenByte s f :=
  stopsOnUnwrittenByte_of_ramBytes (r := .pb) nofun hn h

/-- The operands of POLY_MUL and POLY_MOD are read whole before the result is written, which cannot fail. -/
theorem polyOperands_fault {s : State} {f : Fault} {g : List Byte → List Byte → State} (hc : checkPolyLengths (polyLengths s) = .ok ())
    (h : (do let a ← polyA s; let b ← polyB s; .ok (g a b)) = Except.error (Stop.fault f)) : StopsOnUnwrittenByte s f := by
  obtain ⟨-, hla, -, hlb, -⟩ := checkPolyLengths_ok_inv hc
  obtain ha | ⟨a, -, h⟩ := bind_fault h
  · exact polyA_fault hla ha
  obtain hb | ⟨b, -, h⟩ := bind_fault h
  · exact polyB_fault hlb hb
  · cases h

theorem polyMulBody_fault {s : State} {f : Fault} (h : polyMulBody s = .error (.fault f)) : StopsOnUnwrittenByte s f := by
  obtain hc | ⟨_, hc, h⟩ := bind_fault h
  · exact absurd hc (checkPolyLengths_ne_fault _ f)
  split at h
  · cases h
  · exact polyOperands_fault hc h

theorem polyModBody_fault {s : State} {f : Fault} (h : polyModBody s = .error (.fault f)) : StopsOnUnwrittenByte s f := by
  obtain hc | ⟨_, hc, h⟩ := bind_fault h
  · exact absurd hc (checkPolyLengths_ne_fault _ f)
  obtain hl | ⟨lead, -, h⟩ := bind_fault h
  · exact stopsOnUnwrittenByte_of_ramByte (r := .pb) nofun (by decide) hl
  split at h
  · cases h
  · exact polyOperands_fault hc h

/-- DATA_LEN has 12 bits, so DATA[0..L−1] lies in DATA (R26). -/
theorem assembleOperands_fault {s : State} {f : Fault} (h : assembleOperands s = .error (.fault f)) : StopsOnUnwrittenByte s f := by
  obtain hv | ⟨v, -, h⟩ := bind_fault h
  · unfold checkVersion at hv
    split at hv <;> cases hv
  obtain hc | ⟨_, -, h⟩ := bind_fault h
  · unfold checkCapacity at hc
    split at hc <;> cases hc
  · exact stopsOnUnwrittenByte_of_ramBytes (r := .data) nofun (Nat.le_of_lt s.host.dataLen.isLt) h

/-- CW_LEN has 12 bits, so the codewords placed lie in CW (R32). -/
theorem matrixPlaceWork_fault {s : State} {f : Fault} (h : matrixPlaceWork s = .error (.fault f)) : StopsOnUnwrittenByte s f := by
  obtain hbs | ⟨bs, -, h⟩ := bind_fault h
  · exact stopsOnUnwrittenByte_of_ramBytes (r := .cw) nofun
      (Nat.le_trans (Nat.min_le_left _ _) (Nat.le_of_lt s.engine.cwLen.isLt)) hbs
  · cases h

theorem matrixPlaceWork_fault_of_body {s : State} {f : Fault} (h : matrixPlaceBody s = .error (.fault f)) :
    matrixPlaceWork s = .error (.fault f) := by
  obtain hc | ⟨_, -, h⟩ := bind_fault h
  · rw [matrixPlaceCheck_eq] at hc
    split at hc <;> cases hc
  · exact h

/-- Where the codeword invariant holds, every codeword MATRIX_PLACE reads has been written (R149). -/
theorem State.CodewordInv.matrixPlaceWork_ne_fault {s : State} (h : s.CodewordInv) (f : Fault) : matrixPlaceWork s ≠ .error (.fault f) := by
  intro hf
  obtain ⟨bs, hbs⟩ := State.readable_of_written h.written
  obtain hread | ⟨_, -, hf⟩ := bind_fault hf
  · cases (State.ramBytes_take hbs (Nat.min_le_left _ _)).symm.trans (liftFault_fault.mp hread)
  · cases hf

/-- ENCODE places the stream it has just written, so it stops only where ASSEMBLE does. -/
theorem encodeBody_fault {s : State} {f : Fault} (h : encodeBody s = .error (.fault f)) : StopsOnUnwrittenByte s f := by
  obtain hd | ⟨data, hd, h⟩ := bind_fault h
  · exact assembleOperands_fault hd
  have hcw : (symbolStart data s).CodewordInv := (assembleWrites_codewords hd).of_keepsWritten (.of_ram_eq rfl) rfl rfl rfl
  obtain hw | ⟨p, -, h⟩ := bind_fault h
  · exact absurd hw (hcw.matrixPlaceWork_ne_fault f)
  · cases h

/-! ### Every command -/

/-- The commands that read bytes of a RAM (R93). -/
def readsRam (i : Instr) : Bool := [Instr.polyMul, .polyMod, .assemble, .matrixPlace, .encode].contains i

/-- A command that reads no RAM byte ends well or with an error. -/
theorem bodyOf_ne_fault_of_readsRam {i : Instr} (hi : readsRam i = false) (s : State) (f : Fault) : bodyOf i s ≠ .error (.fault f) := by
  intro h
  cases i <;> simp only [bodyOf] at h
  case polyMul | polyMod | assemble | matrixPlace | encode => cases hi
  case nop | softReset | gfExp => cases h
  case gfLog => rw [gfLogBody_eq] at h; split at h <;> cases h
  case gfMul => rw [gfMulBody_eq] at h; split at h <;> cases h
  case gfInv => rw [gfInvBody_eq] at h; split at h <;> cases h
  case rsGenpoly => rw [rsGenpolyBody_eq] at h; split at h <;> cases h
  case tableLookup => rw [tableLookupBody_eq] at h; split at h <;> cases h
  case bchFormat => rw [bchFormatBody_eq] at h; split at h <;> cases h
  case bchVersion => rw [bchVersionBody_eq] at h; split at h <;> cases h
  case matrixInit => rw [matrixInitBody_eq] at h; split at h <;> cases h
  case maskScore => rw [maskScoreBody_eq] at h; split at h <;> cases h
  case maskSelect => rw [maskSelectBody_eq] at h; split at h <;> cases h
  case maskForce =>
    rw [maskForceBody_eq] at h
    split at h
    · cases h
    · split at h <;> cases h
  case writeMeta => rw [writeMetaBody_eq] at h; split at h <;> cases h
  case finalize =>
    rw [finalizeBody_eq] at h
    split at h
    · cases h
    · split at h <;> cases h

theorem bodyOf_fault {i : Instr} {s : State} {f : Fault} (h : bodyOf i s = .error (.fault f)) : StopsOnUnwrittenByte s f := by
  cases hi : readsRam i with
  | false => exact absurd h (bodyOf_ne_fault_of_readsRam hi s f)
  | true =>
    cases i
    case polyMul => exact polyMulBody_fault h
    case polyMod => exact polyModBody_fault h
    case assemble =>
      obtain hd | ⟨data, -, h⟩ := bind_fault h
      · exact assembleOperands_fault hd
      · cases h
    case matrixPlace => exact matrixPlaceWork_fault (matrixPlaceWork_fault_of_body h)
    case encode => exact encodeBody_fault h
    all_goals cases hi

/-- A command whose body meets no contract violation completes, with success or an error. -/
theorem exec_next_of_ne_fault {i : Instr} {s : State} (h : ∀ f, bodyOf i s ≠ .error (.fault f)) : ∃ t, exec i s = .next t := by
  rw [exec_eq_run]
  match hb : bodyOf i s with
  | .ok u => exact ⟨_, runCommand_ok hb⟩
  | .error (.err e) => exact ⟨_, runCommand_err hb⟩
  | .error (.fault f) => exact absurd hb (h f)

/-- Settles O55: a command's only contract violation is the read of an unwritten byte, and the codeword invariant has MATRIX_PLACE read written ones
only. -/
theorem commandsStopOnlyOnUnwrittenReads : Obligations.CommandsStopOnlyOnUnwrittenReads := by
  refine ⟨fun i s hd => exec_draw hd i, fun i s f h => ?_, fun i s r => ?_, fun s hs => ?_⟩
  · rw [exec_eq_run] at h
    exact bodyOf_fault (runCommand_fault_iff.mp h)
  · rw [exec_eq_run]
    exact runCommand_ne_refused _ _ r
  · exact exec_next_of_ne_fault fun f hf => hs.matrixPlaceWork_ne_fault f (matrixPlaceWork_fault_of_body hf)

/-! ### Hardware reset (R270, R271, R273) -/

theorem engineTurn_inReset {s : State} (h : s.rst = true) : engineTurn s = .next s := if_pos h

/-- What the reset input does to a pending command: it keeps it until it falls, and then the state is that of reset. -/
theorem rstInput_pending (level : Bool) (s : State) :
    (rstInput level s).pending = s.pending ∨ (level = false ∧ s.rst = true ∧ rstInput level s = s.afterReset) := by
  cases level with
  | true => exact .inl rfl
  | false =>
    by_cases hr : s.rst = true
    · exact .inr ⟨rfl, hr, if_pos hr⟩
    · rw [show rstInput false s = s from if_neg hr]
      exact .inl rfl

/-- The reset value of each register (R21, R270). -/
theorem State.afterReset_readReg (s : State) (r : Reg) :
    s.afterReset.readReg r = if r = .id then 0x51520001 else if r = .config then 0x00000101 else 0 := by
  cases r
  case status => exact (by decide : statusWord Status.reset = 0)
  case config => exact (by decide : HostRegs.reset.config.word = 0x00000101)
  case irqEn => exact (by decide : HostRegs.reset.irqEn.word = 0)
  case id | cmd | dataLen | arg0 | arg1 | plenA | plenB | pshift => rfl
  all_goals exact State.readReg_engineZero rfl rfl

/-- Settles O17, by the kind of the step: a host access leaves PENDING, the engine's turn completes the command or does nothing, and the reset input
abandons it only as it falls. -/
theorem pendingIsAbandonedOnlyByReset : Obligations.PendingIsAbandonedOnlyByReset := by
  intro s t w hb hp h
  have hturn {rest : List Event} (he : engineTurn { s with inbox := rest } = .next t) :
      t.pending = some w ∨
        (s.rst = false ∧ ∃ u : State, u.inbox = t.inbox ∧ u = { s with inbox := u.inbox } ∧ completion w u = .next t) := by
    obtain ⟨rfl, -⟩ | ⟨hr, w', hw, hc⟩ := engineTurn_next he
    · exact .inl hp
    · cases hp.symm.trans hw
      exact .inr ⟨hr, _, (engineTurn_inbox he).symm, rfl, hc⟩
  obtain ⟨-, he⟩ | ⟨e, rest, hs, ⟨-, he⟩ | ⟨q, -, he⟩ | ⟨level, rfl, rfl⟩⟩ := step_next h
  · exact (hturn he).imp_right .inl
  · exact (hturn he).imp_right .inl
  · exact .inl ((hostAccess_keeps_pending (s := { s with inbox := rest }) hb he).1.trans hp)
  · obtain hkeep | ⟨rfl, hr, ht⟩ := rstInput_pending level { s with inbox := rest }
    · exact .inl (hkeep.trans hp)
    · exact .inr (.inr ⟨hr, rest, hs, ht, by rw [ht]; rfl, by rw [ht]; exact State.afterReset_readReg _ .status⟩)

/-- Settles O16: the step in which rst falls answers the state after hardware reset. -/
theorem hardwareResetState : Obligations.HardwareResetState := by
  intro s rest hr hs
  refine ⟨State.afterReset { s with inbox := rest }, (step_rst hs).trans (congrArg _ (if_pos hr)), rfl, rfl, rfl, State.afterReset_readReg _,
    fun p r c => ?_, fun _ => rfl, rfl, rfl⟩
  cases p <;> exact Plane.get_zero r c

/-- Settles O18: neither the engine nor the host reaches a state with rst = 1. -/
theorem heldInReset : Obligations.HeldInReset :=
  ⟨fun _ hr hn => (step_inbox_nil hn).trans (engineTurn_inReset hr), fun _ _ hr he => (step_engine he).trans (engineTurn_inReset hr),
    fun _ _ hr => if_pos hr⟩

/-- What hardware reset establishes holds in the reset state. -/
theorem ContentInvariant.at_reset {P : State → Prop} (hP : ContentInvariant P) : P State.reset :=
  hP.same (s := State.reset.afterReset) ⟨rfl, rfl, rfl, rfl, rfl⟩ (hP.reset State.reset)

/-- Settles O20: the reset state has the contents and the STATUS that a hardware reset leaves. -/
theorem resetMeetsTheInvariants : Obligations.ResetMeetsTheInvariants :=
  ⟨(State.afterReset_lifeCycle State.reset).of_eq rfl rfl, memoryInv_contentInvariant.at_reset, codewordInv_contentInvariant.at_reset,
    builderInv_contentInvariant.at_reset⟩

end Sys2Proof.Machine
